-- ==== Sys2Proof/Word.lean ====
section
/-! DEFINITION. The word types of the JX-256 (R2: every width is given in bits; little-endian, bit 0 least significant). -/

namespace Sys2Proof

/-- A 64-bit word: scalar and uniform registers, program counters, system registers (R50). -/
abbrev Word := BitVec 64

/-- One byte of any store (R2). -/
abbrev Byte := BitVec 8

/-- A 32-bit vector register of one thread (R50). -/
abbrev VWord := BitVec 32

/-- One bit per thread of a group of 64 threads (R29, R50). -/
abbrev Mask := BitVec 64

end Sys2Proof
end

