-- ==== Sys2Proof/Machine/Bits.lean ====
section
/-! DEFINITION. Bit fields, sign extension and byte order (R2, R55, R111). Everything here works on naturals and
bit vectors only; no rule of the machine stands here but the byte order. -/

namespace Sys2Proof.Machine

/-- Bits [hi:lo] of `x`, as a natural number (R2). -/
def bits (x : Nat) (hi lo : Nat) : Nat := (x >>> lo) % 2 ^ (hi + 1 - lo)

/-- Bit [n] of `x` (R2). -/
def bit (x : Nat) (n : Nat) : Bool := x.testBit n

/-- The low `n` bits of `x` read as two's complement. -/
def sint (x : Nat) (n : Nat) : Int :=
  let y := x % 2 ^ n
  if n ≠ 0 ∧ 2 ^ (n - 1) ≤ y then (y : Int) - 2 ^ n else y

/-- The `n`-bit two's complement code of `z` (wraps modulo 2^n). -/
def ofInt (z : Int) (n : Nat) : Nat := (z % (2 ^ n : Int)).toNat

/-- `sext(x, n)` of R85 into 64 bits. -/
def sextW (x : Nat) (n : Nat) : Word := BitVec.ofInt 64 (sint x n)

/-- Replace bits [hi:lo] of `x` by the low bits of `y`. -/
def setBits (x : Nat) (hi lo y : Nat) : Nat :=
  let w := 2 ^ (hi + 1 - lo)
  x - (bits x hi lo) * 2 ^ lo + (y % w) * 2 ^ lo

/-- Set or clear bit [n]. -/
def setBit (x : Nat) (n : Nat) (b : Bool) : Nat := setBits x n n b.toNat

/-- Little-endian value of a list of bytes (R2). -/
def leNat : List Byte → Nat
  | [] => 0
  | b :: r => b.toNat + 256 * leNat r

/-- The `n` little-endian bytes of `x` (R2). -/
def leBytes : Nat → Nat → List Byte
  | 0, _ => []
  | n + 1, x => BitVec.ofNat 8 x :: leBytes n (x / 256)

/-- Is address `a` a multiple of `n`? -/
def aligned (a n : Nat) : Bool := a % n == 0

/-- Round a count up to whole units: ⌈a / b⌉. -/
def ceilDiv (a b : Nat) : Nat := (a + b - 1) / b

/-- The list lo, lo + 1, … of `n` numbers. -/
def iota : Nat → Nat → List Nat
  | _, 0 => []
  | lo, n + 1 => lo :: iota (lo + 1) n

/-- Replace entry `i` of a list, leaving a shorter list as it is. -/
def setAt {α : Type} : List α → Nat → α → List α
  | [], _, _ => []
  | _ :: r, 0, x => x :: r
  | y :: r, i + 1, x => y :: setAt r i x

/-- Remove entry `i` of a list. -/
def dropAt {α : Type} : List α → Nat → List α
  | [], _ => []
  | _ :: r, 0 => r
  | y :: r, i + 1 => y :: dropAt r i

/-- The mixing of R169. -/
def rngMix (c key : Nat) : Nat :=
  let m (x k c : Nat) : Nat := (x ^^^ (x >>> k)) * c % 2 ^ 32
  let x := m (m (c ^^^ (key % 2 ^ 32)) 16 0xA5C31B4D) 15 0x6E5927D3
  x ^^^ (x >>> 16)

end Sys2Proof.Machine
end

