-- ==== Sys2Proof/Machine/Map.lean ====
section
/-! DEFINITION. Sparse stores: lists of (key, value) in one canonical form (keys strictly rising, no entry equal to
what an unlisted key reads as). Memory is such a list of (address, byte); register files are too. -/

namespace Sys2Proof.Machine

/-- A sparse store. -/
abbrev SMap (α : Type) := List (Nat × α)

/-- What key `k` holds; an unlisted key reads as `d`. -/
def mget {α : Type} : SMap α → α → Nat → α
  | [], d, _ => d
  | (k', y) :: r, d, k => if k' = k then y else if k < k' then d else mget r d k

/-- Write `x` at key `k`; writing what an unlisted key reads as (`d`) removes the entry. -/
def mput {α : Type} [DecidableEq α] : SMap α → α → Nat → α → SMap α
  | [], d, k, x => if x = d then [] else [(k, x)]
  | (k', y) :: r, d, k, x =>
    if k < k' then (if x = d then (k', y) :: r else (k, x) :: (k', y) :: r)
    else if k = k' then (if x = d then r.dropWhile (fun e => decide (e.1 ≤ k)) else (k, x) :: r)
    else (k', y) :: mput r d k x

/-- Every key of the store lies above `lo`, the keys rise strictly, and no entry equals the default of its key. -/
def mwfFrom {α : Type} [DecidableEq α] (d : Nat → α) : Option Nat → SMap α → Bool
  | _, [] => true
  | lo, (k, x) :: r => (match lo with | none => true | some l => decide (l < k)) && decide (x ≠ d k) && mwfFrom d (some k) r

/-- The canonical form of a store whose unlisted keys read as `d`. -/
def mwf {α : Type} [DecidableEq α] (d : Nat → α) (m : SMap α) : Bool := mwfFrom d none m

/-- The store that holds a run of values at consecutive keys and nothing else. -/
def mrun {α : Type} [DecidableEq α] (d : α) : Nat → List α → SMap α
  | _, [] => []
  | k, x :: r => if x = d then mrun d (k + 1) r else (k, x) :: mrun d (k + 1) r

/-- Write a run of values at consecutive keys. -/
def mputs {α : Type} [DecidableEq α] (m : SMap α) (d : α) (k : Nat) (l : List α) : SMap α :=
  m.takeWhile (fun e => decide (e.1 < k)) ++ mrun d k l ++ m.dropWhile (fun e => decide (e.1 < k + l.length))

/-- Read `n` consecutive keys. -/
def mgets {α : Type} (m : SMap α) (d : α) (k : Nat) : Nat → List α
  | 0 => []
  | n + 1 => mget m d k :: mgets m d (k + 1) n

/-- Forget every entry whose key lies in [lo, lo + n). -/
def mclear {α : Type} (m : SMap α) (lo n : Nat) : SMap α :=
  m.filter (fun e => decide (e.1 < lo ∨ lo + n ≤ e.1))

/-- The entries with keys in [lo, lo + n), moved to start at `to`. -/
def mslice {α : Type} (m : SMap α) (lo n dst : Nat) : SMap α :=
  (m.filter (fun e => decide (lo ≤ e.1 ∧ e.1 < lo + n))).map (fun e => (e.1 - lo + dst, e.2))

/-- Copy the run [lo, lo + n) to start at `to`, replacing what stands there. -/
def mcopy {α : Type} [DecidableEq α] (m : SMap α) (d : α) (lo n dst : Nat) : SMap α :=
  (mslice m lo n dst).foldl (fun acc e => mput acc d e.1 e.2) (mclear m dst n)

/-- First entry of a list that satisfies `p`, with its place. -/
def findAt {α : Type} (p : α → Bool) : List α → Nat → Option (Nat × α)
  | [], _ => none
  | x :: r, i => if p x then some (i, x) else findAt p r (i + 1)

/-- Replace the first entry that satisfies `p` by its image. -/
def mapFirst {α : Type} (p : α → Bool) (f : α → α) : List α → List α
  | [] => []
  | x :: r => if p x then f x :: r else x :: mapFirst p f r

end Sys2Proof.Machine
end

