-- ==== Sys2Proof/Syntax.lean ====
section
/-! DEFINITION. The instruction set of the JX-256 as data: one constructor of `Instr` per row of
spec/opcode_table.json. Scalar words (R56 to R61), lane words (R62 to R71), and the moves of the device that the
table lists beside them (each one indivisible step); a move takes as arguments the device's or the outside's choice. -/

namespace Sys2Proof

/-- A 6-bit register field of a scalar word (R57). -/
abbrev Reg := BitVec 6

/-- Spaces a scalar access names (R61). -/
inductive SSpace where
  | g | s | k | d
  deriving DecidableEq, Repr

/-- The five spaces of R52. -/
inductive Space where
  | g | s | k | d | l
  deriving DecidableEq, Repr

/-- Type codes of R64. -/
inductive LType where
  | i32 | n32 | i64 | n64 | f32 | f64 | f16 | bf16 | m8 | i8 | n8 | i16 | term
  deriving DecidableEq, Repr

/-- Rounding modes of R65. -/
inductive Rnd where
  | rn | rz | rp | rm | ra | rdyn
  deriving DecidableEq, Repr

/-- Memory orders of R66. -/
inductive MOrd where
  | rlx | acq | rel | ar | sc
  deriving DecidableEq, Repr

/-- Scopes of R66 and R207. -/
inductive Scope where
  | grp | team | clu | die | dev | sys
  deriving DecidableEq, Repr

/-- An operand field of a lane word (R62, R63): class (`chan`), pop bit, index. -/
structure Opnd where
  chan : Bool
  pop : Bool
  idx : BitVec 9
  deriving DecidableEq, Repr

/-- The fields of a lane word below its opcode (R62). The destination has no pop bit. -/
structure LaneW where
  ty : LType
  k : BitVec 4
  neg : Bool
  uni : Bool
  dchan : Bool
  d : BitVec 9
  a : Opnd
  b : Opnd
  c : Opnd
  rnd : Rnd
  ord : MOrd
  scp : Scope
  sat : Bool
  imm : Bool
  x24 : BitVec 24
  deriving DecidableEq, Repr

/-- A clause header (R69). -/
structure Header where
  len : BitVec 4
  wait : BitVec 12
  av : Bool
  fa : BitVec 4
  bv : Bool
  fb : BitVec 4
  deriving DecidableEq, Repr

/-- What a peer of the domain asks of this device (R244, R251). -/
inductive PeerOp where
  | read (n : Nat)
  | write (data : List Byte)
  /-- an atomic or reduction of R262 with its code, type, rounding mode, operand and the flush bits of its launch -/
  | atom (code : Nat) (ty : LType) (rnd : Rnd) (v : Word) (ftz : Nat)
  | cas (wide : Bool) (cmp v : Word)
  deriving DecidableEq, Repr

/-- A request of a peer: requesting group of a peer device, domain tag, physical address at this device, operation (R244, R247). -/
structure PeerReq where
  who : Nat
  tag : BitVec 16
  pa : Nat
  op : PeerOp
  deriving DecidableEq, Repr

/-- A read of an engine operation (R221): the operation, and the byte of its transfer from which it reads. -/
structure EngPoint where
  e : Nat
  j : Nat
  deriving DecidableEq, Repr

/-- What boot ROM finds at a device reset (R384): the firmware image, its signature, the signer's public key. -/
structure BootImage where
  image : List Byte
  sig : List Byte
  key : List Byte
  deriving DecidableEq, Repr

/-- Where a store of state finds an error (R432). -/
inductive ErrKind where
  | corrected (pa : Nat)
  /-- a correction in a store other than a stack: the source that holds it, the address its record gives -/
  | correctedIn (src addr : Nat)
  | sector (pa : Nat)
  | scratch (team off : Nat)
  | dieScratch (die off : Nat)
  | areg (g r : Nat)
  | ureg (g r : Nat)
  | vreg (g r t : Nat)
  | tile (team unit : Nat)
  | acc (team unit : Nat)
  /-- a Carafe entry, with the parked-waiter records whose own check fails (R318) -/
  | claim (entry : Nat) (recs : List Nat)
  | tlb
  /-- a sector of a core's L1 -/
  | l1 (core sec : Nat)
  /-- a word of a lane slice (R52) -/
  | lane (g t off : Nat)
  /-- a pending unit of the atomic cache that serves a core -/
  | atomicCache (core pa : Nat)
  /-- the dump engine's own buffers (R428) -/
  | dumpBuffer
  /-- the parity of a row's activation counter -/
  | row (r : Nat)
  | noContext
  deriving DecidableEq, Repr

/-- The instructions and moves of the JX-256, one constructor per row of the opcode table. Moves that only the outside
causes stand last: compiled code can build no constructor beyond the 244th with arguments. -/
inductive Instr where
  | add (d a b : Reg)  -- R88 add
  | sub (d a b : Reg)  -- R88 sub
  | and (d a b : Reg)  -- R88 and
  | or (d a b : Reg)  -- R88 or
  | xor (d a b : Reg)  -- R88 xor
  | shl (d a b : Reg)  -- R88 shl
  | shr (d a b : Reg)  -- R88 shr
  | sar (d a b : Reg)  -- R88 sar
  | mul (d a b : Reg)  -- R88 mul
  | mulhs (d a b : Reg)  -- R88 mulhs
  | mulhu (d a b : Reg)  -- R88 mulhu
  | divs (d a b : Reg)  -- R89 divs
  | divu (d a b : Reg)  -- R89 divu
  | rems (d a b : Reg)  -- R89 rems
  | remu (d a b : Reg)  -- R89 remu
  | min (d a b : Reg)  -- R88 min
  | minu (d a b : Reg)  -- R88 minu
  | max (d a b : Reg)  -- R88 max
  | maxu (d a b : Reg)  -- R88 maxu
  | slt (d a b : Reg)  -- R88 slt
  | sltu (d a b : Reg)  -- R88 sltu
  | seq (d a b : Reg)  -- R88 seq
  | movz (d a b : Reg)  -- R88 movz
  | movnz (d a b : Reg)  -- R88 movnz
  | addi (d a : Reg) (imm : BitVec 14)  -- R90 addi
  | andi (d a : Reg) (imm : BitVec 14)  -- R90 andi
  | ori (d a : Reg) (imm : BitVec 14)  -- R90 ori
  | xori (d a : Reg) (imm : BitVec 14)  -- R90 xori
  | shli (d a : Reg) (sh : BitVec 6)  -- R90 shli
  | shri (d a : Reg) (sh : BitVec 6)  -- R90 shri
  | sari (d a : Reg) (sh : BitVec 6)  -- R90 sari
  | slti (d a : Reg) (imm : BitVec 14)  -- R90 slti
  | sltui (d a : Reg) (imm : BitVec 14)  -- R90 sltui
  | lui (d : Reg) (imm : BitVec 20)  -- R91 lui
  | auipc (d : Reg) (imm : BitVec 20)  -- R91 auipc
  | lb (d a : Reg) (sp : SSpace) (off : BitVec 11)  -- R92 lb.sp
  | lbu (d a : Reg) (sp : SSpace) (off : BitVec 11)  -- R92 lbu.sp
  | lh (d a : Reg) (sp : SSpace) (off : BitVec 11)  -- R92 lh.sp
  | lhu (d a : Reg) (sp : SSpace) (off : BitVec 11)  -- R92 lhu.sp
  | lw (d a : Reg) (sp : SSpace) (off : BitVec 11)  -- R92 lw.sp
  | lwu (d a : Reg) (sp : SSpace) (off : BitVec 11)  -- R92 lwu.sp
  | ld (d a : Reg) (sp : SSpace) (off : BitVec 11)  -- R92 ld.sp
  | sb (d a : Reg) (sp : SSpace) (off : BitVec 11)  -- R92 sb.sp
  | sh (d a : Reg) (sp : SSpace) (off : BitVec 11)  -- R92 sh.sp
  | sw (d a : Reg) (sp : SSpace) (off : BitVec 11)  -- R92 sw.sp
  | sd (d a : Reg) (sp : SSpace) (off : BitVec 11)  -- R92 sd.sp
  | beq (a b : Reg) (off : BitVec 11)  -- R94 beq
  | bne (a b : Reg) (off : BitVec 11)  -- R94 bne
  | blt (a b : Reg) (off : BitVec 11)  -- R94 blt
  | bge (a b : Reg) (off : BitVec 11)  -- R94 bge
  | bltu (a b : Reg) (off : BitVec 11)  -- R94 bltu
  | bgeu (a b : Reg) (off : BitVec 11)  -- R94 bgeu
  | loop (a : Reg) (off : BitVec 11)  -- R95 loop
  | jmp (off : BitVec 26)  -- R96 jmp
  | call (off : BitVec 26)  -- R96 call
  | jr (a : Reg)  -- R96 jr
  | callr (d a : Reg)  -- R96 callr
  | issue (off : BitVec 20)  -- R97 issue
  | issuex (a : Reg)  -- R98 issuex
  | push (c a : Reg)  -- R99 push
  | pop (d c : Reg)  -- R99 pop
  | peek (d c : Reg)  -- R99 peek
  | cbind (c a : Reg)  -- R101 cbind
  | cfree (c : Reg)  -- R101 cfree
  | mtg (n a : Reg)  -- R102 mtg
  | mfg (d n : Reg)  -- R102 mfg
  | mfk (d n : Reg) (j : Reg)  -- R102 mfk
  | mtsh (t a : Reg)  -- R103 mtsh
  | mfsh (d t : Reg)  -- R103 mfsh
  | mfsr (d : Reg) (num : BitVec 14)  -- R104 mfsr
  | wflag (mask : BitVec 12)  -- R109 wflag
  | endGroup  -- R110 end
  | groupRetire (g : Nat)  -- R34 GROUP_RETIRE
  | trap (code : BitVec 20)  -- R439 trap
  | eret  -- R440 eret
  | safe (vn : BitVec 7) (tz : Bool)  -- R418 safe
  | stop (code : BitVec 20)  -- R442 stop
  | trc (a b : Reg)  -- R443 trc
  | tnow (d : Reg)  -- R444 tnow
  | ctrRd (d a : Reg)  -- R445 ctr.rd
  | ctrArm (a b : Reg)  -- R445 ctr.arm
  | ctrClr (a : Reg)  -- R445 ctr.clr
  | elogRd (d a : Reg)  -- R447 elog.rd
  | elogPop (a : Reg)  -- R447 elog.pop
  | mtsr (a : Reg) (num : BitVec 14)  -- R449 mtsr
  | ctxSave (d a b : Reg)  -- R450 ctx.save
  | ctxRest (d a b : Reg)  -- R450 ctx.rest
  | clauseStart (h : Header)  -- R72 CLAUSE_START
  | laneTaskStart (g : Nat)  -- R33 LANE_TASK_START
  | laneAdd (w : LaneW)  -- R151 add.T
  | laneSub (w : LaneW)  -- R151 sub.T
  | laneMul (w : LaneW)  -- R151 mul.T
  | mad (w : LaneW)  -- R151 mad.T
  | div (w : LaneW)  -- R152 div.T
  | rem (w : LaneW)  -- R153 rem.T
  | abs (w : LaneW)  -- R154 abs.T
  | neg (w : LaneW)  -- R154 neg.T
  | laneMin (w : LaneW)  -- R155 min.T
  | laneMax (w : LaneW)  -- R155 max.T
  | laneAnd (w : LaneW)  -- R156 and.T
  | laneOr (w : LaneW)  -- R156 or.T
  | laneXor (w : LaneW)  -- R156 xor.T
  | not (w : LaneW)  -- R156 not.T
  | laneShl (w : LaneW)  -- R157 shl.T
  | laneShr (w : LaneW)  -- R157 shr.T
  | rot (w : LaneW)  -- R157 rot.T
  | bfx (w : LaneW)  -- R158 bfx.T
  | bfi (w : LaneW)  -- R158 bfi.T
  | popc (w : LaneW)  -- R159 popc.T
  | clz (w : LaneW)  -- R159 clz.T
  | setp (w : LaneW)  -- R160 setp.cc.T
  | sel (w : LaneW)  -- R161 sel.T
  | mov (w : LaneW)  -- R161 mov.T
  | cvt (w : LaneW)  -- R162 cvt.sS.T
  | qnt (w : LaneW)  -- R163 qnt.bN.T
  | dqnt (w : LaneW)  -- R164 dqnt.eJ.T
  | frsq (w : LaneW)  -- R133 frsq.T
  | frcp (w : LaneW)  -- R165 frcp.T
  | xln (w : LaneW)  -- R165 xln.T
  | fexp (w : LaneW)  -- R165 fexp.T
  | specialFunctionComplete (g op : Nat)  -- R148 SPECIAL_FUNCTION_COMPLETE
  | xmv (w : LaneW)  -- R166 xmv.mode.T
  | rdc (w : LaneW)  -- R167 rdc.op.T
  | ballot (w : LaneW)  -- R168 ballot.n64
  | rng (w : LaneW)  -- R169 rng.n32
  | lid (w : LaneW)  -- R170 lid.id.T
  | kop (w : LaneW)  -- R171 kop.op
  | fcls (w : LaneW)  -- R172 fcls.T
  | bra (k : BitVec 4) (neg : Bool) (target join : BitVec 24)  -- R173 BRA
  | lend (k : BitVec 4) (neg : Bool)  -- R174 lend
  | lnop (k : BitVec 4) (neg : Bool)  -- R174 lnop
  | mxl (w : LaneW)  -- R188 mxl.opt.T
  | mxb (w : LaneW)  -- R190 mxb.opt.T
  | mxs (w : LaneW)  -- R191 mxs.opt.T
  | tld (w : LaneW)  -- R193 tld
  | tst (w : LaneW)  -- R193 tst
  | tclr (w : LaneW)  -- R194 tclr
  | tmov (w : LaneW)  -- R194 tmov
  | zrd (w : LaneW)  -- R195 zrd.mode.T
  | zclr (w : LaneW)  -- R194 zclr
  | zld (w : LaneW)  -- R193 zld
  | zst (w : LaneW)  -- R193 zst
  | matrixStep (t i : Nat)  -- R188 MATRIX_STEP
  | matrixOpComplete (t i : Nat)  -- R181 MATRIX_OP_COMPLETE
  | laneLd (w : LaneW)  -- R260 ld.sp.ord.scp.T
  | st (w : LaneW)  -- R261 st.sp.ord.scp.T
  | atom (w : LaneW)  -- R263 atom.op.sp.ord.scp.T
  | red (w : LaneW)  -- R264 red.op.sp.ord.scp.T
  | cas (w : LaneW)  -- R265 cas.sp.ord.scp.T
  | fence (w : LaneW)  -- R266 fence.ord.scp
  | pref (w : LaneW)  -- R267 pref.lvl
  | cpy (w : LaneW)  -- R269 cpy.ord.scp
  | cpyt (w : LaneW)  -- R270 cpyt.ord.scp
  | gath (w : LaneW)  -- R271 gath.bS.sp.ord.scp
  | scat (w : LaneW)  -- R271 scat.bS.sp.ord.scp
  | coll (w : LaneW)  -- R272 coll.op.ord.scp.T
  | bclose (w : LaneW)  -- R273 bclose
  | bwait (w : LaneW)  -- R274 bwait.st.ord.scp
  | barx (w : LaneW)  -- R276 barx.sp
  | bara (w : LaneW)  -- R277 bara.sp.ord.scp
  | barw (w : LaneW)  -- R278 barw.sp.ord.scp
  | barwWake (g f : Nat)  -- R278 BARW_WAKE
  | nbar (w : LaneW)  -- R280 nbar.sync.ord.scp
  | waitf (w : LaneW)  -- R281 waitf.cc.sp.ord.scp
  | monitorWake (g f : Nat)  -- R238 MONITOR_WAKE
  | claim (w : LaneW)  -- R341 claim.sp.ord.scp
  | claimw (w : LaneW)  -- R341 claimw.sp.ord.scp
  | fulfil (w : LaneW)  -- R342 fulfil.sp.ord.scp
  | abandon (w : LaneW)  -- R342 abandon.sp.ord.scp
  | claimHomeMove (k : Nat)  -- R315 CLAIM_HOME_MOVE
  | leaseExpiry (e : Nat)  -- R318 LEASE_EXPIRY
  | deref (w : LaneW)  -- R344 deref
  | unify (w : LaneW)  -- R345 unify
  | bind (w : LaneW)  -- R346 bind
  | bindg (w : LaneW)  -- R347 bindg.scp
  | chpt (k : BitVec 4) (neg : Bool) (st : BitVec 9) (alt join : BitVec 24)  -- R348 chpt
  | fail (w : LaneW)  -- R349 fail
  | tag (w : LaneW)  -- R350 tag.op
  | emit (w : LaneW)  -- R351 emit.sp
  | binTimerExpiry (l b : Nat)  -- R304 BIN_TIMER_EXPIRY
  | spawn (w : LaneW)  -- R352 spawn
  | steal (w : LaneW)  -- R353 steal
  | stealTimeout (t : Nat)  -- R306 STEAL_TIMEOUT
  | yield (w : LaneW)  -- R354 yield
  | beat (w : LaneW)  -- R355 beat
  | phase (w : LaneW)  -- R356 phase
  | phaseCommit (l : Nat)  -- R145 PHASE_COMMIT
  | phaseYieldSlot (t : Nat)  -- R357 PHASE_YIELD_SLOT
  | storeArrival (k : Nat)  -- R200 STORE_ARRIVAL
  | updateApplication (h e : Nat)  -- R201 UPDATE_APPLICATION
  | loadPerform (g op j : Nat)  -- R203 LOAD_PERFORM
  | l1SectorDrop (i : Nat)  -- R202 L1_SECTOR_DROP
  | missFragmentWake (g f : Nat)  -- R21 MISS_FRAGMENT_WAKE
  | atomicArrival (k : Nat)  -- R218 ATOMIC_ARRIVAL
  | updateOnlyGrant (k : Nat)  -- R219 UPDATE_ONLY_GRANT
  | reductionMerge (k : Nat)  -- R219 REDUCTION_MERGE
  | recall (line : Nat)  -- R220 RECALL
  | engineOpStart (e : Nat)  -- R233 ENGINE_OP_START
  | engineRead (r : EngPoint)  -- R221 ENGINE_READ
  | engineDelivery (e n : Nat)  -- R237 ENGINE_DELIVERY
  | engineOpComplete (e : Nat)  -- R230 ENGINE_OP_COMPLETE
  | neighbourEntryTransfer (g c : Nat)  -- R240 NEIGHBOUR_ENTRY_TRANSFER
  | streamInFill (g c : Nat)  -- R240 STREAM_IN_FILL
  | streamOutWrite (g c : Nat)  -- R240 STREAM_OUT_WRITE
  | collectiveCombine (e : Nat) (peers : List (Nat × List Word))  -- R254 COLLECTIVE_COMBINE
  | peerRequest (r : PeerReq)  -- R244 PEER_REQUEST
  | remoteAnswer (k : Nat) (v : Word) (poison : Bool)  -- R247 REMOTE_ANSWER
  | remoteTimeout (k : Nat)  -- R245 REMOTE_TIMEOUT
  | hostPostedWrite (pa : Nat) (data : List Byte)  -- R248 HOST_POSTED_WRITE
  | hostReadCompletion (k : Nat) (v : Word) (poison : Bool)  -- R248 HOST_READ_COMPLETION
  | linkError (k : Nat)  -- R245 LINK_ERROR
  | launchRead (q : Nat)  -- R290 LAUNCH_READ
  | launchComplete (l : Nat)  -- R292 LAUNCH_COMPLETE
  | coreOffer (core : Nat)  -- R294 CORE_OFFER
  | lapClockExpiry (g : Nat)  -- R308 LAP_CLOCK_EXPIRY
  | clmdomEnClear (d : Nat) (v : Word)  -- R311 CLMDOM_EN_CLEAR
  | clmdomEnSet (d : Nat) (v : Word)  -- R311 CLMDOM_EN_SET
  | purgeComplete (d : Nat)  -- R322 PURGE_COMPLETE
  | precharge (row : Nat) (parityBad : Bool)  -- R382 PRECHARGE
  | ctxstTdn (c : Nat) (v : Word)  -- R380 CTXST_TDN
  | keyslotWrite (n : Nat) (v : Word)  -- R379 KEYSLOT_WRITE
  | landaWrite (e : Nat) (v : Word)  -- R244 LANDA_WRITE
  | landbWrite (e : Nat) (v : Word)  -- R244 LANDB_WRITE
  | collsaEnSet (n : Nat) (v : Word)  -- R252 COLLSA_EN_SET
  | collsaEnClear (n : Nat) (v : Word)  -- R252 COLLSA_EN_CLEAR
  | tlbinvcWrite (v : Word)  -- R372 TLBINVC_WRITE
  | tlbInvalidationComplete  -- R372 TLB_INVALIDATION_COMPLETE
  | pageWalk (core c : Nat) (va : Word)  -- R371 PAGE_WALK
  | migcmdcWrite (v : Word)  -- R376 MIGCMDC_WRITE
  | migrationMove  -- R374 MIGRATION_MOVE
  | roasterEpochEnd  -- R377 ROASTER_EPOCH_END
  | attestationReportDone  -- R385 ATTESTATION_REPORT_DONE
  | recordPlace (i : Nat)  -- R397 RECORD_PLACE
  | counterOverflow (n : Nat)  -- R407 COUNTER_OVERFLOW
  | shadowSwitch (core : Nat)  -- R414 SHADOW_SWITCH
  | switchOut (t : Nat)  -- R415 SWITCH_OUT
  | switchRestore (t core : Nat)  -- R415 SWITCH_RESTORE
  | dumpWrite  -- R425 DUMP_WRITE
  | scalarIllegalInstruction (w : BitVec 32)  -- R74 SCALAR_ILLEGAL_INSTRUCTION
  | termInstructionFinished (g op : Nat)  -- R343 TERM_INSTRUCTION_FINISHED
  | recordFlushTimeout (i : Nat)  -- R401 RECORD_FLUSH_TIMEOUT
  | qtailWrite (q : Nat) (v : Word)  -- R290 QTAIL_WRITE
  | qctlWrite (q : Nat) (v : Word)  -- R288 QCTL_WRITE
  | clmdomPurge (d : Nat) (v : Word)  -- R322 CLMDOM_PURGE
  | attctlWrite (v : Word)  -- R385 ATTCTL_WRITE
  | ctxptWrite (c : Nat) (v : Word)  -- R365 CTXPT_WRITE
  | tbsetWrite (v : Word)  -- R388 TBSET_WRITE
  | tbadjWrite (v : Word)  -- R388 TBADJ_WRITE
  | tbrateWrite (v : Word)  -- R388 TBRATE_WRITE
  | ptmDialogue (dev host : Word)  -- R388 PTM_DIALOGUE
  | clockStep (up : Bool)  -- R14 CLOCK_STEP
  | tsctlOpen (i : Nat) (v : Word)  -- R395 TSCTL_OPEN
  | tsctlClose (i : Nat) (v : Word)  -- R401 TSCTL_CLOSE
  | dbgctlHalt (core : Nat) (v : Word)  -- R406 DBGCTL_HALT
  | dbgctlResume (core : Nat) (v : Word)  -- R406 DBGCTL_RESUME
  | prectlSwitchOut (core : Nat) (v : Word)  -- R417 PRECTL_SWITCH_OUT
  | prectlShadowSwitch (core : Nat) (v : Word)  -- R417 PRECTL_SHADOW_SWITCH
  | contextStop (c cause : Nat)  -- R411 CONTEXT_STOP
  | qrstGo (q : Nat) (v : Word)  -- R430 QRST_GO
  | errorDetected (e : ErrKind)  -- R432 ERROR_DETECTED
  | deviceReset (b : BootImage)  -- R384 DEVICE_RESET
  | trainingComplete  -- R437 TRAINING_COMPLETE
  | fullServiceStart  -- R437 FULL_SERVICE_START
  | registerWrite (off : Nat) (v : Word)  -- R3 REGISTER_WRITE
  | textFetchTranslationFault  -- R96 TEXT_FETCH_TRANSLATION_FAULT
  | portDown (port peer : Nat)  -- R393 PORT_DOWN
  | portUp (port peer : Nat)  -- R393 PORT_UP
  | linkRetry (port peer : Nat)  -- R393 LINK_RETRY
  deriving DecidableEq, Repr

end Sys2Proof
end

