-- ==== Sys2Proof/Machine/Entry.lean ====
section
/-! DEFINITION. What each lane entry accepts (R63 to R68, R148, R149, R185, R193 to R195, R256, R266 to R281, R338,
R339, R350): for every lane instruction the role of each operand field and the values of every other field. Both the
static part of the clause check (R72) and the set of vector registers a word names (R37, R51) are read off it. -/

namespace Sys2Proof.Machine

/-! ### Types (R64, R111, R149) -/

/-- Width of a type in bits. -/
def tyWidth : LType → Nat
  | .i64 | .n64 | .f64 | .term => 64
  | .f16 | .bf16 | .i16 => 16
  | .i8 | .n8 => 8
  | _ => 32

def tyWide (t : LType) : Bool := tyWidth t == 64
def tyInt : LType → Bool
  | .i32 | .n32 | .i64 | .n64 | .i8 | .n8 | .i16 => true
  | _ => false
def tySigned : LType → Bool
  | .i32 | .i64 | .i8 | .i16 => true
  | _ => false
def tyI4 : LType → Bool
  | .i32 | .n32 | .i64 | .n64 => true
  | _ => false
def tyFloat : LType → Bool
  | .f32 | .f64 | .f16 | .bf16 => true
  | _ => false
def tyS : LType → Bool
  | .f32 | .f64 => true
  | _ => false
def tyAny : LType → Bool := fun _ => true
/-- Type field "zero" (code 0). -/
def tyZero (t : LType) : Bool := t == .i32

/-- Type code of R64. -/
def tyCode : LType → Nat
  | .i32 => 0 | .n32 => 1 | .i64 => 2 | .n64 => 3 | .f32 => 4 | .f64 => 5 | .f16 => 6 | .bf16 => 7
  | .m8 => 8 | .i8 => 9 | .n8 => 10 | .i16 => 11 | .term => 12

/-- Type of a code; 13 to 15 are reserved (R64). -/
def tyOfCode : Nat → Option LType
  | 0 => some .i32 | 1 => some .n32 | 2 => some .i64 | 3 => some .n64 | 4 => some .f32 | 5 => some .f64
  | 6 => some .f16 | 7 => some .bf16 | 8 => some .m8 | 9 => some .i8 | 10 => some .n8 | 11 => some .i16
  | 12 => some .term | _ => none

/-- Access size in bytes (R259). -/
def tySize (t : LType) : Nat := tyWidth t / 8

def rndCode : Rnd → Nat
  | .rn => 0 | .rz => 1 | .rp => 2 | .rm => 3 | .ra => 4 | .rdyn => 5
def rndOfCode : Nat → Option Rnd
  | 0 => some .rn | 1 => some .rz | 2 => some .rp | 3 => some .rm | 4 => some .ra | 5 => some .rdyn | _ => none
def ordCode : MOrd → Nat
  | .rlx => 0 | .acq => 1 | .rel => 2 | .ar => 3 | .sc => 4
def ordOfCode : Nat → Option MOrd
  | 0 => some .rlx | 1 => some .acq | 2 => some .rel | 3 => some .ar | 4 => some .sc | _ => none
def scpCode : Scope → Nat
  | .grp => 0 | .team => 1 | .clu => 2 | .die => 3 | .dev => 4 | .sys => 5
def scpOfCode : Nat → Option Scope
  | 0 => some .grp | 1 => some .team | 2 => some .clu | 3 => some .die | 4 => some .dev | 5 => some .sys | _ => none
def spaceCode : Space → Nat
  | .g => 0 | .s => 1 | .k => 2 | .d => 3 | .l => 4
def spaceOfCode : Nat → Option Space
  | 0 => some .g | 1 => some .s | 2 => some .k | 3 => some .d | 4 => some .l | _ => none
def sspaceSpace : SSpace → Space
  | .g => .g | .s => .s | .k => .k | .d => .d

/-! ### Operand roles -/

/-- What an operand field may name. -/
inductive Role where
  /-- must be entirely zero -/
  | zero
  /-- a vector register or a channel, 64 bits wide or not (R63, R148) -/
  | vc (wide : Bool)
  /-- `n` consecutive vector registers from the named one, which is even when `even` -/
  | v (n : Nat) (even : Bool)
  /-- a pair, or one of c0 to c3 (R338) -/
  | src64
  /-- one vector register, or one of c0 to c3 -/
  | src32
  /-- one vector register, or one of c4 to c7 (R273) -/
  | dst47
  /-- predicate mask, tile or accumulator index -/
  | k | tile | acc
  /-- a sub-operation code at most `max` in the index bits -/
  | code (max : Nat)
  deriving DecidableEq, Repr

/-- Does an operand field, with class, pop and index, fill its role? `dst` says it is the destination field (R39). -/
def roleOk (dst : Bool) (r : Role) (o : Opnd) : Bool :=
  let i := o.idx.toNat
  let reg := !o.chan && !o.pop
  match r with
  | .zero => reg && i == 0
  | .vc wide =>
    if o.chan then
      decide (i < 16) && !(wide && decide (8 ≤ i ∧ i < 12)) &&
        (if dst then !decide (i < 4) else !decide (4 ≤ i ∧ i < 8))
    else !o.pop && !(wide && i % 2 == 1)
  | .v _ even => reg && !(even && i % 2 == 1)
  | .src64 => if o.chan then decide (i < 4) else !o.pop && i % 2 == 0
  | .src32 => if o.chan then decide (i < 4) else !o.pop
  | .dst47 => if o.chan then decide (4 ≤ i ∧ i < 8) else true
  | .k => reg && decide (i < 16)
  | .tile => reg && decide (i < 16)
  | .acc => reg && decide (i < 4)
  | .code max => reg && decide (i ≤ max)

/-- Vector registers that a field filling its role names. -/
def roleRegs (r : Role) (o : Opnd) : List Nat :=
  let i := o.idx.toNat
  match r with
  | .vc wide => if o.chan then [] else if wide then [i, i + 1] else [i]
  | .v n _ => iota i n
  | .src64 => if o.chan then [] else [i, i + 1]
  | .src32 | .dst47 => if o.chan then [] else [i]
  | _ => []

/-- How an entry takes an immediate (R67). -/
inductive ImmMode where
  | never | replacesB | single
  deriving DecidableEq, Repr

/-- What an entry accepts. -/
structure Entry where
  types : LType → Bool := tyZero
  d : Role := .zero
  a : Role := .zero
  b : Role := .zero
  c : Role := .zero
  imm : ImmMode := .never
  rnds : Rnd → Bool := fun r => r == .rn
  sat : Bool := false
  uni : Bool := false
  ords : MOrd → Bool := fun o => o == .rlx
  scps : Scope → Bool := fun s => s == .grp
  x24 : Nat → Bool := fun x => x == 0

/-- Rounding codes 0 to 3 and 5 (R65: code 4 is for conversions only). -/
def rndArith (r : Rnd) : Bool := !(r == .ra)
def rndFor (t : LType) (r : Rnd) : Bool := if tyFloat t then rndArith r else r == .rn

/-- The destination field as an operand. -/
def dOpnd (w : LaneW) : Opnd := ⟨w.dchan, false, w.d⟩
/-- The sub-operation code in C [43:35]. -/
def cCode (w : LaneW) : Nat := w.c.idx.toNat
def x24n (w : LaneW) : Nat := w.x24.toNat

/-- Does an immediate fit the type (R67)? -/
def immFits (t : LType) (x : Nat) : Bool :=
  match t with
  | .i8 => decide (-128 ≤ sint x 24 ∧ sint x 24 < 128)
  | .n8 => decide (x < 256)
  | .i16 => decide (-32768 ≤ sint x 24 ∧ sint x 24 < 32768)
  | .f16 | .bf16 => decide (x < 65536)
  | .m8 => decide (x < 256)
  | _ => true

def arith (w : LaneW) (types : LType → Bool) (c : Role) (sat : Bool) (rnds : Rnd → Bool) : Entry :=
  { types := types, d := .vc (tyWide w.ty), a := .vc (tyWide w.ty), b := .vc (tyWide w.ty), c := c,
    imm := .replacesB, rnds := rnds, sat := sat, uni := true }

def arith1 (w : LaneW) (types : LType → Bool) (sat : Bool) : Entry :=
  { types := types, d := .vc (tyWide w.ty), a := .vc (tyWide w.ty), imm := .single, sat := sat, uni := true }

def seedEntry (w : LaneW) : Entry :=
  { types := tyS, d := .v (if tyWide w.ty then 2 else 1) (tyWide w.ty), a := .vc (tyWide w.ty), imm := .single, uni := true }

def tyIF (t : LType) : Bool := tyInt t || tyFloat t

/-- Source type of a conversion, X24 [3:0] (R162); codes 12 to 15 are refused. -/
def cvtSrc (w : LaneW) : Option LType :=
  if x24n w < 12 then tyOfCode (x24n w) else none

def cvtEntry (w : LaneW) : Entry :=
  match cvtSrc w with
  | none => { types := fun _ => false }
  | some s =>
    let fromInt := tyInt s
    { types := fun t => tyInt t || tyFloat t || t == .m8
      d := .vc (tyWide w.ty), a := .vc (tyWide s), uni := true
      x24 := fun x => decide (x < 12)
      rnds := fun r => if w.ty == .m8 || (fromInt && tyInt w.ty) then r == .rn else true
      sat := (fromInt && tyInt w.ty) || (!fromInt && tyFloat w.ty) }

/-- X24 of `xmv` (R166). -/
def xmvX24 (code : Nat) (x : Nat) : Bool :=
  if code = 3 then x == 0
  else if bit x 7 then decide (bits x 23 8 = 0 ∧ bits x 6 3 = 0 ∧ 1 ≤ bits x 2 0 ∧ bits x 2 0 ≤ 6)
  else decide (x < 64)

def memSpaceOk (max : Nat) (x : Nat) : Bool := decide (bits x 23 21 ≤ max)

/-- Words that address memory (R256). -/
def memEntry (w : LaneW) (types : LType → Bool) (d b c : Role) (ords : MOrd → Bool) (uni : Bool) (maxSpace : Nat) : Entry :=
  let l := bits (x24n w) 23 21 == 4 && maxSpace == 4
  { types := types, d := d, a := .v 2 true, b := b, c := c, uni := uni && !l
    ords := fun o => ords o && (!l || o == .rlx)
    scps := fun s => !l || s == .grp
    x24 := memSpaceOk maxSpace }

def ordLoad (o : MOrd) : Bool := o == .rlx || o == .acq || o == .sc
def ordStore (o : MOrd) : Bool := o == .rlx || o == .rel || o == .sc
def ordAcq (o : MOrd) : Bool := o == .rlx || o == .acq
def ordRel (o : MOrd) : Bool := o == .rlx || o == .rel
def scpAny : Scope → Bool := fun _ => true

/-- Types of `atom` and `red` by sub-operation (R262). -/
def atomTypes (code : Nat) (t : LType) : Bool :=
  if code < 3 then tyI4 t || tyS t
  else if code < 6 then tyI4 t
  else tyI4 t || tyS t || t == .term

def atomRnd (w : LaneW) (r : Rnd) : Bool := if cCode w = 0 && tyFloat w.ty then rndArith r else r == .rn

/-- Types whose compare-and-swap exists (R256). -/
def casTypes (t : LType) : Bool := tyI4 t || tyS t || t == .term

/-- Barrier words (R275): the space codes 0 to 4 pass at fetch, and an access to `.l` carries ord 0 and scp 0 (R256). -/
def barEntry (w : LaneW) (d b : Role) (ords : MOrd → Bool) : Entry :=
  memEntry w tyZero d b .zero ords false 4

/-- Does the destination of `tag` take a pair (R350)? -/
def tagWide (code : Nat) : Bool := code == 1 || code == 2 || code == 5

def claimEntry (d b : Role) (ords : MOrd → Bool) : Entry :=
  { d := d, a := .v 2 true, b := b, ords := ords, scps := scpAny, x24 := memSpaceOk 4 }

/-- The entry of a lane instruction with its fields; none for a scalar word or a move of the device. -/
def entryOf : Instr → Option (LaneW × Entry)
  | .laneAdd w | .laneSub w | .laneMul w => some (w, arith w tyIF .zero (tyInt w.ty) (rndFor w.ty))
  | .mad w => some (w, arith w tyIF (.vc (tyWide w.ty)) (tyInt w.ty) (rndFor w.ty))
  | .div w => some (w, arith w tyIF .zero (tyInt w.ty) (rndFor w.ty))
  | .rem w => some (w, arith w tyInt .zero false (fun r => r == .rn))
  | .abs w | .neg w => some (w, arith1 w tyIF (tyInt w.ty))
  | .laneMin w | .laneMax w => some (w, arith w tyIF .zero false (fun r => r == .rn))
  | .laneAnd w | .laneOr w | .laneXor w => some (w, arith w tyInt .zero false (fun r => r == .rn))
  | .not w => some (w, arith1 w tyInt false)
  | .laneShl w | .laneShr w | .rot w => some (w, arith w tyInt .zero false (fun r => r == .rn))
  | .bfx w => some (w, arith w tyI4 .zero false (fun r => r == .rn))
  | .bfi w => some (w, arith w tyI4 (.vc (tyWide w.ty)) false (fun r => r == .rn))
  | .popc w | .clz w => some (w, arith1 w tyI4 false)
  | .setp w => some (w,
      { arith w (fun t => tyIF t || t == .term) (.code (if tyFloat w.ty then 7 else if w.ty == .term then 1 else 5)) false (fun r => r == .rn) with d := .k })
  | .sel w => some (w, arith w tyAny .k false (fun r => r == .rn))
  | .mov w => some (w, arith1 w tyAny false)
  | .cvt w => some (w, cvtEntry w)
  | .qnt w => some (w,
      { types := fun t => t == .f32 || t == .f16 || t == .bf16,
        d := .v 2 true,
        a := .vc false,
        x24 := fun x => decide (1 ≤ x ∧ x ≤ 3) })
  | .dqnt w => some (w,
      { types := tyFloat,
        d := .vc (tyWide w.ty),
        a := .vc false,
        b := .vc false,
        rnds := rndArith,
        uni := true,
        x24 := fun x => decide (x < 4) })
  | .frsq w | .frcp w | .xln w | .fexp w => some (w, seedEntry w)
  | .xmv w => some (w,
      { types := tyAny,
        d := .vc (tyWide w.ty),
        a := .vc (tyWide w.ty),
        b := if cCode w = 3 then .vc (tyWide w.ty) else .zero,
        c := .code 3,
        x24 := xmvX24 (cCode w) })
  | .rdc w => some (w,
      { types := fun t => tyI4 t || (tyFloat t && decide (x24n w < 3)),
        d := .vc (tyWide w.ty),
        a := .vc (tyWide w.ty),
        rnds := rndFor w.ty,
        sat := tyI4 w.ty && x24n w == 0,
        x24 := fun x => decide (x < 6) })
  | .ballot w => some (w, { types := fun t => t == .n64, d := .vc true, a := .k })
  | .rng w => some (w,
      { types := fun t => t == .n32,
        d := .vc false,
        a := .vc false,
        uni := true,
        x24 := fun x => decide (x < 64) })
  | .lid w => some (w, { types := tyI4, d := .vc (tyWide w.ty), uni := true, x24 := fun x => decide (x < 4) })
  | .kop w => some (w,
      { d := .k,
        a := if x24n w < 6 then .k else .zero,
        b := if x24n w < 4 then .k else .zero,
        x24 := fun x => decide (x < 8) })
  | .fcls w => some (w,
      { types := tyFloat,
        d := .k,
        a := .vc (tyWide w.ty),
        uni := true,
        x24 := fun x => decide (x < 1024) })
  | .mxl w | .mxb w => some (w,
      { types := tyS,
        d := .acc,
        a := .tile,
        b := .tile,
        x24 := fun x => decide (bits x 5 0 ≤ 60 ∧ bits x 23 20 = 0) })
  | .mxs w => some (w,
      { types := tyS,
        d := .acc,
        a := .tile,
        b := .tile,
        c := .tile,
        x24 := fun x => decide (bits x 5 0 ≤ 58 ∧ bits x 23 20 = 0) })
  | .tld w => some (w, { d := .tile, x24 := fun x => decide (bits x 23 22 = 0) })
  | .tst w => some (w, { a := .tile, x24 := fun x => decide (bits x 23 22 = 0) })
  | .tclr w => some (w, { d := .tile })
  | .tmov w => some (w, { d := .tile, a := .tile })
  | .zrd w => some (w,
      { types := tyS,
        d := .v (if tyWide w.ty then 2 else 1) (tyWide w.ty),
        a := .acc,
        uni := true,
        x24 := fun x => decide (bits x 23 17 = 0) })
  | .zclr w => some (w, { d := .acc })
  | .zld w => some (w, { d := .acc, x24 := fun x => decide (bits x 23 22 = 0) })
  | .zst w => some (w, { a := .acc, x24 := fun x => decide (bits x 23 22 = 0) })
  | .laneLd w => some (w, memEntry w tyAny (.v (if tyWide w.ty then 2 else 1) (tyWide w.ty)) .zero .zero ordLoad true 4)
  | .st w => some (w, memEntry w tyAny .zero (.vc (tyWide w.ty)) .zero ordStore true 4)
  | .atom w => some (w,
      { memEntry w (atomTypes (cCode w)) (.v (if tyWide w.ty then 2 else 1) (tyWide w.ty)) (.vc (tyWide w.ty)) (.code 6) (fun _ => true) true 3 with rnds := atomRnd w })
  | .red w => some (w,
      { memEntry w (atomTypes (cCode w)) .zero (.vc (tyWide w.ty)) (.code 5) ordStore true 3 with rnds := atomRnd w })
  | .cas w => some (w, memEntry w casTypes (.v (if tyWide w.ty then 2 else 1) (tyWide w.ty)) (.vc (tyWide w.ty)) (.vc (tyWide w.ty)) (fun _ => true) true 3)
  | .fence w => some (w, { ords := fun o => !(o == .rlx), scps := scpAny })
  | .pref w => some (w, { a := .v 2 true, c := .code 1, x24 := memSpaceOk 0 })
  | .cpy w | .cpyt w => some (w, { ords := ordRel, scps := scpAny, x24 := fun x => decide (x ≤ 61) })
  | .gath w | .scat w => some (w,
      { a := .v 2 true,
        ords := ordRel,
        scps := scpAny,
        x24 := fun x => decide (bits x 5 0 ≤ 62 ∧ bits x 11 6 = 0 ∧ bits x 14 12 ≤ 3 ∧ bits x 23 17 = 0) })
  | .coll w => some (w,
      { types := fun t => t == .i32 || t == .i64 || tyS t,
        c := .code 2,
        rnds := atomRnd w,
        ords := ordRel,
        scps := scpAny,
        x24 := fun x => decide (bits x 5 0 ≤ 61 ∧ bits x 23 12 = 0) })
  | .bclose w => some (w, { d := .dst47, uni := true })
  | .bwait w => some (w,
      { d := if x24n w = 1 then .v 1 false else .zero,
        a := .vc false,
        ords := ordAcq,
        scps := scpAny,
        x24 := fun x => decide (x < 2) })
  | .barx w => some (w, barEntry w .zero (.vc false) (fun o => o == .rlx))
  | .bara w => some (w, barEntry w (.vc false) (.vc false) ordRel)
  | .barw w => some (w, barEntry w .k (.vc false) ordAcq)
  | .nbar w => some (w,
      { c := .code 1,
        scps := scpAny,
        ords := fun o => if cCode w = 0 then !(o == .sc) else ordRel o,
        x24 := fun x => decide (x < 512 ∧ bits x 8 4 ≤ 16) })
  | .waitf w => some (w, memEntry w tyZero .zero .src64 (.code 7) ordAcq false 3)
  | .claim w | .claimw w => some (w, claimEntry (.v 4 true) .zero ordAcq)
  | .fulfil w => some (w, claimEntry (.v 1 false) .src64 ordRel)
  | .abandon w => some (w, claimEntry (.v 1 false) .zero ordRel)
  | .deref w => some (w, { d := .v 2 true, a := .src64, c := .k })
  | .unify w | .bind w => some (w, { d := .v 1 false, a := .src64, b := .src64 })
  | .bindg w => some (w, { d := .v 1 false, a := .src64, b := .src64, scps := scpAny })
  | .fail w => some (w, { d := .k })
  | .tag w => some (w,
      { d := .v (if tagWide (cCode w) then 2 else 1) (tagWide (cCode w)),
        a := .src64,
        c := .code 5,
        x24 := fun x => if cCode w = 1 then decide (x ≤ 5) else x == 0 })
  | .emit w => some (w, { a := .v 2 true, x24 := fun x => decide (bits x 23 21 ≤ 4 ∧ bits x 20 8 = 0) })
  | .spawn w => some (w, { d := .v 1 false, b := .src64 })
  | .steal w => some (w, { d := .v 4 true, b := .src32, imm := .replacesB })
  | .yield w | .beat w | .phase w => some (w, {})
  | _ => none

/-- Do the fields of a lane word satisfy its entry (R72, causes 2 to 4, the part that no launch changes)? -/
def laneOk (w : LaneW) (e : Entry) : Bool :=
  let useImm := w.imm
  let bRole := if useImm && e.imm == .replacesB then .zero else e.b
  let aRole := if useImm && e.imm == .single then .zero else e.a
  e.types w.ty && roleOk true e.d (dOpnd w) && roleOk false aRole w.a && roleOk false bRole w.b && roleOk false e.c w.c &&
  e.rnds w.rnd && (!w.sat || e.sat) && (!w.uni || e.uni) && e.ords w.ord && e.scps w.scp &&
  (if useImm then !(e.imm == .never) && (e.imm == .never || immFits w.ty (x24n w)) else e.x24 (x24n w))

/-- Vector registers a lane word names, for reading or writing (R37, R51). -/
def vNamed (i : Instr) : List Nat :=
  match i with
  | .chpt _ _ st _ _ => [st.toNat]
  | _ =>
    match entryOf i with
    | none => []
    | some (w, e) =>
      let b := if w.imm && e.imm == .replacesB then [] else roleRegs e.b w.b
      let a := if w.imm && e.imm == .single then [] else roleRegs e.a w.a
      roleRegs e.d (dOpnd w) ++ a ++ b ++ roleRegs e.c w.c

/-- Channel operands of a lane word, as (is it the destination, channel, pop), in the order A, B, C, D (R40). -/
def chansNamed (i : Instr) : List (Bool × Nat × Bool) :=
  match entryOf i with
  | none => []
  | some (w, _) =>
    (if w.a.chan then [(false, w.a.idx.toNat, w.a.pop)] else []) ++
    (if w.b.chan then [(false, w.b.idx.toNat, w.b.pop)] else []) ++
    (if w.c.chan then [(false, w.c.idx.toNat, w.c.pop)] else []) ++
    (if w.dchan then [(true, w.d.toNat, false)] else [])

/-- The static acceptance of every constructor: lane words by their entry, scalar words by R74 and R99 to R104, R418. -/
def instrOk (i : Instr) : Bool :=
  match i with
  | .push c _ => decide (c.toNat < 4 ∨ (12 ≤ c.toNat ∧ c.toNat < 16))
  | .pop _ c | .peek _ c => decide ((4 ≤ c.toNat ∧ c.toNat < 8) ∨ (12 ≤ c.toNat ∧ c.toNat < 16))
  | .cbind c _ | .cfree c => decide (12 ≤ c.toNat ∧ c.toNat < 16)
  | .mfk _ n j => decide (n.toNat < 16 ∧ j.toNat = 0)
  | .mtsh t _ => decide (t.toNat < 16)
  | .mfsh _ t => decide (t.toNat < 16)
  | .safe vn _ => decide (vn.toNat ≤ 64)
  | .clauseStart h =>
    (if h.av then decide (h.fa.toNat < 12) else h.fa == 0) && (if h.bv then h.av && decide (h.fb.toNat < 12) && !(h.fa == h.fb) else h.fb == 0)
  | _ =>
    match entryOf i with
    | some (w, e) => laneOk w e
    | none => true

end Sys2Proof.Machine
end

