-- ==== Sys2Proof/WellFormed.lean ====
section
/-! DEFINITION. Well-formed instructions: what R57 to R70, R74 and the entries accept, apart from what only a launch
can decide (R51, R436) and what only a whole clause can (R70). The checks themselves stand in Machine/Entry.lean. -/

namespace Sys2Proof

/-- Is the instruction one that the device accepts at fetch? -/
def wellFormed (i : Instr) : Bool := Sys2Proof.Machine.instrOk i

end Sys2Proof
end

