-- ==== Sys2Proof/Decode.lean ====
section
/-! DEFINITION. Decoding and encoding of scalar words (R56 to R61, R74) and lane words (R62 to R71), from the encoding
tables of spec/03_encoding_and_assembly.md. Decoding is total and refuses by name. -/

namespace Sys2Proof

open Sys2Proof.Machine

/-- Why a word is no instruction (R72, R74). -/
inductive DecodeErr where
  /-- reserved op or opcode -/
  | opcode
  /-- reserved fn value -/
  | fn
  /-- reserved cond -/
  | cond
  /-- a field marked "—" is nonzero -/
  | nonzero
  /-- reserved space code of R61 -/
  | space
  /-- a reserved code in type, rnd, ord or scp -/
  | code
  /-- a value that the word's entry does not accept, or a register index beyond its file -/
  | value
  /-- too few bytes -/
  | short
  deriving DecidableEq, Repr

def okIf (c : Bool) (e : DecodeErr) (i : Instr) : Except DecodeErr Instr := if c then .ok i else .error e

/-- Scalar register field. -/
def rfield (x lo : Nat) : Reg := BitVec.ofNat 6 (bits x (lo + 5) lo)

/-- Opcode 0x01 by fn (R60). -/
def decodeAlu (fn : Nat) (d a b : Reg) : Except DecodeErr Instr :=
  match fn with
  | 0 => .ok (.add d a b)
  | 1 => .ok (.sub d a b)
  | 2 => .ok (.and d a b)
  | 3 => .ok (.or d a b)
  | 4 => .ok (.xor d a b)
  | 5 => .ok (.shl d a b)
  | 6 => .ok (.shr d a b)
  | 7 => .ok (.sar d a b)
  | 8 => .ok (.mul d a b)
  | 9 => .ok (.mulhs d a b)
  | 10 => .ok (.mulhu d a b)
  | 11 => .ok (.divs d a b)
  | 12 => .ok (.divu d a b)
  | 13 => .ok (.rems d a b)
  | 14 => .ok (.remu d a b)
  | 15 => .ok (.min d a b)
  | 16 => .ok (.minu d a b)
  | 17 => .ok (.max d a b)
  | 18 => .ok (.maxu d a b)
  | 19 => .ok (.slt d a b)
  | 20 => .ok (.sltu d a b)
  | 21 => .ok (.seq d a b)
  | 22 => .ok (.movz d a b)
  | 23 => .ok (.movnz d a b)
  | _ => .error .fn

/-- Register-immediate words (R90); a shift count has imm14[13:6] zero. -/
def decodeImm (op x : Nat) (d a : Reg) : Except DecodeErr Instr :=
  let imm := BitVec.ofNat 14 x
  let sh := BitVec.ofNat 6 x
  let ok := bits x 13 6 == 0
  match op with
  | 2 => .ok (.addi d a imm)
  | 3 => .ok (.andi d a imm)
  | 4 => .ok (.ori d a imm)
  | 5 => .ok (.xori d a imm)
  | 6 => okIf ok .value (.shli d a sh)
  | 7 => okIf ok .value (.shri d a sh)
  | 8 => okIf ok .value (.sari d a sh)
  | 9 => .ok (.slti d a imm)
  | 10 => .ok (.sltui d a imm)
  | _ => .error .opcode

/-- Scalar space code (R61). -/
def sspaceOfCode : Nat → Option SSpace
  | 0 => some .g | 1 => some .s | 2 => some .k | 3 => some .d | _ => none

/-- Scalar loads and stores (R61, R92). -/
def decodeMem (op x : Nat) (d a : Reg) : Except DecodeErr Instr :=
  match sspaceOfCode (bits x 13 11) with
  | none => .error .space
  | some sp =>
    let off := BitVec.ofNat 11 x
    match op with
    | 16 => .ok (.lb d a sp off)
    | 17 => .ok (.lbu d a sp off)
    | 18 => .ok (.lh d a sp off)
    | 19 => .ok (.lhu d a sp off)
    | 20 => .ok (.lw d a sp off)
    | 21 => .ok (.lwu d a sp off)
    | 22 => .ok (.ld d a sp off)
    | 23 => .ok (.sb d a sp off)
    | 24 => .ok (.sh d a sp off)
    | 25 => .ok (.sw d a sp off)
    | 26 => .ok (.sd d a sp off)
    | _ => .error .opcode

/-- Conditional branches by cond (R58). -/
def decodeBr (cond : Nat) (a b : Reg) (off : BitVec 11) : Except DecodeErr Instr :=
  match cond with
  | 0 => .ok (.beq a b off)
  | 1 => .ok (.bne a b off)
  | 2 => .ok (.blt a b off)
  | 3 => .ok (.bge a b off)
  | 4 => .ok (.bltu a b off)
  | 5 => .ok (.bgeu a b off)
  | _ => .error .cond

/-- Channel words, op 0x2A (R99). -/
def decodeChan (fn : Nat) (d a b : Reg) : Except DecodeErr Instr :=
  match fn with
  | 0 => okIf (b == 0) .nonzero (.push d a)
  | 1 => okIf (b == 0) .nonzero (.pop d a)
  | 2 => okIf (b == 0) .nonzero (.peek d a)
  | 3 => okIf (b == 0) .nonzero (.cbind d a)
  | 4 => okIf (a == 0 && b == 0) .nonzero (.cfree d)
  | _ => .error .fn

/-- Words selected by fn other than the ALU (R59). -/
def decodeS (op fn : Nat) (d a b : Reg) : Except DecodeErr Instr :=
  match op, fn with
  | 0x24, 0 => okIf (d == 0 && b == 0) .nonzero (.jr a)
  | 0x24, 1 => okIf (b == 0) .nonzero (.callr d a)
  | 0x29, 0 => okIf (d == 0 && b == 0) .nonzero (.issuex a)
  | 0x2B, 0 => okIf (b == 0) .nonzero (.mtg d a)
  | 0x2B, 1 => okIf (b == 0) .nonzero (.mfg d a)
  | 0x2B, 2 => .ok (.mfk d a b)
  | 0x2C, 0 => okIf (b == 0) .nonzero (.mtsh d a)
  | 0x2C, 1 => okIf (b == 0) .nonzero (.mfsh d a)
  | 0x34, 0 => okIf (d == 0) .nonzero (.trc a b)
  | 0x35, 0 => okIf (a == 0 && b == 0) .nonzero (.tnow d)
  | 0x36, 0 => okIf (b == 0) .nonzero (.ctrRd d a)
  | 0x36, 1 => okIf (d == 0) .nonzero (.ctrArm a b)
  | 0x36, 2 => okIf (d == 0 && b == 0) .nonzero (.ctrClr a)
  | 0x37, 0 => okIf (b == 0) .nonzero (.elogRd d a)
  | 0x37, 1 => okIf (d == 0 && b == 0) .nonzero (.elogPop a)
  | 0x39, 0 => .ok (.ctxSave d a b)
  | 0x39, 1 => .ok (.ctxRest d a b)
  | _, _ => .error .fn

/-- U-form words with a zero d field, and the other words without registers (R59, R438). -/
def decodeU (op x : Nat) (d : Reg) : Except DecodeErr Instr :=
  match op with
  | 0x0B => .ok (.lui d (BitVec.ofNat 20 x))
  | 0x0D => .ok (.auipc d (BitVec.ofNat 20 x))
  | 0x28 => okIf (d == 0) .nonzero (.issue (BitVec.ofNat 20 x))
  | 0x30 => okIf (d == 0) .nonzero (.trap (BitVec.ofNat 20 x))
  | 0x32 => okIf (d == 0 && bits x 19 8 == 0) .nonzero (.safe (BitVec.ofNat 7 x) (bit x 7))
  | 0x33 => okIf (d == 0) .nonzero (.stop (BitVec.ofNat 20 x))
  | _ => .error .opcode

/-- Fields of a scalar word, before the value checks (R56, R59). -/
def decodeScalarRaw (w : BitVec 32) : Except DecodeErr Instr :=
  let x := w.toNat
  let op := bits x 31 26
  let d := rfield x 20
  let a := rfield x 14
  let b := rfield x 8
  let fn := bits x 7 0
  if op = 0x01 then decodeAlu fn d a b
  else if 0x02 ≤ op ∧ op ≤ 0x0A then decodeImm op x d a
  else if 0x10 ≤ op ∧ op ≤ 0x1A then decodeMem op x d a
  else if op = 0x0B ∨ op = 0x0D ∨ op = 0x28 ∨ op = 0x30 ∨ op = 0x32 ∨ op = 0x33 then decodeU op x d
  else if op = 0x20 then decodeBr (bits x 13 11) d a (BitVec.ofNat 11 x)
  else if op = 0x21 then okIf (a == 0 && bits x 13 11 == 0) .nonzero (.loop d (BitVec.ofNat 11 x))
  else if op = 0x22 then .ok (.jmp (BitVec.ofNat 26 x))
  else if op = 0x23 then .ok (.call (BitVec.ofNat 26 x))
  else if op = 0x2A then decodeChan fn d a b
  else if op = 0x2D then okIf (a == 0) .nonzero (.mfsr d (BitVec.ofNat 14 x))
  else if op = 0x2E then okIf (d == 0 && a == 0 && bits x 13 12 == 0) .nonzero (.wflag (BitVec.ofNat 12 x))
  else if op = 0x2F then okIf (bits x 25 0 == 0) .nonzero .endGroup
  else if op = 0x31 then okIf (bits x 25 0 == 0) .nonzero .eret
  else if op = 0x38 then okIf (d == 0) .nonzero (.mtsr a (BitVec.ofNat 14 x))
  else if op = 0x24 ∨ op = 0x29 ∨ op = 0x2B ∨ op = 0x2C ∨ (0x34 ≤ op ∧ op ≤ 0x37) ∨ op = 0x39 then decodeS op fn d a b
  else .error .opcode

/-- The instruction of a scalar word, or why it is none (R74). -/
def decodeScalar (w : BitVec 32) : Except DecodeErr Instr :=
  match decodeScalarRaw w with
  | .error e => .error e
  | .ok i => okIf (wellFormed i) .value i

/-- An operand field of 11 bits: class, pop, index (R62). -/
def opndOf (x : Nat) : Opnd := ⟨bit x 10, bit x 9, BitVec.ofNat 9 x⟩
def opndBits (o : Opnd) : Nat := o.chan.toNat * 1024 + o.pop.toNat * 512 + o.idx.toNat

/-- The fields of a lane word (R62, R64 to R66); none for a reserved code. -/
def laneFields (x : Nat) : Option LaneW :=
  match tyOfCode (bits x 87 84), rndOfCode (bits x 34 32), ordOfCode (bits x 31 29), scpOfCode (bits x 28 26) with
  | some ty, some rnd, some ord, some scp =>
    some { ty := ty, k := BitVec.ofNat 4 (bits x 83 80), neg := bit x 79, uni := bit x 78, dchan := bit x 77,
           d := BitVec.ofNat 9 (bits x 76 68), a := opndOf (bits x 67 57), b := opndOf (bits x 56 46), c := opndOf (bits x 45 35),
           rnd := rnd, ord := ord, scp := scp, sat := bit x 25, imm := bit x 24, x24 := BitVec.ofNat 24 x }
  | _, _, _, _ => none

/-- The lane word of an opcode and fields (R62). -/
def laneBits (op : Nat) (w : LaneW) : Nat :=
  op * 2 ^ 88 + tyCode w.ty * 2 ^ 84 + w.k.toNat * 2 ^ 80 + w.neg.toNat * 2 ^ 79 + w.uni.toNat * 2 ^ 78 +
  w.dchan.toNat * 2 ^ 77 + w.d.toNat * 2 ^ 68 + opndBits w.a * 2 ^ 57 + opndBits w.b * 2 ^ 46 + opndBits w.c * 2 ^ 35 +
  rndCode w.rnd * 2 ^ 32 + ordCode w.ord * 2 ^ 29 + scpCode w.scp * 2 ^ 26 + w.sat.toNat * 2 ^ 25 + w.imm.toNat * 2 ^ 24 + w.x24.toNat

/-- The lane opcode map (R71) for the words that carry all fields. -/
def mkLane (op : Nat) (w : LaneW) : Option Instr :=
  match op with
  | 0x01 => some (.laneAdd w)
  | 0x02 => some (.laneSub w)
  | 0x03 => some (.laneMul w)
  | 0x04 => some (.mad w)
  | 0x05 => some (.div w)
  | 0x06 => some (.rem w)
  | 0x07 => some (.abs w)
  | 0x08 => some (.neg w)
  | 0x09 => some (.laneMin w)
  | 0x0A => some (.laneMax w)
  | 0x0B => some (.laneAnd w)
  | 0x0C => some (.laneOr w)
  | 0x0D => some (.laneXor w)
  | 0x0E => some (.not w)
  | 0x0F => some (.laneShl w)
  | 0x10 => some (.laneShr w)
  | 0x11 => some (.rot w)
  | 0x12 => some (.bfx w)
  | 0x13 => some (.bfi w)
  | 0x14 => some (.popc w)
  | 0x15 => some (.clz w)
  | 0x16 => some (.setp w)
  | 0x17 => some (.sel w)
  | 0x18 => some (.mov w)
  | 0x19 => some (.cvt w)
  | 0x1A => some (.qnt w)
  | 0x1B => some (.dqnt w)
  | 0x1C => some (.frsq w)
  | 0x1D => some (.frcp w)
  | 0x1E => some (.xln w)
  | 0x1F => some (.fexp w)
  | 0x20 => some (.xmv w)
  | 0x21 => some (.rdc w)
  | 0x22 => some (.ballot w)
  | 0x23 => some (.rng w)
  | 0x24 => some (.lid w)
  | 0x25 => some (.kop w)
  | 0x26 => some (.fcls w)
  | 0x40 => some (.mxl w)
  | 0x41 => some (.mxb w)
  | 0x42 => some (.mxs w)
  | 0x43 => some (.tld w)
  | 0x44 => some (.tst w)
  | 0x45 => some (.tclr w)
  | 0x46 => some (.tmov w)
  | 0x47 => some (.zrd w)
  | 0x48 => some (.zclr w)
  | 0x49 => some (.zld w)
  | 0x4A => some (.zst w)
  | 0x50 => some (.laneLd w)
  | 0x51 => some (.st w)
  | 0x52 => some (.atom w)
  | 0x53 => some (.red w)
  | 0x54 => some (.cas w)
  | 0x55 => some (.fence w)
  | 0x56 => some (.cpy w)
  | 0x57 => some (.cpyt w)
  | 0x58 => some (.gath w)
  | 0x59 => some (.scat w)
  | 0x5A => some (.coll w)
  | 0x5B => some (.bclose w)
  | 0x5C => some (.bwait w)
  | 0x5D => some (.barx w)
  | 0x5E => some (.bara w)
  | 0x5F => some (.barw w)
  | 0x60 => some (.nbar w)
  | 0x61 => some (.waitf w)
  | 0x62 => some (.pref w)
  | 0x80 => some (.claim w)
  | 0x81 => some (.claimw w)
  | 0x82 => some (.fulfil w)
  | 0x83 => some (.abandon w)
  | 0x84 => some (.deref w)
  | 0x85 => some (.unify w)
  | 0x86 => some (.bind w)
  | 0x87 => some (.bindg w)
  | 0x89 => some (.fail w)
  | 0x8A => some (.tag w)
  | 0x8B => some (.emit w)
  | 0x8C => some (.spawn w)
  | 0x8D => some (.steal w)
  | 0x8E => some (.yield w)
  | 0x8F => some (.beat w)
  | 0x90 => some (.phase w)
  | _ => none

/-- The opcode of a lane instruction that carries all fields (R71), with the fields. -/
def laneOp : Instr → Option (Nat × LaneW)
  | .laneAdd w => some (0x01, w)
  | .laneSub w => some (0x02, w)
  | .laneMul w => some (0x03, w)
  | .mad w => some (0x04, w)
  | .div w => some (0x05, w)
  | .rem w => some (0x06, w)
  | .abs w => some (0x07, w)
  | .neg w => some (0x08, w)
  | .laneMin w => some (0x09, w)
  | .laneMax w => some (0x0A, w)
  | .laneAnd w => some (0x0B, w)
  | .laneOr w => some (0x0C, w)
  | .laneXor w => some (0x0D, w)
  | .not w => some (0x0E, w)
  | .laneShl w => some (0x0F, w)
  | .laneShr w => some (0x10, w)
  | .rot w => some (0x11, w)
  | .bfx w => some (0x12, w)
  | .bfi w => some (0x13, w)
  | .popc w => some (0x14, w)
  | .clz w => some (0x15, w)
  | .setp w => some (0x16, w)
  | .sel w => some (0x17, w)
  | .mov w => some (0x18, w)
  | .cvt w => some (0x19, w)
  | .qnt w => some (0x1A, w)
  | .dqnt w => some (0x1B, w)
  | .frsq w => some (0x1C, w)
  | .frcp w => some (0x1D, w)
  | .xln w => some (0x1E, w)
  | .fexp w => some (0x1F, w)
  | .xmv w => some (0x20, w)
  | .rdc w => some (0x21, w)
  | .ballot w => some (0x22, w)
  | .rng w => some (0x23, w)
  | .lid w => some (0x24, w)
  | .kop w => some (0x25, w)
  | .fcls w => some (0x26, w)
  | .mxl w => some (0x40, w)
  | .mxb w => some (0x41, w)
  | .mxs w => some (0x42, w)
  | .tld w => some (0x43, w)
  | .tst w => some (0x44, w)
  | .tclr w => some (0x45, w)
  | .tmov w => some (0x46, w)
  | .zrd w => some (0x47, w)
  | .zclr w => some (0x48, w)
  | .zld w => some (0x49, w)
  | .zst w => some (0x4A, w)
  | .laneLd w => some (0x50, w)
  | .st w => some (0x51, w)
  | .atom w => some (0x52, w)
  | .red w => some (0x53, w)
  | .cas w => some (0x54, w)
  | .fence w => some (0x55, w)
  | .cpy w => some (0x56, w)
  | .cpyt w => some (0x57, w)
  | .gath w => some (0x58, w)
  | .scat w => some (0x59, w)
  | .coll w => some (0x5A, w)
  | .bclose w => some (0x5B, w)
  | .bwait w => some (0x5C, w)
  | .barx w => some (0x5D, w)
  | .bara w => some (0x5E, w)
  | .barw w => some (0x5F, w)
  | .nbar w => some (0x60, w)
  | .waitf w => some (0x61, w)
  | .pref w => some (0x62, w)
  | .claim w => some (0x80, w)
  | .claimw w => some (0x81, w)
  | .fulfil w => some (0x82, w)
  | .abandon w => some (0x83, w)
  | .deref w => some (0x84, w)
  | .unify w => some (0x85, w)
  | .bind w => some (0x86, w)
  | .bindg w => some (0x87, w)
  | .fail w => some (0x89, w)
  | .tag w => some (0x8A, w)
  | .emit w => some (0x8B, w)
  | .spawn w => some (0x8C, w)
  | .steal w => some (0x8D, w)
  | .yield w => some (0x8E, w)
  | .beat w => some (0x8F, w)
  | .phase w => some (0x90, w)
  | _ => none

/-- The fields of a clause header (R69). -/
def headerOf (x : Nat) : Header :=
  { len := BitVec.ofNat 4 (bits x 87 84), wait := BitVec.ofNat 12 (bits x 83 72), av := bit x 71, fa := BitVec.ofNat 4 (bits x 70 67),
    bv := bit x 66, fb := BitVec.ofNat 4 (bits x 65 62) }

def headerBits (h : Header) : Nat :=
  0xC0 * 2 ^ 88 + h.len.toNat * 2 ^ 84 + h.wait.toNat * 2 ^ 72 + h.av.toNat * 2 ^ 71 + h.fa.toNat * 2 ^ 67 + h.bv.toNat * 2 ^ 66 + h.fb.toNat * 2 ^ 62

/-- Fields of a lane word, before the value checks (R69, R71, R173, R174, R348). -/
def decodeLaneRaw (w : BitVec 96) : Except DecodeErr Instr :=
  let x := w.toNat
  let op := bits x 95 88
  let k := BitVec.ofNat 4 (bits x 83 80)
  let neg := bit x 79
  if op = 0xC0 then okIf (bits x 61 0 == 0) .nonzero (.clauseStart (headerOf x))
  else if op = 0x27 then
    okIf (bits x 87 84 == 0 && !bit x 78 && bits x 53 24 == 0) .nonzero (.bra k neg (BitVec.ofNat 24 x) (BitVec.ofNat 24 (bits x 77 54)))
  else if op = 0x28 then okIf (bits x 87 84 == 0 && bits x 78 0 == 0) .nonzero (.lend k neg)
  else if op = 0x29 then okIf (bits x 87 84 == 0 && bits x 78 0 == 0) .nonzero (.lnop k neg)
  else if op = 0x88 then
    okIf (bits x 87 84 == 0 && !bit x 78 && bits x 53 44 == 0 && bits x 34 24 == 0) .nonzero
      (.chpt k neg (BitVec.ofNat 9 (bits x 43 35)) (BitVec.ofNat 24 x) (BitVec.ofNat 24 (bits x 77 54)))
  else match laneFields x with
    | none => .error .code
    | some f => match mkLane op f with
      | none => .error .opcode
      | some i => .ok i

/-- The instruction of a lane word, or why it is none (R72, causes 2 to 4). -/
def decodeLane (w : BitVec 96) : Except DecodeErr Instr :=
  match decodeLaneRaw w with
  | .error e => .error e
  | .ok i => okIf (wellFormed i) .value i

/-- The scalar instruction in the first four bytes (R55: little-endian), and the bytes after it. -/
def decodeScalarBytes (bs : List Byte) : Except DecodeErr (Instr × List Byte) :=
  if bs.length < 4 then .error .short
  else match decodeScalar (BitVec.ofNat 32 (leNat (bs.take 4))) with
    | .error e => .error e
    | .ok i => .ok (i, bs.drop 4)

/-- The lane word in the first twelve bytes (R55), and the bytes after it. -/
def decodeLaneBytes (bs : List Byte) : Except DecodeErr (Instr × List Byte) :=
  if bs.length < 12 then .error .short
  else match decodeLane (BitVec.ofNat 96 (leNat (bs.take 12))) with
    | .error e => .error e
    | .ok i => .ok (i, bs.drop 12)

/-- The bytes of an instruction of `nbits` bits, as the hardware stores them (R55). -/
def wordBytes (nbits w : Nat) : List Byte := leBytes (if nbits ≤ 32 then 4 else 12) w

/-- The instruction that the decoder reads from a word of the opcode table: a scalar word when it has at most 32 bits, else a lane word. -/
def decodeTableWord (nbits w : Nat) : Option Instr :=
  match (if nbits ≤ 32 then decodeScalarBytes (wordBytes nbits w) else decodeLaneBytes (wordBytes nbits w)) with
  | .ok (i, _) => some i
  | .error _ => none

/-! ### The encoder, from the same tables -/

def encS (op fn : Nat) (d a b : Reg) : Nat := op * 2 ^ 26 + d.toNat * 2 ^ 20 + a.toNat * 2 ^ 14 + b.toNat * 2 ^ 8 + fn
def encI (op : Nat) (d a : Reg) (imm : Nat) : Nat := op * 2 ^ 26 + d.toNat * 2 ^ 20 + a.toNat * 2 ^ 14 + imm
def encU (op : Nat) (d : Reg) (imm : Nat) : Nat := op * 2 ^ 26 + d.toNat * 2 ^ 20 + imm
def encB (op : Nat) (a b : Reg) (cond off : Nat) : Nat := op * 2 ^ 26 + a.toNat * 2 ^ 20 + b.toNat * 2 ^ 14 + cond * 2 ^ 11 + off
def encJ (op off : Nat) : Nat := op * 2 ^ 26 + off
def sspaceCode : SSpace → Nat
  | .g => 0 | .s => 1 | .k => 2 | .d => 3

/-- The scalar word of an instruction; none for lane words and moves. -/
def encodeScalar : Instr → Option Nat
  | .add d a b => some (encS 0x01 0 d a b)
  | .sub d a b => some (encS 0x01 1 d a b)
  | .and d a b => some (encS 0x01 2 d a b)
  | .or d a b => some (encS 0x01 3 d a b)
  | .xor d a b => some (encS 0x01 4 d a b)
  | .shl d a b => some (encS 0x01 5 d a b)
  | .shr d a b => some (encS 0x01 6 d a b)
  | .sar d a b => some (encS 0x01 7 d a b)
  | .mul d a b => some (encS 0x01 8 d a b)
  | .mulhs d a b => some (encS 0x01 9 d a b)
  | .mulhu d a b => some (encS 0x01 10 d a b)
  | .divs d a b => some (encS 0x01 11 d a b)
  | .divu d a b => some (encS 0x01 12 d a b)
  | .rems d a b => some (encS 0x01 13 d a b)
  | .remu d a b => some (encS 0x01 14 d a b)
  | .min d a b => some (encS 0x01 15 d a b)
  | .minu d a b => some (encS 0x01 16 d a b)
  | .max d a b => some (encS 0x01 17 d a b)
  | .maxu d a b => some (encS 0x01 18 d a b)
  | .slt d a b => some (encS 0x01 19 d a b)
  | .sltu d a b => some (encS 0x01 20 d a b)
  | .seq d a b => some (encS 0x01 21 d a b)
  | .movz d a b => some (encS 0x01 22 d a b)
  | .movnz d a b => some (encS 0x01 23 d a b)
  | .addi d a imm => some (encI 2 d a imm.toNat)
  | .andi d a imm => some (encI 3 d a imm.toNat)
  | .ori d a imm => some (encI 4 d a imm.toNat)
  | .xori d a imm => some (encI 5 d a imm.toNat)
  | .shli d a sh => some (encI 6 d a sh.toNat)
  | .shri d a sh => some (encI 7 d a sh.toNat)
  | .sari d a sh => some (encI 8 d a sh.toNat)
  | .slti d a imm => some (encI 9 d a imm.toNat)
  | .sltui d a imm => some (encI 10 d a imm.toNat)
  | .lui d imm => some (encU 0x0B d imm.toNat)
  | .auipc d imm => some (encU 0x0D d imm.toNat)
  | .lb d a sp off => some (encI 0x10 d a (sspaceCode sp * 2 ^ 11 + off.toNat))
  | .lbu d a sp off => some (encI 0x11 d a (sspaceCode sp * 2 ^ 11 + off.toNat))
  | .lh d a sp off => some (encI 0x12 d a (sspaceCode sp * 2 ^ 11 + off.toNat))
  | .lhu d a sp off => some (encI 0x13 d a (sspaceCode sp * 2 ^ 11 + off.toNat))
  | .lw d a sp off => some (encI 0x14 d a (sspaceCode sp * 2 ^ 11 + off.toNat))
  | .lwu d a sp off => some (encI 0x15 d a (sspaceCode sp * 2 ^ 11 + off.toNat))
  | .ld d a sp off => some (encI 0x16 d a (sspaceCode sp * 2 ^ 11 + off.toNat))
  | .sb d a sp off => some (encI 0x17 d a (sspaceCode sp * 2 ^ 11 + off.toNat))
  | .sh d a sp off => some (encI 0x18 d a (sspaceCode sp * 2 ^ 11 + off.toNat))
  | .sw d a sp off => some (encI 0x19 d a (sspaceCode sp * 2 ^ 11 + off.toNat))
  | .sd d a sp off => some (encI 0x1A d a (sspaceCode sp * 2 ^ 11 + off.toNat))
  | .beq a b off => some (encB 0x20 a b 0 off.toNat)
  | .bne a b off => some (encB 0x20 a b 1 off.toNat)
  | .blt a b off => some (encB 0x20 a b 2 off.toNat)
  | .bge a b off => some (encB 0x20 a b 3 off.toNat)
  | .bltu a b off => some (encB 0x20 a b 4 off.toNat)
  | .bgeu a b off => some (encB 0x20 a b 5 off.toNat)
  | .loop a off => some (encB 0x21 a 0 0 off.toNat)
  | .jmp off => some (encJ 0x22 off.toNat)
  | .call off => some (encJ 0x23 off.toNat)
  | .jr a => some (encS 0x24 0 0 a 0)
  | .callr d a => some (encS 0x24 1 d a 0)
  | .issue off => some (encU 0x28 0 off.toNat)
  | .issuex a => some (encS 0x29 0 0 a 0)
  | .push c a => some (encS 0x2A 0 c a 0)
  | .pop d c => some (encS 0x2A 1 d c 0)
  | .peek d c => some (encS 0x2A 2 d c 0)
  | .cbind c a => some (encS 0x2A 3 c a 0)
  | .cfree c => some (encS 0x2A 4 c 0 0)
  | .mtg n a => some (encS 0x2B 0 n a 0)
  | .mfg d n => some (encS 0x2B 1 d n 0)
  | .mfk d n j => some (encS 0x2B 2 d n j)
  | .mtsh t a => some (encS 0x2C 0 t a 0)
  | .mfsh d t => some (encS 0x2C 1 d t 0)
  | .mfsr d num => some (encI 0x2D d 0 num.toNat)
  | .wflag mask => some (encI 0x2E 0 0 mask.toNat)
  | .endGroup => some (encJ 0x2F 0)
  | .trap code => some (encU 0x30 0 code.toNat)
  | .eret => some (encJ 0x31 0)
  | .safe vn tz => some (encU 0x32 0 (tz.toNat * 128 + vn.toNat))
  | .stop code => some (encU 0x33 0 code.toNat)
  | .trc a b => some (encS 0x34 0 0 a b)
  | .tnow d => some (encS 0x35 0 d 0 0)
  | .ctrRd d a => some (encS 0x36 0 d a 0)
  | .ctrArm a b => some (encS 0x36 1 0 a b)
  | .ctrClr a => some (encS 0x36 2 0 a 0)
  | .elogRd d a => some (encS 0x37 0 d a 0)
  | .elogPop a => some (encS 0x37 1 0 a 0)
  | .mtsr a num => some (encI 0x38 0 a num.toNat)
  | .ctxSave d a b => some (encS 0x39 0 d a b)
  | .ctxRest d a b => some (encS 0x39 1 d a b)
  | _ => none

/-- The lane word of an instruction; none for scalar words and moves. -/
def encodeLane (i : Instr) : Option Nat :=
  match i with
  | .clauseStart h => some (headerBits h)
  | .bra k neg target join => some (0x27 * 2 ^ 88 + k.toNat * 2 ^ 80 + neg.toNat * 2 ^ 79 + join.toNat * 2 ^ 54 + target.toNat)
  | .lend k neg => some (0x28 * 2 ^ 88 + k.toNat * 2 ^ 80 + neg.toNat * 2 ^ 79)
  | .lnop k neg => some (0x29 * 2 ^ 88 + k.toNat * 2 ^ 80 + neg.toNat * 2 ^ 79)
  | .chpt k neg st alt join => some (0x88 * 2 ^ 88 + k.toNat * 2 ^ 80 + neg.toNat * 2 ^ 79 + join.toNat * 2 ^ 54 + st.toNat * 2 ^ 35 + alt.toNat)
  | _ => match laneOp i with
    | some (op, w) => some (laneBits op w)
    | none => none

/-- The width and the word of an instruction: scalar words have 32 bits, lane words 96. -/
def encode (i : Instr) : Option (Nat × Nat) :=
  match encodeScalar i with
  | some x => some (32, x)
  | none => match encodeLane i with
    | some x => some (96, x)
    | none => none

end Sys2Proof
end

