-- ==== Sys2Proof/Config.lean ====
section
/-! DEFINITION. What the JX-256 fixes for every run (sizes of R9, R25, R29, R38, R45, R47) and the free values: constants
with no body, so that no proof can see what they are. Where each is used stands in notes/assumptions/4.md. -/

namespace Sys2Proof.Config

/-- Threads per group (R25, R29). -/
def warpW : Nat := 64
/-- Cores per die and on the device (R8). -/
def coresPerDie : Nat := 64
/-- Physical addresses are 52 bits wide (R16). -/
def paBits : Nat := 52
/-- Entries of a split table (R45). -/
def splitEntries : Nat := 8
/-- Levels of a held stack (R47). -/
def heldLevels : Nat := 16
/-- Bytes of a die scratchpad: 48 MiB (R9). -/
def dieScratchBytes : Nat := 50331648
/-- Entries of a matrix queue (R180). -/
def matrixQueue : Nat := 16
/-- Flag-wait monitors of a core (R238). -/
def monitors : Nat := 64
/-- Range-lock entries of a context on one die (R232). -/
def lockEntries : Nat := 128
/-- Engine operations a group may have in flight (R222). -/
def engineOps : Nat := 64
/-- Entries of a determinism buffer of one core (R142). -/
def detEntries : Nat := 4096
/-- Parked-waiter records of a home slice (R317). -/
def parkedRecords : Nat := 4096
/-- Steps a term instruction makes for one thread (R332, R343). -/
def termSteps : Nat := 32

/-- FREE: a byte of a sector read under a slot or key generation other than the one that wrote it (R380). -/
opaque wrongKeyByte : (pa tag gen : Nat) → Byte
/-- FREE: a byte whose value the manual leaves open, the n-th such value of a run. -/
opaque freeByte : Nat → Byte
/-- FREE: the n-th choice that the manual leaves to the device (order of recalled copies R220, merged log records R140). -/
opaque freeChoice : Nat → Nat

/-- FREE: the device's own identity key, serial number, fused digest of the Folmor key, digest of the image that runs at
`State.reset`, and the n-th nonce of its signatures (R383 to R385). -/
opaque identityKey : Nat
opaque serialByte : Nat → Byte
opaque keyFuse : List Byte
opaque imageDigest : Nat → Byte
opaque signNonce : Nat → Nat
/-- FREE: how far the copy of device time of a die stands ahead of `State.now`, modulo 5 ns (R387). -/
opaque dieSkew : (die : Nat) → Nat

end Sys2Proof.Config
end

