-- ==== Sys2Proof/Machine/Fp.lean ====
section
/-! DEFINITION. Number formats to the last bit (R111 to R126) and the rounding of exact values (R128). Finite values
are exact rationals ±n/d; a rounding is one function for every format. M8 is R115 to R120, block quantisation R123,
the seeds of R133 and R165. -/

namespace Sys2Proof.Machine

/-- The value of a floating encoding (R112): a NaN (signalling or quiet), an infinity, or the exact number ±n/d. -/
inductive FVal where
  | nan (signalling : Bool)
  | inf (neg : Bool)
  | num (neg : Bool) (n d : Nat)
  deriving DecidableEq, Repr

/-- A binary interchange format (R112): exponent and fraction widths. -/
structure Fmt where
  ew : Nat
  fw : Nat
  deriving DecidableEq, Repr

def fmt64 : Fmt := ⟨11, 52⟩
def fmt32 : Fmt := ⟨8, 23⟩
def fmt16 : Fmt := ⟨5, 10⟩
def fmtB16 : Fmt := ⟨8, 7⟩

/-- Width in bits. -/
def fmtWidth (f : Fmt) : Nat := f.ew + f.fw + 1

/-- Exponent bias (R112). -/
def fmtBias (f : Fmt) : Nat := 2 ^ (f.ew - 1) - 1

/-- Canonical NaN of a format (R113). -/
def canonNaN (f : Fmt) : Nat := (2 ^ f.ew - 1) * 2 ^ f.fw + 2 ^ (f.fw - 1)

/-- Encoding of ±∞. -/
def infBits (f : Fmt) (neg : Bool) : Nat := neg.toNat * 2 ^ (f.ew + f.fw) + (2 ^ f.ew - 1) * 2 ^ f.fw

/-- Encoding of ±the largest finite value. -/
def maxBits (f : Fmt) (neg : Bool) : Nat := neg.toNat * 2 ^ (f.ew + f.fw) + (2 ^ f.ew - 1) * 2 ^ f.fw - 1

/-- Encoding of ±0. -/
def zeroBits (f : Fmt) (neg : Bool) : Nat := neg.toNat * 2 ^ (f.ew + f.fw)

/-- The classes of R112 (R172 names them by bit). -/
inductive FClass where
  | zero | subnormal | normal | infinity | quiet | signalling
  deriving DecidableEq, Repr

def fsign (f : Fmt) (x : Nat) : Bool := bit x (f.ew + f.fw)
def fexpo (f : Fmt) (x : Nat) : Nat := bits x (f.ew + f.fw - 1) f.fw
def ffrac (f : Fmt) (x : Nat) : Nat := bits x (f.fw - 1) 0

/-- Class of an encoding (R112). -/
def fclass (f : Fmt) (x : Nat) : FClass :=
  let e := fexpo f x
  let m := ffrac f x
  if e = 0 then (if m = 0 then .zero else .subnormal)
  else if e = 2 ^ f.ew - 1 then
    (if m = 0 then .infinity else if bit m (f.fw - 1) then .quiet else .signalling)
  else .normal

/-- ±m × 2^e as an exact rational. -/
def scaled (neg : Bool) (m : Nat) (e : Int) : FVal :=
  if 0 ≤ e then .num neg (m * 2 ^ e.toNat) 1 else .num neg m (2 ^ (-e).toNat)

/-- Value of an encoding (R112). -/
def fval (f : Fmt) (x : Nat) : FVal :=
  let s := fsign f x
  match fclass f x with
  | .zero => .num s 0 1
  | .subnormal => scaled s (ffrac f x) (1 - (fmtBias f : Int) - f.fw)
  | .normal => scaled s (2 ^ f.fw + ffrac f x) ((fexpo f x : Int) - fmtBias f - f.fw)
  | .infinity => .inf s
  | .quiet => .nan false
  | .signalling => .nan true

/-- Value of an operand after ftzin (R131): a subnormal reads as a zero of its own sign. -/
def fread (ftzin : Bool) (f : Fmt) (x : Nat) : FVal :=
  if ftzin && (fclass f x == .subnormal) then .num (fsign f x) 0 1 else fval f x

/-- Does rounding of `rem/den` above an integer `fl` go up, for a value of sign `neg` (R128, modes 0 to 4)? -/
def goesUp (mode : Rnd) (neg : Bool) (fl rem den : Nat) : Bool :=
  match mode with
  | .rn | .rdyn => decide (den < 2 * rem) || (decide (den = 2 * rem) && decide (fl % 2 = 1))
  | .rz => false
  | .rp => !neg && decide (rem ≠ 0)
  | .rm => neg && decide (rem ≠ 0)
  | .ra => decide (den ≤ 2 * rem) && decide (rem ≠ 0)

/-- ⌊log2(n/d)⌋ for n, d > 0. -/
def ilog2 (n d : Nat) : Int :=
  let l : Int := (Nat.log2 n : Int) - Nat.log2 d
  let ge : Bool := if 0 ≤ l then decide (d * 2 ^ l.toNat ≤ n) else decide (d ≤ n * 2 ^ (-l).toNat)
  if ge then l else l - 1

/-- n/d divided by 2^q: integer part, remainder, denominator. -/
def divQuantum (n d : Nat) (q : Int) : Nat × Nat × Nat :=
  let num := if 0 ≤ q then n else n * 2 ^ (-q).toNat
  let den := if 0 ≤ q then d * 2 ^ q.toNat else d
  (num / den, num % den, den)

/-- n/d rounded to a multiple of 2^q: the multiple, and whether it is inexact. -/
def roundQuantum (mode : Rnd) (neg : Bool) (n d : Nat) (q : Int) : Nat × Bool :=
  let r := divQuantum n d q
  (if goesUp mode neg r.1 r.2.1 r.2.2 then r.1 + 1 else r.1, decide (r.2.1 ≠ 0))

/-- What a rounding gives (R128): the encoding, and whether it overflowed, was tiny and inexact, was clamped. -/
structure Rounded where
  code : Nat
  ovf : Bool := false
  under : Bool := false
  deriving DecidableEq, Repr

/-- Overflow results of R128. -/
def overflowCode (f : Fmt) (mode : Rnd) (neg : Bool) : Nat :=
  match mode with
  | .rn | .rdyn | .ra => infBits f neg
  | .rz => maxBits f neg
  | .rp => if neg then maxBits f true else infBits f false
  | .rm => if neg then infBits f true else maxBits f false

/-- Rounding of an exact finite value into a format (R128, R131): tininess is detected after rounding; with `ftzout`
a result that rounds to a subnormal becomes a zero of its sign and counts as underflow. -/
def roundNum (f : Fmt) (mode : Rnd) (ftzout : Bool) (neg : Bool) (n d : Nat) : Rounded :=
  if n = 0 then ⟨zeroBits f neg, false, false⟩ else
  let emin : Int := 1 - fmtBias f
  let e := ilog2 n d
  let ee := max e emin
  let r := roundQuantum mode neg n d (ee - f.fw)
  let mag := (ee + fmtBias f - 1).toNat * 2 ^ f.fw + r.1
  if (2 ^ f.ew - 1) * 2 ^ f.fw ≤ mag then ⟨overflowCode f mode neg, true, false⟩ else
  let tiny : Bool :=
    if emin ≤ e then false
    else if e < emin - 1 then true
    else decide ((roundQuantum mode neg n d (e - f.fw)).1 < 2 ^ (f.fw + 1))
  let sub := decide (mag ≠ 0 ∧ mag < 2 ^ f.fw)
  if ftzout && sub then ⟨zeroBits f neg, false, true⟩
  else ⟨neg.toNat * 2 ^ (f.ew + f.fw) + mag, false, tiny && r.2⟩

/-- `round(x, fmt, mode)` of R128 for any value. -/
def froundV (f : Fmt) (mode : Rnd) (ftzout : Bool) : FVal → Rounded
  | .nan _ => ⟨canonNaN f, false, false⟩
  | .inf s => ⟨infBits f s, false, false⟩
  | .num s n d => roundNum f mode ftzout s n d

/-- Causes of the arithmetic-error log (R138). -/
inductive Cause where
  | invalid | divZero | overflow | underflow | intDiv | saturation
  deriving DecidableEq, Repr

/-- Cause code of R138. -/
def causeCode : Cause → Nat
  | .invalid => 1 | .divZero => 2 | .overflow => 3 | .underflow => 4 | .intDiv => 5 | .saturation => 6

/-- A result with the causes it records. -/
structure Res where
  code : Nat
  causes : List Cause := []
  deriving DecidableEq, Repr

def roundedRes (r : Rounded) : Res :=
  ⟨r.code, (if r.ovf then [.overflow] else []) ++ (if r.under then [.underflow] else [])⟩

def isNaN : FVal → Bool
  | .nan _ => true
  | _ => false

def isSNaN : FVal → Bool
  | .nan s => s
  | _ => false

/-- Exact signed sum of two finite values; the flag says the sum is an exact zero. -/
def addExact (s1 : Bool) (n1 d1 : Nat) (s2 : Bool) (n2 d2 : Nat) : Int × Nat :=
  let a : Int := if s1 then -(n1 * d2 : Int) else (n1 * d2 : Int)
  let b : Int := if s2 then -(n2 * d1 : Int) else (n2 * d1 : Int)
  (a + b, d1 * d2)

/-- Sign of an exact zero sum (R128): the common sign, else +0 except in mode 3. -/
def zeroSumSign (mode : Rnd) (s1 s2 : Bool) : Bool :=
  if s1 = s2 then s1 else decide (mode = .rm)

/-- The sum of two values, exact (R128, R152): none when it is ∞ − ∞. -/
def faddV (mode : Rnd) : FVal → FVal → Option FVal
  | .nan _, _ => some (.nan false)
  | _, .nan _ => some (.nan false)
  | .inf a, .inf b => if a = b then some (.inf a) else none
  | .inf a, .num .. => some (.inf a)
  | .num .., .inf b => some (.inf b)
  | .num s1 n1 d1, .num s2 n2 d2 =>
    let z := addExact s1 n1 d1 s2 n2 d2
    if z.1 = 0 then some (.num (zeroSumSign mode s1 s2) 0 1)
    else some (.num (decide (z.1 < 0)) z.1.natAbs z.2)

/-- The product of two values, exact: none when it is 0 × ∞. -/
def fmulV : FVal → FVal → Option FVal
  | .nan _, _ => some (.nan false)
  | _, .nan _ => some (.nan false)
  | .inf a, .inf b => some (.inf (a != b))
  | .inf a, .num s n _ => if n = 0 then none else some (.inf (a != s))
  | .num s n _, .inf b => if n = 0 then none else some (.inf (s != b))
  | .num s1 n1 d1, .num s2 n2 d2 => some (.num (s1 != s2) (n1 * n2) (d1 * d2))

def fnegV : FVal → FVal
  | .nan s => .nan s
  | .inf s => .inf (!s)
  | .num s n d => .num (!s) n d

/-- Round a possibly invalid exact result (R113, R152): none gives the canonical NaN and records invalid. -/
def finishF (f : Fmt) (mode : Rnd) (ftzout : Bool) (snan : Bool) : Option FVal → Res
  | none => ⟨canonNaN f, [.invalid]⟩
  | some v =>
    let r := roundedRes (froundV f mode ftzout v)
    ⟨r.code, (if snan then [.invalid] else []) ++ r.causes⟩

def faddR (f : Fmt) (mode : Rnd) (ftzout : Bool) (x y : FVal) : Res :=
  finishF f mode ftzout (isSNaN x || isSNaN y) (faddV mode x y)

def fsubR (f : Fmt) (mode : Rnd) (ftzout : Bool) (x y : FVal) : Res :=
  finishF f mode ftzout (isSNaN x || isSNaN y) (faddV mode x (fnegV y))

def fmulR (f : Fmt) (mode : Rnd) (ftzout : Bool) (x y : FVal) : Res :=
  finishF f mode ftzout (isSNaN x || isSNaN y) (fmulV x y)

/-- `mad` (R132): exact a × b + c, one rounding; any NaN operand gives the canonical NaN. -/
def fmaR (f : Fmt) (mode : Rnd) (ftzout : Bool) (x y z : FVal) : Res :=
  let sn := isSNaN x || isSNaN y || isSNaN z
  if isNaN x || isNaN y || isNaN z then
    ⟨canonNaN f, if sn then [.invalid] else []⟩
  else match fmulV x y with
    | none => ⟨canonNaN f, [.invalid]⟩
    | some p => finishF f mode ftzout false (faddV mode p z)

/-- `div` on F types (R152). -/
def fdivR (f : Fmt) (mode : Rnd) (ftzout : Bool) (x y : FVal) : Res :=
  let sn := isSNaN x || isSNaN y
  match x, y with
  | .nan _, _ => ⟨canonNaN f, if sn then [.invalid] else []⟩
  | _, .nan _ => ⟨canonNaN f, if sn then [.invalid] else []⟩
  | .inf _, .inf _ => ⟨canonNaN f, [.invalid]⟩
  | .inf a, .num s _ _ => ⟨infBits f (a != s), []⟩
  | .num s _ _, .inf b => ⟨zeroBits f (s != b), []⟩
  | .num s1 n1 d1, .num s2 n2 d2 =>
    if n2 = 0 then
      (if n1 = 0 then ⟨canonNaN f, [.invalid]⟩ else ⟨infBits f (s1 != s2), [.divZero]⟩)
    else roundedRes (roundNum f mode ftzout (s1 != s2) (n1 * d2) (d1 * n2))

/-- Order of two values that are not NaN: −1, 0, 1, with −0 equal to +0 (R160). -/
def fcmp : FVal → FVal → Int
  | .inf a, .inf b => if a = b then 0 else if a then -1 else 1
  | .inf a, _ => if a then -1 else 1
  | _, .inf b => if b then 1 else -1
  | .num s1 n1 d1, .num s2 n2 d2 =>
    let z := (addExact s1 n1 d1 (!s2) n2 d2).1
    if z = 0 then 0 else if z < 0 then -1 else 1
  | _, _ => 0

def fsignV : FVal → Bool
  | .nan _ => false
  | .inf s => s
  | .num s _ _ => s

/-- `min` (`wantMax` false) or `max` of R155 on encodings: −0 is less than +0; one NaN gives the other operand. The result is one of
the operands as read and is not rounded, so the model does not apply ftzout to it: R131 does not name `min` and `max` (log 13). -/
def fminmax (f : Fmt) (ftzin wantMax : Bool) (a b : Nat) : Res :=
  let x := fread ftzin f a
  let y := fread ftzin f b
  let flush (c : Nat) : Nat := if ftzin && (fclass f c == .subnormal) then zeroBits f (fsign f c) else c
  let ca : List Cause := if isSNaN x || isSNaN y then [.invalid] else []
  if isNaN x && isNaN y then ⟨canonNaN f, ca⟩
  else if isNaN x then ⟨flush b, ca⟩
  else if isNaN y then ⟨flush a, ca⟩
  else
    let c := fcmp x y
    let less : Bool := decide (c < 0) || (decide (c = 0) && fsignV x && !fsignV y)
    ⟨if less != wantMax then flush a else flush b, ca⟩

/-- Value rounded to an integer by mode m (R162): the integer and its sign carried exactly. -/
def fToInt (mode : Rnd) (neg : Bool) (n d : Nat) : Int :=
  let m := (roundQuantum mode neg n d 0).1
  if neg then -(m : Int) else m

/-! ### M8 (R115 to R119) -/

/-- Length of the run of bits equal to bit 6, counted down from bit 6 (R115), at most 6. -/
def m8Run (p : Nat) : Nat :=
  let b := bit p 6
  let rec go : Nat → Nat → Nat
    | 0, acc => acc
    | k + 1, acc => if bit p k == b then go k (acc + 1) else acc
  go 6 1

/-- Magnitude of a payload 0x01 to 0x7F as an exact rational (R115, R116). -/
def m8Mag (p0 : Nat) : Nat × Nat :=
  let p := if p0 = 0x7F then 0x7E else p0
  let k := m8Run p
  let w := 6 - k
  let F := p % 2 ^ w
  let num := 2 ^ w + 9 * F
  if bit p 6 then (num * 10 ^ (k - 1), 2 ^ w) else (num, 2 ^ w * 10 ^ k)

/-- `m8_value(c)` of R115. -/
def m8Val (c : Nat) : FVal :=
  if c = 0x80 then .nan false
  else if c % 128 = 0 then .num false 0 1
  else
    let v := m8Mag (c % 128)
    .num (bit c 7) v.1 v.2

/-- Distance |a/b − n/d| as an exact rational. -/
def ratDist (a b n d : Nat) : Nat × Nat :=
  (if a * d ≤ n * b then n * b - a * d else a * d - n * b, b * d)

/-- The payload 0x00 to 0x7E nearest to n/d, ties to the even payload (R119). -/
def m8Nearest (n d : Nat) : Nat :=
  let val (p : Nat) : Nat × Nat := if p = 0 then (0, 1) else m8Mag p
  let step (best : Nat) (p : Nat) : Nat :=
    let vb := val best
    let vp := val p
    let db := ratDist vb.1 vb.2 n d
    let dp := ratDist vp.1 vp.2 n d
    if dp.1 * db.2 < db.1 * dp.2 then p
    else if dp.1 * db.2 = db.1 * dp.2 ∧ p % 2 = 0 then p else best
  (iota 1 126).foldl step 0

/-- `round_m8(x)` of R119. -/
def roundM8 : FVal → Nat
  | .nan _ => 0x80
  | .inf s => if s then 0xFE else 0x7E
  | .num s n d =>
    let p := if 100000 * d ≤ n then 0x7E else m8Nearest n d
    if p = 0 then 0 else if s && decide (n ≠ 0) then 0x80 + p else p

/-- Does rounding into M8 saturate a finite value (R138, cause 0x06)? -/
def m8Saturates : FVal → Bool
  | .num _ n d => decide (100000 * d < n)
  | _ => false

/-- Element value of code `c` under a BF16 scale (R120). -/
def m8Elem (c : Nat) (scale : Nat) : FVal :=
  let sv := fval fmtB16 scale
  if c = 0x80 then .nan (isSNaN sv)
  else match sv with
  | .nan sig => .nan sig
  | .inf ss => if c % 128 = 0 then .nan true else .inf (ss != bit c 7)
  | .num ss sn sd =>
    match m8Val c with
    | .num cs cn cd =>
      if cn = 0 then .num false 0 1
      else if sn = 0 then .num (cs != ss) 0 1
      else .num (cs != ss) (cn * sn) (cd * sd)
    | v => v

/-- Largest of the finite magnitudes (R123). -/
def maxFinite : List FVal → Nat × Nat
  | [] => (0, 1)
  | .num _ n d :: r =>
    let m := maxFinite r
    if m.1 * d < n * m.2 then (n, d) else m
  | _ :: r => maxFinite r

/-- `quantise_block` of R123: the codes, the BF16 scale, and whether the scale records underflow. -/
def quantiseBlock (xs : List FVal) : List Nat × Nat × Bool :=
  if xs.any isNaN then (xs.map (fun _ => 0x80), 0x7FC0, false)
  else
    let m := maxFinite xs
    let r := roundNum fmtB16 .rp false false m.1 (m.2 * 100000)
    let scale := if m.1 = 0 then 0x3F80 else r.code
    let under := decide (m.1 ≠ 0) && r.under
    let code (x : FVal) : Nat :=
      match x, fval fmtB16 scale with
      | .inf s, _ => if s then 0xFE else 0x7E
      | .num s n d, .num _ sn sd => roundM8 (.num s (n * sd) (d * sn))
      | _, _ => 0x80
    (xs.map code, scale, under)

/-! ### Seeds (R133, R165) -/

/-- n/d rounded to nearest-even at 13 significant bits. -/
def sig13 (neg : Bool) (n d : Nat) : FVal :=
  if n = 0 then .num neg 0 1 else
  let e := ilog2 n d
  let q := e - 12
  scaled neg (roundQuantum .rn false n d q).1 q

/-- ⌊√(n/d)⌋ below 2^bits, bit by bit. -/
def rsqrtBits (n d : Nat) : Nat → Nat → Nat
  | 0, acc => acc
  | b + 1, acc =>
    let c := acc + 2 ^ b
    if c * c * d ≤ n then rsqrtBits n d b c else rsqrtBits n d b acc

/-- The seed 1/√(n/d) at 13 significant bits (R133). No midpoint can arise: 1/y² is a binary fraction only for y a power of 2. -/
def rsqrtSeed (n d : Nat) : FVal :=
  -- y = √(d/n); s places it in [2^13, 2^15)
  let l := ilog2 d n
  let s : Int := 13 - l.fdiv 2
  let num := if 0 ≤ s then d * 4 ^ s.toNat else d
  let den := if 0 ≤ s then n else n * 4 ^ (-s).toNat
  let y := rsqrtBits num den 16 0
  let exact := decide (y * y * den = num)
  -- one sticky bit below the integer part
  let y2 := 2 * y + (if exact then 0 else 1)
  match sig13 false y2 1 with
  | .num _ n' d' => if 0 ≤ s then .num false n' (d' * 2 ^ (s.toNat + 1)) else .num false (n' * 2 ^ (-s).toNat) (d' * 2)
  | v => v

/-- Fixed-point unit of the seed computations. -/
def fxOne : Nat := 2 ^ 320

/-- Taylor sum of e^x, 0 ≤ x < 1, in units of 1/`fxOne`. -/
def expTaylor (x : Nat) : Nat → Nat → Nat → Nat → Nat
  | 0, _, _, acc => acc
  | fuel + 1, i, term, acc => expTaylor x fuel (i + 1) (term * x / fxOne / i) (acc + term)

/-- e^x for 0 ≤ x < 1024, in units of 1/`fxOne`: ten halvings, the series, ten squarings. -/
def expFx (x : Nat) : Nat :=
  let y := expTaylor (x / 1024) 70 1 fxOne 0
  (iota 0 10).foldl (fun acc _ => acc * acc / fxOne) y

/-- The sum of z^(2i+1)/(2i+1), in units of 1/`fxOne`. -/
def atanhSum (z z2 : Nat) : Nat → Nat → Nat → Nat
  | 0, _, _ => 0
  | fuel + 1, i, p => p / (2 * i + 1) + atanhSum z z2 fuel (i + 1) (p * z2 / fxOne)

/-- ln of a number m/fxOne in [1, 2], in units of 1/`fxOne`. -/
def lnFx (m : Nat) : Nat :=
  let z := (m - fxOne) * fxOne / (m + fxOne)
  2 * atanhSum z (z * z / fxOne) 110 0 z

/-- ln(n/d) as an exact fixed-point integer in units of 1/`fxOne`, for n/d ≠ 1. -/
def lnRat (n d : Nat) : Int :=
  let e := ilog2 n d
  let m := if 0 ≤ e then n * fxOne / (d * 2 ^ e.toNat) else n * 2 ^ (-e).toNat * fxOne / d
  e * (lnFx (2 * fxOne) : Int) + (lnFx m : Int)

/-- A seed placed in format f (R165): below the smallest normal it is rounded into f to nearest-even, with flushing. -/
def placeSeed (f : Fmt) (ftzout : Bool) (v : FVal) : Res := roundedRes (froundV f .rn ftzout v)

def frsqR (f : Fmt) (ftzin ftzout : Bool) (x : Nat) : Res :=
  match fread ftzin f x with
  | .nan s => ⟨canonNaN f, if s then [.invalid] else []⟩
  | .inf s => if s then ⟨canonNaN f, [.invalid]⟩ else ⟨zeroBits f false, []⟩
  | .num s n d =>
    if n = 0 then ⟨infBits f false, [.divZero]⟩
    else if s then ⟨canonNaN f, [.invalid]⟩
    else placeSeed f ftzout (rsqrtSeed n d)

def frcpR (f : Fmt) (ftzin ftzout : Bool) (x : Nat) : Res :=
  match fread ftzin f x with
  | .nan s => ⟨canonNaN f, if s then [.invalid] else []⟩
  | .inf s => ⟨zeroBits f s, []⟩
  | .num s n d =>
    if n = 0 then ⟨infBits f s, [.divZero]⟩ else placeSeed f ftzout (sig13 s d n)

def xlnR (f : Fmt) (ftzin ftzout : Bool) (x : Nat) : Res :=
  match fread ftzin f x with
  | .nan s => ⟨canonNaN f, if s then [.invalid] else []⟩
  | .inf s => if s then ⟨canonNaN f, [.invalid]⟩ else ⟨infBits f false, []⟩
  | .num s n d =>
    if n = 0 then ⟨infBits f true, [.divZero]⟩
    else if s then ⟨canonNaN f, [.invalid]⟩
    else if n = d then ⟨zeroBits f false, []⟩
    else
      let l := lnRat n d
      placeSeed f ftzout (sig13 (decide (l < 0)) l.natAbs fxOne)

def fexpR (f : Fmt) (ftzin ftzout : Bool) (x : Nat) : Res :=
  match fread ftzin f x with
  | .nan s => ⟨canonNaN f, if s then [.invalid] else []⟩
  | .inf s => if s then ⟨zeroBits f false, []⟩ else ⟨infBits f false, []⟩
  | .num s n d =>
    if n = 0 then placeSeed f ftzout (.num false 1 1)
    else
      let xf := if 1000 * d ≤ n then 1000 * fxOne else n * fxOne / d
      let y := expFx xf
      let r := placeSeed f ftzout (if s then sig13 false fxOne y else sig13 false y fxOne)
      -- a result below the smallest normal records underflow (R165)
      let small := decide (r.code < 2 ^ f.fw)
      ⟨r.code, if small ∧ Cause.underflow ∉ r.causes then r.causes ++ [.underflow] else r.causes⟩

end Sys2Proof.Machine
end

