-- ==== Sys2Proof/Machine/State.lean ====
section
/-! DEFINITION. The state of the JX-256 as plain data: one record per live group, team and launch, one sparse file of
supervisor registers, the parts of the ordering machine (R197), the engines, the Carafe, the trace fabric, recovery.
INVENTORY.md lists every piece with its rule and its reset value. The model's own fields (log 1, log 4) stand last. -/

namespace Sys2Proof.Machine

/-- Four sequence numbers, one per home die: the vectors O, C and those that travel with values (R197). -/
structure V4 where
  n0 : Nat := 0
  n1 : Nat := 0
  n2 : Nat := 0
  n3 : Nat := 0
  deriving DecidableEq, Repr

/-- The stamp of a byte of a die view without its home, which the address gives: number and carried vector (R198). -/
structure Stamp where
  num : Nat := 0
  vec : V4 := {}
  deriving DecidableEq, Repr

/-- A place that holds bytes (R16, R52, R53, R204, R242). -/
inductive Loc where
  /-- physical address, windows included -/
  | mem (pa : Nat)
  /-- byte `off` of the scratchpad region of the team with name `t` -/
  | team (t off : Nat)
  /-- byte `off` of the scratchpad of die `d` -/
  | die (d off : Nat)
  /-- byte `off` of the lane slice of thread `t` of the group with name `g` -/
  | lane (g t off : Nat)
  deriving DecidableEq, Repr

/-- One access after its checks (R257): space, address as formed, place, size, key slot, cached mapping. -/
structure Acc where
  sp : Space
  va : Nat
  loc : Loc
  n : Nat
  key : Nat := 0
  cached : Bool := false
  deriving DecidableEq, Repr

/-- Fault causes (R87, R183, R228, R257, R324, R409 and the entries). -/
inductive FCause where
  | illegal | privileged | misalignedTarget | trapCode (code : Nat)
  | misaligned | bounds | unmapped | badEntry | keySlot | permission | rangeLocked | poison
  | unboundChannel | channelDirection | channelBound | badBinding | badShape
  | divergenceOverflow | formatBlock | tileShape | matrixDescriptor | engineDescriptor | rangeOverlap | layoutRecord
  | badBarrier | barrierRange | batchNumber | remoteError | remoteAtomic | remoteMonitor | nondetAtomic
  | detOverflow | badTerm | reservedTag | termArea | workStealing | badNode | safeDistance | saveArea
  | hang | doubleTrap | frame | unhandled | clusterPoison | deviceError
  /-- a cause the CONTEXT_STOP move is given from outside -/
  | other (n : Nat)
  deriving DecidableEq, Repr

/-- A fault record: who, where, why (R73, R87, R370, R410). -/
structure FaultRec where
  ctx : Nat
  cause : FCause
  /-- the cause of the handled trap that could not be delivered (R410) -/
  sub : Nat := 0
  addr : Nat := 0
  /-- pc of a scalar fault, clause header of a lane fault -/
  pc : Nat := 0
  word : Nat := 0
  core : Nat := 0
  part : Nat := 0
  group : Nat := 0
  team : Nat := 0
  /-- name of the team, for R424 -/
  tuid : Nat := 0
  frag : Nat := 0
  /-- access kind of a memory fault (R370): 0 none, 1 load, 2 store, 3 atomic, 4 fetch, 5 reduction -/
  akind : Nat := 0
  deriving DecidableEq, Repr

/-! ### Groups (R27, R45, R47) -/

/-- A level of the held stack (R47); also a running set that has popped a level and waits at the rejoin address. -/
structure Held where
  mask : Mask
  pc : Word
  rejoin : Option Word
  deriving DecidableEq, Repr

/-- One level of the lineage of a fragment: which split made it and the reconvergence address of the entry that was
split; `hm` marks a hit and miss split (R46, R48). `none` is the task's `lend`. -/
structure Split where
  id : Nat
  /-- index of the entry that was split: the parent (R45) -/
  entry : Nat := 0
  rcv : Option Word
  hm : Bool := false
  /-- `back` and `under` of the fragment that was split -/
  back : List Held := []
  under : List (Nat × Option Word) := []
  deriving DecidableEq, Repr

/-- What a fragment waits for. -/
inductive FWait where
  /-- ready -/
  | go
  /-- R48: a miss fragment, or a whole fragment that could not split, until operation `op` has its sectors; `acq` is the
  scope of the acquire that its load carries -/
  | mem (op : Nat) (acq : Option Scope)
  /-- at its reconvergence address (R46) -/
  | join
  /-- at `lend`, `nbar` or `phase`, until the other fragments arrive (R33, R280, R356) -/
  | gather
  /-- at a cross-lane instruction, until its sibling arrives (R150) -/
  | cross
  /-- an acquire after the accesses of operation `op` (R209); `scp` as named -/
  | acqOp (op : Nat) (scp : Scope)
  /-- an acquire whose access has been performed, `bound` being the serial number at that move (R250) -/
  | acqDue (scp : Scope) (bound : Nat)
  /-- the queue wait of an acquire after its drop: `.dev` limits by O, `bound` as R211 and R250 give -/
  | acq (bound : Nat)
  /-- the release of a `.dev` or `.sys` fence is made; it waits for X = 0 (R211) -/
  | fenceX
  /-- steps 2 and 3 of a `.dev` or `.sys` fence are made; its queue wait, then the access (R211) -/
  | fence (bound : Nat)
  /-- that wait has ended: the access may be made -/
  | fenced
  /-- parked on a word by a monitor (R238) -/
  | monitor (acc : Acc) (cc : Nat) (b : Nat) (ord : MOrd) (scp : Scope)
  /-- after a restore: the wait is executed again once a monitor is free (R238) -/
  | rearm (acc : Acc) (cc : Nat) (b : Nat) (ord : MOrd) (scp : Scope)
  /-- the monitor has read a satisfying value: its vector, with the stamp merged -/
  | monHit (vec : V4) (ord : MOrd) (scp : Scope)
  /-- parked on a barrier word (R278) -/
  | barrier (acc : Acc) (parity : Bool) (kd : Nat) (act : Mask) (ord : MOrd) (scp : Scope)
  /-- parked at a named barrier until the phase differs (R280) -/
  | named (n : Nat) (phase : Bool) (ord : MOrd) (scp : Scope)
  /-- waiting for the answer to a claim (R341) or steal (R353) request -/
  | answer (req : Nat)
  /-- the group's part of the phase has ended (R356) -/
  | phase
  /-- a host-side read of a `.sys` release (R249), or an access to a window whose answer is due -/
  | remote (req : Nat)
  deriving DecidableEq, Repr

/-- A live entry of the split table (R45). -/
structure Frag where
  /-- a name, distinct from that of every other fragment -/
  id : Nat
  mask : Mask
  /-- address of the clause header -/
  pc : Word
  /-- next word of the clause: 0 the header itself -/
  idx : Nat := 0
  /-- instructions of the started clause, and the flags its header names (R69) -/
  len : Nat := 0
  flags : List Nat := []
  /-- the lane words of the started clause as its check fetched them (R72, R73) -/
  code : List Nat := []
  rcv : Option Word := none
  lin : List Split := []
  wait : FWait := .go
  /-- a `.sys` release has issued and completed its flush read (R249) -/
  flushed : Bool := false
  /-- cause of the wait whose begin record was emitted (R393) -/
  blk : Option Nat := none
  /-- running sets that have popped a level of the held stack and wait for its threads, newest first (R47) -/
  back : List Held := []
  /-- `fail`s that used the held stack: the depth below their levels, and the reconvergence address that the fragment has
  again once the stack is that low (R337) -/
  under : List (Nat × Option Word) := []
  /-- its age, the serial number at which its entry was created, and its wait count (R298, R299) -/
  born : Nat := 0
  cnt : Nat := 0
  deriving DecidableEq, Repr

/-- What lands when a long-latency operation finishes (R36, R37). -/
inductive OpKind where
  | load | store | atomic | special | matrix | engine | claim | term | emit
  deriving DecidableEq, Repr

/-- One access of a long-latency operation that is not performed yet (R203); `t` is the thread, or the lowest active
one of a uniform access. -/
structure Part where
  t : Nat
  acc : Acc
  deriving DecidableEq, Repr

/-- A request of a coalesced access to one home slice (R20): the home, the identity of the issuer, the sectors that are
still due (the set bits of its mask; their number is its count). -/
structure SecReq where
  die : Nat
  slice : Nat
  core : Nat
  part : Nat
  slot : Nat
  entry : Nat
  secs : List Nat
  /-- sectors delivered -/
  got : List Nat := []
  deriving DecidableEq, Repr

/-- An entry of a walk stack (R327), the newest first in a list. -/
inductive WEnt where
  | cells (a b n : Nat)
  | pair (x y : Nat)
  deriving DecidableEq, Repr

/-- Where a dereference ends: a value, an unbound variable (its REF word and the cell's word), or out of steps (R329). -/
inductive DRes where
  | val (w : Nat)
  | unb (r old : Nat)
  | more (w : Nat)
  deriving DecidableEq, Repr

/-- What the running thread of a term instruction does next (R329 to R337). -/
inductive TPh where
  /-- the next pair of its walk -/
  | take
  /-- it dereferences its first word, or the second after the first -/
  | first (x y : Nat)
  | second (dx : DRes) (y : Nat)
  /-- it loads the functor of two structures -/
  | funs (x y : Nat)
  | funs2 (x y fx : Nat)
  /-- it unwinds its trail to n entries -/
  | undo (n : Nat)
  /-- the release before the move of `bindg` at the cell of r; that move is on its way -/
  | gate (r v : Nat)
  | sent
  deriving DecidableEq, Repr

/-- The running thread of a term instruction: steps left, its walk, what comes next (R333, R360). -/
structure TProg where
  th : Nat
  n : Nat
  st : List WEnt := []
  ph : TPh
  deriving DecidableEq, Repr

/-- A long-latency operation in flight. -/
structure LOp where
  id : Nat
  /-- requests of a coalesced access whose sectors are not all delivered (R20) -/
  reqs : List SecReq := []
  kind : OpKind
  /-- issuing fragment, its entry, its clause header -/
  fid : Nat := 0
  entry : Nat := 0
  hdr : Word := 0
  flags : List Nat := []
  /-- vector registers pending for the whole group -/
  pend : List Nat := []
  /-- predicate masks pending (R333) -/
  pendK : List Nat := []
  act : Mask := 0
  uni : Bool := false
  ty : LType := .n32
  d : Nat := 0
  parts : List Part := []
  /-- completions still due from the store path, the matrix queue, an engine or a home -/
  left : Nat := 0
  /-- results held until the operation finishes: vector register file keys and values, predicate writes -/
  res : List (Nat × VWord) := []
  kres : List (Nat × Mask × Mask) := []
  /-- values an atomic has returned, by thread, for its replay entry (R403) -/
  vals : List (Nat × Nat) := []
  /-- threads of an atomic whose access has raised a cause, with its code (R140) -/
  raised : List (Nat × Nat) := []
  /-- the serial number at the last performed access (R250) -/
  bound : Nat := 0
  /-- reads past the L1 (R203) -/
  past : Bool := false
  /-- opcode and status argument for trace records of term instructions (R393) -/
  info : Nat := 0
  stat : Nat := 0
  /-- C at an `emit`, for its records (R305) -/
  vec : V4 := {}
  /-- the fragment stands at this operation's word, which is not done: operands as captured at its start (thread and two words),
  the thread that runs (R333) -/
  mid : Bool := false
  opnds : List (Nat × Nat × Nat) := []
  prog : Option TProg := none
  /-- the order of its word has acted with a move of it (R212) -/
  ordered : Bool := false
  deriving DecidableEq, Repr

/-- Binding of one of c12 to c15 (R239). -/
structure Bind where
  chan : Nat
  /-- 0 neighbour out, 1 neighbour in, 2 stream in, 3 stream out -/
  kind : Nat
  vec : Bool
  sp : Space := .g
  addr : Nat := 0
  rank : Nat := 0
  grp : Nat := 0
  peer : Nat := 0
  /-- stream position in entries, and the bytes of the next entry read so far -/
  pos : Nat := 0
  buf : List Byte := []
  deriving DecidableEq, Repr

/-- A closed or open batch of engine operations (R229, R230). -/
structure Batch where
  no : Nat
  left : Nat := 0
  vec : V4 := {}
  status : Nat := 0
  done : Bool := false
  returned : Bool := false
  deriving DecidableEq, Repr

/-- A branch that the Pacer watches (R300): the branch, the registers at its last taking, whether the iteration
since then kept the rule. -/
structure Pacer where
  br : Word
  tgt : Word
  regs : SMap Word
  clean : Bool
  low : Bool := false
  deriving DecidableEq, Repr

/-- What a scalar stream waits for across moves. -/
inductive SWait where
  | go
  /-- an answer from a window (R245, R248) -/
  | remote (req : Nat)
  /-- the answer has come: the value -/
  | got (v : Word)
  /-- it is poisoned (R433), or an error (R245): the word that waits takes the fault -/
  | poisoned
  | failed
  /-- a `ctx.save` has made its writes, which are not all acknowledged: its status (R450) -/
  | saved (st : Word)
  /-- the acquire that its start makes: the queues are awaited by O and by serial number (R290, R305, R250) -/
  | acq (bound : Nat)
  deriving DecidableEq, Repr

/-- A group (R27). -/
structure Group where
  uid : Nat := 0
  team : Nat := 0
  idx : Nat := 0
  a : SMap Word := []
  u : SMap Word := []
  v : SMap VWord := []
  k : SMap Mask := []
  /-- completion flags f0 to f11 (R36) -/
  fl : SMap Nat := []
  /-- c0 to c7, and c12 to c15 bound at word width -/
  ch : SMap (List Word) := []
  /-- c8 to c11, and c12 to c15 bound at vector width: entries of one value per thread -/
  chv : SMap (List (List VWord)) := []
  bind : List Bind := []
  pc : Word := 0
  swait : SWait := .go
  /-- what the word of the scalar stream has read from windows: address and value (R439, R440) -/
  seen : List (Nat × Nat) := []
  atEnd : Bool := false
  taskq : List Word := []
  task : Option Word := none
  /-- split table: entry number and entry (R45) -/
  frs : List (Nat × Frag) := []
  held : List Held := []
  frame : Option Nat := none
  obs : V4 := {}
  car : V4 := {}
  ops : List LOp := []
  /-- number of the last closed batch, without the wrap of R229 -/
  batchNo : Nat := 0
  batches : List Batch := []
  /-- lane slices, thread t at byte t × 4096 (R52) -/
  slice : SMap Byte := []
  lap : Nat := 0
  /-- its scalar stream stood at a channel when it last tried (R407) -/
  sblk : Bool := false
  /-- branches that the Pacer watches, the newest first (R300) -/
  pacer : List Pacer := []
  /-- wait counts of the scalar stream and of a queued task (R298) -/
  scnt : Nat := 0
  tcnt : Nat := 0
  nInstr : Nat := 0
  nClause : Nat := 0
  hostSt : Bool := false
  pzA : List Nat := []
  pzU : List Nat := []
  /-- poisoned vector registers, keyed as `v` -/
  pzV : List Nat := []
  /-- poisoned 4-byte units of the lane slices -/
  pzL : List Nat := []
  safe : Option Nat := none
  /-- its scalar stream stands at a `safe` that has begun to wait (R418) -/
  inSafe : Bool := false
  /-- register that a load of the scalar stream which waits for its window will write (R406); 0 names none -/
  sdst : Nat := 0
  detSeq : SMap Nat := []
  rplNo : Nat := 0
  /-- replay copy: place of the sector and its bytes (R403) -/
  rpl : List (Loc × List Byte) := []
  born : Nat := 0
  /-- `State.cyc` when it last issued a word, or its team was switched in (R414) -/
  lastAt : Nat := 0
  deriving DecidableEq, Repr

/-! ### Teams (R25, R175, R279, R413) -/

inductive Slot where
  | running | shadow | out | retired
  deriving DecidableEq, Repr

/-- A named barrier (R279). -/
structure NBar where
  phase : Bool := false
  arrived : Nat := 0
  expected : Nat := 0
  waiters : Nat := 0
  vec : V4 := {}
  /-- groups that arrived, for the Lap Clock (R307) -/
  who : List Nat := []
  deriving DecidableEq, Repr

/-- The kinds of entry of a matrix queue (R185, R193 to R195). -/
inductive MKind where
  | loop (sparse blocks zero stamped : Bool)
  | tld | tst | tclr | tmov | zrd (col : Bool) (i b : Nat) | zclr | zld | zst
  deriving DecidableEq, Repr

/-- An entry of the matrix queue with what it captured at issue (R180); `gidx` is its group's index, for records. -/
structure MEnt where
  id : Nat
  kind : MKind
  group : Nat
  gidx : Nat := 0
  op : Nat
  hdr : Word
  entry : Nat
  act : Mask
  ty : LType := .f32
  d : Nat := 0
  a : Nat := 0
  b : Nat := 0
  c : Nat := 0
  shA : Nat := 0
  shB : Nat := 0
  /-- descriptor words gL to gL+5, or the address register; format blocks -/
  desc : List Nat := []
  fA : Nat := 0
  fB : Nat := 0
  stride : Nat := 0
  uni : Bool := false
  /-- C of the group at issue, which the stores carry (R182) -/
  vec : V4 := {}
  /-- next step (R184), elements of its row already stored, and whether stores are all in the store path -/
  step : Nat := 0
  col : Nat := 0
  fin : Bool := false
  /-- causes this execution has recorded (R140) -/
  causes : List Nat := []
  deriving DecidableEq, Repr

/-- An open tile stamp of an accumulator (R192, R402). -/
structure TStamp where
  acc : Nat
  issue : Nat
  load : Nat := 0
  operand : Nat := 0
  compute : Nat := 0
  group : Nat := 0
  part : Nat := 0
  opcode : Nat := 0
  steps : Nat := 0
  hdr : Nat := 0
  done : Bool := false
  /-- a later stamped loop closes it, without a copy-out span -/
  closing : Bool := false
  /-- the group that issued that loop (R402) -/
  closer : Nat := 0
  /-- nanoseconds parked and held back, and when such a span began -/
  parkNs : Nat := 0
  heldNs : Nat := 0
  parkAt : Option Nat := none
  heldAt : Option Nat := none
  /-- loop entry it belongs to -/
  ment : Nat := 0
  deriving DecidableEq, Repr

/-- A posted steal request (R306): the thief's group and request, nanoseconds counted. -/
structure StealReq where
  thief : Nat
  req : Nat
  ns : Nat := 0
  deriving DecidableEq, Repr

/-- An answer to a claim (R315) or steal (R306) request: the operation and fragment it goes to, a result block or a
status, its code and value, the vector it hands over and the acquire that follows it. -/
structure Answer where
  group : Nat
  lop : Nat
  fid : Nat
  block : Bool
  code : Nat
  val : Word := 0
  vec : V4 := {}
  acq : Option Scope := none
  /-- an outcome of `claim` or `claimw`: it restarts the Lap Clock (R307) -/
  lap : Bool := false
  /-- it answers a `claimw`, which keeps a monitor until its answer arrives: the core of that monitor, none once a switch has
  freed it (R317) -/
  parks : Bool := false
  mon : Option Nat := none
  deriving DecidableEq, Repr

structure Team where
  uid : Nat := 0
  launch : Nat := 0
  idx : Nat := 0
  cluster : Nat := 0
  rank : Nat := 0
  /-- teams of the cluster, its width -/
  clusterN : Nat := 1
  clusterW : Nat := 1
  ngrp : Nat := 1
  core : Nat := 0
  slot : Slot := .running
  small : Bool := true
  vregs : Nat := 8
  sliceB : Nat := 0
  scrB : Nat := 0
  scr : SMap Byte := []
  pzS : List Nat := []
  nb : SMap NBar := []
  tiles : SMap Byte := []
  accs : SMap Byte := []
  shapes : SMap Word := []
  pzT : List Nat := []
  pzZ : List Nat := []
  mq : List MEnt := []
  stamps : List TStamp := []
  mail : Option StealReq := none
  /-- vectors of barrier words: of the current phase, and as published (R237) -/
  barCur : SMap V4 := []
  barPub : SMap V4 := []
  /-- groups that arrived at, posted to or waited on the current phase of a barrier word (R307) -/
  barWho : SMap (List Nat) := []
  /-- work-graph node of a bin team (R304) -/
  node : Option Nat := none
  /-- charge in ns × MHz (R295) -/
  charge : Nat := 0
  /-- answers given while switched out, delivered at restore (R422) -/
  saved : List Answer := []
  /-- a pending pre-emption of a large team (R419) -/
  preempt : Bool := false
  /-- place and length of its image in the save area (R415) -/
  saveOff : Nat := 0
  saveLen : Nat := 0
  deriving DecidableEq, Repr

/-! ### Launches (R288 to R292, R302 to R305, R141 to R146) -/

/-- A buffered determinism entry (R142). -/
structure DetEnt where
  acc : Acc
  /-- 0 add, 1 min, 2 max -/
  op : Nat
  ty : LType
  rnd : Rnd
  value : Nat
  team : Nat
  group : Nat
  thread : Nat
  seq : Nat
  core : Nat
  /-- place in the order in which entries came to a buffer -/
  age : Nat := 0
  spilled : Bool := false
  deriving DecidableEq, Repr

/-- An open bin (R304). -/
structure Bin where
  id : Nat
  node : Nat
  recs : List (List Byte) := []
  vec : V4 := {}
  start : Nat := 0
  deriving DecidableEq, Repr

/-- A full or expired bin waiting to be placed as a bin team (R305). -/
structure BinTeam where
  idx : Nat
  node : Nat
  recs : List (List Byte)
  vec : V4
  deriving DecidableEq, Repr

structure Launch where
  uid : Nat := 0
  queue : Nat := 0
  /-- number of its control slot, modulo 2^32 (R292) -/
  slotNo : Nat := 0
  ctx : Nat := 0
  /-- control-slot words 0 to 7 and argument words (R289) -/
  w : List Word := []
  args : List Word := []
  nodes : List (List Word) := []
  placed : Nat := 0
  /-- groups retired and groups whose part of the phase has ended -/
  retired : Nat := 0
  ended : List Nat := []
  phaseNo : Nat := 0
  /-- teams of the phase commit's vector: maximum of the C of every party (R145) -/
  cvec : V4 := {}
  /-- the vector of the last commit (R145) -/
  pvec : V4 := {}
  det : List DetEnt := []
  bins : List Bin := []
  binq : List BinTeam := []
  binIdx : Nat := 0
  /-- the vector of its completion's `.sys` release: maximum of the O of its retired groups and of what was acknowledged after (R292) -/
  obsv : V4 := {}
  /-- status to report once a stopped launch may complete (R411) -/
  status : Option Nat := none
  /-- a dump of the context is still due -/
  dumping : Bool := false
  /-- the launch before it in its queue while that one runs (R290), and the vector its completion hands over -/
  after : Option Nat := none
  ovec : V4 := {}
  /-- a retired group left host stores that no `.sys` release has covered; the flush read of the completion (R249, R292): 0 not made,
  1 sent, 2 answered -/
  hostSt : Bool := false
  flush : Nat := 0
  deriving DecidableEq, Repr

/-- The region of a team that has retired: its core, launch and index, and its bytes. -/
structure ScrLeft where
  core : Nat
  launch : Nat
  idx : Nat
  scr : SMap Byte
  pzS : List Nat
  deriving DecidableEq, Repr

/-! ### The ordering machine (R197 to R220) -/

/-- Who owns an entry of a store path (R197, R221, R244, R248, R397). -/
inductive Owner where
  | group (uid : Nat)
  | engine (id : Nat)
  | stream (uid : Nat)
  | host
  /-- a requesting party of a peer device -/
  | peer (who : Nat)
  | session (i : Nat)
  | device
  deriving DecidableEq, Repr

/-- What an entry of a store path does at its place (R199, R218, R219). `code` is R262's. -/
inductive EntOp where
  | store
  | atom (code : Nat) (ty : LType) (rnd : Rnd)
  | cas
  | bindg
  | red (code : Nat) (ty : LType) (rnd : Rnd)
  deriving DecidableEq, Repr

/-- How far an entry has come: on its way; arrived with number n (or merged under grant n) and not acknowledged; sent
to a window, answer due. -/
inductive EntSt where
  | sent
  | arrived (n : Nat)
  | away
  deriving DecidableEq, Repr

structure PEnt where
  id : Nat
  owner : Owner
  op : EntOp
  acc : Acc
  /-- operand, and the second operand of `cas` -/
  x : Nat
  y : Nat := 0
  vec : V4 := {}
  core : Nat := 0
  ctx : Nat := 0
  /-- long-latency operation and thread that a result goes to -/
  lop : Nat := 0
  t : Nat := 0
  st : EntSt := .sent
  poison : Bool := false
  hdr : Word := 0
  entry : Nat := 0
  launch : Nat := 0
  tidx : Nat := 0
  gidx : Nat := 0
  /-- flush bits that came with a peer's atomic: 1 inputs, 2 outputs -/
  ftz : Nat := 0
  /-- bytes that the store writes, as a mask, where it has gaps (0: all of them); bytes of its operation that it stands for, where
  they are not as many as its own (R221, R271) -/
  be : Nat := 0
  credit : Nat := 0
  /-- of the scalar stream (R245): the pc of its word -/
  sc : Option Word := none
  deriving DecidableEq, Repr

/-- A queued cross-die update (R200, R219, R220). -/
inductive UpdK where
  | bytes (pa : Nat) (data : List Byte) (poison : Bool)
  /-- the unchanged value of a failing `cas` with the stamps it has (R218) -/
  | same (pa : Nat) (data : List Byte) (sts : List Stamp) (poison : Bool)
  /-- the bytes of one store with gaps (R221) -/
  | runs (ws : List (Nat × List Byte)) (poison : Bool)
  | mark (line : Nat)
  /-- recalled bytes, and whether they are poisoned -/
  | clear (line : Nat) (ws : List (Nat × List Byte × Bool))
  deriving DecidableEq, Repr

structure Upd where
  home : Nat
  dst : Nat
  num : Nat
  ser : Nat
  owner : Owner
  ent : Nat
  vec : V4 := {}
  k : UpdK
  /-- key generation of its bytes (R380), and the stamp that it carries (R391) -/
  gen : Nat := 0
  sg : Nat := 0
  deriving DecidableEq, Repr

/-- A sector in the L1 of a core (R202). -/
structure L1Sec where
  core : Nat
  pa : Nat
  key : Nat
  /-- key generation under which it was filled (R379, R380) -/
  gen : Nat := 1
  data : List Byte
  stamps : List Stamp
  poison : List Bool := []
  deriving DecidableEq, Repr

/-- A pending unit of an update-only copy (R219). -/
structure AUnit where
  core : Nat
  pa : Nat
  n : Nat
  code : Nat
  ty : LType
  rnd : Rnd
  val : Nat
  key : Nat
  ctx : Nat
  vec : V4 := {}
  poison : Bool := false
  /-- site of the newest `red` merged (R458): its pc from `LCBASE`, its place, and the `FPCTL` of its launch -/
  pc : Nat := 0
  team : Nat := 0
  group : Nat := 0
  entry : Nat := 0
  t : Nat := 0
  fp : Nat := 0
  deriving DecidableEq, Repr

/-- An update-only copy of a line held by a core (R219): the number of its grant, whether the mark of that grant has been
applied at the core's die, the mask of its sectors that hold a pending unit (R10). -/
structure UCopy where
  core : Nat
  line : Nat
  num : Nat
  marked : Bool := false
  secs : Nat := 0
  deriving DecidableEq, Repr

/-! ### Engines (R221 to R237, R252 to R254) -/

/-- What an engine operation moves (R223 to R227, R272). -/
inductive EKind where
  | cpy (src dst : Acc)
  | cpyt (layout : List Nat) (dst : Acc)
  /-- thread numbers and their addresses; the contiguous base -/
  | gath (els : List (Nat × Nat)) (sp : Space) (base : Acc)
  | scat (els : List (Nat × Nat)) (sp : Space) (base : Acc)
  | coll (src dst : Acc) (code : Nat) (ty : LType) (rnd : Rnd) (slot : Nat) (seq : Nat)
  deriving DecidableEq, Repr

structure EngOp where
  id : Nat
  kind : EKind
  group : Nat
  gidx : Nat := 0
  team : Nat := 0
  teamIdx : Nat := 0
  launch : Nat := 0
  ctx : Nat := 0
  core : Nat := 0
  lop : Nat := 0
  hdr : Word := 0
  entry : Nat := 0
  /-- threads active at issue -/
  act : Mask := 0
  batch : Nat := 0
  total : Nat := 0
  /-- element size of a unit -/
  esize : Nat := 1
  /-- barrier word: space and address, none when no barrier is named -/
  bar : Option Acc := none
  vec : V4 := {}
  started : Bool := false
  /-- it found a conflicting lock at its issue (R233, R393) -/
  waited : Bool := false
  /-- half-open runs of bytes whose read is not made (of a combined collective: whose store has not entered), by number -/
  todo : List (Nat × Nat) := []
  /-- bytes read, by number, until their unit is stored; numbers of poisoned ones; first bytes of units read whole whose store waits -/
  bytes : SMap Byte := []
  pzs : List Nat := []
  whole : List Nat := []
  /-- bytes whose read is made, bytes acknowledged, bytes delivered -/
  rd : Nat := 0
  ackd : Nat := 0
  delivered : Nat := 0
  status : Nat := 0
  /-- result words of a collective, once combined -/
  result : Option (List Byte) := none
  stopped : Bool := false
  suspended : Bool := false
  deriving DecidableEq, Repr

/-- A registered range (R232): half-open, by virtual address for `.g`, by place otherwise. -/
structure Lock where
  op : Nat
  ctx : Nat
  sp : Space
  /-- team or die that holds the bytes; 0 for `.g` -/
  holder : Nat
  lo : Nat
  hi : Nat
  dst : Bool
  deriving DecidableEq, Repr

/-! ### The Carafe (R309 to R323) -/

inductive ReqK where
  | claim | claimw | fulfil | abandon
  deriving DecidableEq, Repr

/-- A request on its way to a home slice, or parked there (R314, R317). -/
structure CReq where
  id : Nat
  kind : ReqK
  group : Nat
  team : Nat
  ctx : Nat
  domain : Nat
  name : List Word
  handle : Word := 0
  vec : V4 := {}
  lop : Nat := 0
  fid : Nat := 0
  core : Nat := 0
  ord : MOrd := .rlx
  scp : Scope := .grp
  monitor : Bool := false
  parked : Bool := false
  /-- the check of its parked-waiter record finds an error (R318) -/
  bad : Bool := false
  deriving DecidableEq, Repr

/-- An entry of the Carafe (R313). -/
structure CEnt where
  id : Nat
  die : Nat
  slice : Nat
  set : Nat
  way : Nat
  domain : Nat
  name : List Word
  making : Bool
  maker : Nat := 0
  mteam : Nat := 0
  mctx : Nat := 0
  /-- nanoseconds of lease used, and the lease in µs in force (R311) -/
  lease : Nat := 0
  limit : Nat := 0
  waiters : List Nat := []
  handle : Word := 0
  vec : V4 := {}
  age : Nat := 0
  deriving DecidableEq, Repr

/-- A sweep of a domain (R311, R322): `full` also removes done entries. -/
structure Purge where
  domain : Nat
  full : Bool
  deriving DecidableEq, Repr

/-! ### Windows (R242 to R251) -/

/-- A non-posted access to a window whose answer is due. -/
inductive WinK where
  | load | atom | store | flush
  deriving DecidableEq, Repr

structure WinReq where
  id : Nat
  kind : WinK
  peer : Bool
  ctx : Nat
  owner : Owner
  pa : Nat
  n : Nat
  ent : Nat := 0
  lop : Nat := 0
  t : Nat := 0
  frag : Nat := 0
  scalar : Bool := false
  /-- pc of the scalar word that made it -/
  pc : Word := 0
  /-- the source that sent it, and the port through which it left (R24, R391) -/
  src : Nat := 0
  port : Nat := 0
  /-- the value is kept for the party to read (`WinVal`) -/
  keep : Bool := false
  /-- virtual address of a load -/
  va : Nat := 0
  born : Nat := 0
  deriving DecidableEq, Repr

/-- The answer to a read of a window by an instruction that reads several places, by a fetch, the sequencer or the device
(R203, R243): the party, its fragment or entry, the bytes. -/
structure WinVal where
  owner : Owner
  frag : Nat
  ctx : Nat
  pa : Nat
  n : Nat
  x : Nat
  poison : Bool
  deriving DecidableEq, Repr

/-- A peer's request admitted under a landing entry and not answered (R244). -/
structure Landed where
  entry : Nat
  ent : Nat
  deriving DecidableEq, Repr

/-! ### Isolation and migration (R363 to R385) -/

/-- A translation a core's TLB holds (R371). -/
structure TlbE where
  core : Nat
  ctx : Nat
  base : Nat
  size : Nat
  leaf : Nat
  addr : Nat
  deriving DecidableEq, Repr

/-- A page walk that a group of a core has started (R371): it waits for a walker of its die, then reads the entry at `level`
of the table at `base`; `failed` is the cause that its accesses take. -/
structure PWalk where
  id : Nat
  core : Nat
  ctx : Nat
  uid : Nat
  page : Nat
  going : Bool := false
  level : Nat := 0
  base : Nat := 0
  failed : Option FCause := none
  /-- an invalidation has passed it: it enters nothing anywhere (R372) -/
  stale : Bool := false
  deriving DecidableEq, Repr

/-- A table entry that the walkers of a die keep (R371): the VA bits above the level's index, and the entry. -/
structure WKeep where
  die : Nat
  ctx : Nat
  level : Nat
  pre : Nat
  entry : Nat
  deriving DecidableEq, Repr

/-- A parked access at an away or moving page (R375). -/
structure ParkP where
  ctx : Nat
  page : Nat
  /-- the shadow was absent: a migration fault was recorded -/
  fault : Bool
  deriving DecidableEq, Repr

/-- A queued move of a page (R374, R376); `moving` once step 1 has marked the page, `stores` the serial numbers of the two
stores of step 5 that are not acknowledged (R374). -/
structure MigMove where
  ctx : Nat
  va : Nat
  away : Bool
  byFault : Bool
  moving : Bool := false
  stores : List Nat := []
  stored : Bool := false
  /-- size code of the page's leaf -/
  sz : Nat := 0
  deriving DecidableEq, Repr

/-- A TLB invalidation in progress (R372). -/
structure Inval where
  ctx : Nat
  va : Nat
  len : Nat
  /-- walks of the context that had started -/
  walks : List Nat := []
  /-- the serial number at which every TLB and walker dropped the range -/
  bound : Option Nat := none
  deriving DecidableEq, Repr

/-- Roaster count of one migratable page (R377): context, page base, leaf address, accesses. -/
structure Roast where
  ctx : Nat
  page : Nat
  leaf : Nat
  n : Nat
  deriving DecidableEq, Repr

/-! ### Trace (R386 to R407) -/

inductive RingK where
  | record | tile | replay
  deriving DecidableEq, Repr

/-- A record or entry offered to a session and not placed (R397, R399); `holds` names what is held back: a group,
a matrix entry, an engine operation, the operation that an answer goes to, or 0 for the migration engine. -/
structure HeldRec where
  ring : RingK
  src : Nat
  data : List Byte
  holds : Option Nat := none
  deriving DecidableEq, Repr

/-- What a session keeps beside its registers (R395, R397, R401). -/
structure Session where
  tailR : Nat := 0
  tailT : Nat := 0
  tailP : Nat := 0
  headR : Nat := 0
  headT : Nat := 0
  headP : Nat := 0
  /-- tails and lost count as last stored in the control block -/
  pubR : Nat := 0
  pubT : Nat := 0
  pubP : Nat := 0
  pubL : Nat := 0
  loss : Bool := false
  held : List HeldRec := []
  /-- closing: code of the end record (R401) -/
  closing : Option Nat := none
  ended : Bool := false
  since : Nat := 0
  vec : V4 := {}
  /-- stores to a host window that no tail store has covered; the host-side read of the next one: 0 not made, 1 sent, 2 completed
  (R249, R397) -/
  hostSt : Bool := false
  flush : Nat := 0
  deriving DecidableEq, Repr

/-- A record of the arithmetic-error log (R139). -/
structure ARec where
  time : Nat
  pc : Nat
  team : Nat
  mask : Mask
  site : Nat
  core : Nat
  group : Nat
  frag : Nat
  mx : Bool
  count : Nat
  ty : Nat
  cause : Nat
  deriving DecidableEq, Repr

/-- A record raised at the instruction that waits for those of earlier clauses of its group (R140): group, place in the
group's program order, context. -/
structure APend where
  uid : Nat
  key : Nat
  ctx : Nat
  arec : ARec
  deriving DecidableEq, Repr

/-- A record of the barrier log (R446). -/
structure BRec where
  time : Nat
  team : Nat
  excess : Nat
  sp : Nat
  addr : Nat
  group : Nat
  engine : Bool
  core : Nat
  deriving DecidableEq, Repr

/-! ### Recovery (R408 to R437) -/

/-- A dump under way or waiting (R425, R429). -/
structure Dump where
  ctx : Nat
  first : FaultRec
  /-- consequences and nested faults (R424, R428) in the order in which they came; true marks a nested one -/
  more : List (Bool × FaultRec) := []
  /-- an uncorrectable error has struck the dump engine's own buffers (R428) -/
  struck : Bool := false
  /-- records and bytes written -/
  k : Nat := 0
  pos : Nat := 0
  deriving DecidableEq, Repr

/-- A `PRECTL` request not made yet (R417). -/
structure PreReq where
  core : Nat
  op : Nat
  deriving DecidableEq, Repr

/-- A stopped partition (R406): why, and the code of `stop` (R442). -/
structure PStop where
  core : Nat
  part : Nat
  why : Nat
  code : Nat := 0
  deriving DecidableEq, Repr

/-- The bring-up service and full service (R436, R437), and what a failed image check or device error leave (R384, R433). -/
inductive Service where
  | bringUp | full | mailbox | dead
  deriving DecidableEq, Repr

/-! ### The tape of choices -/

/-- The candidate that issued last on a slot of an issue partition (R298): the lane slot or the scalar slot, the group, its
split-table entry, its age. -/
structure LastIss where
  core : Nat
  part : Nat
  lane : Bool
  uid : Nat
  entry : Nat
  age : Nat × Nat
  deriving DecidableEq, Repr

/-- A candidate for a slot of an issue partition (R298): the group, its split-table entry, its age, its wait count, whether the
Pacer has lowered it. -/
structure SlotCand where
  uid : Nat
  entry : Nat
  age : Nat × Nat
  cnt : Nat
  low : Bool
  deriving DecidableEq, Repr

/-- One scheduling choice: a word of a scalar stream, of a fragment, time passing, or a move of the device (log 1). -/
inductive Move where
  | scalar (g : Nat)
  | lane (g e : Nat)
  | tick (n : Nat)
  | ev (i : Instr)
  deriving DecidableEq, Repr

structure State where
  /-- the issuing group, its team and launch, and the split-table entry that issues -/
  g : Group := {}
  t : Team := {}
  l : Launch := {}
  fi : Nat := 0
  /-- every other group, team and launch -/
  groups : List Group := []
  teams : List Team := []
  launches : List Launch := []
  /-- supervisor registers by number, where they differ from their reset value -/
  sys : SMap Word := []
  /-- the four die views: byte of die d at physical address p under key d × 2^52 + p -/
  mem : SMap Byte := []
  stamps : SMap Stamp := []
  /-- poisoned 4-byte units of the views -/
  pz : List Nat := []
  /-- lines marked scattered, per view: d × 2^52 + line -/
  scat : List Nat := []
  /-- lines whose recall has been started -/
  wants : List Nat := []
  seqn : V4 := {}
  path : List PEnt := []
  inq : List Upd := []
  fenceNo : Nat := 0
  l1 : List L1Sec := []
  /-- sectors valid in the L2 of die d, as a mask of the four sectors of line n under key d × 2^52 + n (R9, R10) -/
  l2 : SMap Nat := []
  /-- open segments of an HBM row, as a mask under the row's number (R18) -/
  rows : SMap Nat := []
  /-- MODEL: places that a store of the device has reached in this step, for the monitors parked on them (R238) -/
  reached : List (Nat × Nat) := []
  copies : List UCopy := []
  units : List AUnit := []
  /-- die scratchpads: byte o of die d under key d × 2^26 + o -/
  dscr : SMap Byte := []
  /-- what the regions of retired teams hold until a team starts on their core (R455, log 3) -/
  scrLeft : List ScrLeft := []
  pzD : List Nat := []
  /-- key generation of each slot, and the generation each sector was written under (0: never written) -/
  keygen : SMap Nat := []
  tags : SMap Nat := []
  locks : List Lock := []
  eops : List EngOp := []
  collSeq : SMap Nat := []
  /-- registered member lists (R252), by slot -/
  sets : SMap (List Nat) := []
  claims : List CEnt := []
  reqs : List CReq := []
  purges : List Purge := []
  /-- answers held back until their records are placed (R399) -/
  heldAns : List Answer := []
  wins : List WinReq := []
  landed : List Landed := []
  winVals : List WinVal := []
  alog : SMap (List ARec) := []
  alost : SMap Nat := []
  apend : List APend := []
  blog : SMap (List BRec) := []
  blost : SMap Nat := []
  tlb : List TlbE := []
  walks : List PWalk := []
  wkeeps : List WKeep := []
  invals : List Inval := []
  parks : List ParkP := []
  migq : List MigMove := []
  roast : List Roast := []
  roastEnd : Nat := 0
  act : SMap Nat := []
  atts : Bool := false
  /-- digest of the running firmware image, where a device reset loaded it (R384, R385) -/
  firm : Option (List Byte) := none
  served : Nat := 63
  /-- newest launch read from a queue, and the vector it handed over when it completed (R290) -/
  qlast : SMap Nat := []
  qvec : SMap V4 := []
  /-- cores held for a cluster of a queue (R296) -/
  holdCores : List (Nat × Nat) := []
  sess : SMap Session := []
  srcLast : SMap Nat := []
  srcFloor : SMap Nat := []
  pre : List PreReq := []
  stops : List PStop := []
  faults : List FaultRec := []
  dumps : List Dump := []
  /-- resets and teardowns that wait for the sessions of their context: context, and queue of a reset + 1 or 0 (R401) -/
  tears : List (Nat × Nat) := []
  /-- landing entries being disabled, and member sets being cleared: entry, and the `LANDB` value that waits (R244) -/
  landOff : List (Nat × Nat) := []
  /-- member sets whose clearing waits (R252) -/
  collOff : List Nat := []
  lastIss : List LastIss := []
  now : Nat := 0
  clock : Nat := 425
  /-- thousandths of cycles of the running clock since reset (R14) -/
  cyc : Nat := 0
  service : Service := .bringUp
  /-- MODEL: the tape, the scheduler's place, free values used, names used (log 1, log 4) -/
  agenda : List Move := []
  turn : Nat := 0
  fresh : Nat := 0
  nid : Nat := 1
  deriving DecidableEq, Repr

/-- Reasons a step can stop with a fault. The device turns every fault into a next state (R411), so the model raises
none of its own but this. -/
inductive Fault where
  /-- SAFE. Raised by nothing in this model; kept so that the type is a closed list with a name -/
  | none
  deriving DecidableEq, Repr

/-- Reasons a step can refuse. -/
inductive Refusal where
  /-- SAFE. Raised by Dispatch for an instruction that has no meaning yet -/
  | notModelled (mnemonic : String)
  deriving DecidableEq, Repr

/-- The machine right after device reset (R384, R436): the bring-up service, no launch, every register at its reset
value, every counter, queue and store empty. -/
def State.reset : State := {}

end Sys2Proof.Machine
end

