-- ==== Sys2Proof/Machine/Base.lean ====
section
/-! DEFINITION. Finding and changing the records of State: vectors (R197), groups, teams and launches, the scalar,
uniform, vector and predicate registers (R50), split-table entries (R45), supervisor registers and their reset values. -/

namespace Sys2Proof.Machine

/-! ### Vectors -/

def v4get (v : V4) (d : Nat) : Nat :=
  match d with
  | 0 => v.n0
  | 1 => v.n1
  | 2 => v.n2
  | _ => v.n3

def v4set (v : V4) (d n : Nat) : V4 :=
  match d with
  | 0 => { v with n0 := n }
  | 1 => { v with n1 := n }
  | 2 => { v with n2 := n }
  | _ => { v with n3 := n }

/-- Elementwise maximum (R203). -/
def v4max (v w : V4) : V4 := ⟨max v.n0 w.n0, max v.n1 w.n1, max v.n2 w.n2, max v.n3 w.n3⟩

/-- O[d] := max(O[d], n). -/
def v4raise (v : V4) (d n : Nat) : V4 := v4set v d (max (v4get v d) n)

/-! ### Groups, teams, launches -/

def allG (s : State) : List Group := if s.g.uid = 0 then s.groups else s.g :: s.groups
def allT (s : State) : List Team := if s.t.uid = 0 then s.teams else s.t :: s.teams
def allL (s : State) : List Launch := if s.l.uid = 0 then s.launches else s.l :: s.launches

def getG (s : State) (uid : Nat) : Option Group := (allG s).find? (fun g => g.uid == uid)
def getT (s : State) (uid : Nat) : Option Team := (allT s).find? (fun t => t.uid == uid)
def getL (s : State) (uid : Nat) : Option Launch := (allL s).find? (fun l => l.uid == uid)

def updG (s : State) (uid : Nat) (f : Group → Group) : State :=
  if s.g.uid = uid then { s with g := f s.g } else { s with groups := mapFirst (fun g => g.uid == uid) f s.groups }
def updT (s : State) (uid : Nat) (f : Team → Team) : State :=
  if s.t.uid = uid then { s with t := f s.t } else { s with teams := mapFirst (fun t => t.uid == uid) f s.teams }
def updL (s : State) (uid : Nat) (f : Launch → Launch) : State :=
  if s.l.uid = uid then { s with l := f s.l } else { s with launches := mapFirst (fun l => l.uid == uid) f s.launches }

def delG (s : State) (uid : Nat) : State :=
  let s1 := { s with groups := s.groups.filter (fun g => g.uid != uid) }
  if s.g.uid = uid then { s1 with g := {} } else s1
def delT (s : State) (uid : Nat) : State :=
  let s1 := { s with teams := s.teams.filter (fun t => t.uid != uid) }
  if s.t.uid = uid then { s1 with t := {} } else s1
def delL (s : State) (uid : Nat) : State :=
  let s1 := { s with launches := s.launches.filter (fun l => l.uid != uid) }
  if s.l.uid = uid then { s1 with l := {} } else s1

def teamOfG (s : State) (g : Group) : Team := (getT s g.team).getD {}
def launchOfT (s : State) (t : Team) : Launch := (getL s t.launch).getD {}
def launchOfG (s : State) (g : Group) : Launch := launchOfT s (teamOfG s g)
def ctxOfG (s : State) (g : Group) : Nat := (launchOfG s g).ctx

/-- Die of a core (R8), partition of a group (R26). -/
def dieOf (core : Nat) : Nat := core / 64 % 4
def partOf (g : Group) : Nat := g.idx % 4

def groupsOfT (s : State) (t : Nat) : List Group := (allG s).filter (fun g => g.team == t)
def teamsOfL (s : State) (l : Nat) : List Team := (allT s).filter (fun t => t.launch == l)

/-- Put the issuing group, its team and its launch back among the others. -/
def unfocus (s : State) : State :=
  { s with groups := allG s, teams := allT s, launches := allL s, g := {}, t := {}, l := {} }

/-- Make the group with name `uid` the issuing one. -/
def focus (s : State) (uid : Nat) : State :=
  if s.g.uid = uid then s else
  match getG s uid with
  | none => s
  | some g =>
    let s1 := unfocus s
    let t := (getT s1 g.team).getD {}
    let l := (getL s1 t.launch).getD {}
    { s1 with
      g := g
      t := t
      l := l
      groups := s1.groups.filter (fun x => x.uid != uid)
      teams := s1.teams.filter (fun x => x.uid != t.uid)
      launches := s1.launches.filter (fun x => x.uid != l.uid) }

/-- A name never used before. -/
def freshId (s : State) : Nat × State := (s.nid, { s with nid := s.nid + 1 })

/-! ### Registers of a group (R32, R50) -/

/-- a0 reads as zero (R32). -/
def readA (g : Group) (r : Nat) : Word := if r = 0 then 0 else mget g.a 0 r
/-- `write_a` of R86: a write to a0 is discarded. -/
def writeA (g : Group) (r : Nat) (x : Word) : Group := if r = 0 then g else { g with a := mput g.a 0 r x, pzA := g.pzA.filter (· != r) }
def readU (g : Group) (r : Nat) : Word := mget g.u 0 r
def writeU (g : Group) (r : Nat) (x : Word) : Group := { g with u := mput g.u 0 r x, pzU := g.pzU.filter (· != r) }
/-- Vector register r of thread t. -/
def readV (g : Group) (r t : Nat) : VWord := mget g.v 0 (r * 64 + t)
def writeV (g : Group) (r t : Nat) (x : VWord) : Group :=
  { g with v := mput g.v 0 (r * 64 + t) x, pzV := g.pzV.filter (· != r * 64 + t) }
/-- The pair r, r + 1 of thread t, low half in the even register (R50). -/
def readV64 (g : Group) (r t : Nat) : Nat := (readV g r t).toNat + 2 ^ 32 * (readV g (r + 1) t).toNat
def writeV64 (g : Group) (r t : Nat) (x : Nat) : Group :=
  writeV (writeV g r t (BitVec.ofNat 32 x)) (r + 1) t (BitVec.ofNat 32 (x / 2 ^ 32))
/-- k0 reads as all ones (R50). -/
def readK (g : Group) (n : Nat) : Mask := if n = 0 then BitVec.allOnes 64 else mget g.k 0 n
/-- Change only the bits of `act` (R148); a write to k0 is discarded. -/
def writeK (g : Group) (n : Nat) (act b : Mask) : Group :=
  if n = 0 then g else { g with k := mput g.k 0 n ((readK g n &&& ~~~act) ||| (b &&& act)) }

/-- Threads of a mask, ascending. -/
def threads (m : Mask) : List Nat := (iota 0 64).filter (fun t => m.getLsbD t)
/-- Lowest-numbered thread of a mask. -/
def lowest (m : Mask) : Option Nat := (iota 0 64).find? (fun t => m.getLsbD t)
def maskOf (ts : List Nat) : Mask := ts.foldl (fun m t => m ||| (1#64 <<< t)) 0

/-! ### The split table (R45) -/

def fget (frs : List (Nat × Frag)) (e : Nat) : Option Frag := (frs.find? (fun p => p.1 == e)).map (·.2)

/-- Put a fragment at entry `e`, in ascending order of entries. -/
def fput : List (Nat × Frag) → Nat → Frag → List (Nat × Frag)
  | [], e, f => [(e, f)]
  | p :: r, e, f => if e < p.1 then (e, f) :: p :: r else if e = p.1 then (e, f) :: r else p :: fput r e f

def fdel (frs : List (Nat × Frag)) (e : Nat) : List (Nat × Frag) := frs.filter (fun p => p.1 != e)

/-- Lowest free entry of the eight. -/
def freeEntry (frs : List (Nat × Frag)) : Option Nat :=
  (iota 0 Config.splitEntries).find? (fun e => (fget frs e).isNone)

def noFrag : Frag := { id := 0, mask := 0, pc := 0 }

/-- The executing fragment. -/
def curF (s : State) : Frag := (fget s.g.frs s.fi).getD noFrag
/-- Change the executing fragment, if it is live. -/
def modF (s : State) (f : Frag → Frag) : State :=
  match fget s.g.frs s.fi with
  | none => s
  | some x => { s with g := { s.g with frs := fput s.g.frs s.fi (f x) } }

/-- Change the fragment with name `id` of group `g`. -/
def updF (g : Group) (id : Nat) (f : Frag → Frag) : Group :=
  { g with frs := g.frs.map (fun p => if p.2.id = id then (p.1, f p.2) else p) }

/-! ### Supervisor registers -/

/-- Reset value of a supervisor register (the Reset columns of the maps; R365, R311, R379, R381). -/
def sysReset (n : Nat) : Word :=
  if n = 0x1200 then 1
  else if n = 0x1309 then 1024
  else if 0x0900 ≤ n ∧ n < 0x0A00 then BitVec.ofNat 64 (n - 0x0900)
  else if 0x0A00 ≤ n ∧ n < 0x1200 ∧ n % 8 = 2 then BitVec.ofNat 64 ((n - 0x0A00) / 8)
  else 0

def sysGet (s : State) (n : Nat) : Nat := (mget s.sys (sysReset n) n).toNat
def sysPut (s : State) (n : Nat) (x : Nat) : State := { s with sys := mput s.sys (sysReset n) n (BitVec.ofNat 64 x) }
def sysBit (s : State) (n b : Nat) : Bool := bit (sysGet s n) b
def sysBits (s : State) (n hi lo : Nat) : Nat := bits (sysGet s n) hi lo
def sysSetBits (s : State) (n hi lo x : Nat) : State := sysPut s n (setBits (sysGet s n) hi lo x)
def sysSetBit (s : State) (n b : Nat) (x : Bool) : State := sysSetBits s n b b x.toNat

def rQ (q i : Nat) : Nat := 0x0400 + 8 * q + i
def rCtx (c i : Nat) : Nat := 0x0A00 + 8 * c + i
def rKey (k : Nat) : Nat := 0x1200 + k
def rTs (i j : Nat) : Nat := 0x1400 + 16 * i + j
def rDbg (c : Nat) : Nat := 0x1500 + c
def rCtrCore (c j : Nat) : Nat := 0x1600 + 32 * c + 2 * j
def rCtrDie (d j : Nat) : Nat := 0x3600 + 64 * d + 2 * j
def rPre (c : Nat) : Nat := 0x3800 + c
def rRec (c i : Nat) : Nat := 0x3C00 + 4 * c + i

def ctxLive (s : State) (c : Nat) : Bool := sysBit s (rCtx c 0) 63
/-- `CTXST.state` (R365). -/
def ctxState (s : State) (c : Nat) : Nat := sysBits s (rCtx c 3) 1 0
def setCtxState (s : State) (c n : Nat) : State := sysSetBits s (rCtx c 3) 1 0 n
def queueEn (s : State) (q : Nat) : Bool := sysBit s (rQ q 1) 13
def queueCtx (s : State) (q : Nat) : Nat := sysBits s (rQ q 1) 11 4

/-! ### Words of a launch record (R289) and what a group reads from them -/

def lw (l : Launch) (i : Nat) : Nat := ((l.w[i]?).getD 0).toNat
/-- Teams of the grid; 0 stands for 2^32. -/
def gridN (l : Launch) : Nat := if bits (lw l 2) 31 0 = 0 then 2 ^ 32 else bits (lw l 2) 31 0
def grpN (l : Launch) : Nat := bits (lw l 2) 35 32 + 1
def cwN (l : Launch) : Nat := bits (lw l 2) 38 36 + 1
def chN (l : Launch) : Nat := bits (lw l 2) 41 39 + 1
def isPers (l : Launch) : Bool := bit (lw l 2) 43
def isDet (l : Launch) : Bool := bit (lw l 2) 45
def isAfter (l : Launch) : Bool := bit (lw l 2) 46
def isGraph (l : Launch) : Bool := bit (lw l 2) 47
/-- Lap in ns; 0 stands for 50 ms. -/
def lapNs (l : Launch) : Nat := (if bits (lw l 2) 55 48 = 0 then 50 else bits (lw l 2) 55 48) * 1000000
def lcBase (l : Launch) : Nat := lw l 1 - lw l 1 % 4
def logMask (l : Launch) : Nat := bits (lw l 3) 39 32
def ftzIn (l : Launch) : Bool := bit (lw l 3) 40
def ftzOut (l : Launch) : Bool := bit (lw l 3) 41
def rDyn (l : Launch) : Nat := bits (lw l 3) 43 42

/-- `FPCTL` (R129). -/
def fpctl (l : Launch) : Nat :=
  rDyn l + 4 * (ftzIn l).toNat + 8 * (ftzOut l).toNat + 16 * (isDet l).toNat + 256 * logMask l

/-- Rounding mode at issue: code 5 takes `FPCTL.rdyn` (R128, R130). -/
def rndOf (l : Launch) (r : Rnd) : Rnd :=
  match r with
  | .rdyn => match rDyn l with
    | 0 => .rn
    | 1 => .rz
    | 2 => .rp
    | _ => .rm
  | m => m

/-- Address of a lane offset in 4-byte units from `LCBASE` (R55). -/
def laneAddr (l : Launch) (off : Nat) : Word := BitVec.ofNat 64 (lcBase l + 4 * off)
/-- A reconvergence offset; 0xFF_FFFF names the task's `lend` (R173). -/
def joinAddr (l : Launch) (off : Nat) : Option Word := if off = 0xFFFFFF then none else some (laneAddr l off)
/-- Lane offset in 4-byte units of an address. -/
def laneOff (l : Launch) (a : Word) : Nat := (a.toNat + 2 ^ 64 - lcBase l) % 2 ^ 64 / 4

/-- Size of a small team (R413). -/
def isSmall (vregs ngrp scrB sliceB : Nat) : Bool :=
  decide (256 * vregs * ceilDiv ngrp 4 ≤ 81920 ∧ scrB + 64 * sliceB * ngrp ≤ 262144)

/-- Does the group stand in the supervisor view (R364)? -/
def isSuper (s : State) : Bool := s.l.ctx == 0

/-! ### Tile shapes (R176, R177) -/

/-- Element size of a format (R176). -/
def fmtSize : Nat → Option Nat
  | 4 => some 4 | 5 => some 8 | 6 => some 2 | 7 => some 2 | 8 => some 1 | 10 => some 1 | _ => none
def shRows (x : Nat) : Nat := bits x 6 0 + 1
def shCols (x : Nat) : Nat := bits x 14 8 + 1
def shFmt (x : Nat) : Nat := bits x 19 16
def shSize (x : Nat) : Nat := (fmtSize (shFmt x)).getD 1

end Sys2Proof.Machine
end

