-- ==== Sys2Proof/Machine/Trace.lean ====
section
/-! DEFINITION. What the device reports: records of the Finish Line (R390 to R396, R404), event counters (R407), the
partition stop that a counter or a debugger makes (R406), the two error logs (R139, R140, R446). Emission never changes
a result (R386): it writes only `sess`, `srcLast`, `srcFloor`, counters and logs. -/

namespace Sys2Proof.Machine

/-! ### Sources and stamps (R390, R391) -/

def srcL2 (die slice : Nat) : Nat := 0x100 + 64 * die + slice
def srcEng (die : Nat) : Nat := 0x200 + die
def srcPort (p : Nat) : Nat := 0x400 + p
def srcDev : Nat := 0x600

/-- Die of a source, for the die mask of R396; sources of no die belong to die 0. -/
def srcDie (src : Nat) : Nat :=
  match src / 256 with
  | 0 => src % 256 / 64
  | 1 => src % 256 / 64
  | 2 => src % 4
  | 3 => src % 16 / 3
  | 4 => src % 64 / 9
  | _ => 0

/-- The copy of device time of a die (R387): up to 4 ns ahead of `State.now`, by an amount of the device's own that stays (log 1). -/
def dieNow (s : State) (d : Nat) : Nat := s.now + Config.dieSkew d % 5

/-- The stamp a source would give a record now (R391). -/
def stampNow (s : State) (src : Nat) : Nat :=
  max (max (dieNow s (srcDie src)) (mget s.srcFloor 0 src)) (mget s.srcLast 0 src + 1)

/-- Take a stamp: the source's last becomes it. -/
def takeStamp (s : State) (src : Nat) : Nat × State :=
  let x := stampNow s src
  (x, { s with srcLast := mput s.srcLast 0 src x })

/-! ### Sessions and records (R392 to R396) -/

def tsOpen (s : State) (i : Nat) : Bool := sysBit s (rTs i 0) 63

/-- Does session i take events of context c from a source? -/
def takesCtx (s : State) (i c : Nat) : Bool :=
  let own := sysBits s (rTs i 0) 7 0
  own == c || (own == 0 && sysBit s (rTs i 0) 57)

/-- R396: en reads 1 until the end record is placed (R401), and no record follows that one. -/
def takes (s : State) (i cls c src : Nat) : Bool :=
  tsOpen s i && !(mget s.sess {} i).ended && (cls == 0 || sysBit s (rTs i 0) (23 + cls)) && sysBit s (rTs i 0) (50 + srcDie src) && takesCtx s i c

/-- Counts k events at the counter whose `CTRSEL` is register n: what an operation that reports calls for the events it makes (R407). -/
abbrev Counts := State → Nat → Nat → State

/-- Does `CTRSEL` value `sel` count events of source `src` and of context c (R407)? -/
def ctrHits (sel src : Nat) (c : Option Nat) : Bool :=
  bit sel 63 && bits sel 7 0 == src && decide (src < 16) && (bit sel 57 || c == some (bits sel 15 8))

/-- Count k events of source `src` at a core. -/
def countCoreBy (cnt : Counts) (s : State) (core src : Nat) (c : Option Nat) (k : Nat) : State :=
  (((iota 0 16).map (rCtrCore core)).filter (fun n => ctrHits (sysGet s n) src c)).foldl (fun s n => cnt s n k) s

def countDieBy (cnt : Counts) (s : State) (die src : Nat) (c : Option Nat) (k : Nat) : State :=
  (((iota 0 32).map (rCtrDie die)).filter (fun n => ctrHits (sysGet s n) src c)).foldl (fun s n => cnt s n k) s

/-- Context of a record, a tile stamp record or a replay entry (R392, R402, R404). -/
def recCtx (r : HeldRec) : Nat :=
  ((r.data[match r.ring with | .record => 12 | .tile => 40 | .replay => 16]?).getD 0).toNat

/-- Drop a record of a session: lost count, the mark on the next one, the die's count (R399, R407). -/
def dropRecBy (cnt : Counts) (s : State) (i : Nat) (r : HeldRec) : State :=
  let s := sysPut s (rTs i 5) (min (2 ^ 64 - 1) (sysGet s (rTs i 5) + 1))
  let s := { s with sess := mput s.sess {} i { mget s.sess {} i with loss := true } }
  countDieBy cnt s (srcDie r.src) 0x0C (some (recCtx r)) 1

/-- Does a record wait in the queue of its die, holding nothing back (R399)? -/
def inDieQueue (die : Nat) (r : HeldRec) : Bool := r.holds.isNone && decide (0x300 ≤ r.src) && srcDie r.src == die

/-- The queue of a die: what lossless sessions hold of such records, one that several sessions wait for once (R399). -/
def dieQueue (s : State) (die : Nat) : List (List Byte) :=
  (((iota 0 16).filter (fun j => sysBit s (rTs j 0) 56)).flatMap (fun j =>
    ((mget s.sess {} j).held.filter (inDieQueue die)).map (·.data))).eraseDups

/-- Offer a record to a session. In lossless mode the queue of a die for records that hold nothing back has 256 places, and a record
that waits there for another session has one already (R399). -/
def pushHeldBy (cnt : Counts) (s : State) (i : Nat) (r : HeldRec) : State :=
  let q := dieQueue s (srcDie r.src)
  if sysBit s (rTs i 0) 56 && inDieQueue (srcDie r.src) r && !q.contains r.data && decide (256 ≤ q.length) then dropRecBy cnt s i r
  else { s with sess := mput s.sess {} i { mget s.sess {} i with held := (mget s.sess {} i).held ++ [r] } }

/-- Is a party held back by a record of a lossless session that is not placed (R399)? -/
def heldBack (s : State) (id : Nat) : Bool := s.sess.any (fun p => p.2.held.any (fun r => r.holds == some id))

/-- The 16 or 32 bytes of a record (R392). -/
def recBytes (stamp cls code : Nat) (carry : Bool) (src c a : Nat) (b : Option Nat) : List Byte :=
  leBytes 8 stamp ++
  leBytes 8 (cls + 2 ^ 8 * code + 2 ^ 16 * b.isSome.toNat + 2 ^ 18 * carry.toNat + 2 ^ 20 * src + 2 ^ 32 * c + 2 ^ 40 * (a % 2 ^ 24)) ++
  (match b with | none => [] | some x => leBytes 16 x)

/-- Emit a record: offer it to every session that takes it, filtered at the source before the stamp (R396), and count it (source
0x0E). -/
def emitBy (cnt : Counts) (s : State) (cls code c src a : Nat) (b : Option Nat) (holds : Option Nat) : State :=
  let sinks := (iota 0 16).filter (fun i => takes s i cls c src)
  if sinks.isEmpty then s else
  let p := takeStamp s src
  let d := recBytes p.1 cls code (decide (dieNow s (srcDie src) < p.1)) src c a b
  let s := sinks.foldl (fun s i => pushHeldBy cnt s i ⟨.record, src, d, if sysBit s (rTs i 0) 56 then holds else none⟩) p.2
  let s := if src < 256 then countCoreBy cnt s src 0x0E (some c) 1 else s
  countDieBy cnt s (srcDie src) 0x0E (some c) 1

/-! ### Stops of a partition (R405, R406) -/

def stoppedOn (s : State) (core : Nat) : Option PStop := s.stops.find? (fun p => p.core == core)
def isStopped (s : State) (core part : Nat) : Bool := s.stops.any (fun p => p.core == core && p.part == part)

/-- What `DBGCTL` shows: whether the partition its part names is the one that is stopped, and why the core's stop was made (R405). -/
def syncDbg (s : State) (core : Nat) : State :=
  let n := rDbg core
  match stoppedOn s core with
  | some p => sysSetBits (sysSetBit s n 63 (p.part == sysBits s n 5 4)) n 62 60 p.why
  | none => sysSetBits (sysSetBit s n 63 false) n 62 60 0

/-- Context of the running team of a core. -/
def runCtx (s : State) (core : Nat) : Nat :=
  match (allT s).find? (fun t => t.core == core && t.slot == .running) with
  | some t => (launchOfT s t).ctx
  | none => 0

/-- Stop a partition; ignored while a partition of the core is stopped. -/
def stopPartBy (cnt : Counts) (s : State) (core part why code : Nat) : State :=
  if (stoppedOn s core).isSome then s else
  let s := syncDbg { s with stops := s.stops ++ [⟨core, part, why, code⟩] } core
  emitBy cnt s 0x08 4 (runCtx s core) core part (some 0) none

/-- Let issue continue. -/
def resumePart (s : State) (core : Nat) : State := syncDbg { s with stops := s.stops.filter (fun p => p.core != core) } core

/-- A large team that a request names stops at its next point (R419). -/
def askLarge (s : State) (core : Nat) : State :=
  match (allT s).find? (fun t => t.core == core && t.slot == .running && !t.small) with
  | some t => if ctxState s (launchOfT s t).ctx = 1 then updT s t.uid (fun t => { t with preempt := true }) else s
  | none => s

/-- Make a pre-emption request (R417). -/
def preRequest (s : State) (core op : Nat) : State :=
  if op = 0 ∨ op = 3 then s
  else if sysBit s (rPre core) 63 then sysSetBits s (rPre core) 62 61 3
  else
    let s := if op = 1 then askLarge s core else s
    sysSetBits (sysSetBit { s with pre := s.pre ++ [⟨core, op⟩] } (rPre core) 63 true) (rPre core) 62 61 0

/-! ### Event counters (R407) -/

/-- Is register n the `CTRSEL` of a core counter? -/
def ctrIsCore (n : Nat) : Bool := decide (n < 0x3600)
def ctrCore (n : Nat) : Nat := (n - 0x1600) / 32
def ctrJ (n : Nat) : Nat := if ctrIsCore n then (n - 0x1600) % 32 / 2 else (n - 0x3600) % 64 / 2

/-- Source of an overflow record: the core, or the engines of the die. -/
def ctrSrc (n : Nat) : Nat := if ctrIsCore n then ctrCore n else srcEng ((n - 0x3600) / 64)

/-- The wrap of counter `n`: ovf, its record, its halt, the pre-emption it is armed for (R407, R417). -/
def ctrWrapBy (cnt : Counts) (s : State) (n : Nat) : State :=
  let sel := sysGet s n
  let core := ctrCore n
  let j := ctrJ n
  let s := sysSetBit s n 62 true
  let s := if bit sel 60 then
      emitBy cnt s 0x0B 0 (if bit sel 57 then 0 else bits sel 15 8) (ctrSrc n) (j + (if ctrIsCore n then 0 else 32)) none none
    else s
  if !ctrIsCore n then s else
  let s := if bit sel 61 then stopPartBy cnt s core (bits sel 59 58) 3 0 else s
  let p := sysGet s (rPre core)
  if bit p 8 && bits p 7 4 == j then
    preRequest (if bit p 9 then sysSetBit s (rPre core) 8 false else s) core (bits p 1 0)
  else s

/-- Count k events; the value wraps to 0 after 2^48 − 1 (R407). The records that a wrap makes are events in turn: `fuel` bounds how many
wraps follow from one another, and no chain passes one of the 48 counters that see a record twice. -/
def bumpN : Nat → Counts
  | 0, s, n, k => sysPut s (n + 1) ((sysGet s (n + 1) + k) % 2 ^ 48)
  | fuel + 1, s, n, k =>
    let v := sysGet s (n + 1) + k
    let s := sysPut s (n + 1) (v % 2 ^ 48)
    if v < 2 ^ 48 then s else ctrWrapBy (bumpN fuel) s n

def bump : Counts := bumpN 64

def countCore : State → Nat → Nat → Option Nat → Nat → State := countCoreBy bump
def countDie : State → Nat → Nat → Option Nat → Nat → State := countDieBy bump
def dropRec : State → Nat → HeldRec → State := dropRecBy bump
def pushHeld : State → Nat → HeldRec → State := pushHeldBy bump
def stopPart : State → Nat → Nat → Nat → Nat → State := stopPartBy bump
/-- Emit a record (R396). -/
def emit : State → Nat → Nat → Nat → Nat → Nat → Option Nat → Option Nat → State := emitBy bump

/-- Does the counter whose `CTRSEL` is n count cycles now (R407)? -/
def ctrCycles (s : State) (n : Nat) : Bool :=
  let sel := sysGet s n
  let core := ctrCore n
  let mine (c : Nat) : Bool := bit sel 57 || c == bits sel 15 8
  let runs (t : Team) : Bool := t.core == core && t.slot == .running && mine (launchOfT s t).ctx
  if !bit sel 63 then false
  else if !ctrIsCore n then bits sel 7 0 == 0 && bit sel 57
  else match bits sel 7 0 with
  | 0x00 => (allT s).any runs
  | 0x05 => (allG s).any (fun g => runs (teamOfG s g) && (g.sblk || g.frs.any (fun p => p.2.blk == some 2)))
  | 0x0C => s.sess.any (fun p => p.2.held.any (fun r => r.src == core && r.holds.isSome && mine (recCtx r)))
  | _ => false

/-- k cycles of the running clock pass at every counter that counts cycles. -/
def countCycles (s : State) (k : Nat) : State :=
  if k = 0 then s
  else ((s.sys.map (·.1)).filter (fun n => decide (0x1600 ≤ n ∧ n < 0x3700 ∧ n % 2 = 0) && ctrCycles s n)).foldl (fun s n => bump s n k) s

/-! ### Die-to-die links (R6, R7, R391) -/

/-- Do die-to-die links join two dies (R6)? Dies 0 and 1 are the upper row, 0 and 2 the left column. -/
def linkJoins (a b : Nat) : Bool := (a == 0 && (b == 1 || b == 2)) || (b == 0 && (a == 1 || a == 2)) ||
  (a == 3 && (b == 1 || b == 2)) || (b == 3 && (a == 1 || a == 2))

/-- The dies that traffic from die a to die b visits, the first to the last: between diagonal dies it crosses the vertical
boundary first, to the die in the same row (R7). -/
def route (a b : Nat) : List Nat :=
  if a = b then [a] else if linkJoins a b then [a, b] else [a, a / 2 * 2 + b % 2, b]

/-- Bytes sent over the links of every die on the route but the last (R407 source 0x03). -/
def linkBytes (s : State) (a b n : Nat) : State := (route a b).dropLast.foldl (fun s d => countDie s d 0x03 none n) s

/-- A source has received what a transfer carried: σ + 1 from another die, the sender's stamps on one die (R391). -/
def raiseFloor (s : State) (dst x : Nat) : State := { s with srcFloor := mput s.srcFloor 0 dst (max (mget s.srcFloor 0 dst) x) }

/-- What a transfer from one source carries to another: over a die-to-die link the sender's current stamp, which the receiver passes;
on one die what the sender has seen, below which the receiver does not fall (R391). -/
def sigma (s : State) (src dst : Nat) : Nat :=
  if srcDie src = srcDie dst then max (mget s.srcFloor 0 src) (mget s.srcLast 0 src) else stampNow s src + 1

/-- A transfer of n data bytes: its bytes on the links of its route, and the stamp it carries (R391). -/
def xfer (s : State) (src dst n : Nat) : State :=
  if src = dst then s else raiseFloor (linkBytes s (srcDie src) (srcDie dst) n) dst (sigma s src dst)

/-- Identity part of b (R393) with the upper value. -/
def idB (part group frag team val : Nat) : Nat :=
  part + 2 ^ 8 * group + 2 ^ 12 * frag + 2 ^ 16 * (team % 2 ^ 32) + 2 ^ 64 * (val % 2 ^ 64)

/-- Identity of the issuing group and entry, and of its scalar stream, whose fragment field is 0. -/
def idG (s : State) (val : Nat) : Nat := idB (partOf s.g) s.g.idx s.fi s.t.idx val
def idS (s : State) (val : Nat) : Nat := idB (partOf s.g) s.g.idx 0 s.t.idx val

/-- A core record of the issuing group: in a lossless session it holds the group back (R399). -/
def emitG (s : State) (cls code a : Nat) (val : Nat) : State :=
  emit s cls code s.l.ctx s.t.core a (some (idG s val)) (some s.g.uid)
/-- One of its scalar stream. -/
def emitS (s : State) (cls code a : Nat) (val : Nat) : State :=
  emit s cls code s.l.ctx s.t.core a (some (idS s val)) (some s.g.uid)

def countG (s : State) (src k : Nat) : State := countCore s s.t.core src (some s.l.ctx) k

/-! ### Replay entries (R403, R404) -/

def spCode (sp : Space) : Nat := spaceCode sp

/-- Per-thread values of n bytes in ascending thread order, threads without one as zero (R404). -/
def perThreadN (n : Nat) (vs : List (Nat × Nat)) : List Byte :=
  (iota 0 64).flatMap (fun t => leBytes n (((vs.find? (fun p => p.1 == t)).map (·.2)).getD 0))
/-- One register or pair each. -/
def perThread (wide : Bool) (vs : List (Nat × Nat)) : List Byte := perThreadN (if wide then 8 else 4) vs

/-- 32-byte parts of the data of a replay entry. -/
def parts32 : Nat → List Byte → List (List Byte)
  | 0, _ => []
  | n + 1, d => if d.isEmpty then [] else (d.take 32 ++ List.replicate (32 - (d.take 32).length) 0) :: parts32 n (d.drop 32)

/-- A replay entry of group g for every session of its context that takes replay entries. -/
def replay (s : State) (uid kind : Nat) (sp : Space) (addr frag : Nat) (data : List Byte) : State :=
  match getG s uid with
  | none => s
  | some g =>
    let t := teamOfG s g
    let c := (launchOfT s t).ctx
    let sinks := (iota 0 16).filter (fun i => tsOpen s i && sysBit s (rTs i 0) 54 && takesCtx s i c)
    if sinks.isEmpty then s else
    let p := takeStamp s t.core
    let ps := if data.isEmpty then [List.replicate 32 0] else parts32 64 data
    let w0 := addr % 2 ^ 57 + 2 ^ 57 * spCode sp + 2 ^ 60 * kind
    let w2 := c + 2 ^ 8 * t.core + 2 ^ 16 * partOf g + 2 ^ 18 * g.idx + 2 ^ 22 * frag + 2 ^ 32 * (t.idx % 2 ^ 32)
    let ent (j : Nat) (d : List Byte) := leBytes 8 w0 ++ leBytes 8 p.1 ++ leBytes 8 w2 ++ leBytes 8 (g.rplNo % 2 ^ 32 + 2 ^ 32 * j) ++ d
    let es := ps.zipIdx.map (fun x => ent x.2 x.1)
    sinks.foldl (fun s i => es.foldl (fun s d => pushHeld s i ⟨.replay, t.core, d, if sysBit s (rTs i 0) 56 then some uid else none⟩) s) p.2

/-- Is any replay session open for context c? -/
def replaying (s : State) (c : Nat) : Bool := (iota 0 16).any (fun i => tsOpen s i && sysBit s (rTs i 0) 54 && takesCtx s i c)

/-- A new replay interval (R403). -/
def replayInterval (s : State) (uid : Nat) : State :=
  replay (updG s uid (fun g => { g with rplNo := g.rplNo + 1, rpl := [] })) uid 5 .g 0 0 []

/-! ### Error logs -/

/-- May the device merge r into the newest unread record of its group (R140)? -/
def mergeable (x r : ARec) : Bool :=
  x.cause == r.cause && x.pc == r.pc && x.frag == r.frag && x.site == r.site && x.ty == r.ty

/-- Replace the last record that satisfies p. -/
def mapLast {α : Type} (p : α → Bool) (f : α → α) (l : List α) : List α := (mapFirst p f l.reverse).reverse

/-- Put a record into the arithmetic-error log of context c (R139, R140). Whether a merge that R140 permits is made is
the device's choice: a free value. -/
def pushA (s : State) (c : Nat) (r : ARec) : State :=
  let l := mget s.alog [] c
  let mine (x : ARec) : Bool := x.team == r.team && x.group == r.group
  match l.reverse.find? mine with
  | some x =>
    if mergeable x r then
      let s1 := { s with fresh := s.fresh + 1 }
      if Config.freeChoice s.fresh % 2 = 1 then
        { s1 with alog := mput s.alog [] c (mapLast mine (fun y => { y with mask := y.mask ||| r.mask, count := min 255 (y.count + r.count) }) l) }
      else if l.length < 256 then { s1 with alog := mput s.alog [] c (l ++ [r]) }
      else { s1 with alost := mput s.alost 0 c (min (2 ^ 32 - 1) (mget s.alost 0 c + 1)) }
    else if l.length < 256 then { s with alog := mput s.alog [] c (l ++ [r]) }
    else { s with alost := mput s.alost 0 c (min (2 ^ 32 - 1) (mget s.alost 0 c + 1)) }
  | none =>
    if l.length < 256 then { s with alog := mput s.alog [] c (l ++ [r]) }
    else { s with alost := mput s.alost 0 c (min (2 ^ 32 - 1) (mget s.alost 0 c + 1)) }

/-- Log a cause of context c under the logmask of an `FPCTL` value (R129, R138). -/
def logF (s : State) (c fp : Nat) (r : ARec) : State := if bit fp (7 + r.cause) then pushA s c r else s

/-- Log a cause under the launch's logmask (R129, R138). -/
def logA (s : State) (l : Launch) (r : ARec) : State :=
  if bit (logMask l) (r.cause - 1) then pushA s l.ctx r else s

def allCauses : List Cause := [.invalid, .divZero, .overflow, .underflow, .intDiv, .saturation]

/-- Operations of a group that may yet raise a record at the instruction (site 0): its queued matrix loops, and its floating
atomics on their way to scratchpads, each by its name. -/
def site0Due (s : State) (g : Group) : List Nat :=
  ((teamOfG s g).mq.filter (fun e => e.group == g.uid && !e.fin && (match e.kind with
    | .loop .. => true
    | _ => false))).map (·.id) ++
  (s.path.filter (fun e => e.owner == .group g.uid && (match e.op, e.acc.loc with
    | _, .mem _ => false
    | .atom _ ty _, _ | .red _ ty _, _ => tyFloat ty
    | _, _ => false))).map (·.id)

/-- Has a group raised, or may it raise, a site-0 record that is not in the log (R140)? -/
def recordsDue (s : State) (g : Group) : Bool :=
  let l := launchOfG s g
  (logMask l != 0 && !(site0Due s g).isEmpty) || s.apend.any (fun p => p.uid == g.uid)

/-- Log a cause raised at site 0 by group `uid` at place `key` of its program order: behind what earlier clauses may yet raise (R140). -/
def logG (s : State) (l : Launch) (uid key : Nat) (r : ARec) : State :=
  if !bit (logMask l) (r.cause - 1) then s
  else match getG s uid with
  | none => pushA s l.ctx r
  | some g =>
    if (site0Due s g).any (fun i => decide (i < key)) then
      { s with apend := s.apend.filter (fun p => decide (p.key ≤ key)) ++ [⟨uid, key, l.ctx, r⟩] ++ s.apend.filter (fun p => decide (key < p.key)) }
    else pushA s l.ctx r

/-- Records that no earlier clause of their group holds back any more enter the log (R140). -/
def settleA (s : State) : State :=
  if s.apend.isEmpty then s else
  let free (p : APend) : Bool := match getG s p.uid with
    | some g => !(site0Due s g).any (fun i => decide (i < p.key))
    | none => true
  (s.apend.filter free).foldl (fun s p => pushA s p.ctx { p.arec with time := dieNow s (dieOf p.arec.core) }) { s with apend := s.apend.filter (fun p => !free p) }

/-- At most one record per cause for one execution of the issuing group (R140): `who` lists the causes of each thread. -/
def logExec (s : State) (l : Launch) (base : ARec) (who : List (Nat × List Cause)) : State :=
  allCauses.foldl (fun s c =>
    let ts := (who.filter (fun p => p.2.contains c)).map (·.1)
    if ts.isEmpty then s else logG s l s.g.uid s.nid { base with mask := maskOf ts, cause := causeCode c, time := dieNow s (dieOf base.core) }) s

/-- Put a record into the barrier log (R446). -/
def pushB (s : State) (c : Nat) (r : BRec) : State :=
  let l := mget s.blog [] c
  if l.length < 64 then { s with blog := mput s.blog [] c (l ++ [r]) }
  else { s with blost := mput s.blost 0 c (min (2 ^ 32 - 1) (mget s.blost 0 c + 1)) }

end Sys2Proof.Machine
end

