-- ==== Sys2Proof/Machine/Xlate.lean ====
section
/-! DEFINITION. The physical map and the homes (R16, R17, R242, R436), reading a die view under a key (R378, R380), page
tables and the order of translation causes (R367 to R371), the extent checks of the scratchpad spaces (R52 to R54, R366)
and the range-lock check (R232, R233). -/

namespace Sys2Proof.Machine

/-! ### The physical map -/

inductive PaKind where
  | hbm | tier | host | peer (p : Nat) | unmapped
  deriving DecidableEq, Repr

/-- R16, R242; in the bring-up service the fold of R436. -/
def paKind (s : State) (pa : Nat) : PaKind :=
  let low := s.service == .bringUp
  if pa < (if low then 0x3000000000 else 0xC000000000) then .hbm
  else if 0x10000000000 ≤ pa ∧ pa < 0x20000000000 then (if low then .unmapped else .tier)
  else if 0x40000000000 ≤ pa ∧ pa < 0x100000000000 then .host
  else if 0x100000000000 ≤ pa ∧ pa < 0x3700000000000 then
    let p := (pa - 0x100000000000) / 2 ^ 41
    if low ∨ p = sysBits s 0x0100 8 0 then .unmapped else .peer p
  else .unmapped

def inMem (s : State) (pa : Nat) : Bool :=
  match paKind s pa with
  | .hbm | .tier => true
  | _ => false

def isWindow (s : State) (pa : Nat) : Bool :=
  match paKind s pa with
  | .host | .peer _ => true
  | _ => false

/-- Home die (R17); every home is die 0 in the bring-up service (R436). -/
def homeDie (s : State) (pa : Nat) : Nat :=
  if s.service = .bringUp then 0 else (bits pa 13 12) ^^^ (bits pa 21 20)
/-- Home slice (R17). -/
def homeSlice (pa : Nat) : Nat := (bits pa 12 7) ^^^ (bits pa 18 13)
/-- Stack of an HBM address (R17, R436). -/
def stackOf (s : State) (pa : Nat) : Nat := 3 * homeDie s pa + (pa / 2 ^ 14) % 3
/-- The L2 slice at the home of an address, as a source of records. -/
def srcHome (s : State) (pa : Nat) : Nat := srcL2 (homeDie s pa) (homeSlice pa)

/-! ### Bytes of a die view -/

def vkey (die pa : Nat) : Nat := die * 2 ^ 52 + pa

/-- Generation of a key slot; slot 0 has one key since reset (R379). A slot that has never had a key writes under one that no other
slot has. -/
def genOf (s : State) (key : Nat) : Nat :=
  if key = 0 then 1 else if mget s.keygen 0 key = 0 then 2 ^ 64 + key else mget s.keygen 0 key

/-- A byte of die view `die` read under slot `key` (R378): a sector written under another key reads as bits that depend
on nothing written (R380), a free value. -/
def rdByte (s : State) (die pa key : Nat) : Byte :=
  let tag := mget s.tags 0 (pa / 32)
  if tag = 0 ∨ tag = genOf s key then mget s.mem 0 (vkey die pa)
  else Config.wrongKeyByte pa tag (genOf s key)

def rdBytes (s : State) (die pa key : Nat) : Nat → List Byte
  | 0 => []
  | n + 1 => rdByte s die pa key :: rdBytes s die (pa + 1) key n

/-- A physical word read at its home under key slot 0 (R367). -/
def rdPhys (s : State) (pa n : Nat) : Nat := leNat (rdBytes s (homeDie s pa) pa 0 n)

/-! ### Page tables -/

inductive AKind where
  | load | store | atom | fetch | red
  deriving DecidableEq, Repr

/-- Number of an access kind in a fault record (R370). -/
def akindNo : AKind → Nat
  | .load => 1 | .store => 2 | .atom => 3 | .fetch => 4 | .red => 5

/-- What an access that is neither made nor faulted waits for. -/
inductive Away where
  /-- the page is away: leaf address, leaf, page base VA (R375) -/
  | page (leafAddr leaf page : Nat)
  /-- the page is being moved: context and base VA (R374, R375) -/
  | moving (page : Nat)
  /-- the TLB of a core misses on the page of an address of group `uid`: a walk (R371) -/
  | walk (core uid va : Nat)
  /-- bytes of a window that a party has asked for or has yet to ask for (R203, R243): `pas` are pieces of up to 8 bytes -/
  | window (owner : Owner) (scalar : Bool) (frag va : Nat) (pas : List (Nat × Nat))
  /-- a scattered line, which is recalled first (R220) -/
  | line (n : Nat)
  deriving DecidableEq, Repr

/-- Outcome of a translation. -/
inductive Tr where
  | ok (pa key : Nat) (uncached : Bool) (leafAddr leaf page : Nat)
  | bad (c : FCause)
  | away (aw : Away)
  deriving DecidableEq, Repr

/-- log2 of the page size, and the leaf level, of a size code (R369). -/
def pageLog : Nat → Nat
  | 0 => 12 | 1 => 14 | 2 => 16 | 3 => 18 | 4 => 20 | 5 => 21 | 6 => 25 | 7 => 28 | 8 => 30 | _ => 34
def leafLevel (sz : Nat) : Nat := if sz ≤ 4 then 4 else if sz ≤ 7 then 3 else 2

/-- Bits [63:57] must equal bit [56] (R367). -/
def canonical (va : Nat) : Bool := bits va 63 57 == (if bit va 56 then 127 else 0)

def ptePa (e : Nat) : Nat := bits e 51 12 * 4096

/-- Is a valid entry met at a level bad (R369)? -/
def badEntry (s : State) (level e : Nat) : Bool :=
  let sz := bits e 63 60
  let pa := ptePa e
  if bits e 11 10 ≠ 0 ∨ bit e 2 then true
  else if bit e 1 then
    decide (level = 4) || decide (sz ≠ 0) || decide (bits e 59 52 ≠ 0) || decide (bits e 9 3 ≠ 0) || !inMem s pa
  else
    decide (level < 2) || decide (9 < sz) || decide (leafLevel sz ≠ level) || decide (pa % 2 ^ pageLog sz ≠ 0) ||
    (paKind s pa == .tier && decide (5 < sz)) ||
    (bit e 9 && (!bit e 8 || !(paKind s pa == .tier))) ||
    (bit e 8 && (bit e 7 || isWindow s pa))

/-- Key check of R370. -/
def keyOk (s : State) (c e pa : Nat) : Bool :=
  if inMem s pa then
    let k := bits e 59 52
    let own := sysGet s (rCtx c 2)
    sysBit s (rKey k) 0 && (k == bits own 7 0 || (bit own 16 && k == bits own 15 8))
  else true

def permOk (e : Nat) : AKind → Bool
  | .load => bit e 3
  | .store => bit e 4
  | .atom => bit e 3 && bit e 4
  | .fetch => bit e 5
  | .red => bit e 4

/-- Has a move of a page begun (R374)? -/
def isMoving (s : State) (c page : Nat) : Bool := s.migq.any (fun m => m.moving && m.ctx == c && m.va == page)

/-- The checks on a leaf, in the order of R370, then the A bit and a move in progress (R375). -/
def useLeaf (s : State) (c : Nat) (kind : AKind) (va leafAddr e : Nat) : Tr :=
  let log := pageLog (bits e 63 60)
  let pa := ptePa e + va % 2 ^ log
  let page := va - va % 2 ^ log
  if !keyOk s c e pa then .bad .keySlot
  else if !permOk e kind then .bad .permission
  else if isMoving s c page then .away (.moving page)
  else if bit e 9 then .away (.page leafAddr e page)
  else .ok pa (bits e 59 52) (bit e 6 || isWindow s pa) leafAddr e page

/-- Index of a level (R367). -/
def pteIndex (level va : Nat) : Nat := bits va (56 - 9 * level) (48 - 9 * level)

/-- The walk from a table at `base` (R367 to R370). -/
def walkFrom (s : State) (c : Nat) (kind : AKind) (va : Nat) : Nat → Nat → Nat → Tr
  | 0, _, _ => .bad .badEntry
  | fuel + 1, level, base =>
    let ea := base + 8 * pteIndex level va
    let e := rdPhys s ea 8
    if !bit e 0 then .bad .unmapped
    else if !bit e 1 && paKind s (ptePa e) == .unmapped then .bad .unmapped
    else if badEntry s level e then .bad .badEntry
    else if bit e 1 then walkFrom s c kind va fuel (level + 1) (ptePa e)
    else useLeaf s c kind va ea e

def walk (s : State) (c : Nat) (kind : AKind) (va : Nat) : Tr :=
  if !canonical va || !ctxLive s c then .bad .unmapped
  else
    let root := ptePa (sysGet s (rCtx c 0))
    if !inMem s root then .bad .badEntry else walkFrom s c kind va 5 0 root

/-- The page a core's TLB holds for an address (R371). -/
def tlbFind (s : State) (core c va : Nat) : Option TlbE :=
  s.tlb.find? (fun x => x.core == core && x.ctx == c && decide (x.base ≤ va) && decide (va < x.base + x.size))

/-- The 4 KiB page by which a walk is named. -/
def walkPage (va : Nat) : Nat := va - va % 4096

/-- Size code of the leaf at the end of a walk from a table at `base`, as the tables stand. -/
def leafSize (s : State) (va : Nat) : Nat → Nat → Nat → Option Nat
  | 0, _, _ => none
  | fuel + 1, level, base =>
    let e := rdPhys s (base + 8 * pteIndex level va) 8
    if !bit e 0 || badEntry s level e then none
    else if bit e 1 then leafSize s va fuel (level + 1) (ptePa e)
    else some (bits e 63 60)

/-- Do two addresses of a context lie in one page (R371)? -/
def samePage (s : State) (c a b : Nat) : Bool :=
  walkPage a == walkPage b || (match leafSize s a 5 0 (ptePa (sysGet s (rCtx c 0))) with
    | some z => a / 2 ^ pageLog z == b / 2 ^ pageLog z
    | none => false)

/-- The walk of a group on the page of an address (R371): a miss anywhere in the page waits on it. -/
def walkOf (s : State) (core c uid va : Nat) : Option PWalk :=
  s.walks.find? (fun x => x.core == core && x.ctx == c && x.uid == uid && samePage s c va x.page)

/-- Translate an address for a party of group `uid` on a core: a held entry is used; a miss waits for the group's walk of
the page, whose failure is the access's (R371, R372). -/
def translate (s : State) (core c uid : Nat) (kind : AKind) (va : Nat) : Tr :=
  if !canonical va || !ctxLive s c then .bad .unmapped
  else match tlbFind s core c va with
  | some x => useLeaf s c kind va x.addr x.leaf
  | none =>
    match (walkOf s core c uid va).bind (·.failed) with
    | some f => .bad f
    | none => .away (.walk core uid va)

/-! ### Extents of the scratchpad spaces (R52 to R54, R366) -/

/-- Outcome of the checks of one access. -/
inductive Chk where
  | ok (a : Acc)
  | bad (c : FCause)
  | away (aw : Away)
  deriving DecidableEq, Repr

/-- The team of the cluster of `t` with rank r (R53, R457). -/
def teamOfRank (s : State) (t : Team) (r : Nat) : Option Team :=
  (allT s).find? (fun x => x.launch == t.launch && x.cluster == t.cluster && x.rank == r && x.node == t.node && x.clusterN == t.clusterN
    && (t.clusterN != 1 || x.uid == t.uid))

/-- Bytes [off, off + n) of region or window `lim`. -/
def inside (off n lim : Nat) : Bool := decide (off + n ≤ lim)

/-- Steps 1 and 2 of R257 for one access of n bytes by thread `th` of group g of team t in context c. -/
def checkAcc (s : State) (g : Nat) (t : Team) (c : Nat) (th : Nat) (sp : Space) (kind : AKind) (va n al : Nat) : Chk :=
  if va % al ≠ 0 then .bad .misaligned else
  match sp with
  | .g =>
    match translate s t.core c g kind va with
    | .ok pa key unc _ _ _ => .ok { sp := .g, va := va, loc := .mem pa, n := n, key := key, cached := !unc }
    | .bad f => .bad f
    | .away aw => .away aw
  | .s => if inside va n t.scrB then .ok { sp := .s, va := va, loc := .team t.uid va, n := n } else .bad .bounds
  | .k =>
    if va / 2 ^ 24 ≠ 0 ∨ t.clusterN ≤ bits va 23 20 then .bad .bounds
    else match teamOfRank s t (bits va 23 20) with
      | none => .bad .bounds
      | some x => if inside (bits va 19 0) n x.scrB then .ok { sp := .k, va := va, loc := .team x.uid (bits va 19 0), n := n } else .bad .bounds
  | .d =>
    let w := sysGet s (rCtx c 5)
    if inside va n (65536 * bits w 9 0) then
      .ok { sp := .d, va := va, loc := .die (dieOf t.core) (65536 * bits w 25 16 + va), n := n }
    else .bad .bounds
  | .l => if inside va n t.sliceB then .ok { sp := .l, va := va, loc := .lane g th va, n := n } else .bad .bounds

/-- A space and 57-bit address packed as in R125 and R223: a `.g` address is sign-extended from bit [56]. -/
def packedVa (sp : Space) (x : Nat) : Nat :=
  match sp with
  | .g => (sextW x 57).toNat
  | _ => x % 2 ^ 57

/-- A packed space and address with bits [63:60] zero (R223): space and address; none when refused. -/
def packedOf (x : Nat) : Option (Space × Nat) :=
  if bits x 63 60 ≠ 0 ∨ 3 < bits x 59 57 then none
  else
    let sp := (spaceOfCode (bits x 59 57)).getD .g
    some (sp, packedVa sp (bits x 56 0))

/-! ### Range locks -/

/-- Holder and first byte of a place, for the lock table (R232). -/
def lockKey (a : Acc) : Nat × Nat :=
  match a.loc with
  | .mem _ => (0, a.va)
  | .team t off => (t, off)
  | .die d off => (d, off)
  | .lane _ _ off => (0, off)

/-- `.k` ranges lock the bytes their team reaches by `.s`. -/
def lockSp : Space → Space
  | .k => .s
  | x => x

/-- Does an access overlap a range held against it (R233)? -/
def locked (s : State) (c : Nat) (a : Acc) (write : Bool) : Bool :=
  !(a.sp == .l) && s.locks.any (fun k =>
    k.ctx == c && k.sp == lockSp a.sp && k.holder == (lockKey a).1 &&
    decide ((lockKey a).2 < k.hi ∧ k.lo < (lockKey a).2 + a.n) && (k.dst || write))

end Sys2Proof.Machine
end

