-- ==== Sys2Proof/Machine/Land.lean ====
section
/-! DEFINITION. Landing of results and the end of a long-latency operation (R36, R37, R205, R111). -/

namespace Sys2Proof.Machine

/-- The 32 bits of a register that holds a value of a type of at most 32 bits (R111). -/
def regOf (ty : LType) (x : Nat) : VWord :=
  match ty with
  | .i8 => BitVec.ofInt 32 (sint x 8)
  | .i16 => BitVec.ofInt 32 (sint x 16)
  | .n8 => BitVec.ofNat 32 (x % 256)
  | .f16 | .bf16 => BitVec.ofNat 32 (x % 65536)
  | _ => BitVec.ofNat 32 x

/-- Write a value of type ty to the register or pair d of thread t (R50, R111). -/
def writeTy (g : Group) (ty : LType) (d t x : Nat) : Group :=
  if tyWide ty then writeV64 g d t x else writeV g d t (regOf ty x)

/-- Mark a completion flag down by one (R36). -/
def lowerFlag (g : Group) (f : Nat) : Group := { g with fl := mput g.fl 0 f (mget g.fl 0 f - 1) }
def raiseFlag (g : Group) (f : Nat) : Group := { g with fl := mput g.fl 0 f (mget g.fl 0 f + 1) }

def getOp (g : Group) (id : Nat) : Option LOp := g.ops.find? (fun o => o.id == id)

/-- End an operation: its held results land, its flags fall, its registers are pending no more; a fragment whose acquire
followed it may go on to the acquire's own wait. -/
def finishOp (g : Group) (o : LOp) : Group :=
  let g := o.res.foldl (fun g p => writeV g (p.1 / 64) (p.1 % 64) p.2) g
  let g := o.kres.foldl (fun g p => writeK g p.1 p.2.1 p.2.2) g
  let g := o.flags.foldl lowerFlag g
  { g with
    ops := g.ops.filter (fun x => x.id != o.id)
    frs := g.frs.map (fun p =>
      match p.2.wait with
      | .acqOp i scp => if i = o.id then (p.1, { p.2 with wait := .acqDue scp o.bound }) else p
      | _ => p) }

/-- Change an operation; end it when nothing of it is left. -/
def opStep (g : Group) (id : Nat) (f : LOp → LOp) : Group :=
  match getOp g id with
  | none => g
  | some o =>
    let o' := f o
    let g' := { g with ops := mapFirst (fun x => x.id == id) (fun _ => o') g.ops }
    if o'.parts.isEmpty && o'.left == 0 then finishOp g' o' else g'

/-- One completion of an operation. -/
def opLess (g : Group) (id : Nat) : Group := opStep g id (fun o => { o with left := o.left - 1 })

/-- Threads that a value returned to thread t is written to (R31). -/
def landTo (o : LOp) (t : Nat) : List Nat := if o.uni then threads o.act else [t]

/-- An operation keeps a value under a number: a word of a name or record that it reads (R340, R351), a thread's status. -/
def keepVal (g : Group) (id t x : Nat) : Group :=
  { g with ops := mapFirst (fun o => o.id == id) (fun o => { o with vals := o.vals ++ [(t, x)] }) g.ops }

/-- A value returned to thread t of an operation lands in its destination. What `claim`, `emit` and their like read stays with
the operation; a `bindg` found its cell unbound, status 0, or bound, status 1 (R335). -/
def landVal (g : Group) (o : LOp) (t x : Nat) : Group :=
  match o.kind with
  | .claim | .emit => keepVal g o.id t x
  | .term => keepVal g o.id t (if bits x 63 60 = 0 then 0 else 1)
  | _ => (landTo o t).foldl (fun g t => writeTy g o.ty o.d t x) g

/-- Registers pending for the group (R37). -/
def pendingRegs (g : Group) : List Nat := g.ops.foldl (fun l o => o.pend ++ l) []

end Sys2Proof.Machine
end

