-- ==== Sys2Proof/Machine/Package.lean ====
section
/-! DEFINITION. The package (R6, R9, R10, R15 to R18, R20 to R22): which sectors the L2 holds, the pseudo-channels and rows of
a stack with what an activate opens, the half of the capacity tier, and the requests of a coalesced access. None of it
changes a value. -/

namespace Sys2Proof.Machine

/-! ### Pseudo-channels and rows (R15, R17, R18, R22) -/

/-- Pseudo-channel of an HBM address, 0 to 95 (R17). -/
def pchan (pa : Nat) : Nat := 32 * (pa / 2 ^ 14 / 3 % 3) + bits pa 11 7

/-- Place of a line among the lines of its pseudo-channel. In the bring-up service PA[13:12] does not name the die (R436). -/
def lineInChan (s : State) (pa : Nat) : Nat :=
  if s.service = .bringUp then 4 * (pa / 2 ^ 14 / 9) + bits pa 13 12 else pa / 2 ^ 14 / 9

/-- A row as a number: stack × 2^40 + pseudo-channel × 2^32 + row of the channel. Eight lines of a channel that follow one
another make a row (log 39). -/
def rowKey (s : State) (pa : Nat) : Nat := stackOf s pa * 2 ^ 40 + pchan pa * 2 ^ 32 + lineInChan s pa / 8
/-- Segment of a line in its row (R18). -/
def segOf (s : State) (pa : Nat) : Nat := lineInChan s pa % 8
/-- Die of a row's stack (R15). -/
def rowDie (r : Nat) : Nat := r / 2 ^ 40 / 3 % 4

/-- The first byte of a row. -/
def rowPa (s : State) (r : Nat) : Nat :=
  let stk := r / 2 ^ 40
  let pc := r / 2 ^ 32 % 256
  let q := 8 * (r % 2 ^ 32)
  let x (n : Nat) : Nat := 9 * n + stk % 3 + 3 * (pc / 32)
  if s.service = .bringUp then x (q / 4) * 2 ^ 14 + pc % 32 * 128
  else x q * 2 ^ 14 + ((stk / 3) ^^^ bits (x q) 7 6) * 2 ^ 12 + pc % 32 * 128

/-- The stack whose router holds an address: the half of the tier that A[12] chooses stands behind stack 1 or 10 (R22). -/
def routerOf (s : State) (pa : Nat) : Nat :=
  match paKind s pa with
  | .tier => if bit pa 12 then 10 else 1
  | _ => stackOf s pa
def srcStack (s : State) (pa : Nat) : Nat := 0x300 + routerOf s pa

/-- Does the L2 of a die hold a sector? -/
def l2Has (s : State) (die sec : Nat) : Bool := bit (mget s.l2 0 (vkey die (sec / 4))) (sec % 4)

/-- The sectors of [pa, pa + n). -/
def sectorsOf (pa n : Nat) : List Nat := iota (pa / 32) ((pa + n + 31) / 32 - pa / 32)

/-- Requests of coalesced accesses. -/
def secReqs (s : State) : List SecReq := (allG s).flatMap (fun g => g.ops.flatMap (·.reqs))

/-- Sectors that a request of some party must have from a stack: those due to coalesced accesses, and those of stores and atomics on
their way; reductions go to an atomic cache. What the L2 of the home holds needs no stack. -/
def dueSectors (s : State) : List Nat :=
  ((secReqs s).flatMap (fun (r : SecReq) => r.secs) ++ s.path.flatMap (fun (e : PEnt) => match e.st, e.op, e.acc.loc with
    | _, .red .., _ => []
    | .sent, _, .mem pa => sectorsOf pa e.acc.n
    | _, _, _ => [])).filter (fun sec => !l2Has s (homeDie s (32 * sec)) sec)

/-- Segments of row r in which some of the sectors lie. -/
def segsOf (s : State) (r : Nat) (secs : List Nat) : Nat :=
  secs.foldl (fun m n => if paKind s (32 * n) = .hbm ∧ rowKey s (32 * n) = r then m ||| 2 ^ segOf s (32 * n) else m) 0

/-- Sectors of the requests that have the identity of a request which waits for sector `sec` (R20, R21). -/
def sameReqs (s : State) (sec : Nat) : List Nat :=
  let l := secReqs s
  let who := l.filter (fun r => r.secs.contains sec)
  ((l.filter (fun r => who.any (fun x => x.core == r.core && x.part == r.part && x.slot == r.slot && x.entry == r.entry))).flatMap (·.secs)).filter
    (fun x => !l2Has s (homeDie s (32 * x)) x)

/-- An access reaches a stack: a closed row opens the segments that are needed, an open one the closed segment alone, with those that
requests of the same identity need; each activate counts (R18, R21, R381, R407). -/
def openSeg (s : State) (pa : Nat) : State :=
  if paKind s pa ≠ .hbm then s else
  let r := rowKey s pa
  let m := mget s.rows 0 r
  if bit m (segOf s pa) then s
  else
    let new := 2 ^ segOf s pa ||| segsOf s r (if m = 0 then dueSectors s else sameReqs s (pa / 32))
    countDie { s with rows := mput s.rows 0 r (m ||| new), act := mput s.act 0 r (min 4095 (mget s.act 0 r + 1)) } (rowDie r) 0x04 none 1

/-! ### The L2 (R9, R10) -/

/-- Lines that one slice of 2 MiB holds. -/
def l2Lines : Nat := 16384

/-- Lines that slice `sl` of die `die` holds. -/
def sliceLines (s : State) (die sl : Nat) : List Nat :=
  (s.l2.filter (fun e => e.1 / 2 ^ 52 == die && homeSlice (e.1 % 2 ^ 52 * 128) == sl)).map (·.1)

/-- A full slice gives up a line of the device's choice. -/
def l2Room (s : State) (die sl : Nat) : State :=
  if s.l2.length < l2Lines then s else
  let l := sliceLines s die sl
  if l.length < l2Lines then s
  else { s with l2 := mput s.l2 0 ((l[Config.freeChoice s.fresh % l.length]?).getD 0) 0, fresh := s.fresh + 1 }

def l2Fill (s : State) (die sec : Nat) : State :=
  let k := vkey die (sec / 4)
  let s := if mget s.l2 0 k = 0 then l2Room s die (homeSlice (32 * sec)) else s
  { s with l2 := mput s.l2 0 k (mget s.l2 0 k ||| 2 ^ (sec % 4)) }

/-- A sector is looked up in the L2 of its home, and fetched from its stack on a miss. -/
def l2Home (s : State) (c : Option Nat) (sec : Nat) : State :=
  let h := homeDie s (32 * sec)
  if l2Has s h sec then countDie s h 0x01 c 1 else l2Fill (openSeg (countDie s h 0x02 c 1) (32 * sec)) h sec

/-- A read of a sector by a party of a die (R10, R17): a replica that does not hold it has it from the home. -/
def l2Read (s : State) (die : Nat) (c : Option Nat) (sec : Nat) : State :=
  let h := homeDie s (32 * sec)
  if die = h then l2Home s c sec
  else if l2Has s die sec then countDie s die 0x01 c 1
  else
    let sl := homeSlice (32 * sec)
    l2Fill (xfer (l2Home (countDie s die 0x02 c 1) c sec) (srcL2 h sl) (srcL2 die sl) 32) die sec

/-- The sectors of a range are read by a party of a die. -/
def l2Reads (s : State) (die : Nat) (c : Option Nat) (pa n : Nat) : State := (sectorsOf pa n).foldl (fun s sec => l2Read s die c sec) s

/-- A replica's sectors are invalidated where an update writes (R197). -/
def l2Drop (s : State) (die sec : Nat) : State :=
  let k := vkey die (sec / 4)
  let m := mget s.l2 0 k
  if bit m (sec % 4) then { s with l2 := mput s.l2 0 k (m - 2 ^ (sec % 4)) } else s

/-! ### Coalesced requests (R20, R21) -/

/-- Put a sector into the request to its home slice. -/
def addSec (s : State) (r : SecReq) (l : List SecReq) (sec : Nat) : List SecReq :=
  let d := homeDie s (32 * sec)
  let n := homeSlice (32 * sec)
  if l.any (fun x => x.die == d && x.slice == n) then
    l.map (fun x => if x.die = d ∧ x.slice = n ∧ !x.secs.contains sec then { x with secs := x.secs ++ [sec] } else x)
  else l ++ [{ r with die := d, slice := n, secs := [sec] }]

/-- Sectors due to an operation: the outstanding count of R20. -/
def secsDue (o : LOp) : Nat := (o.reqs.map (·.secs.length)).sum

/-- Delivered sectors are due no more. -/
def takeSecs (secs : List Nat) (l : List SecReq) : List SecReq :=
  l.map (fun r => { r with secs := r.secs.filter (fun x => !secs.contains x), got := r.got ++ r.secs.filter (fun x => secs.contains x) })

/-- Sectors arrive at their home slice: every request that waits for them there is served (R21). -/
def deliverSecs (s : State) (secs : List Nat) : State :=
  let f (g : Group) : Group :=
    if g.ops.all (fun o => secsDue o == 0) then g
    else { g with ops := g.ops.map (fun o => { o with reqs := takeSecs secs o.reqs }) }
  { s with g := f s.g, groups := s.groups.map f }

end Sys2Proof.Machine
end

