-- ==== Sys2Proof/Machine/View.lean ====
section
/-! DEFINITION. The four die views, the inbound queues and the scratchpads as stores (R197 to R201, R204, R216): writing
a view with its stamp, arrival of bytes at a home, stores of the device itself, the L1 sectors (R202), poison of 4-byte
units (R433), sector keys (R378, R380), rings in physical memory (R376, R434). -/

namespace Sys2Proof.Machine

/-! ### Writing a view -/

/-- Units of 4 bytes that [a, a + n) touches, and those it covers whole. -/
def unitsTouched (a n : Nat) : List Nat := iota (a / 4) ((a + n + 3) / 4 - a / 4)
def unitsWhole (a n : Nat) : List Nat := (unitsTouched a n).filter (fun u => decide (a ≤ 4 * u ∧ 4 * u + 4 ≤ a + n))

/-- Poisoned units after a write of [a, a + n): poisoned data poisons what it touches, clean data cleans whole units. -/
def pzWrite (pz : List Nat) (a n : Nat) (poison : Bool) : List Nat :=
  if poison then (unitsTouched a n).filter (fun u => !pz.contains u) ++ pz
  else if pz.isEmpty then pz else pz.filter (fun u => !(unitsWhole a n).contains u)

/-- Write bytes into a die view with one stamp (R198, R200). -/
def wrView (s : State) (die pa : Nat) (data : List Byte) (st : Stamp) (poison : Bool) : State :=
  { s with
    mem := mputs s.mem 0 (vkey die pa) data
    stamps := mputs s.stamps {} (vkey die pa) (data.map (fun _ => st))
    pz := pzWrite s.pz (vkey die pa) data.length poison }

def dies : List Nat := [0, 1, 2, 3]

/-- Context of an owner of store-path entries, if it has one. -/
def ownerCtx (s : State) (o : Owner) : Option Nat :=
  match o with
  | .group u | .stream u => (getG s u).map (ctxOfG s)
  | .engine i => (s.eops.find? (fun e => e.id == i)).map (·.ctx)
  | _ => none

/-- Bytes of the whole sectors of a range, which the caches transfer (R10). -/
def secBytes (pa n : Nat) : Nat := 32 * (sectorsOf pa n).length

/-- A sector last written under another key is written again under this one: bytes that stood there keep nothing of the
old data (R378, R380). -/
def retag (s : State) (key sec : Nat) : State :=
  let tag := mget s.tags 0 sec
  let gen := genOf s key
  if tag = gen then s
  else
    let s1 := { s with tags := mput s.tags 0 sec gen }
    if tag = 0 then s1
    else
      let junk := (iota 0 32).map (fun i => Config.wrongKeyByte (32 * sec + i) tag gen)
      dies.foldl (fun s d => { s with mem := mputs s.mem 0 (vkey d (32 * sec)) junk }) s1

/-- h's next number (R198). -/
def nextNum (s : State) (h : Nat) : Nat × State :=
  let n := v4get s.seqn h + 1
  (n, { s with seqn := v4set s.seqn h n })

/-- Where an update stands in its line, and the bytes of the sectors that it carries. -/
def updPlace : UpdK → Nat × Nat
  | .bytes pa d _ => (pa, secBytes pa d.length)
  | .same pa d _ _ => (pa, secBytes pa d.length)
  | .runs ws _ => ((ws.headD (0, [])).1, (ws.map (fun w => secBytes w.1 w.2.length)).sum)
  | .mark line => (128 * line, 0)
  | .clear line ws => (128 * line, (ws.map (fun w => secBytes w.1 w.2.1.length)).sum)

/-- Append one update to each inbound queue out of h (R200), which leaves over the links with the stamp of its home (R391). In the
bring-up service only die 0 is served (R436). -/
def pushUpds (s : State) (h num : Nat) (owner : Owner) (ent : Nat) (vec : V4) (k : UpdK) : State :=
  if s.service = .bringUp then s else
  let p := updPlace k
  let src := srcL2 h (homeSlice p.1)
  let us := (dies.filter (· != h)).map (fun e =>
    { home := h, dst := e, num := num, ser := s.nid, owner := owner, ent := ent, vec := vec, k := k,
      gen := mget s.tags 0 (p.1 / 32), sg := stampNow s src + 1 : Upd })
  us.foldl (fun s u => linkBytes s h u.dst p.2) { s with inq := s.inq ++ us, nid := s.nid + 1 }

/-- Bytes of an update at a place, as they read under the key its sector has now: nothing of the old data where the sector has been
written under another key meanwhile (R380). -/
def updBytes (s : State) (gen pa : Nat) (d : List Byte) : List Byte :=
  let f (p : Byte × Nat) : Byte :=
    let tag := mget s.tags 0 ((pa + p.2) / 32)
    if tag = gen then p.1 else Config.wrongKeyByte (pa + p.2) gen tag
  if (sectorsOf pa d.length).all (fun sec => mget s.tags 0 sec == gen) then d else d.zipIdx.map f

/-- Arrival of bytes at their home: number, write, updates (R200). Returns the number. -/
def arriveBytes (s : State) (pa key : Nat) (data : List Byte) (vec : V4) (owner : Owner) (ent : Nat) (poison : Bool) : Nat × State :=
  let h := homeDie s pa
  let r := nextNum s h
  let s1 := (sectorsOf pa data.length).foldl (fun s sec => l2Home (retag s key sec) (ownerCtx s owner) sec) r.2
  let s2 := wrView s1 h pa data ⟨r.1, vec⟩ poison
  (r.1, pushUpds s2 h r.1 owner ent vec (.bytes pa data poison))

/-- Arrival of the bytes of one store with gaps: one number for all (R200, R221). -/
def arriveRuns (s : State) (pa key : Nat) (ws : List (Nat × List Byte)) (vec : V4) (owner : Owner) (ent : Nat) (poison : Bool) : Nat × State :=
  let h := homeDie s pa
  let r := nextNum s h
  let s := ws.foldl (fun s w => wrView ((sectorsOf w.1 w.2.length).foldl (fun s sec => l2Home (retag s key sec) (ownerCtx s owner) sec) s)
    h w.1 w.2 ⟨r.1, vec⟩ poison) r.2
  (r.1, pushUpds s h r.1 owner ent vec (.runs ws poison))

/-! ### The L1 (R202) -/

def dropL1 (s : State) (core : Nat) : State := { s with l1 := s.l1.filter (fun x => x.core != core) }

def l1Find (s : State) (core pa key : Nat) : Option L1Sec :=
  s.l1.find? (fun x => x.core == core && x.pa == pa / 32 && x.key == key && x.gen == genOf s key)

/-- Stamps of a run of bytes of a view. -/
def rdStamps (s : State) (die pa : Nat) : Nat → List Stamp
  | 0 => []
  | n + 1 => mget s.stamps {} (vkey die pa) :: rdStamps s die (pa + 1) n

def pzByte (s : State) (die pa : Nat) : Bool := s.pz.contains (vkey die pa / 4)

/-- Lines of the L1 of a core: 256 KiB (R9, R10). -/
def l1Lines : Nat := 2048

/-- An L1 with no room for one more line gives up a line of the device's choice (R202: a sector may be dropped at any move). -/
def l1Room (s : State) (core line : Nat) : State :=
  if s.l1.length < l1Lines then s else
  let held := ((s.l1.filter (fun x => x.core == core)).map (fun x => x.pa / 4)).eraseDups
  if held.contains line ∨ held.length < l1Lines then s
  else
    let gone := (held[Config.freeChoice s.fresh % held.length]?).getD 0
    { s with l1 := s.l1.filter (fun x => !(x.core == core && x.pa / 4 == gone)), fresh := s.fresh + 1 }

/-- Fill a sector from the die view (R202). -/
def fillL1 (s : State) (core die pa key : Nat) : State :=
  match l1Find s core pa key with
  | some _ => s
  | none =>
    let a := pa / 32 * 32
    let s := l1Room s core (pa / 128)
    { s with l1 := s.l1 ++ [{ core := core, pa := pa / 32, key := key, gen := genOf s key, data := rdBytes s die a key 32,
                              stamps := rdStamps s die a 32, poison := (iota 0 32).map (fun i => pzByte s die (a + i)) }] }

/-- Update the bytes of a sector held by a core; a part of a poisoned unit leaves it poisoned (R433). -/
def patchSec (x : L1Sec) (pa : Nat) (data : List Byte) (st : Stamp) (poison : Bool) : L1Sec :=
  let a := x.pa * 32
  let f {α : Type} (l : List α) (g : Nat → Option α) : List α := l.zipIdx.map (fun p => (g (a + p.2)).getD p.1)
  { x with
    data := f x.data (fun p => if pa ≤ p then data[p - pa]? else none)
    stamps := f x.stamps (fun p => if pa ≤ p ∧ p < pa + data.length then some st else none)
    poison := f x.poison (fun p => if poison then (if (unitsTouched pa data.length).contains (p / 4) then some true else none)
      else if (unitsWhole pa data.length).contains (p / 4) then some false else none) }

/-- The issuing core's own store reaches its L1 at acknowledgement (R201), where the sector stands there under the store's key. -/
def patchL1 (s : State) (core pa key : Nat) (data : List Byte) (st : Stamp) (poison : Bool) : State :=
  { s with l1 := s.l1.map (fun x =>
      if x.core = core ∧ (sectorsOf pa data.length).contains x.pa ∧ x.key = key ∧ x.gen = genOf s key then patchSec x pa data st poison else x) }

/-! ### Reads of windows that keep their answers (R203, R243) -/

/-- The pieces of up to 8 bytes of a range that do not cross an aligned 8-byte place. -/
def winPieces (pa n : Nat) : List (Nat × Nat) :=
  (iota (pa / 8) ((pa + n + 7) / 8 - pa / 8)).map (fun q => (max pa (8 * q), min (pa + n) (8 * q + 8) - max pa (8 * q)))

def winVal (s : State) (o : Owner) (frag c pa n : Nat) : Option WinVal :=
  s.winVals.find? (fun v => v.owner == o && v.frag == frag && v.ctx == c && v.pa == pa && v.n == n)

/-- Bytes of a window that a party has been answered, and whether any is poisoned; else the pieces that are missing. -/
def winRead (s : State) (o : Owner) (frag c pa n : Nat) : (List Byte × Bool) ⊕ List (Nat × Nat) :=
  let ps := winPieces pa n
  let vs := ps.map (fun p => winVal s o frag c p.1 p.2)
  if vs.all (·.isSome) then
    .inl (vs.flatMap (fun v => match v with | some v => leBytes v.n v.x | none => []), vs.any (fun v => match v with | some v => v.poison | none => false))
  else .inr ((ps.zip vs).filterMap (fun p => if p.2.isNone then some p.1 else none))

/-- Forget the answers of a party and fragment. -/
def clearWin (s : State) (o : Owner) (frag : Nat) : State :=
  if s.winVals.isEmpty then s else { s with winVals := s.winVals.filter (fun v => !(v.owner == o && v.frag == frag)) }

/-- Is a physical address in a peer's window? -/
def peerPa (s : State) (pa : Nat) : Bool :=
  match paKind s pa with
  | .peer _ => true
  | _ => false

/-- The party that sends a request, as a source of stamps (R390, R391). -/
def ownerSrc (s : State) : Owner → Nat
  | .group u => match getG s u with
    | some g => (teamOfG s g).core
    | none => srcDev
  | .stream u => match getG s u with
    | some g => srcEng (dieOf (teamOfG s g).core)
    | none => srcDev
  | .engine i => match s.eops.find? (fun e => e.id == i) with
    | some e => srcEng (dieOf e.core)
    | none => srcDev
  | _ => srcDev

/-- The port through which traffic of a window leaves: die 0's PCI Express port, or a port of the home die, the device's choice
which (R24, R243). -/
def winPort (s : State) (pa : Nat) : Nat × State :=
  if peerPa s pa then (srcPort (9 * homeDie s pa + Config.freeChoice s.fresh % 9), { s with fresh := s.fresh + 1 }) else (0x500, s)

/-- A non-posted access of source `src` leaves for a window with `bytes` bytes of data, over the links of its route (R7, R24, R391). -/
def openWin (s : State) (src bytes : Nat) (w : WinReq) : State :=
  let p := winPort s w.pa
  let s := xfer p.2 src p.1 bytes
  { s with wins := s.wins ++ [{ w with id := s.nid, peer := peerPa s w.pa, born := s.now, src := src, port := p.1 }], nid := s.nid + 1 }

/-- Ask for pieces that are not on their way. -/
def askWin (s : State) (o : Owner) (scalar : Bool) (frag c va : Nat) (pas : List (Nat × Nat)) : State :=
  pas.foldl (fun s p =>
    if s.wins.any (fun w => w.keep && w.owner == o && w.frag == frag && w.ctx == c && w.pa == p.1 && w.n == p.2) then s
    else openWin s (ownerSrc s o) 0 { id := 0, kind := .load, peer := false, ctx := c, owner := o, pa := p.1, n := p.2, frag := frag,
                                      scalar := scalar, pc := s.g.pc, keep := true, va := va }) s

/-! ### Scratchpads and lane slices (R52, R204) -/

def dkey (d off : Nat) : Nat := d * 2 ^ 26 + off
def lkey (t off : Nat) : Nat := t * 4096 + off

/-- Bytes at a place that is no global address. -/
def rdScratch (s : State) (l : Loc) (n : Nat) : List Byte :=
  match l with
  | .team t off => match getT s t with
    | some x => mgets x.scr 0 off n
    | none => List.replicate n 0
  | .die d off => mgets s.dscr 0 (dkey d off) n
  | .lane g t off => match getG s g with
    | some x => mgets x.slice 0 (lkey t off) n
    | none => List.replicate n 0
  | .mem _ => List.replicate n 0

def wrScratch (s : State) (l : Loc) (data : List Byte) (poison : Bool) : State :=
  match l with
  | .team t off => updT s t (fun x => { x with scr := mputs x.scr 0 off data, pzS := pzWrite x.pzS off data.length poison })
  | .die d off => { s with dscr := mputs s.dscr 0 (dkey d off) data, pzD := pzWrite s.pzD (dkey d off) data.length poison }
  | .lane g t off => updG s g (fun x => { x with slice := mputs x.slice 0 (lkey t off) data, pzL := pzWrite x.pzL (lkey t off) data.length poison })
  | .mem _ => s

/-- Does a read of a scratchpad place meet a poisoned unit (R433)? -/
def pzScratch (s : State) (l : Loc) (n : Nat) : Bool :=
  match l with
  | .team t off => match getT s t with
    | some x => !x.pzS.isEmpty && (unitsTouched off n).any (fun u => x.pzS.contains u)
    | none => false
  | .die d off => !s.pzD.isEmpty && (unitsTouched (dkey d off) n).any (fun u => s.pzD.contains u)
  | .lane g t off => match getG s g with
    | some x => !x.pzL.isEmpty && (unitsTouched (lkey t off) n).any (fun u => x.pzL.contains u)
    | none => false
  | .mem _ => false

/-- Byte i of a scratchpad place, and whether its unit is poisoned. -/
def scratchByte (s : State) (l : Loc) (i : Nat) : Byte × Bool :=
  let at' : Loc := match l with
    | .team t off => .team t (off + i)
    | .die d off => .die d (off + i)
    | .lane g t off => .lane g t (off + i)
    | .mem pa => .mem (pa + i)
  ((rdScratch s at' 1).headD 0, pzScratch s at' 1)

/-! ### Store paths -/

/-- Stores of a queued `tst` or `zst` that have not entered the store path (R182). -/
def queuedStores (e : MEnt) : Nat :=
  if e.fin then 0
  else match e.kind with
    | .tst => (shRows e.shA - e.step) * shCols e.shA - e.col
    | .zst => (128 - e.step) * 64 - e.col
    | _ => 0

/-- Entries of a vector or word channel bound as stream out that are not wholly written (R240). -/
def unwritten (g : Group) : Nat :=
  (g.bind.filter (fun b => b.kind == 3)).foldl (fun n b =>
    n + (if b.vec then (mget g.chv [] b.chan).length else (mget g.ch [] b.chan).length)) 0

/-- The U counter of a group: its stores issued and not acknowledged, those of its stream-out channels and of queued matrix moves
among them (R182, R197, R240). -/
def uCount (s : State) (uid : Nat) : Nat :=
  (s.path.filter (fun e => e.owner == .group uid || e.owner == .stream uid)).length +
  (match getG s uid with
    | some g => unwritten g + ((teamOfG s g).mq.filter (fun e => e.group == uid)).foldl (fun n e => n + queuedStores e) 0
    | none => 0)
/-- The name under which the writes of a `ctx.save` stand in the store path: that of no operation. -/
def saveLop : Nat := 2 ^ 64
/-- Are writes of a `ctx.save` of a group not yet acknowledged (R450)? -/
def savesDue (s : State) (g : Group) : Bool := s.path.any (fun e => e.owner == .group g.uid && e.lop == saveLop)

/-- The X counter (R197). -/
def xCount (s : State) (uid : Nat) : Nat := (s.inq.filter (fun u => u.owner == .group uid || u.owner == .stream uid)).length

/-- The byte place `i` bytes into a place. -/
def locAdd (l : Loc) (i : Nat) : Loc :=
  match l with
  | .mem pa => .mem (pa + i)
  | .team t off => .team t (off + i)
  | .die d off => .die d (off + i)
  | .lane g t off => .lane g t (off + i)

/-- Index of byte place b within an access, if the access covers it. -/
def covers (a : Acc) (b : Loc) : Option Nat :=
  match a.loc, b with
  | .mem p, .mem q => if p ≤ q ∧ q < p + a.n then some (q - p) else none
  | .team t p, .team u q => if t = u ∧ p ≤ q ∧ q < p + a.n then some (q - p) else none
  | .die d p, .die e q => if d = e ∧ p ≤ q ∧ q < p + a.n then some (q - p) else none
  | .lane g t p, .lane h u q => if g = h ∧ t = u ∧ p ≤ q ∧ q < p + a.n then some (q - p) else none
  | _, _ => none

/-- Do two accesses overlap in any byte? -/
def overlap (a b : Acc) : Bool := (iota 0 b.n).any (fun i => (covers a (locAdd b.loc i)).isSome)

def lineOf (pa : Nat) : Nat := pa / 128
def scatKey (die line : Nat) : Nat := vkey die line
def isScat (s : State) (die pa : Nat) : Bool := !s.scat.isEmpty && s.scat.contains (scatKey die (lineOf pa))
def want (s : State) (line : Nat) : State := if s.wants.contains line then s else { s with wants := s.wants ++ [line] }

/-! ### Member sets (R252) -/

/-- Slots whose clearing waited for their collectives become empty. -/
def collSettle (s : State) : State :=
  let live (n : Nat) : Bool := s.eops.any (fun e => !e.stopped && (match e.kind with
    | .coll _ _ _ _ _ slot _ => slot == n
    | _ => false))
  let done := s.collOff.filter (fun n => !live n)
  if done.isEmpty then s
  else { done.foldl (fun s n => { sysSetBit s (0x0200 + 2 * n) 63 false with sets := mput s.sets [] n [] }) s with
         collOff := s.collOff.filter (fun n => live n) }

/-! ### Stores of the device itself, and rings in physical memory -/

/-- Append an entry to its store path with a fresh name (R199). -/
def enter (s : State) (e : PEnt) : State :=
  { s with path := s.path ++ [{ e with id := s.nid }], nid := s.nid + 1 }

/-- Does a range touch a line that is scattered at its home? -/
def scatLines (s : State) (pa n : Nat) : List Nat :=
  if s.scat.isEmpty then [] else (iota (pa / 128) ((pa + n + 127) / 128 - pa / 128)).filter (fun l => isScat s (homeDie s pa) (128 * l))

/-- A store of the device that cannot be made at once: it goes through a store path, for context c, in units of up to 4 bytes. -/
def devEnter (s : State) (c va pa key : Nat) (vec : V4) : Nat → List Byte → State
  | 0, _ => s
  | k + 1, d =>
    if d.isEmpty then s
    else
      let n := min d.length (4 - pa % 4)
      devEnter (enter s { id := 0, owner := .device, op := .store, acc := { sp := .g, va := va, loc := .mem pa, n := n, key := key },
                          x := leNat (d.take n), vec := vec, ctx := c }) c (va + n) (pa + n) key vec k (d.drop n)

/-- The device writes bytes at a physical address under a key slot: one move at the home. The monitors parked on them look
again in the same step (R238, `settleMonitors`). A scattered line is recalled first (R220). -/
def devStoreV (s : State) (pa key : Nat) (data : List Byte) (vec : V4) : State :=
  if !inMem s pa then s
  else if !(scatLines s pa data.length).isEmpty then devEnter s 0 pa pa key vec data.length data
  else (arriveBytes { s with reached := s.reached ++ [(pa, data.length)] } pa key data vec .device 0 false).2
def devStore (s : State) (pa key : Nat) (data : List Byte) : State := devStoreV s pa key data {}

/-- A ring laid out as `MIGRING` (R376): base register n, head n + 1, tail n + 2. Is it full? -/
def ringFull (s : State) (n : Nat) : Bool :=
  decide (2 ^ (sysBits s n 3 0 + 6) ≤ (sysGet s (n + 2) + 2 ^ 32 - sysGet s (n + 1)) % 2 ^ 32)

/-- Write one 32-byte record and count it. -/
def ringPut (s : State) (n : Nat) (ws : List Nat) : State :=
  let tail := sysGet s (n + 2)
  let pa := sysBits s n 51 12 * 4096 + 32 * (tail % 2 ^ (sysBits s n 3 0 + 6))
  let s := devStore s pa 0 (ws.flatMap (leBytes 8))
  sysPut s (n + 2) ((tail + 1) % 2 ^ 32)

/-- `DUMPST.lost` rises by one, saturating (R429, R434). -/
def dumpLost (s : State) : State := sysSetBits s 0x3943 31 0 (min (2 ^ 32 - 1) (sysBits s 0x3943 31 0 + 1))

/-- A record of the device error log (R434): kind, context, source, cause, address, who. -/
def errLog (s : State) (kind ctx src cause addr who : Nat) : State :=
  if ringFull s 0x3940 then (if kind = 2 then dumpLost s else s)
  else
    let p := takeStamp s src
    ringPut p.2 0x3940 [kind + 2 ^ 8 * ctx + 2 ^ 16 * src + 2 ^ 32 * cause, addr, p.1, who]

end Sys2Proof.Machine
end

