-- ==== Sys2Proof/Machine/Stop.lean ====
section
/-! DEFINITION. What ends a context or a maker: answers of the Carafe and of thieves (R315, R316, R353), maker failure
and hand-over (R318), the stop of a context (R411, R423, R429), and the faults of the lane stream, the scalar stream,
engines and the sequencer (R87, R183, R228, R409). A fault is a next state: the context is stopped and recorded. -/

namespace Sys2Proof.Machine

/-- Cause numbers of records (R393, R434). The manual numbers only the handled traps (R410); the rest are this
model's (log 6). -/
def causeNo : FCause → Nat
  | .illegal => 1 | .privileged => 2 | .misalignedTarget => 3 | .trapCode c => 4 + 65536 * c
  | .misaligned => 5 | .bounds => 6 | .unmapped => 7 | .badEntry => 8 | .keySlot => 9 | .permission => 10
  | .rangeLocked => 11 | .poison => 12 | .unboundChannel => 13 | .channelDirection => 14 | .channelBound => 15
  | .badBinding => 16 | .badShape => 17 | .divergenceOverflow => 18 | .formatBlock => 19 | .tileShape => 20
  | .matrixDescriptor => 21 | .engineDescriptor => 22 | .rangeOverlap => 23 | .layoutRecord => 24 | .badBarrier => 25
  | .barrierRange => 26 | .batchNumber => 27 | .remoteError => 28 | .remoteAtomic => 29 | .remoteMonitor => 30
  | .nondetAtomic => 31 | .detOverflow => 32 | .badTerm => 33 | .reservedTag => 34 | .termArea => 35
  | .workStealing => 36 | .badNode => 37 | .safeDistance => 38 | .saveArea => 39 | .hang => 40 | .doubleTrap => 41
  | .frame => 42 | .unhandled => 43 | .clusterPoison => 44 | .deviceError => 45 | .other n => n

/-! ### Answers -/

/-- Write an answer to the registers of its operation, end the operation, and start the acquire that follows; the replay log has the
registers of each active thread (R404). -/
def deliver (s : State) (a : Answer) : State :=
  let b := s.nid
  let at' : Option (Group × Nat × Frag) := match getG s a.group with
    | none => none
    | some g => (g.frs.find? (fun p => p.2.id == a.fid && p.2.wait == .answer a.lop)).map (fun p => (g, p))
  let who := match getG s a.group with
    | none => 0
    | some g => ((getOp g a.lop).map (·.act)).getD 0
  let s := match at' with
    | none => s
    | some (g, e, f) => match f.blk with
      | none => s
      | some c =>
        let t := teamOfG s g
        emit s 0x02 1 (launchOfT s t).ctx t.core c (some (idB (partOf g) g.idx e t.idx 0)) (some g.uid)
  let s := updG s a.group (fun g =>
    match getOp g a.lop with
    | none => g
    | some o =>
      let put (g : Group) (t : Nat) : Group :=
        let g := writeV g o.d t (BitVec.ofNat 32 a.code)
        if a.block then writeV64 (writeV g (o.d + 1) t 0) (o.d + 2) t a.val.toNat else g
      let g := opLess ((threads o.act).foldl put g) a.lop
      let g := { g with lap := if a.lap then 0 else g.lap, obs := if a.acq.isSome then v4max g.obs a.vec else g.obs }
      updF g a.fid (fun f =>
        if f.wait = .answer a.lop then { f with blk := none, wait := match a.acq with | some scp => .acqDue scp b | none => .go } else f))
  replay s a.group 2 .g 0 ((at'.map (fun p => p.2.1)).getD 0) (perThreadN (if a.block then 16 else 4)
    ((threads who).map (fun t => (t, a.code + (if a.block then 2 ^ 64 * a.val.toNat else 0)))))

/-- Deliver an answer now, or keep it with a team that is switched out (R317, R422). -/
def answer (s : State) (a : Answer) : State :=
  match getG s a.group with
  | none => s
  | some g =>
    if (teamOfG s g).slot = .out then updT s g.team (fun t => { t with saved := t.saved ++ [a] }) else deliver s a

/-! ### The Carafe: events, hand-over -/

/-- x of R312: home die in [1:0], home slice in [7:2], set in [19:8]; in the bring-up service every name lies on die 0
(R436). -/
def nameX (s : State) (domain : Nat) (name : List Word) : Nat :=
  let h := name.foldl (fun (x : Nat) w => x ^^^ w.toNat) 0
  let x := rngMix (h % 2 ^ 32 ^^^ (h / 2 ^ 32)) domain % 2 ^ 20
  if s.service = .bringUp then x - x % 4 else x
def xDie (x : Nat) : Nat := x % 4
def xSlice (x : Nat) : Nat := x / 4 % 64
def xSet (x : Nat) : Nat := x / 256

/-- x of R312 of an entry. -/
def claimX (e : CEnt) : Nat := e.die + 4 * e.slice + 256 * e.set

/-- Maker lease of a domain in µs (R311). -/
def clmLease (s : State) (d : Nat) : Nat := if sysBits s (0x0800 + d) 19 0 = 0 then 1000 else sysBits s (0x0800 + d) 19 0

/-- A claim-class record at the home that x names (R323, R393), for a group named by its team and group index. -/
def emitClaim (s : State) (code c x domain part group team ans : Nat) (holds : Option Nat) : State :=
  emit s 0x05 code c (srcL2 (xDie x) (xSlice x)) x (some (idB part group 0 team (ans + 16 * domain))) holds

def makerCount (s : State) (uid : Nat) : Nat := (s.claims.filter (fun e => e.making && e.maker == uid)).length

def updC (s : State) (id : Nat) (f : CEnt → CEnt) : State := { s with claims := mapFirst (fun e => e.id == id) f s.claims }
def delC (s : State) (id : Nat) : State := { s with claims := s.claims.filter (fun e => e.id != id) }
def getReq (s : State) (id : Nat) : Option CReq := s.reqs.find? (fun r => r.id == id)
def delReq (s : State) (id : Nat) : State := { s with reqs := s.reqs.filter (fun r => r.id != id) }

/-- The acquire that an answer starts: `.dev` with a handle (R316), and the instruction's own (R341). -/
def answerAcq (r : CReq) (code : Nat) : Option Scope :=
  if code = 2 then (if r.ord = .acq ∧ r.scp = .sys then some .sys else some .dev)
  else if r.ord = .acq then some r.scp else none

/-- Team and group index of a group, for records. -/
def whoOf (s : State) (uid : Nat) : Nat × Nat × Nat :=
  match getG s uid with
  | some g => (partOf g, g.idx, (teamOfG s g).idx)
  | none => (0, 0, 0)

/-- Is a request for a name to be made or handed over, or the end of a making? -/
def isClaim (k : ReqK) : Bool := k == .claim || k == .claimw

/-- Answer a request (R315): it leaves the tables, its outcome is recorded (R323: claims and fulfilments; bit 3 of the answer says
that it was parked), and a record that waits in a lossless session holds it back with its monitor (R399, R317). An answer to a
parked request that holds no monitor after a restore is kept (R317). -/
def answerReq (s : State) (r : CReq) (code : Nat) (handle : Word) (vec : V4) : State :=
  let who := whoOf s r.group
  let x := nameX s r.domain r.name
  let s := xfer s (srcL2 (xDie x) (xSlice x)) r.core (if isClaim r.kind then 16 else 8)
  let s := if r.kind = .abandon then s
    else emitClaim s (if isClaim r.kind then 0 else 1) r.ctx x r.domain who.1 who.2.1 who.2.2 (code + 8 * r.parked.toNat) (some r.lop)
  let s := if isClaim r.kind then countDie s (xDie x) 0x07 (some r.ctx) 1 else s
  let a : Answer := { group := r.group, lop := r.lop, fid := r.fid, block := isClaim r.kind, code := code, val := handle, vec := vec,
                      lap := isClaim r.kind, parks := r.kind == .claimw, mon := if r.monitor then some r.core else none,
                      acq := if isClaim r.kind then answerAcq r code else none }
  if heldBack s r.lop then { delReq s r.id with heldAns := s.heldAns ++ [a] }
  else if r.kind = .claimw ∧ !r.monitor then updT (delReq s r.id) r.team (fun t => { t with saved := t.saved ++ [a] })
  else answer (delReq s r.id) a

/-- The loop of hand-over (R318) over the parked records, oldest first, after a failure of cause `code`; a record whose own check
fails is answered full. -/
def handLoop (s : State) (eid code : Nat) : List Nat → State
  | [] =>
    match s.claims.find? (fun e => e.id == eid) with
    | none => s
    | some e => emitClaim (delC s eid) 3 e.mctx (claimX e) e.domain 0 0 0 code none
  | w :: r =>
    match getReq s w with
    | none => handLoop s eid code r
    | some q =>
      if q.bad ∨ 16 ≤ makerCount s q.group then handLoop (answerReq s q 3 0 {}) eid code r
      else
        let s := updC s eid (fun e => { e with
          maker := q.group, mteam := q.team, mctx := q.ctx, lease := 0, limit := clmLease s e.domain, waiters := r })
        let who := whoOf s q.group
        let s := match s.claims.find? (fun e => e.id == eid) with
          | some e => emitClaim s 3 q.ctx (claimX e) e.domain who.1 who.2.1 who.2.2 code none
          | none => s
        answerReq s q 0 0 {}

/-- A failure move of one entry with its cause code (R318). -/
def makerFail (s : State) (eid code : Nat) : State :=
  match s.claims.find? (fun e => e.id == eid) with
  | none => s
  | some e =>
    if !e.making then s else
    let who := whoOf s e.maker
    let s := emitClaim s 2 e.mctx (claimX e) e.domain who.1 who.2.1 who.2.2 code none
    let s := updC s eid (fun e => { e with maker := 0, waiters := [] })
    handLoop s eid code e.waiters

/-- One failure move for each entry in a group's maker list. -/
def makersFail (s : State) (uid code : Nat) : State :=
  ((s.claims.filter (fun e => e.making && e.maker == uid)).map (·.id)).foldl (fun s i => makerFail s i code) s

/-- Free the requests and parked records of a context (R317). -/
def freeReqs (s : State) (c : Nat) : State :=
  let gone := (s.reqs.filter (fun r => r.ctx == c)).map (·.id)
  { s with
    reqs := s.reqs.filter (fun r => r.ctx != c)
    claims := s.claims.map (fun e => { e with waiters := e.waiters.filter (fun w => !gone.contains w) }) }

/-! ### The stop of a context -/

/-- `DUMPST` shows the running dump and how many wait (R429). -/
def syncDump (s : State) : State :=
  let n := s.dumps.length
  let c := match s.dumps with
    | d :: _ => d.ctx
    | [] => 0
  sysSetBits (sysSetBits (sysSetBits s 0x3943 63 63 (if n = 0 then 0 else 1)) 0x3943 62 61 (n - 1)) 0x3943 39 32 c

def ctxGroups (s : State) (c : Nat) : List Group := (allG s).filter (fun g => ctxOfG s g == c)

/-- Set en to 0 on every queue of a context (R411). -/
def closeQueues (s : State) (c : Nat) : State :=
  (iota 0 64).foldl (fun s q => if queueEn s q && queueCtx s q == c then sysSetBit s (rQ q 1) 13 false else s) s

/-- Moves 2 to 8 of R411 without the dump: `st` is the status that each launch will complete with. -/
def haltCtx (s : State) (c : Nat) (st : Launch → Nat) (dumping : Bool) : State :=
  let s := setCtxState s c 2
  let s := closeQueues s c
  let s := collSettle { s with eops := s.eops.map (fun e => if e.ctx = c then { e with stopped := true } else e) }
  let gs := ctxGroups s c
  let s := freeReqs s c
  let s := gs.foldl (fun s g => makersFail s g.uid 3) s
  let ls := (allL s).filter (fun l => l.ctx == c)
  let s := ls.foldl (fun s l => (teamsOfL s l.uid).foldl (fun s t =>
    let s := updT s t.uid (fun t => { t with mq := [], mail := none, stamps := [] })
    if (stoppedOn s t.core).isSome && t.slot == .running then resumePart s t.core else s) s) s
  ls.foldl (fun s l => updL s l.uid (fun l => if l.status.isSome then l else { l with status := some (st l), dumping := dumping })) s

/-- The persistent group of a context whose count has reached its lap (R308). -/
def hangDue (s : State) (c : Nat) : Option Group :=
  (ctxGroups s c).find? (fun g => isPers (launchOfG s g) && decide (lapNs (launchOfG s g) ≤ g.lap))

/-- A hang of a group: its record, and its fault record (R423). -/
def hangRec (s : State) (g : Group) : State × FaultRec :=
  let t := teamOfG s g
  let c := (launchOfT s t).ctx
  (emit s 0x07 3 c t.core (causeNo .hang) (some (idB (partOf g) g.idx 0 t.idx 0)) none,
   { ctx := c, cause := .hang, pc := g.pc.toNat, core := t.core, part := partOf g, group := g.idx, team := t.idx, tuid := t.uid })

/-- A fault record of kind 2 in the device error log in place of a dump, counted in lost whether or not the ring has room (R429, R434). -/
def minimalRecord (s : State) (r : FaultRec) : State :=
  let t := errLog s 2 r.ctx r.core (causeNo r.cause % 256) r.addr (r.core + 2 ^ 16 * r.part + 2 ^ 24 * r.group + 2 ^ 32 * (r.team % 2 ^ 32))
  if ringFull s 0x3940 then t else dumpLost t

/-- The first fatal fault of a live context stops it (R411); one that finds two dumps waiting keeps a minimal record (R429). `st` are the
statuses of its launches. -/
def stopWith (s : State) (r : FaultRec) (st : Launch → Nat) : State :=
  let s := { s with faults := s.faults ++ [r] }
  if 3 ≤ s.dumps.length then minimalRecord (haltCtx s r.ctx st false) r
  else syncDump { haltCtx s r.ctx st true with dumps := s.dumps ++ [{ ctx := r.ctx, first := r }] }

/-- The group that hangs names the stop, and its launch alone completes with status 3 (R411, R423). -/
def stopHang (s : State) (g : Group) : State :=
  let p := hangRec s g
  stopWith p.1 p.2 (fun l => if l.uid = (launchOfG s g).uid then 3 else 2)

/-- A fatal fault stops its context with status 2 (R411); a second one of a stopped context is nested in its dump (R428). A group of
the context that has reached its lap by this moment has the earlier stamp, or an equal one, and names the stop (R423). -/
def contextStop (s : State) (r : FaultRec) : State :=
  if ctxState s r.ctx = 2 ∨ ctxState s r.ctx = 3 then
    { s with dumps := s.dumps.map (fun d => if d.ctx = r.ctx then { d with more := d.more ++ [(true, r)] } else d) }
  else match hangDue s r.ctx with
  | some g => stopHang s g
  | none => stopWith s r (fun _ => 2)

/-! ### Faults -/

/-- The record of a fault of the issuing group. -/
def faultHere (s : State) (c : FCause) (addr pc word : Nat) : FaultRec :=
  { ctx := s.l.ctx, cause := c, addr := addr, pc := pc, word := word, core := s.t.core, part := partOf s.g,
    group := s.g.idx, team := s.t.idx, tuid := s.t.uid, frag := s.fi }

/-- A clause-precise lane fault of the executing fragment (R73, R409), with the kind of the access that took it (R370). -/
def laneFaultK (s : State) (c : FCause) (addr kind : Nat) : State :=
  let s := emit s 0x07 0 s.l.ctx s.t.core (causeNo c) (some (idG s addr)) none
  contextStop s { faultHere s c addr (curF s).pc.toNat (curF s).idx with akind := kind }
def laneFault (s : State) (c : FCause) (addr : Nat) : State := laneFaultK s c addr 0

/-- A precise scalar fault of the word at `pc` that is fatal to the context (R87), with the kind of the access that took it (R370). -/
def scalarFaultAt (s : State) (c : FCause) (addr kind pc : Nat) : State :=
  let s := emit s 0x07 1 s.l.ctx s.t.core (causeNo c) (some (idS s addr)) none
  contextStop s { faultHere s c addr pc 0 with akind := kind, frag := 0 }
def scalarFaultK (s : State) (c : FCause) (addr kind : Nat) : State := scalarFaultAt s c addr kind s.g.pc.toNat
def scalarFault (s : State) (c : FCause) (addr : Nat) : State := scalarFaultK s c addr 0

/-- A fault found away from the stream, reported in the clause that issued the work (R183, R228): issuer `who` (partition,
group, team), name of the team, entry, header, address, access kind. -/
def siteFault (s : State) (who : Nat × Nat × Nat) (code tuid entry hdr : Nat) (c : FCause) (addr : Nat) (ctx core kind : Nat) : State :=
  let src := if code = 2 then srcEng (dieOf core) else core
  let s := emit s 0x07 code ctx src (causeNo c) (some (idB who.1 who.2.1 entry who.2.2 addr)) none
  contextStop s { ctx := ctx, cause := c, addr := addr, pc := hdr, core := core, part := who.1, group := who.2.1,
                  team := who.2.2, tuid := tuid, frag := entry, akind := kind }

/-- The same with the issuer's names read from its group. -/
def workFaultK (s : State) (code uid entry hdr : Nat) (c : FCause) (addr : Nat) (ctx core kind : Nat) : State :=
  siteFault s (whoOf s uid) code (((getG s uid).map (·.team)).getD 0) entry hdr c addr ctx core kind
def workFault (s : State) (code uid entry hdr : Nat) (c : FCause) (addr : Nat) (ctx core : Nat) : State :=
  workFaultK s code uid entry hdr c addr ctx core 0

/-- A consequence of a cluster's fault at a peer's `.k` access (R424). -/
def clusterPoison (s : State) (ctx addr uid : Nat) : State :=
  let who := whoOf s uid
  let r : FaultRec := { ctx := ctx, cause := .clusterPoison, addr := addr, part := who.1, group := who.2.1, team := who.2.2 }
  { s with dumps := s.dumps.map (fun d => if d.ctx = ctx then { d with more := d.more ++ [(false, r)] } else d) }

/-- Is a place the region of the team whose fault stopped its context (R424)? It stays one when the dump has ended, and with a minimal
record. -/
def poisonedRegion (s : State) (a : Acc) : Bool :=
  a.sp == .k && (match a.loc with
    | .team t _ => s.faults.any (fun f => f.tuid == t && ctxState s f.ctx == 2)
    | _ => false)

end Sys2Proof.Machine
end

