-- ==== Sys2Proof/Machine/Order.lean ====
section
/-! DEFINITION. The moves of the ordering machine (R199 to R204, R216 to R220, R238, R247): performing a load, entering
the store path, arrival, acknowledgement, application of updates, atomics, update-only copies and recalls. -/

namespace Sys2Proof.Machine

/-! ### Loads (R203, R204) -/

/-- Outcome of performing a load: it waits (a recall may have been started), or it has its bytes, the vector that they
carry, whether a poisoned unit was read. -/
inductive LdOut where
  | wait (s : State)
  | got (data : List Byte) (vec : V4) (poison : Bool) (s : State)

/-- The newest entry of the group's store path that covers a byte. -/
def newestEnt (s : State) (uid : Nat) (b : Loc) : Option PEnt :=
  if s.path.isEmpty then none
  else s.path.reverse.find? (fun e => e.owner == .group uid && (covers e.acc b).isSome)

/-- Byte i of an entry's operand. -/
def entByte (e : PEnt) (b : Loc) : Byte := BitVec.ofNat 8 (e.x / 256 ^ ((covers e.acc b).getD 0))

/-- What the store path says of byte i of an access: nothing, an own byte, or a wait for an atomic. -/
def pathByte (s : State) (uid : Nat) (a : Acc) (i : Nat) : Option (Option Byte) :=
  match newestEnt s uid (locAdd a.loc i) with
  | none => none
  | some e => if e.op = .store then some (some (entByte e (locAdd a.loc i))) else some none

/-- Vector that a value carries with its stamp (R203). -/
def stampVec (h : Nat) (st : Stamp) : V4 := v4raise st.vec h st.num
def stampsVec (h : Nat) (l : List Stamp) : V4 := l.foldl (fun v st => v4max v (stampVec h st)) {}

/-- Own bytes over the bytes read. -/
def mergeOwn : List (Option (Option Byte)) → List Byte → List Byte
  | some (some b) :: r, _ :: m => b :: mergeOwn r m
  | _ :: r, y :: m => y :: mergeOwn r m
  | _, m => m

/-- A byte of global memory with its stamp and poison, from an L1 sector that the load may read, else from the die view (R203). -/
def loadByte (s : State) (core : Nat) (a : Acc) (l1 : Bool) (pa : Nat) : Byte × Stamp × Bool :=
  let die := dieOf core
  match (if l1 then l1Find s core pa a.key else none) with
  | some x =>
    let o := pa - 32 * x.pa
    ((x.data[o]?).getD 0, (x.stamps[o]?).getD {}, (x.poison[o]?).getD false)
  | none => (rdByte s die pa a.key, mget s.stamps {} (vkey die pa), pzByte s die pa)

/-- A sector of a load is read past the L1: it is counted, fetched to the L2 unless a merged request has brought it (`got`),
and filled if the mapping is cached (R202, R203). -/
def missSec (s : State) (core : Nat) (c : Option Nat) (a : Acc) (past : Bool) (got : List Nat) (sec : Nat) : State :=
  let die := dieOf core
  let s := if got.contains sec then s else l2Read s die c sec
  let s := xfer s (srcL2 die (homeSlice (32 * sec))) core 32
  if !a.cached then s
  else
    let s := countCore s core 0x07 c 1
    let s := if past then { s with l1 := s.l1.filter (fun x => !(x.core == core && x.pa == sec && x.key == a.key)) } else s
    fillL1 s core die (32 * sec) a.key

/-- The sectors of global memory that a load reads: those that hold a byte which its own store path does not give. -/
def needSecs (pa n : Nat) (own : List (Option (Option Byte))) : List Nat :=
  (sectorsOf pa n).filter (fun sec => (iota 0 n).any (fun i => (pa + i) / 32 == sec && ((own[i]?).join).isNone))

/-- Core whose scratchpad a place lies in; the core `core` itself for a place in none. -/
def scratchCore (s : State) (core : Nat) : Loc → Nat
  | .team t _ => match getT s t with
    | some x => x.core
    | none => core
  | _ => core

/-- Perform a load of group `uid` on core `core` (R203; scratchpads R204); `got` are sectors that requests of its operation
have delivered (R21). An aligned unit of up to 8 bytes is read whole from one place: a load that mixes the mappings of R217
is never torn here, which that rule permits and does not ask (log 14). -/
def performLoad (s : State) (uid core : Nat) (a : Acc) (past : Bool) (got : List Nat) : LdOut :=
  let own := (iota 0 a.n).map (pathByte s uid a)
  let free (i : Nat) : Bool := ((own[i]?).join).isNone
  if own.any (fun o => o == some none) then .wait s
  else match a.loc with
  | .mem pa =>
    let l1 := a.cached && !past
    let secs := needSecs pa a.n own
    let hit (sec : Nat) : Bool := l1 && (l1Find s core (32 * sec) a.key).isSome
    let marked := secs.filter (fun sec => !hit sec && isScat s (dieOf core) (32 * sec))
    if !marked.isEmpty then .wait (marked.foldl (fun s sec => want s (sec / 4)) s)
    else
      let bs := (iota 0 a.n).map (fun i => loadByte s core a l1 (pa + i))
      let mine := (bs.zipIdx.filter (fun p => free p.2)).map (·.1.2)
      let c := (getG s uid).map (ctxOfG s)
      let s := countCore s core 0x06 c (secs.filter hit).length
      let s := (secs.filter (fun sec => !hit sec)).foldl (fun s sec => missSec s core c a past got sec) s
      .got (mergeOwn own (bs.map (·.1))) (stampsVec (homeDie s pa) (mine.map (·.1))) (mine.any (·.2)) s
  | l =>
    let bs := (iota 0 a.n).map (scratchByte s l)
    .got (mergeOwn own (bs.map (·.1))) {} (bs.zipIdx.any (fun p => free p.2 && p.1.2)) (xfer s (scratchCore s core l) core a.n)

/-- Sector-aligned place and address of an access, for replay copies. -/
def sectorPlace (a : Acc) : Loc × Nat :=
  match a.loc with
  | .mem pa => (.mem (pa - pa % 32), a.va - a.va % 32)
  | .team t o => (.team t (o - o % 32), a.va - a.va % 32)
  | .die d o => (.die d (o - o % 32), a.va - a.va % 32)
  | .lane g t o => (.lane g t (o - o % 32), a.va - a.va % 32)

/-- Log bytes of a load that lie in one sector unless the replay copy already gives them (R403); the copy keeps 64 sectors. -/
def replaySec (s : State) (uid frag : Nat) (a : Acc) (data : List Byte) : State :=
  match getG s uid with
  | none => s
  | some g =>
    if a.sp = .l ∨ !replaying s (ctxOfG s g) then s else
    let p := sectorPlace a
    let off := a.va - p.2
    let same (x : Loc × List Byte) : Bool := x.1 == p.1
    match g.rpl.find? same with
    | some x =>
      if (x.2.drop off).take a.n = data then s
      else
        let d := x.2.take off ++ data ++ x.2.drop (off + a.n)
        replay (updG s uid (fun g => { g with rpl := g.rpl.map (fun y => if same y then (p.1, d) else y) })) uid 0 a.sp p.2 frag d
    | none =>
      let base := match p.1 with
        | .mem pa => rdBytes s (dieOf (teamOfG s g).core) pa a.key 32
        | l => rdScratch s l 32
      let d := base.take off ++ data ++ base.drop (off + a.n)
      let l := if 64 ≤ g.rpl.length then g.rpl.drop 1 else g.rpl
      replay (updG s uid (fun g => { g with rpl := l ++ [(p.1, d)] })) uid 0 a.sp p.2 frag d

/-- The parts of an access of n bytes at `va` that lie in one sector each: offset and length. -/
def secParts (va n : Nat) : List (Nat × Nat) :=
  (sectorsOf va n).map (fun q => (max va (32 * q) - va, min (va + n) (32 * q + 32) - max va (32 * q)))

/-- Log a load, sector by sector (R403). -/
def replayLoad (s : State) (uid frag : Nat) (a : Acc) (data : List Byte) : State :=
  (secParts a.va a.n).foldl (fun s p =>
    replaySec s uid frag { a with va := a.va + p.1, loc := locAdd a.loc p.1, n := p.2 } ((data.drop p.1).take p.2)) s

/-- The group's own stores update its replay copy (R403). -/
def replayStore (g : Group) (a : Acc) (data : List Byte) : Group :=
  if g.rpl.isEmpty then g else
  let put (l : List (Loc × List Byte)) (q : Nat × Nat) : List (Loc × List Byte) :=
    let b : Acc := { a with va := a.va + q.1, loc := locAdd a.loc q.1, n := q.2 }
    let p := sectorPlace b
    let off := b.va - p.2
    l.map (fun x => if x.1 = p.1 then (x.1, x.2.take off ++ (data.drop q.1).take q.2 ++ x.2.drop (off + q.2)) else x)
  { g with rpl := (secParts a.va data.length).foldl put g.rpl }

/-! ### Entering the store path (R199) -/

/-- A store of n bytes of the issuing group: its own lane slice at once, any other space through the store path. -/
def storeEnt (s : State) (a : Acc) (x lop : Nat) (sc : Option Word) : State :=
  match a.loc with
  | .lane .. => wrScratch s a.loc (leBytes a.n x) false
  | _ =>
    let s := { s with g := replayStore s.g a (leBytes a.n x) }
    enter s { id := 0, owner := .group s.g.uid, op := .store, acc := a, x := x % 256 ^ a.n, vec := s.g.car, core := s.t.core,
              ctx := s.l.ctx, lop := lop, hdr := (curF s).pc, entry := s.fi, launch := s.l.uid, tidx := s.t.idx, gidx := s.g.idx, sc := sc }

/-! ### Acknowledgement (R201, R221) -/

def delEnt (s : State) (id : Nat) : State := { s with path := s.path.filter (fun e => e.id != id) }
def setEnt (s : State) (id : Nat) (f : PEnt → PEnt) : State := { s with path := mapFirst (fun e => e.id == id) f s.path }

/-- Has an operation performed its reads and had its writes acknowledged (R234)? A collective reads its contribution and
then writes as many bytes again. -/
def engMoved (o : EngOp) : Bool :=
  decide (o.total ≤ o.ackd) && (match o.kind with
    | .coll .. => decide (2 * o.total ≤ o.rd)
    | _ => decide (o.total ≤ o.rd))

/-- The range locks of operation `id` are released once it has moved its bytes (R234); a stopped one keeps them (R411). -/
def releaseLocks (s : State) (id : Nat) : State :=
  match s.eops.find? (fun o => o.id == id) with
  | some o => if engMoved o && !o.stopped then { s with locks := s.locks.filter (fun k => k.op != id) } else s
  | none => s

/-- Landing entries being disabled whose admitted requests are all answered take the value that waits (R244). -/
def landSettle (s : State) : State :=
  let done := s.landOff.filter (fun p => !s.landed.any (fun l => l.entry == p.1))
  if done.isEmpty then s
  else { done.foldl (fun s p => sysPut s (0x3A01 + 2 * p.1) p.2) s with landOff := s.landOff.filter (fun p => !done.contains p) }

/-- Is an entry a store to the host window, which a `.sys` release covers by its flush read (R249)? -/
def hostStore (s : State) (e : PEnt) : Bool :=
  e.op == .store && (match e.acc.loc with
    | .mem pa => paKind s pa == .host
    | _ => false)

/-- Sectors of global memory that an entry names. -/
def entSecs (e : PEnt) : List Nat :=
  match e.acc.loc with
  | .mem pa => sectorsOf pa e.acc.n
  | _ => []

/-- What the acknowledgement of an entry brings to its group: O, the end of the Lap Clock's span, a host store to cover,
the sectors of its request (R20, R201, R249, R307). -/
def ackGroup (g : Group) (e : PEnt) (h n : Nat) (wrote host : Bool) : Group :=
  let g? := e.acc.sp == .g
  { g with
    obs := if g? && wrote then v4raise g.obs h n else g.obs
    lap := if g? then 0 else g.lap
    hostSt := g.hostSt || host
    ops := g.ops.map (fun o => if o.id = e.lop then { o with reqs := takeSecs (entSecs e) o.reqs } else o) }

/-- What it brings to the launch of a group that has retired: the vector and the host stores of its completion (R292). -/
def ackLaunch (l : Launch) (e : PEnt) (h n : Nat) (wrote host : Bool) : Launch :=
  { l with
    cvec := if e.acc.sp == .g && wrote then v4raise l.cvec h n else l.cvec
    obsv := if e.acc.sp == .g && wrote then v4raise l.obsv h n else l.obsv, hostSt := l.hostSt || host }

/-- An entry is acknowledged with number n of home h; `w` are the bytes it wrote to global memory. -/
def ackEnt (s : State) (e : PEnt) (h n : Nat) (w : Option (Nat × List Byte × Stamp)) : State :=
  let s := delEnt s e.id
  let g? := e.acc.sp == .g
  let host := hostStore s e
  let gone (s : State) (uid : Nat) : State := if (getG s uid).isNone then updL s e.launch (fun l => ackLaunch l e h n w.isSome host) else s
  match e.owner with
  | .group uid =>
    let s := match w with
      | some (pa, d, st) => if e.acc.cached then patchL1 s e.core pa e.acc.key d st e.poison else s
      | none => s
    updG (gone s uid) uid (fun g => opLess (ackGroup g e h n w.isSome host) e.lop)
  | .stream uid => updG (gone s uid) uid (fun g => ackGroup g e h n w.isSome host)
  | .engine id =>
    let s := updL s e.launch (fun l => { l with obsv := if w.isSome then v4raise l.obsv h n else l.obsv, hostSt := l.hostSt || host })
    let s := { s with eops := mapFirst (fun o => o.id == id) (fun o => { o with
      vec := if w.isSome then v4raise o.vec h n else o.vec, ackd := o.ackd + (if e.credit = 0 then e.acc.n else e.credit) }) s.eops }
    let s := releaseLocks s id
    match s.eops.find? (fun o => o.id == id) with
    | some o => if g? then updG s o.group (fun g => { g with lap := 0 }) else s
    | none => s
  | .session i => { s with sess := mput s.sess {} i (let x := mget s.sess {} i; { x with vec := v4raise x.vec h n, hostSt := x.hostSt || host }) }
  | .peer _ => landSettle { s with landed := s.landed.filter (fun l => l.ent != e.id) }
  | _ => s

/-! ### Flag-wait monitors (R238, R281) -/

/-- Comparisons of R281. -/
def waitCmp (cc x b : Nat) : Bool :=
  match cc with
  | 0 => decide (x = b)
  | 1 => decide (x ≠ b)
  | 2 => decide (x < b)
  | 3 => decide (x ≤ b)
  | 4 => decide (b < x)
  | 5 => decide (b ≤ x)
  | 6 => decide (x &&& b ≠ 0)
  | _ => decide (x &&& b = 0)

/-- Read a word at its order point: value, vector with stamp, poison. -/
def rdPoint (s : State) (a : Acc) : Nat × V4 × Bool :=
  match a.loc with
  | .mem pa =>
    let h := homeDie s pa
    (leNat (rdBytes s h pa a.key a.n), stampsVec h (rdStamps s h pa a.n), (iota 0 a.n).any (fun i => pzByte s h (pa + i)))
  | l => (leNat (rdScratch s l a.n), {}, pzScratch s l a.n)

/-- An arrival at a word re-reads it for every monitor parked on it (R238). Every read is checked under R233. -/
def monitorCheck (s : State) (a : Acc) : State :=
  (allG s).foldl (fun s g => g.frs.foldl (fun s p =>
    match p.2.wait with
    | .monitor m cc b ord scp =>
      if !overlap m a || (teamOfG s g).slot == .out then s
      else
        let c := ctxOfG s g
        let core := (teamOfG s g).core
        if locked s c m false then workFault s 0 g.uid p.1 p.2.pc.toNat .rangeLocked m.va c core
        else
          let r := rdPoint s m
          if r.2.2 then workFault s 0 g.uid p.1 p.2.pc.toNat .poison m.va c core
          else if waitCmp cc r.1 b then
            let s := match m.loc with
              | .mem pa => xfer s (srcHome s pa) core m.n
              | _ => s
            updG s g.uid (fun g => updF g p.2.id (fun f => { f with wait := .monHit r.2.1 ord scp }))
          else s
    | _ => s) s) s

/-- Monitors a core holds: flag waits and claim waits that keep one (R238, R317). -/
def monitorsUsed (s : State) (core : Nat) : Nat :=
  ((allG s).filter (fun g => (teamOfG s g).core == core && !((teamOfG s g).slot == .out))).foldl (fun n g =>
    n + (g.frs.filter (fun p => match p.2.wait with
      | .monitor .. | .monHit .. => true
      | _ => false)).length) 0 +
  (s.reqs.filter (fun r => r.monitor && r.core == core)).length + (s.heldAns.filter (fun a => a.mon == some core)).length

/-! ### Windows (R243 to R251) -/

/-- The party that sends an entry, as a source of stamps (R390, R391). -/
def entSrc (e : PEnt) : Nat :=
  match e.owner with
  | .engine _ | .stream _ => srcEng (dieOf e.core)
  | .session _ | .device => srcDev
  | .host => 0x500
  | _ => e.core

/-- A non-posted access leaves toward a window; its answer is due. -/
def sendWin (s : State) (e : PEnt) (kind : WinK) (peer : Bool) (pa : Nat) : State :=
  openWin (setEnt s e.id (fun x => { x with st := .away })) (entSrc e) e.acc.n
    { id := 0, kind := kind, peer := peer, ctx := e.ctx, owner := e.owner, pa := pa, n := e.acc.n, ent := e.id, lop := e.lop, t := e.t,
      scalar := e.sc.isSome, pc := e.sc.getD 0, va := e.acc.va }

/-! ### Arrival of stores (R200) -/

/-- May entry k arrive: overlapping entries of one owner in the order they entered; host writes in PCI Express order
(R200, R248). -/
def canArrive (s : State) (k : Nat) : Bool :=
  match s.path[k]? with
  | none => false
  | some e =>
    e.st == .sent && !(s.path.take k).any (fun x => x.owner == e.owner && x.st == .sent && (x.owner == .host || overlap x.acc e.acc))

/-- An entry travels from its core to the home of its place (R391). -/
def entXfer (s : State) (e : PEnt) (pa : Nat) : State := xfer s (entSrc e) (srcHome s pa) (secBytes pa e.acc.n)

/-- The bytes of a store with gaps, from its first place on (R221). -/
def entRuns (e : PEnt) (data : List Byte) : List (Nat × List Byte) :=
  (data.zipIdx.filter (fun p => bit e.be p.2)).map (fun p => (p.2, [p.1]))

/-- Arrival of data at an entry's place: for a global line the home's number, updates and acknowledgement by the rule of
R201; for a scratchpad one move. -/
def placeData (s : State) (e : PEnt) (data : List Byte) : State :=
  match e.acc.loc with
  | .mem pa =>
    let s := entXfer s e pa
    let h := homeDie s pa
    let r := if e.be = 0 then arriveBytes s pa e.acc.key data e.vec e.owner e.id e.poison
      else arriveRuns s pa e.acc.key ((entRuns e data).map (fun w => (pa + w.1, w.2))) e.vec e.owner e.id e.poison
    let s := r.2
    let s := if dieOf e.core = h then ackEnt s e h r.1 (some (pa, data, ⟨r.1, e.vec⟩))
      else setEnt s e.id (fun x => { x with st := .arrived r.1 })
    monitorCheck s e.acc
  | l =>
    let s := xfer s (entSrc e) (scratchCore s (entSrc e) l) e.acc.n
    let s := if e.be = 0 then wrScratch s l data e.poison
      else (entRuns e data).foldl (fun s w => wrScratch s (locAdd l w.1) w.2 e.poison) s
    monitorCheck (ackEnt s e 0 0 none) e.acc

/-- Arrival of an atomic that leaves its location as it is (R218): it takes a number and its updates carry the unchanged value
with the stamps that stand with it. -/
def placeSame (s : State) (e : PEnt) (data : List Byte) : State :=
  match e.acc.loc with
  | .mem pa =>
    let s := entXfer s e pa
    let h := homeDie s pa
    let r := nextNum s h
    let s := pushUpds r.2 h r.1 e.owner e.id e.vec
      (.same pa data (rdStamps s h pa data.length) ((iota pa data.length).any (pzByte s h)))
    let s := if dieOf e.core = h then ackEnt s e h r.1 (some (pa, [], {})) else setEnt s e.id (fun x => { x with st := .arrived r.1 })
    monitorCheck s e.acc
  | _ => monitorCheck (ackEnt s e 0 0 none) e.acc

/-- A peer access to the region of a faulted team after the fault point (R424). -/
def dropPeer (s : State) (e : PEnt) : State :=
  let uid := match e.owner with
    | .group u => u
    | _ => 0
  clusterPoison (delEnt s e.id) e.ctx e.acc.va uid

/-- One arrival of a store (R200, R204, R247, R248). -/
def arriveStore (s : State) (k : Nat) : State :=
  if !canArrive s k then s else
  match s.path[k]? with
  | none => s
  | some e =>
    if e.op ≠ .store then s else
    match e.acc.loc with
    | .mem pa =>
      match paKind s pa with
      | .host => ackEnt (xfer (xfer s (entSrc e) 0x500 e.acc.n) 0x500 (entSrc e) 0) e 0 0 none
      | .peer _ => sendWin s e .store true pa
      | .unmapped => delEnt s e.id
      | _ => if isScat s (homeDie s pa) pa then want s (lineOf pa) else placeData s e (leBytes e.acc.n e.x)
    | _ => if poisonedRegion s e.acc then dropPeer s e else placeData s e (leBytes e.acc.n e.x)

/-! ### Application of updates (R201) -/

/-- The entry that an update came from is acknowledged where the update is applied at the die of its core (R201), by the slice of that die
(R391). -/
def ackUpd (s : State) (u : Upd) (e pa : Nat) (w : List Byte × Stamp) : State :=
  match s.path.find? (fun x => x.id == u.ent) with
  | some x => if dieOf x.core = e ∧ x.st = .arrived u.num then
      ackEnt (xfer s (srcL2 e (homeSlice pa)) (entSrc x) 0) x u.home u.num (some (pa, w.1, w.2)) else s
  | none => s

/-- The mark of grant n of home h has been applied at die e: the copies of that grant there may acknowledge, and the
reductions merged under it are acknowledged (R219). -/
def ackMark (s : State) (h n line e : Nat) : State :=
  let s : State := { s with copies := s.copies.map (fun (c : UCopy) => if c.line = line ∧ c.num = n ∧ dieOf c.core = e then { c with marked := true } else c) }
  (s.path.filter (fun x => match x.op, x.acc.loc with
    | .red .., .mem pa => lineOf pa == line && dieOf x.core == e && x.st == .arrived n
    | _, _ => false)).foldl (fun s x => ackEnt (xfer s (srcL2 e (homeSlice (128 * line))) x.core 0) x h n (some (0, [], {}))) s

/-- What the application of an update at die e acknowledges. -/
def ackOnApply (s : State) (u : Upd) (e : Nat) : State :=
  match u.k with
  | .mark line => ackMark s u.home u.num line e
  | .bytes pa data _ => ackUpd s u e pa (data, ⟨u.num, u.vec⟩)
  | .same pa _ _ _ => ackUpd s u e pa ([], {})
  | .runs ws _ => ackUpd s u e ((ws.headD (0, [])).1) ([], {})
  | .clear .. => s

/-- Bytes come to the replica of die e; its L2 sectors are invalidated (R197). -/
def updView (s : State) (e pa n : Nat) (f : State → State) : State := (sectorsOf pa n).foldl (fun s sec => l2Drop s e sec) (f s)

/-- Apply the head update of queue (h, e); the slice that receives it takes its stamp (R391). -/
def applyUpd (s : State) (h e : Nat) : State :=
  match s.inq.find? (fun u => u.home == h && u.dst == e) with
  | none => s
  | some u =>
    let s := raiseFloor { s with inq := s.inq.filter (fun x => !(x.ser == u.ser && x.dst == e)) } (srcL2 e (homeSlice (updPlace u.k).1)) u.sg
    let s := match u.k with
      | .bytes pa data pz => updView s e pa data.length (fun s => wrView s e pa (updBytes s u.gen pa data) ⟨u.num, u.vec⟩ pz)
      | .same pa data sts pz => updView s e pa data.length (fun s =>
          { wrView s e pa (updBytes s u.gen pa data) {} pz with stamps := mputs s.stamps {} (vkey e pa) sts })
      | .runs ws pz => ws.foldl (fun s w => updView s e w.1 w.2.length (fun s => wrView s e w.1 (updBytes s u.gen w.1 w.2) ⟨u.num, u.vec⟩ pz)) s
      | .mark line => { s with scat := s.scat ++ [scatKey e line] }
      | .clear line ws =>
        let s := { s with scat := s.scat.filter (· != scatKey e line) }
        ws.foldl (fun s w => updView s e w.1 w.2.1.length (fun s => wrView s e w.1 (updBytes s u.gen w.1 w.2.1) ⟨u.num, u.vec⟩ w.2.2)) s
    let s := countDie s e 0x0B none 1
    ackOnApply s u e

/-! ### Atomics (R218, R262) -/

def fmtOf : LType → Fmt
  | .f64 => fmt64
  | .f16 => fmt16
  | .bf16 => fmtB16
  | _ => fmt32

/-- New value of R262 from old value x and operand b under `FPCTL` value fp, with the causes it raises. -/
def atomNew (fp : Nat) (code : Nat) (ty : LType) (rnd : Rnd) (x b : Nat) : Res :=
  let w := tyWidth ty
  if code = 6 then ⟨b, []⟩
  else if code = 3 then ⟨x &&& b, []⟩
  else if code = 4 then ⟨x ||| b, []⟩
  else if code = 5 then ⟨x ^^^ b, []⟩
  else if tyFloat ty then
    let f := fmtOf ty
    if code = 0 then faddR f rnd (bit fp 3) (fread (bit fp 2) f x) (fread (bit fp 2) f b)
    else fminmax f (bit fp 2) (code == 2) x b
  else if code = 0 then ⟨(x + b) % 2 ^ w, []⟩
  else
    let less : Bool := if tySigned ty then decide (sint x w < sint b w) else decide (x < b)
    if code = 1 then ⟨if less then x else b, []⟩ else ⟨if less then b else x, []⟩

/-- Record of a cause raised away from the clause (R458). -/
def siteRec (s : State) (pc core group frag team site ty : Nat) (t : Nat) : ARec :=
  { time := dieNow s (dieOf core), pc := pc, team := team, mask := maskOf [t], site := site, core := core, group := group, frag := frag,
    mx := false, count := 1, ty := ty, cause := 0 }

/-- A record of an entry's atomic: at a home under R458; at a scratchpad in the program order of its group's clauses (R140). -/
def logSite (s : State) (e : PEnt) (r : ARec) : State :=
  match getL s e.launch with
  | none => s
  | some l =>
    match r.site, e.owner with
    | 0, .group uid => logG s l uid e.id r
    | _, _ => logA s l r

/-- The operation that an entry belongs to. -/
def entOp (s : State) (e : PEnt) : Option LOp :=
  match e.owner with
  | .group uid => (getG s uid).bind (fun g => getOp g e.lop)
  | _ => none

/-- The causes that one thread's atomic or reduction raises. An execution makes at most one record for a cause, with the mask of the
threads that raised it: it is made when the access of its last thread is (R140, log 13). -/
def raiseCauses (s : State) (e : PEnt) (r : ARec) (cs : List Cause) : State :=
  match entOp s e, e.owner with
  | some o, .group uid =>
    let all := o.raised ++ cs.map (fun c => (e.t, causeCode c))
    let last : Bool := match e.op with
      | .red .. => o.left == 1
      | _ => o.vals.length + (landTo o e.t).length == (threads o.act).length
    if !last then updG s uid (fun g => { g with ops := mapFirst (fun p => p.id == o.id) (fun p => { p with raised := all }) g.ops })
    else allCauses.foldl (fun s c =>
      let ts := (all.filter (fun p => p.2 == causeCode c)).flatMap (fun p => landTo o p.1)
      if ts.isEmpty then s else logSite s e { r with cause := causeCode c, mask := maskOf ts }) s
  | _, _ => cs.foldl (fun s c => logSite s e { r with cause := causeCode c }) s

/-- Site of a cause raised at a location (R139): a home is site 1, a scratchpad location the instruction's own. -/
def siteOf (a : Acc) : Nat :=
  match a.loc with
  | .mem _ => 1
  | _ => 0

/-- What an atomic entry leaves at the location: new value, causes. -/
def entNew (s : State) (e : PEnt) (x : Nat) : Res :=
  let fp := match getL s e.launch with
    | some l => fpctl l
    | none => 4 * e.ftz
  match e.op with
  | .atom code ty rnd | .red code ty rnd => atomNew fp code ty rnd x e.x
  | .cas => ⟨if x = e.x then e.y else x, []⟩
  | .bindg => ⟨if bits x 63 60 = 0 then e.x else x, []⟩
  | .store => ⟨e.x, []⟩

/-- Does an atomic leave its location unchanged without writing: a failing `cas` (R218), a `bindg` that finds a bound cell (R335)? -/
def entFails (e : PEnt) (x : Nat) : Bool :=
  match e.op with
  | .cas => x != e.x
  | .bindg => bits x 63 60 != 0
  | _ => false

/-- The value read lands in the operation's destination, with the value's vector (R218); the last one of an execution
is logged (R403). -/
def landAtomic (s : State) (e : PEnt) (x : Nat) (vec : V4) : State :=
  match e.owner with
  | .group uid =>
    match getG s uid with
    | none => s
    | some g =>
      match getOp g e.lop with
      | none => s
      | some o =>
        let vals := (landTo o e.t).map (fun t => (t, x)) ++ o.vals
        let g' := landVal g o e.t x
        let s := updG s uid (fun _ => { g' with
          obs := v4max g.obs vec
          ops := mapFirst (fun p => p.id == o.id) (fun p => { p with bound := s.nid, vals := if o.kind = .term then p.vals else vals }) g'.ops })
        if o.kind ≠ .term ∧ vals.length = (threads o.act).length then replay s uid 1 .g 0 e.entry (perThread (tyWide o.ty) vals) else s
  | _ => s

/-- Arrival of a value-returning atomic, or of a scratchpad or window reduction, in one move (R218, R204, R251). To a window it leaves as
one request whatever its operation, and the value that answers is its result: R251 names forms of a request for add, exchange and
compare alone, and the model sends an and, or, xor, min or max in the same way (log 38). -/
def arriveAtomic (s : State) (k : Nat) : State :=
  if !canArrive s k then s else
  match s.path[k]? with
  | none => s
  | some e =>
    let isRed : Bool := match e.op with
      | .red .. => true
      | _ => false
    if e.op = .store then s else
    let run (s : State) : State :=
      let r := rdPoint s e.acc
      if r.2.2 then
        match e.owner with
        | .group uid => workFault (delEnt s e.id) 0 uid e.entry e.hdr.toNat .poison e.acc.va e.ctx e.core
        | _ => ackEnt s e 0 0 none
      else
        let n := entNew s e r.1
        let s := match e.acc.loc with
          | .mem pa => if isRed then s else xfer s (srcHome s pa) e.core e.acc.n
          | _ => s
        let s := raiseCauses s e (siteRec s (e.hdr.toNat - lcBase ((getL s e.launch).getD {})) e.core e.gidx e.entry e.tidx (siteOf e.acc)
          (match e.op with
            | .atom _ ty _ | .red _ ty _ => tyCode ty
            | _ => 0) e.t) n.causes
        let s := if isRed then s else landAtomic s e r.1 r.2.1
        settleA (if entFails e r.1 then placeSame s e (leBytes e.acc.n r.1) else placeData s e (leBytes e.acc.n n.code))
    match e.acc.loc with
    | .mem pa =>
      match paKind s pa with
      | .host => sendWin s e .atom false pa
      | .peer _ => sendWin s e .atom true pa
      | .unmapped => delEnt s e.id
      | _ => if isRed then s else if isScat s (homeDie s pa) pa then want s (lineOf pa) else run s
    | _ => if poisonedRegion s e.acc then dropPeer s e else run s

/-! ### Update-only copies (R219, R220) -/

def hasCopy (s : State) (core line : Nat) : Option UCopy := s.copies.find? (fun c => c.core == core && c.line == line)

/-- Entry k as a reduction on its way to its core's atomic cache. -/
def redAt (s : State) (k : Nat) : Option (PEnt × Nat × Nat × LType × Rnd) :=
  match s.path[k]? with
  | none => none
  | some e => match e.op, e.acc.loc with
    | .red code ty rnd, .mem pa => if canArrive s k && inMem s pa then some (e, pa, code, ty, rnd) else none
    | _, _ => none

/-- Lines of the atomic cache of a core: 64 KiB (R9, R10). -/
def acLines : Nat := 512

/-- Does a load, store or value-returning atomic that its home could make now stand at a line? It comes before a new grant, so that an
access which has started a recall is applied after it (R220). -/
def owing (s : State) (line : Nat) : Bool :=
  let at' (a : Acc) : Bool := match a.loc with
    | .mem pa => lineOf pa == line
    | _ => false
  (iota 0 s.path.length).any (fun k => match s.path[k]? with
    | some e => at' e.acc && (match e.op with | .red .. => false | _ => true) && canArrive s k
    | none => false) ||
  (allG s).any (fun g => !((teamOfG s g).slot == .out) && ctxState s (ctxOfG s g) == 1 && g.ops.any (fun o => o.parts.any (fun p =>
    at' p.acc && (iota 0 p.acc.n).all (fun i => !(pathByte s g.uid p.acc i == some none)))))

/-- The home grants an update-only copy and marks the line scattered (R219). An atomic cache with no free line first has one of
its lines recalled. -/
def grantCopy (s : State) (k : Nat) : State :=
  match redAt s k with
  | none => s
  | some (e, pa, _) =>
    let line := lineOf pa
    let mine := s.copies.filter (fun c => c.core == e.core)
    if (hasCopy s e.core line).isSome ∨ s.wants.contains line ∨ owing s line then s
    else if acLines ≤ mine.length then
      want { s with fresh := s.fresh + 1 } (((mine[Config.freeChoice s.fresh % mine.length]?).map (·.line)).getD 0)
    else
      let h := homeDie s pa
      let r := nextNum s h
      let s := { r.2 with
        copies := r.2.copies ++ [{ core := e.core, line := line, num := r.1, marked := dieOf e.core == h }]
        scat := if r.2.scat.contains (scatKey h line) then r.2.scat else r.2.scat ++ [scatKey h line] }
      let s := xfer (xfer s e.core (srcHome s pa) 0) (srcHome s pa) e.core 0
      pushUpds s h r.1 .device 0 {} (.mark line)

/-- The record of a cause that a pending unit raises, under its own launch's `FPCTL`: site 1 (R458). -/
def logUnit (s : State) (u : AUnit) (cs : List Cause) : State :=
  cs.foldl (fun s c => logF s u.ctx u.fp { siteRec s u.pc u.core u.group u.entry u.team 1 (tyCode u.ty) u.t with cause := causeCode c }) s

/-- Is the result of a pending unit poisoned: the unit itself, or what stands at its home (R433)? -/
def unitPoison (s : State) (u : AUnit) : Bool := u.poison || (iota u.pa u.n).any (pzByte s (homeDie s u.pa))

/-- Apply a pending unit at its home as a store (R219, R220). -/
def applyUnit (s : State) (u : AUnit) : Nat × State :=
  let x := leNat (rdBytes s (homeDie s u.pa) u.pa u.key u.n)
  let r := atomNew u.fp u.code u.ty u.rnd x u.val
  (r.code, logUnit s u r.causes)

/-- Send one pending unit home, where it is applied as a store (R219), which the monitors parked on it see (R238). -/
def sendUnit (s : State) (u : AUnit) : State :=
  let s := { s with units := s.units.filter (fun x => x != u) }
  let s := xfer s u.core (srcHome s u.pa) (secBytes u.pa u.n)
  let r := applyUnit s u
  monitorCheck (arriveBytes r.2 u.pa u.key (leBytes u.n r.1) u.vec .device 0 (unitPoison s u)).2 { sp := .g, va := 0, loc := .mem u.pa, n := u.n }

/-- Does a pending unit take a reduction of core `core`: same place, operation, type and rounding mode (R219)? -/
def unitTakes (u : AUnit) (core pa n code : Nat) (ty : LType) (rnd : Rnd) : Bool :=
  u.core == core && u.pa == pa && u.n == n && u.code == code && u.ty == ty && u.rnd == rnd

/-- Merge an entry's operand into the pending unit, or make it the pending unit. The merged unit carries the maximum of the
operands' vectors (log 14). -/
def mergeUnit (s : State) (e : PEnt) (pa code : Nat) (ty : LType) (rnd : Rnd) : State :=
  let l := (getL s e.launch).getD {}
  let new : AUnit := { core := e.core, pa := pa, n := e.acc.n, code := code, ty := ty, rnd := rnd, val := e.x, key := e.acc.key,
                       ctx := e.ctx, vec := e.vec, pc := e.hdr.toNat - lcBase l, team := e.tidx, group := e.gidx, entry := e.entry, t := e.t,
                       fp := fpctl l }
  match s.units.find? (fun u => unitTakes u e.core pa e.acc.n code ty rnd) with
  | some u =>
    let r := atomNew new.fp code ty rnd u.val e.x
    let s := logUnit s new r.causes
    { s with units := mapFirst (fun x => x == u) (fun _ => { new with val := r.code, vec := v4max u.vec e.vec, poison := u.poison }) s.units }
  | none => { s with units := s.units ++ [new] }

/-- Sectors of a line that a range names, as a mask (R10). -/
def secMask (pa n : Nat) : Nat := (sectorsOf pa n).foldl (fun m x => m ||| 2 ^ (x % 4)) 0

/-- One reduction is merged in its core's atomic cache; it is acknowledged at once where the mark of the copy's grant has been
applied at its own die (R219). -/
def mergeRed (s : State) (k : Nat) : State :=
  match redAt s k with
  | none => s
  | some (e, pa, code, ty, rnd) =>
    match hasCopy s e.core (lineOf pa) with
    | none => s
    | some c =>
      let clash (u : AUnit) : Bool := u.core == e.core && decide (u.pa < pa + e.acc.n ∧ pa < u.pa + u.n) &&
        !unitTakes u e.core pa e.acc.n code ty rnd
      let s := (s.units.filter clash).foldl sendUnit s
      let s := mergeUnit s e pa code ty rnd
      let s := { s with copies := s.copies.map (fun x => if x.core = c.core ∧ x.line = c.line then { x with secs := x.secs ||| secMask pa e.acc.n } else x) }
      let s := countCore s e.core 0x0F (some e.ctx) 1
      if c.marked then ackEnt s e (homeDie s pa) c.num (some (pa, [], {}))
      else setEnt s e.id (fun x => { x with st := .arrived c.num })

/-- Cores that hold copies of a line, in an order the device chooses (R220): at each place a free choice. -/
def recallOrder : Nat → Nat → List Nat → List Nat
  | 0, _, l => l
  | _, _, [] => []
  | _, _, [c] => [c]
  | n + 1, k, l =>
    let i := Config.freeChoice k % l.length
    (l[i]?).getD 0 :: recallOrder n (k + 1) (dropAt l i)

/-- Whole sectors of a copy that a recall sends. -/
def copyBytes (s : State) (core line : Nat) : Nat :=
  match hasCopy s core line with
  | some c => 32 * ((iota 0 4).filter (bit c.secs)).length
  | none => 0

/-- Recall a scattered line that some access has asked for (R220). The recalled bytes carry the maximum of the vectors of the
units of all copies, where the rule names none (log 14). -/
def recallLine (s : State) (line : Nat) : State :=
  if !s.wants.contains line then s else
  let pa := 128 * line
  let h := homeDie s pa
  let s := { s with wants := s.wants.filter (· != line) }
  if !isScat s h pa then s else
  let cs := (s.copies.filter (fun c => c.line == line)).map (·.core)
  let order := recallOrder cs.length s.fresh cs
  let s := { s with fresh := s.fresh + cs.length }
  let us := order.flatMap (fun c => s.units.filter (fun u => u.core == c && lineOf u.pa == line))
  let r := nextNum s h
  let vec := us.foldl (fun v u => v4max v u.vec) {}
  let s := us.foldl (fun s u =>
    let x := applyUnit { s with units := s.units.filter (fun y => y != u) } u
    wrView ((sectorsOf u.pa u.n).foldl (fun s sec => retag s u.key sec) x.2) h u.pa (leBytes u.n x.1) ⟨r.1, vec⟩ (unitPoison s u)) r.2
  let ws := us.map (fun u => (u.pa, rdBytes s h u.pa u.key u.n, (iota u.pa u.n).any (pzByte s h)))
  let s := order.foldl (fun s c => xfer (xfer s (srcHome s pa) c 0) c (srcHome s pa) (copyBytes s c line)) s
  let s := { s with
    copies := s.copies.filter (fun c => c.line != line)
    scat := s.scat.filter (· != scatKey h line) }
  let s := pushUpds s h r.1 .device 0 vec (.clear line ws)
  let s := countDie s h 0x0A none 1
  us.foldl (fun s u => monitorCheck s { sp := .g, va := 0, loc := .mem u.pa, n := u.n }) s

/-! ### Device stores that a page-table walk or a consumer reads: see View -/

/-- O and the replay interval after a value is merged (R203). -/
def mergeObs (s : State) (uid : Nat) (v : V4) : State := updG s uid (fun g => { g with obs := v4max g.obs v })

end Sys2Proof.Machine
end

