-- ==== Sys2Proof/Machine/Ops.lean ====
section
/-! DEFINITION. The named operations of the two streams: scalar results (R86), scalar loads and stores (R92, R93, R243,
R245), parks at away pages (R373, R375), the Roaster's count (R377), ONE operation that takes a handled trap and the
return from it (R410, R439, R440), and the release, acquire and fence of a fragment (R208 to R212, R249, R250). -/

namespace Sys2Proof.Machine

/-- What every meaning answers with. -/
abbrev Out := Host.Outcome State Fault Refusal

/-! ### Scalar results -/

def srcA (s : State) (r : Reg) : Word := readA s.g r.toNat

/-- The next word is at `pc`. -/
def jump (s : State) (pc : Word) : State := { s with g := { s.g with pc := pc } }

/-- pc := pc + 4 (R86). -/
def advance (s : State) : State := jump s (s.g.pc + 4)

/-- write_a(d, x), then pc := pc + 4 (R86). -/
def setA (s : State) (d : Reg) (x : Word) : State := advance { s with g := writeA s.g d.toNat x }

/-! ### Parks and the Roaster -/

def shadowAddr (s : State) (c leafAddr : Nat) : Nat := (leafAddr + sysBits s (rCtx c 1) 51 12 * 4096) % 2 ^ 52
def shadowWord (s : State) (c leafAddr : Nat) : Nat := rdPhys s (shadowAddr s c leafAddr) 8

/-- The frame a usable shadow names (R373). -/
def usableShadow (s : State) (c leafAddr leaf : Nat) : Option Nat :=
  let w := shadowWord s c leafAddr
  let pa := ptePa w
  let other : Bool := match paKind s (ptePa leaf), paKind s pa with
    | .hbm, .tier | .tier, .hbm => true
    | _, _ => false
  if bit w 0 && bits w 59 52 == bits leaf 59 52 && pa % 2 ^ pageLog (bits leaf 63 60) == 0 && other then some pa else none

/-- A record of the migration ring (R376). -/
def migRecord (s : State) (c kind sz page count : Nat) : State :=
  ringPut s 0x1300 [page, c + 2 ^ 8 * kind + 2 ^ 11 * sz, count, dieNow s 0]

/-- Park at an away page (R375): once per page, a usable shadow starts a move and an absent one records a migration
fault, which waits while the ring is full. -/
def parkPage (s : State) (c leafAddr leaf page : Nat) : State :=
  if s.parks.any (fun p => p.ctx == c && p.page == page) then s
  else
    let s1 := emit s 0x09 0 c srcDev 0 (some (page * 2 ^ 64)) none
    match usableShadow s c leafAddr leaf with
    | some _ => { s1 with
        parks := s1.parks ++ [⟨c, page, false⟩]
        migq := s1.migq ++ [{ ctx := c, va := page, away := false, byFault := true }] }
    | none =>
      if ringFull s 0x1300 then s
      else { migRecord s1 c 0 (bits leaf 63 60) page 0 with parks := s1.parks ++ [⟨c, page, true⟩] }

/-- Park at a page that is being moved (R374, R375): the move releases it. -/
def parkMoving (s : State) (c page : Nat) : State :=
  if s.parks.any (fun p => p.ctx == c && p.page == page) then s
  else { emit s 0x09 0 c srcDev 0 (some (page * 2 ^ 64)) none with parks := s.parks ++ [⟨c, page, false⟩] }

/-- A miss of a core's TLB starts a walk for its group, or waits on the one that the group has started (R371). -/
def startWalk (s : State) (core c uid va : Nat) : State :=
  if (walkOf s core c uid va).isSome then s
  else countCore { s with walks := s.walks ++ [{ id := s.nid, core := core, ctx := c, uid := uid, page := walkPage va }], nid := s.nid + 1 }
    core 0x08 (some c) 1

/-- An access of context c that is neither made nor faulted waits: at an away or moving page, for a walk, for a window, for the recall
of a line. -/
def park (s : State) (c : Nat) (aw : Away) : State :=
  match aw with
  | .page leafAddr leaf page => parkPage s c leafAddr leaf page
  | .moving page => parkMoving s c page
  | .walk core uid va => startWalk s core c uid va
  | .line n => want s n
  | .window o scalar frag va pas => askWin s o scalar frag c va pas

/-- The Roaster counts a translated access to a page whose leaf has M = 1 (R377). -/
def roastNote (s : State) (core c uid : Nat) (kind : AKind) (va : Nat) : State :=
  if !sysBit s 0x1307 63 then s else
  match translate s core c uid kind va with
  | .ok _ _ _ la leaf page =>
    if !bit leaf 8 then s
    else if s.roast.any (fun r => r.ctx == c && r.page == page) then
      { s with roast := mapFirst (fun r => r.ctx == c && r.page == page) (fun r => { r with n := r.n + 1 }) s.roast }
    else { s with roast := s.roast ++ [⟨c, page, la, 1⟩] }
  | _ => s

/-! ### Scalar loads and stores (R92) -/

/-- Outcome of an access of the scalar stream: it waits, it faults, or it is made. -/
inductive ScOut where
  | wait (s : State)
  | fault (s : State) (c : FCause)
  | got (s : State) (v : Nat)

/-- What the group's own store path makes of a load of a window (R203): all of its bytes, a wait, or nothing. -/
inductive OwnWin where
  | all (d : List Byte)
  | wait
  | none

/-- A load whose every byte stands in own stores takes them; one that own entries cover in part waits until they have gone. -/
def ownWin (s : State) (uid : Nat) (a : Acc) : OwnWin :=
  let own := (iota 0 a.n).map (pathByte s uid a)
  if own.all (·.isNone) then .none
  else if own.all (fun o => ((o.join)).isSome) then .all (mergeOwn own (List.replicate a.n 0))
  else .wait

/-- Physical address of a global place. -/
def locPa : Loc → Nat
  | .mem pa => pa
  | _ => 0

/-- A scalar load of a window leaves for its remote home, or takes the answer that has come, which stays with its word (R203, R243,
R245); an answer that is poisoned or an error is the word's fault. -/
def windowRead (s : State) (a : Acc) : ScOut :=
  match s.g.seen.find? (fun p => p.1 == a.va) with
  | some p => .got s p.2
  | none =>
  match s.g.swait with
  | .got v => .got (replayLoad { s with g := { s.g with swait := .go, seen := (a.va, v.toNat) :: s.g.seen } } s.g.uid 0 a (leBytes a.n v.toNat)) v.toNat
  | .poisoned => .fault { s with g := { s.g with swait := .go } } .poison
  | .failed => .fault { s with g := { s.g with swait := .go } } .remoteError
  | .remote _ | .acq _ | .saved _ => .wait s
  | .go =>
    match ownWin s s.g.uid a with
    | .all d => .got (replayLoad s s.g.uid 0 a d) (leNat d)
    | .wait => .wait s
    | .none => .wait (openWin { s with g := { s.g with swait := .remote s.nid } } s.t.core 0
        { id := 0, kind := .load, peer := false, ctx := s.l.ctx, owner := .group s.g.uid, pa := locPa a.loc, n := a.n, scalar := true, pc := s.g.pc, va := a.va })

/-- Perform the load of the scalar stream at a checked place (R203, R92). -/
def scalarPerform (s : State) (a : Acc) : ScOut :=
  let window : Bool := match a.loc with
    | .mem pa => isWindow s pa
    | _ => false
  if window then windowRead s a else
    match performLoad s s.g.uid s.t.core a false [] with
    | .wait s => .wait s
    | .got d vec pz s =>
      if pz then .fault s .poison
      else .got (replayLoad (mergeObs s s.g.uid vec) s.g.uid 0 a d) (leNat d)

/-- The Roaster counts an access of the scalar stream once it has been made (R377). -/
def roasted (sp : Space) (kind : AKind) (ea : Nat) (o : ScOut) : ScOut :=
  match o with
  | .got s v => .got (if sp = .g then roastNote s s.t.core s.l.ctx s.g.uid kind ea else s) v
  | o => o

/-- A load of n bytes of the scalar stream (R92): alignment, extent or translation, range lock, poison. -/
def scalarRead (s : State) (sp : Space) (ea n : Nat) : ScOut :=
  match checkAcc s s.g.uid s.t s.l.ctx 0 sp .load ea n n with
  | .bad c => .fault s c
  | .away aw => .wait (park s s.l.ctx aw)
  | .ok a =>
    if locked s s.l.ctx a false then .fault s .rangeLocked
    else roasted sp .load ea (scalarPerform s a)

/-- A store of n bytes of the scalar stream (R92, R199). -/
def scalarWrite (s : State) (sp : Space) (ea n x : Nat) : ScOut :=
  match checkAcc s s.g.uid s.t s.l.ctx 0 sp .store ea n n with
  | .bad c => .fault s c
  | .away aw => .wait (park s s.l.ctx aw)
  | .ok a =>
    if locked s s.l.ctx a true then .fault s .rangeLocked
    else .got (storeEnt (if sp = .g then roastNote s s.t.core s.l.ctx s.g.uid .store ea else s) a x 0 (some s.g.pc)) 0

/-! ### Handled traps (R410, R439, R440) -/

/-- A handled trap that cannot be delivered: fatal, with the undelivered trap's cause beside it (R410). -/
def trapFatal (s : State) (c : FCause) (sub addr word : Nat) : State :=
  let s := emit s 0x07 1 s.l.ctx s.t.core (causeNo c) (some (idS s addr)) none
  contextStop s { faultHere s c addr s.g.pc.toNat word with sub := sub, frag := 0 }

/-- The frame words of a delivery, one relaxed `.g` store each (R410). -/
def frameStores (s : State) (f : Nat) : List (Nat × Nat) → ScOut
  | [] => .got s 0
  | (o, x) :: r =>
    match scalarWrite s .g ((f + o) % 2 ^ 64) 8 x with
    | .got s _ => frameStores s f r
    | out => out

/-- Frame address of the issuing group (R410, R439). -/
def frameAddr (s : State) : Nat :=
  ((sextW (sysBits s (rRec s.l.ctx 1) 56 5 * 32) 57).toNat + 32 * (16 * s.t.idx + s.g.idx)) % 2 ^ 64

/-- Handler address (R412, R439). -/
def handlerPc (s : State) : Word := sextW (sysBits s (rRec s.l.ctx 0) 56 2 * 4) 57

/-- `deliver` of R439, the ONE operation that takes a handled trap: `cause` and `resume` go to the frame with the word
that trapped, the frame becomes busy and is kept with the group, and the stream continues at the handler. -/
def takeTrap (s : State) (cause resume word : Nat) : State :=
  if !sysBit s (rRec s.l.ctx 0) 63 then trapFatal s .unhandled cause s.g.pc.toNat word
  else
    let f := frameAddr s
    match scalarRead s .g ((f + 0x18) % 2 ^ 64) 8 with
    | .wait s => s
    | .fault s _ => trapFatal s .frame cause f word
    | .got s1 b =>
      if b = 1 then trapFatal s1 .doubleTrap cause f word
      else match frameStores s1 f [(0, resume), (8, cause), (0x10, word), (0x18, 1)] with
        | .wait _ => s
        | .fault s _ => trapFatal s .frame cause f word
        | .got s _ =>
          let s := emit s 0x07 1 s.l.ctx s.t.core (cause % 2 ^ 16) (some (idS s s.g.pc.toNat)) none
          { s with g := { s.g with frame := some f, pc := handlerPc s } }

/-- The word of `eret` (R440). -/
def eretWord : Nat := 0xC4000000

/-- `eret` of R440: the busy word is cleared and the stream continues at the resume word read from the frame. -/
def leaveTrap (s : State) : State :=
  match s.g.frame with
  | none => takeTrap s 1 s.g.pc.toNat eretWord
  | some f =>
    match scalarRead s .g f 8 with
    | .wait s => s
    | .fault s _ => trapFatal s .frame 0 f eretWord
    | .got s r =>
      if r % 4 ≠ 0 then takeTrap s 3 s.g.pc.toNat eretWord
      else match scalarWrite s .g ((f + 0x18) % 2 ^ 64) 8 0 with
        | .wait s => s
        | .fault s _ => trapFatal s .frame 0 f eretWord
        | .got s _ => { s with g := { s.g with frame := none, pc := BitVec.ofNat 64 r } }

/-! ### Waits of the lane stream, as records show them (R393, R407) -/

/-- The wait is over. -/
def unstall (s : State) : State :=
  match (curF s).blk with
  | none => s
  | some c => modF (emitG s 0x02 1 c 0) (fun f => { f with blk := none })

/-- The executing fragment stalls for a cause of R393: its begin record, once; a wait for another cause ends. -/
def stall (s : State) (cause v : Nat) : State :=
  if (curF s).blk = some cause then s
  else
    let s := unstall s
    let s := if cause = 0 then countG s 0x04 1 else s
    modF (emitG s 0x02 0 cause v) (fun f => { f with blk := some cause })

/-! ### Releases, acquires and fences (R208 to R212) -/

/-- A fragment passes an order, or is held. -/
inductive Gate where
  | pass (s : State)
  | hold (s : State)

/-- Does an entry of a matrix queue load from memory (R182)? -/
def mLoadsMem (e : MEnt) : Bool :=
  match e.kind with
  | .loop .. | .tld | .zld => !e.fin
  | _ => false

/-- Is an earlier load of the fragment not performed? Its threads are those of the load, whatever fragment issued it; the loads of
queued matrix operations were issued with them (R182). -/
def loadsDue (t : Team) (g : Group) (f : Frag) : Bool :=
  g.ops.any (fun o => (o.kind == .load || !o.parts.isEmpty) && !((o.act &&& f.mask) == 0)) ||
  t.mq.any (fun e => e.group == g.uid && mLoadsMem e && !((e.act &&& f.mask) == 0))

/-- The zero-length host read of a `.sys` release (R249). -/
def flushRead (s : State) : State :=
  let f := curF s
  modF (openWin s s.t.core 0
    { id := 0, kind := .flush, peer := false, ctx := s.l.ctx, owner := .group s.g.uid, pa := sysGet s (rCtx s.l.ctx 4), n := 0, frag := f.id })
    (fun f => { f with wait := .remote s.nid })

/-- The release of R208 at scope `scp`; the site-0 records of the group are in the log before it completes (R140). R249 does not say
whether a host store of another fragment that is acknowledged after the flush read was sent needs a second read: here the release that
passes covers it (log 19). A fragment that is held waits on memory (R45, R393). -/
def releaseGate (s : State) (scp : Scope) : Gate :=
  let f := curF s
  if loadsDue s.t s.g f || recordsDue s s.g || (!(scp == .grp) && !(uCount s s.g.uid == 0)) then .hold (stall s 3 0)
  else if scp == .sys && s.g.hostSt && !f.flushed then .hold (flushRead s)
  else .pass (modF { s with g := { s.g with car := s.g.obs, hostSt := s.g.hostSt && !(scp == .sys) } }
    (fun f => { f with flushed := false }))

/-- Has every queue into the die of a core applied what an acquire or a fence waits for (R209, R211, R250)? -/
def queuesDone (s : State) (g : Group) (core bound : Nat) (byO : Bool) : Bool :=
  !s.inq.any (fun u => u.dst == dieOf core && ((byO && decide (u.num ≤ v4get g.obs u.home)) || decide (u.ser < bound)))

/-- The acquire of R209 of the executing fragment, once its load is performed; `bound` is the serial number at that
move (R250). -/
def acquire (s : State) (scp : Scope) (bound : Nat) : State :=
  let go (w : FWait) (s : State) : State := modF s (fun f => { f with wait := w })
  match scp with
  | .grp | .team => go .go s
  | .clu | .die => go .go (replayInterval (dropL1 s s.t.core) s.g.uid)
  | _ =>
    let b := if scp = .sys then bound else 0
    let s := replayInterval (dropL1 s s.t.core) s.g.uid
    go (if queuesDone s s.g s.t.core b true then .go else .acq b) s

/-- Steps 2 and 3 of the fence of R211, once X = 0. -/
def fenceStart (s : State) : Gate :=
  let b := s.nid
  let s := replayInterval (dropL1 { s with fenceNo := s.fenceNo + 1 } s.t.core) s.g.uid
  if queuesDone s s.g s.t.core b false then .pass (modF s (fun f => { f with wait := .go }))
  else .hold (modF s (fun f => { f with wait := .fence b }))

/-- The fence of R211 at scope `.dev` or `.sys`. -/
def fenceGate (s : State) (scp : Scope) : Gate :=
  match (curF s).wait with
  | .fenced => .pass (modF s (fun f => { f with wait := .go }))
  | .fenceX => if xCount s s.g.uid = 0 then fenceStart s else .hold s
  | _ =>
    match releaseGate s scp with
    | .hold s => .hold s
    | .pass s => if xCount s s.g.uid = 0 then fenceStart s else .hold (modF s (fun f => { f with wait := .fenceX }))

/-- What an order does before the access (R210). -/
def orderBefore (s : State) (ord : MOrd) (scp : Scope) : Gate :=
  match ord with
  | .rlx | .acq => .pass s
  | .rel | .ar => releaseGate s scp
  | .sc =>
    match scp with
    | .dev | .sys => fenceGate s scp
    | _ =>
      match releaseGate s scp with
      | .hold s => .hold s
      | .pass s => .pass (acquire s scp s.nid)

/-- What an order does after the access (R210); `op` is the operation whose end it awaits, if any was started. -/
def orderAfter (s : State) (ord : MOrd) (scp : Scope) (op : Option Nat) : State :=
  match ord with
  | .rlx | .rel => s
  | _ =>
    match op with
    | some i => modF s (fun f => { f with wait := .acqOp i scp })
    | none => acquire s scp s.nid

/-- After a restore, an answer kept with the request is delivered, or the request is answerable again, once a monitor of the
new core is free (R317). -/
def wakeAnswer (s : State) (lop : Nat) : State :=
  let free := decide (monitorsUsed s s.t.core < Config.monitors)
  match s.t.saved.find? (fun a => a.group == s.g.uid && a.lop == lop) with
  | some a => if free then deliver { s with t := { s.t with saved := s.t.saved.filter (fun x => x != a) } } a else s
  | none =>
    let due (r : CReq) : Bool := r.group == s.g.uid && r.lop == lop && r.kind == .claimw && !r.monitor
    if free && s.reqs.any due then { s with reqs := s.reqs.map (fun r => if due r then { r with monitor := true, core := s.t.core } else r) } else s

/-- The first steps of a `waitf` that is executed again, at a place that has passed its checks. -/
def rearmAt (s : State) (a : Acc) (cc b : Nat) (ord : MOrd) (scp : Scope) : State :=
  let line : Option Nat := match a.loc with
    | .mem pa => if isScat s (homeDie s pa) pa then some (lineOf pa) else none
    | _ => none
  if Config.monitors ≤ monitorsUsed s s.t.core then s
  else match line with
  | some l => want s l
  | none =>
    let s := countDie s (dieOf s.t.core) 0x09 (some s.l.ctx) 1
    let r := rdPoint s a
    if locked s s.l.ctx a false then laneFaultK s .rangeLocked a.va (akindNo .load)
    else if r.2.2 then laneFaultK s .poison a.va (akindNo .load)
    else modF s (fun f => { f with wait := if waitCmp cc r.1 b then .monHit r.2.1 ord scp else .monitor a cc b ord scp })

/-- A `waitf` that a switch or an invalidation interrupted is executed again from its first step (R238, R372). -/
def rearm (s : State) (a : Acc) (cc b : Nat) (ord : MOrd) (scp : Scope) : State :=
  match a.sp with
  | .g => match checkAcc s s.g.uid s.t s.l.ctx 0 .g .load a.va a.n 8 with
    | .ok a => rearmAt s a cc b ord scp
    | .bad c => laneFaultK s c a.va (akindNo .load)
    | .away aw => park s s.l.ctx aw
  | _ => rearmAt s a cc b ord scp

/-- Has the access of an operation been performed for the threads of a mask? A value-returning atomic has when its value has landed,
whether or not it is acknowledged (R209, R263); a load when no part of it is due. -/
def landed (o : LOp) (m : Mask) : Bool :=
  match o.kind with
  | .atomic => (threads (o.act &&& m)).all (fun t => o.vals.any (fun p => p.1 == t))
  | _ => o.left == 0 && o.parts.all (fun p => !m.getLsbD p.t)

/-- A waiting fragment looks at what it waits for. -/
def wakeFrag (s : State) : State :=
  match (curF s).wait with
  | .answer lop => wakeAnswer s lop
  | .acqDue scp b => acquire s scp b
  | .acqOp i scp => match getOp s.g i with
    | none => modF s (fun f => { f with wait := .acqDue scp s.nid })
    | some o => if landed o (curF s).mask then modF s (fun f => { f with wait := .acqDue scp o.bound }) else s
  | .rearm a cc b ord scp => rearm s a cc b ord scp
  | .acq b => if queuesDone s s.g s.t.core b true then modF s (fun f => { f with wait := .go }) else s
  | .fence b => if queuesDone s s.g s.t.core b false then modF s (fun f => { f with wait := .fenced }) else s
  | _ => s

end Sys2Proof.Machine
end

