-- ==== Sys2Proof/Machine/Frags.lean ====
section
/-! DEFINITION. Fragments: instruction fetch (R55, R96), reconvergence and fusion (R46), the held stack (R47), splits of
a branch and of a partly present load (R46 to R48), the end of a task (R33), the check of a clause (R72, R73). -/

namespace Sys2Proof.Machine

/-! ### Fetch (R55) -/

inductive Fetched where
  | word (x : Nat)
  | bad (c : FCause) (va : Nat)
  | away (aw : Away)
  deriving DecidableEq, Repr

/-- Four aligned bytes of code for the issuing group: from the die view, or from the remote home of a window (R243). The bytes
are those that stand there at the fetch, so a code word whose store has been applied is fetched new: R55 also permits the
old bytes and a mixture (log 11). -/
def fetch4 (s : State) (lane : Bool) (core c va : Nat) : Fetched :=
  match translate s core c s.g.uid .fetch va with
  | .bad f => .bad f va
  | .away aw => .away aw
  | .ok pa key _ _ _ _ =>
    if isWindow s pa then
      let frag := if lane then (curF s).id else 0
      match winRead s (.group s.g.uid) frag c pa 4 with
      | .inl (d, pz) => if pz then .bad .poison va else .word (leNat d)
      | .inr pas => .away (.window (.group s.g.uid) (!lane) frag va pas)
    else .word (leNat (rdBytes s (dieOf core) pa key 4))

/-- A lane word: three 32-bit words, lowest first (R55). -/
def fetch12 (s : State) (core c va : Nat) : Fetched :=
  match fetch4 s true core c (va % 2 ^ 64), fetch4 s true core c ((va + 4) % 2 ^ 64), fetch4 s true core c ((va + 8) % 2 ^ 64) with
  | .word x, .word y, .word z => .word (x + 2 ^ 32 * y + 2 ^ 64 * z)
  | .word _, .word _, r => r
  | .word _, r, _ => r
  | r, _, _ => r

/-- Address of word `i` of the clause whose header is at `pc`. -/
def wordAddr (pc : Word) (i : Nat) : Nat := (pc.toNat + 12 * i) % 2 ^ 64

/-! ### Fusion (R46) -/

def sameHead (a b : Frag) : Bool :=
  match a.lin, b.lin with
  | x :: _, y :: _ => x.id == y.id
  | _, _ => false

/-- The fragment with the same parent that waits as `f` does at the same place. -/
def sibling (g : Group) (e : Nat) (f : Frag) : Option (Nat × Frag) :=
  g.frs.find? (fun p => p.1 != e && p.2.wait == f.wait && p.2.pc == f.pc && p.2.idx == f.idx && p.2.rcv == f.rcv && sameHead p.2 f)

/-- The executing fragment fuses with another: the lower entry is kept, with the parent's reconvergence address and the
parent's own parent (R46, R299). -/
def fuse (s : State) (e2 : Nat) (f2 : Frag) : State :=
  let f := curF s
  let e := min s.fi e2
  let base := if s.fi ≤ e2 then f else f2
  let f' := { base with
    mask := f.mask ||| f2.mask
    rcv := match f.lin with | h :: _ => h.rcv | [] => none
    lin := f.lin.drop 1
    back := f.back ++ f2.back ++ (match f.lin with | h :: _ => h.back | [] => [])
    under := f.under ++ f2.under ++ (match f.lin with | h :: _ => h.under | [] => [])
    wait := .go }
  let s := { s with g := { s.g with frs := fput (fdel (fdel s.g.frs s.fi) e2) e f' }, fi := e }
  emitG s 0x01 4 e f'.mask.toNat

/-! ### The held stack (R47) -/

/-- What happens to a running set that stands at `at?` (none: the task's `lend`): nothing, the top level is popped, or it
merges with a set that waits for it. -/
inductive HeldAct where
  | none
  | level (h : Held) (rest : List Held)
  | back (h : Held) (rest : List Held)

def backAct (f : Frag) (at? : Option Word) : HeldAct :=
  match f.back with
  | b :: r => if b.rejoin = at? then .back b r else .none
  | [] => .none

def heldAct (g : Group) (f : Frag) (at? : Option Word) : HeldAct :=
  match g.held with
  | h :: r => if h.rejoin = at? then .level h r else backAct f at?
  | [] => backAct f at?

/-- A fragment has its own reconvergence address again once the levels of its `fail` are popped (R337). -/
def restoreRcv (depth : Nat) (f : Frag) : Frag :=
  match f.under with
  | (d, r) :: u => if f.back.isEmpty ∧ depth ≤ d then { f with rcv := r, under := u, wait := if f.wait = .join then .go else f.wait } else f
  | [] => f

/-- The running set pops the top level (R47): held threads whose counter is the rejoin address go on with it at once, and
the others run to that address while it waits. -/
def heldPop (s : State) (h : Held) (rest : List Held) : State :=
  let s := { s with g := { s.g with held := rest } }
  let s := if h.rejoin == some h.pc then modF s (fun f => { f with mask := f.mask ||| h.mask })
    else modF s (fun f => { f with
      back := { mask := f.mask, pc := f.pc, rejoin := h.rejoin } :: f.back
      mask := h.mask
      pc := h.pc
      idx := 0 })
  { s with g := { s.g with frs := s.g.frs.map (fun p => (p.1, restoreRcv rest.length p.2)) } }

/-- The threads of a popped level merge with the set that waits for them. -/
def heldJoin (s : State) (h : Held) (rest : List Held) : State :=
  modF s (fun f => restoreRcv s.g.held.length { f with mask := f.mask ||| h.mask, back := rest })

/-- A fragment stands at the clause at its pc: held levels first, then its reconvergence address. -/
def arriveN : Nat → State → State
  | 0, s => s
  | n + 1, s =>
    let f := curF s
    if f.idx ≠ 0 then s else
    match heldAct s.g f (some f.pc) with
    | .level h r => arriveN n (heldPop s h r)
    | .back h r => arriveN n (heldJoin s h r)
    | .none =>
      if f.rcv ≠ some f.pc then s
      else
        let s := modF s (fun f => { f with wait := .join })
        match sibling s.g s.fi (curF s) with
        | some (e2, f2) => arriveN n (fuse s e2 f2)
        | none => s

/-- Levels and fusions that one arrival can make: at most 16 levels, 64 waiting sets and 8 entries. -/
def arriveFuel : Nat := 96

def arrive (s : State) : State := arriveN arriveFuel s

/-- The instruction of the executing fragment is done: the next word, or the next clause (R70). -/
def laneNext (s : State) : State :=
  let s := unstall s
  let f := curF s
  if f.idx < f.len then modF s (fun f => { f with idx := f.idx + 1 })
  else arrive (modF s (fun f => { f with pc := BitVec.ofNat 64 (wordAddr f.pc (f.len + 1)), idx := 0 }))

/-- The clause that follows the executing one. -/
def followPc (f : Frag) : Word := BitVec.ofNat 64 (wordAddr f.pc (f.len + 1))

/-- The fragment goes on at `pc`. -/
def laneGoto (s : State) (pc : Word) : State := arrive (modF (unstall s) (fun f => { f with pc := pc, idx := 0 }))

/-- Run `k` for the fragment in entry `e`, and return to the entry that executes. -/
def atEntry (s : State) (e : Nat) (k : State → State) : State :=
  let old := s.fi
  let s := k { s with fi := e }
  { s with fi := old }

/-! ### Splits -/

/-- A split in two (R46): `a` goes on at `pa`, the rest at `pb`, both with `rcv`; none when no entry is free. The entry that is
created is the younger (R298). -/
def splitTwo (s : State) (a : Mask) (pa pb : Word) (rcv : Option Word) : Option State :=
  match freeEntry s.g.frs with
  | none => none
  | some e2 =>
    let f := curF s
    let sp : Split := { id := s.nid, entry := s.fi, rcv := f.rcv, back := f.back, under := f.under }
    let fa := { f with id := s.nid + 1, mask := a, pc := pa, idx := 0, rcv := rcv, lin := sp :: f.lin, wait := .go,
                       blk := none, back := [], under := [] }
    let fb := { fa with id := s.nid + 2, mask := f.mask &&& ~~~a, pc := pb, born := s.nid, cnt := 0 }
    let s := { s with g := { s.g with frs := fput (fput s.g.frs s.fi fa) e2 fb }, nid := s.nid + 3 }
    let s := countG (emitG s 0x01 3 e2 fb.mask.toNat) 0x0A 1
    some s

/-- Both children of a split stand at their first clause. -/
def arriveBoth (s : State) (e2 : Nat) : State := arrive (atEntry s e2 arrive)

/-- Levels of the held stack that are free. -/
def heldFree (g : Group) : Nat := Config.heldLevels - g.held.length

/-- A divergent branch (R46, R47, R173). -/
def diverge (s : State) (taken : Mask) (pt pn : Word) (rcv : Option Word) : State :=
  let s := unstall s
  match freeEntry s.g.frs, splitTwo s taken pt pn rcv with
  | some e2, some s' => arriveBoth s' e2
  | _, _ =>
    if heldFree s.g = 0 then laneFault s .divergenceOverflow 0
    else
      let f := curF s
      let lv : Held := { mask := f.mask &&& ~~~taken, pc := pn, rejoin := rcv }
      arrive (modF { s with g := { s.g with held := lv :: s.g.held } } (fun f => { f with mask := taken, pc := pt, idx := 0 }))

/-- The hit and miss split of R48, after the load has been issued as operation `op`: threads of `hit` go on, the others
wait for the operation's sectors; with no free entry the whole fragment waits. Both keep their age (R299). `acq` is the acquire of the load. -/
def splitMiss (s : State) (hit : Mask) (op : Nat) (acq : Option Scope) : State :=
  match freeEntry s.g.frs with
  | none => modF s (fun f => { f with wait := .mem op acq })
  | some e2 =>
    let f := curF s
    let sp : Split := { id := s.nid, entry := s.fi, rcv := f.rcv, hm := true }
    let fa := { f with mask := hit, lin := sp :: f.lin }
    let fb := { fa with id := s.nid + 1, mask := f.mask &&& ~~~hit, wait := .mem op acq, back := [], under := [] }
    let s := { s with g := { s.g with frs := fput (fput s.g.frs s.fi fa) e2 fb }, nid := s.nid + 2 }
    countG (emitG s 0x01 3 e2 fb.mask.toNat) 0x0A 1

/-- Step past a word without standing at the next clause yet: a fragment that waits for memory arrives when it wakes. -/
def stepOver (f : Frag) : Frag :=
  if f.idx < f.len then { f with idx := f.idx + 1 } else { f with pc := followPc f, idx := 0 }

/-! ### Gathering of every fragment (R280, R356) and the end of a task (R33) -/

def allThreads : Mask := BitVec.allOnes 64

/-- Fragments that wait in the way of the executing one at the same word. -/
def gathered (g : Group) (f : Frag) : List (Nat × Frag) :=
  g.frs.filter (fun p => p.2.wait == f.wait && p.2.pc == f.pc && p.2.idx == f.idx)

def unionOf (l : List (Nat × Frag)) : Mask := l.foldl (fun m p => m ||| p.2.mask) 0

/-- The table of a group that runs no task: one fragment of every thread (R27). -/
def idleTable (id : Nat) (pc : Word) : List (Nat × Frag) := [(0, { id := id, mask := allThreads, pc := pc, born := id })]

/-- The task ends (R33): one fragment of every thread remains; the counts of R420 start again once nothing is queued. -/
def endTask (s : State) : State :=
  let s := emitG s 0x01 2 (laneOff s.l (s.g.task.getD 0)) 0
  let idle := s.g.taskq.isEmpty
  { s with nid := s.nid + 1
           g := { s.g with frs := idleTable s.nid (curF s).pc, held := [], task := none,
                           nInstr := if idle then 0 else s.g.nInstr, nClause := if idle then 0 else s.g.nClause } }

/-- `lend` for the executing fragment (R33): held levels whose rejoin is the task's `lend` run first; a fragment that
does not hold every thread waits, and siblings that wait there fuse. -/
def lendN : Nat → State → State
  | 0, s => s
  | n + 1, s =>
    match heldAct s.g (curF s) none with
    | .level h r => arrive (heldPop s h r)
    | .back h r => lendN n (heldJoin s h r)
    | .none =>
      if (curF s).mask = allThreads then endTask s
      else
        let s := modF s (fun f => { f with wait := .gather })
        match sibling s.g s.fi (curF s) with
        | some (e2, f2) => lendN n (fuse s e2 f2)
        | none =>
          let l := gathered s.g (curF s)
          if unionOf l = allThreads then endTask s else s

def lendHere (s : State) : State := lendN arriveFuel (unstall s)

/-- At `nbar` and `phase` every fragment of the group comes first (R280, R356): the last one to arrive becomes the one
fragment of every thread, at the lowest entry; the others wait. -/
def gatherAll (s : State) : Gate :=
  if (curF s).mask = allThreads then .pass s
  else
    let s := modF s (fun f => { f with wait := .gather })
    let f := curF s
    if unionOf (gathered s.g f) = allThreads then
      let e := ((gathered s.g f).map (·.1)).foldl min s.fi
      let f' := { f with mask := allThreads, rcv := none, lin := [], wait := .go, back := [], under := [],
                         born := ((fget s.g.frs e).map (·.born)).getD f.born }
      let s := { s with g := { s.g with frs := [(e, f')], held := [] }, fi := e }
      .pass (emitG s 0x01 4 e f'.mask.toNat)
    else .hold s

/-- Cross-lane words run once for a hit and miss pair (R150): the fragment waits for its sibling and they fuse; what they
make may itself be the hit or miss fragment of an earlier split, and waits for its own sibling in turn. R150 names hit and miss
fragments only: whether a branch child of one of them (R46) waits for the other half of the memory split is left open, and here it passes
(log 15). -/
def joinN : Nat → State → Gate
  | 0, s => .hold s
  | n + 1, s =>
    match (curF s).lin with
    | h :: _ =>
      if h.hm then
        let s := modF s (fun f => { f with wait := .cross })
        match sibling s.g s.fi (curF s) with
        | some (e2, f2) => joinN n (fuse s e2 f2)
        | none => .hold s
      else .pass s
    | [] => .pass s

/-- Eight entries have a lineage of at most eight splits to fuse. -/
def joinSibling (s : State) : Gate := joinN (Config.splitEntries + 1) s

/-! ### The check of a clause (R51, R70, R72, R73, R436) -/

inductive Checked where
  /-- the words of the clause -/
  | ok (code : List Nat)
  | illegal (i : Nat)
  | bad (c : FCause) (va : Nat)
  | away (aw : Away)
  deriving DecidableEq, Repr

/-- What only the launch and the service decide of a lane word (R51, R436). -/
def launchOk (s : State) (i : Instr) : Bool :=
  (vNamed i).all (fun r => decide (r < s.t.vregs)) &&
  (!(s.service == .bringUp) || (match i with
    | .coll _ => false
    | _ => match entryOf i with
      | some (w, _) => !(w.ty == .f64 || w.ty == .f16 || w.ty == .m8)
      | none => true))

/-- Words that may stand only as the last of their clause (R70, R337, R356). -/
def onlyLast : Instr → Bool
  | .bra .. | .lend .. | .fail _ | .phase _ => true
  | _ => false

/-- The instruction of word `i` of a clause of `n` words, if the word is legal there. -/
def clauseWord (s : State) (n i x : Nat) : Option Instr :=
  match decodeLane (BitVec.ofNat 96 x) with
  | .error _ => none
  | .ok (.clauseStart _) => none
  | .ok ins => if launchOk s ins && (decide (i = n) || !onlyLast ins) then some ins else none

/-- Words i, i + 1, … of a clause of n words, `left` of them. -/
def checkWords (s : State) (pc : Word) (n i : Nat) : Nat → Checked
  | 0 => .ok []
  | left + 1 =>
    match fetch12 s s.t.core s.l.ctx (wordAddr pc i) with
    | .bad c va => .bad c va
    | .away aw => .away aw
    | .word x => match clauseWord s n i x with
      | none => .illegal i
      | some _ => match checkWords s pc n (i + 1) left with
        | .ok l => .ok (x :: l)
        | r => r

def headerFlags (h : Header) : List Nat :=
  (if h.av then [h.fa.toNat] else []) ++ (if h.bv then [h.fb.toNat] else [])

/-- Is every flag of a mask clear? -/
def flagsClear (g : Group) (mask : Nat) : Bool := (iota 0 12).all (fun i => !bit mask i || mget g.fl 0 i == 0)

def isLarge (t : Team) : Bool := !t.small

/-- A clause-precise fault with the index of the failing word (R73). -/
def clauseFault (s : State) (c : FCause) (addr i : Nat) : State :=
  let s := emit s 0x07 0 s.l.ctx s.t.core (causeNo c) (some (idG s addr)) none
  contextStop s (faultHere s c addr (curF s).pc.toNat i)

/-- Does the top level of the held stack, or a set that waits, rejoin here? -/
def heldDue (g : Group) (f : Frag) : Bool :=
  match heldAct g f (some f.pc) with
  | .none => false
  | _ => true

/-- The wait mask of the 12 bytes at a clause's address, read as a header whatever they hold (R69, R70). -/
def rawWait (x : Nat) : Nat := bits x 83 72

/-- Bytes that are no legal header: they fail the check once their wait mask is clear (R72, R73). -/
def badHeader (s : State) (x : Nat) : State :=
  let f := curF s
  if f.rcv == some f.pc || heldDue s.g f then arrive s
  else if !flagsClear s.g (rawWait x) then stall s 0 (rawWait x)
  else clauseFault s .illegal f.pc.toNat 0

/-- A fragment starts a clause (R35, R72): the wait mask, the check, then its first instruction. -/
def beginClause (s : State) (h : Header) : State :=
  let f := curF s
  if f.rcv == some f.pc || heldDue s.g f then arrive s
  else if !flagsClear s.g h.wait.toNat then stall s 0 h.wait.toNat
  else
    let n := h.len.toNat + 1
    match checkWords s f.pc n 1 n with
    | .illegal i => clauseFault s .illegal f.pc.toNat i
    | .bad c va => clauseFault s c va 0
    | .away aw => stall (park s s.l.ctx aw) 3 0
    | .ok code =>
      if isLarge s.t && decide (512 ≤ s.g.nClause) then clauseFault s .safeDistance f.pc.toNat 0
      else
        let s := clearWin (unstall s) (.group s.g.uid) f.id
        let s := emitG s 0x01 0 (laneOff s.l f.pc) f.mask.toNat
        modF { s with g := { s.g with nClause := s.g.nClause + 1 } }
          (fun f => { f with idx := 1, len := n, flags := headerFlags h, code := code })

/-- The lane stream takes the oldest queued task (R33): one fragment of every thread at its address. -/
def startTask (s : State) : State :=
  match s.g.task, s.g.taskq with
  | none, a :: r =>
    let f : Frag := { id := s.nid, mask := allThreads, pc := a, born := s.nid }
    let s := { s with g := { s.g with task := some a, taskq := r, frs := [(0, f)], held := [] }, fi := 0, nid := s.nid + 1 }
    emitG s 0x01 1 (laneOff s.l a) 0
  | _, _ => s

end Sys2Proof.Machine
end

