-- ==== Sys2Proof/Machine/Operands.lean ====
section
/-! DEFINITION. Channels as queues (R38 to R44, R239) and every operand form of a lane word (R62, R63, R67, R148):
guards, register and channel sources, immediates, register, channel and predicate destinations. -/

namespace Sys2Proof.Machine

/-! ### Channels -/

/-- The binding of a channel of c12 to c15. -/
def bindOf (g : Group) (c : Nat) : Option Bind := g.bind.find? (fun b => b.chan == c)

/-- Does the channel hold one value per thread (R38, R239)? -/
def chanVec (g : Group) (c : Nat) : Bool :=
  if c < 8 then false else if c < 12 then true else match bindOf g c with
  | some b => b.vec
  | none => false

def chanDepth (g : Group) (c : Nat) : Nat := if chanVec g c then 4 else 16

def wordQ (g : Group) (c : Nat) : List Word := mget g.ch [] c
def vecQ (g : Group) (c : Nat) : List (List VWord) := mget g.chv [] c
def chanLen (g : Group) (c : Nat) : Nat := if chanVec g c then (vecQ g c).length else (wordQ g c).length

def putWordQ (g : Group) (c : Nat) (q : List Word) : Group := { g with ch := mput g.ch [] c q }
def putVecQ (g : Group) (c : Nat) (q : List (List VWord)) : Group := { g with chv := mput g.chv [] c q }

def popChan (g : Group) (c : Nat) : Group :=
  if chanVec g c then putVecQ g c ((vecQ g c).drop 1) else putWordQ g c ((wordQ g c).drop 1)

def pushWord (g : Group) (c : Nat) (x : Word) : Group := putWordQ g c (wordQ g c ++ [x])
def pushVec (g : Group) (c : Nat) (x : List VWord) : Group := putVecQ g c (vecQ g c ++ [x])

/-- The bytes of the head entry, for replay logs (R403). -/
def headBytes (g : Group) (c : Nat) : List Byte :=
  if chanVec g c then ((vecQ g c).headD []).flatMap (fun x => leBytes 4 x.toNat) else leBytes 8 ((wordQ g c).headD 0).toNat

/-- May a channel be read (`inward`) or written by its holder? c12 to c15 as their binding says (R239). -/
def chanDir (g : Group) (c : Nat) (inward : Bool) : Option FCause :=
  if c < 12 then none
  else match bindOf g c with
  | none => some .unboundChannel
  | some b => if (b.kind == 1 || b.kind == 2) == inward then none else some .channelDirection

/-- A completed pop: the entry leaves, the Lap Clock of the group restarts (R307), a bound channel is logged (R403). -/
def completePop (s : State) (c : Nat) : State :=
  let s := if 12 ≤ c then replay s s.g.uid 3 .g 0 s.fi (headBytes s.g c) else s
  { s with g := { popChan s.g c with lap := 0 } }

/-! ### Guards -/

/-- active(k) of the executing fragment. -/
def activeOf (s : State) (k : BitVec 4) (neg : Bool) : Mask :=
  (curF s).mask &&& (if neg then ~~~(readK s.g k.toNat) else readK s.g k.toNat)
def active (s : State) (w : LaneW) : Mask := activeOf s w.k w.neg

/-- Threads whose values an execution computes: the lowest active one of a uniform word (R31). -/
def doers (w : LaneW) (act : Mask) : List Nat := if w.uni then (lowest act).toList else threads act

/-! ### Sources -/

/-- R67. -/
def immVal (ty : LType) (x : Nat) : Nat :=
  match ty with
  | .i8 => ofInt (sint x 24) 8
  | .i16 => ofInt (sint x 24) 16
  | .i32 => ofInt (sint x 24) 32
  | .i64 => ofInt (sint x 24) 64
  | .n8 | .n32 | .n64 => x
  | .f32 => x * 2 ^ 8
  | .f64 => x * 2 ^ 40
  | .f16 | .bf16 => x % 65536
  | .m8 => (x % 256) * 0x01010101
  | .term => bits x 23 20 * 2 ^ 60 + bits x 19 0

/-- What entry `skip` of a channel gives thread t for a type (R40). A 64-bit type of a vector-width channel has no stated
upper half: a free value. -/
def chanVal (s : State) (ty : LType) (c skip t : Nat) : Nat :=
  if chanVec s.g c then
    let x := (((vecQ s.g c)[skip]?).getD [])[t]?.getD 0
    if tyWide ty then x.toNat + 2 ^ 32 * (Config.freeChoice (s.fresh + t) % 2 ^ 32) else x.toNat % 2 ^ tyWidth ty
  else ((wordQ s.g c)[skip]?.getD 0).toNat % 2 ^ tyWidth ty

/-- A source operand for thread t: register, pair, or channel entry. -/
def opndVal (s : State) (ty : LType) (o : Opnd) (skip t : Nat) : Nat :=
  let i := o.idx.toNat
  if o.chan then chanVal s ty i skip t
  else if tyWide ty then readV64 s.g i t
  else (readV s.g i t).toNat % 2 ^ tyWidth ty

/-- Does an operand pop channel c? -/
def pops (o : Opnd) (c : BitVec 9) : Bool := o.chan && o.pop && o.idx == c

/-- Entries that stand before the one an operand takes: an operand that pops comes after the operands before it that pop the
same channel, and one that peeks reads the head (R40: A, B, C). -/
def skipB (w : LaneW) : Nat := if w.b.pop then (pops w.a w.b.idx).toNat else 0
def skipC (w : LaneW) : Nat := if w.c.pop then (pops w.a w.c.idx).toNat + (pops w.b w.c.idx).toNat else 0

def vA (s : State) (ty : LType) (w : LaneW) (t : Nat) : Nat := opndVal s ty w.a 0 t
def vB (s : State) (ty : LType) (w : LaneW) (t : Nat) : Nat :=
  if w.imm then immVal ty w.x24.toNat else opndVal s ty w.b (skipB w) t
def vC (s : State) (ty : LType) (w : LaneW) (t : Nat) : Nat := opndVal s ty w.c (skipC w) t
/-- The source of a single-source word. -/
def v1 (s : State) (ty : LType) (w : LaneW) (t : Nat) : Nat :=
  if w.imm then immVal ty w.x24.toNat else opndVal s ty w.a 0 t

/-! ### Readiness of channels (R39, R42) -/

inductive Ready where
  | ok
  | stall (c : Nat)
  | fault (c : FCause)
  deriving DecidableEq, Repr

def srcReady (g : Group) (o : Opnd) (skip : Nat) : Ready :=
  if !o.chan then .ok
  else match chanDir g o.idx.toNat true with
  | some f => .fault f
  | none => if chanLen g o.idx.toNat ≤ skip then .stall o.idx.toNat else .ok

def dstReady (g : Group) (w : LaneW) : Ready :=
  if !w.dchan then .ok
  else match chanDir g w.d.toNat false with
  | some f => .fault f
  | none => if chanDepth g w.d.toNat ≤ chanLen g w.d.toNat then .stall w.d.toNat else .ok

def thenReady : Ready → Ready → Ready
  | .ok, r => r
  | .fault c, _ => .fault c
  | .stall _, .fault c => .fault c
  | .stall c, _ => .stall c

def chansReady (s : State) (w : LaneW) : Ready :=
  thenReady (srcReady s.g w.a 0) (thenReady (srcReady s.g w.b (skipB w)) (thenReady (srcReady s.g w.c (skipC w)) (dstReady s.g w)))

/-- Remove what the source operands pop (R40, R41). -/
def popIf (s : State) (o : Opnd) : State := if o.chan && o.pop then completePop s o.idx.toNat else s
def vecWide (s : State) (w : LaneW) : Bool :=
  tyWide w.ty && ((w.a.chan && chanVec s.g w.a.idx.toNat) || (w.b.chan && chanVec s.g w.b.idx.toNat) || (w.c.chan && chanVec s.g w.c.idx.toNat))
def popAll (s : State) (w : LaneW) : State :=
  popIf (popIf (popIf (if vecWide s w then { s with fresh := s.fresh + 64 } else s) w.a) w.b) w.c

/-- Run `k` when every channel of the word is ready: a fault, a stall, or `k` after which the word is done. -/
def withChans (s : State) (w : LaneW) (k : Unit → State) : State :=
  match chansReady s w with
  | .fault c => laneFault s c 0
  | .stall c => stall s 2 c
  | .ok => k ()

/-! ### Destinations -/

def valOf (rs : List (Nat × Nat)) (t : Nat) : Nat := ((rs.find? (fun p => p.1 == t)).map (·.2)).getD 0

/-- The result each active thread receives: its own, or the one of a uniform execution (R31). -/
def spread (w : LaneW) (act : Mask) (rs : List (Nat × Nat)) : List (Nat × Nat) :=
  if w.uni then
    match rs with
    | (_, x) :: _ => (threads act).map (fun t => (t, x))
    | [] => []
  else rs

/-- Append a result to a channel (R40, R41): one value of the lowest active thread, or one value per thread. -/
def pushRes (g : Group) (ty : LType) (c : Nat) (rs : List (Nat × Nat)) : Group :=
  if chanVec g c then
    pushVec g c ((iota 0 64).map (fun t => if rs.any (fun p => p.1 == t) then regOf ty (valOf rs t) else 0))
  else match rs with
    | [] => pushWord g c 0
    | (_, x) :: _ => pushWord g c (BitVec.ofNat 64 (x % 2 ^ tyWidth ty))

/-- Write results to the destination of a word: registers of the threads, or a channel entry. -/
def writeDst (g : Group) (w : LaneW) (ty : LType) (rs : List (Nat × Nat)) : Group :=
  if w.dchan then pushRes g ty w.d.toNat rs
  else rs.foldl (fun g p => writeTy g ty w.d.toNat p.1 p.2) g

/-- The causes of several results of one thread. -/
def resCauses (rs : List (Nat × Res)) : List (Nat × List Cause) := rs.map (fun p => (p.1, p.2.causes))
def resCodes (rs : List (Nat × Res)) : List (Nat × Nat) := rs.map (fun p => (p.1, p.2.code))

end Sys2Proof.Machine
end

