-- ==== Sys2Proof/Machine/Flags.lean ====
section
/-! DEFINITION. Completion flags (R36), pending registers (R37), the records of arithmetic causes (R138 to R140), and the
one shape of a lane arithmetic word: operands, result, record, destination, next word (R148). -/

namespace Sys2Proof.Machine

/-! ### Completion flags and operations in flight -/

/-- A long-latency operation starts (R36, R37): its flags rise, its registers are pending. -/
def startOp (s : State) (o : LOp) : State :=
  let f := curF s
  let o := { o with fid := f.id, entry := s.fi, hdr := f.pc, flags := f.flags }
  let g := f.flags.foldl raiseFlag s.g
  { s with g := { g with ops := g.ops ++ [o] } }

/-- The operation at whose word the executing fragment stands, begun and not done (R333, R340, R351). -/
def midOp (s : State) : Option LOp := s.g.ops.find? (fun o => o.mid && o.fid == (curF s).id)

/-- Would another operation of the fragment raise one of its flags above 63 (R36)? -/
def flagsFull (g : Group) (f : Frag) : Bool := f.flags.any (fun i => decide (63 ≤ mget g.fl 0 i))
/-- Mask of the flags that have no room. -/
def fullFlags (g : Group) (f : Frag) : Nat := (f.flags.filter (fun i => decide (63 ≤ mget g.fl 0 i))).foldl (fun m i => setBit m i true) 0

/-! ### The counts of executed lane words (R28, R407, R419, R420) -/

def flagWait (f : Frag) : Bool := f.blk == some 2 || f.blk == some 4

/-- Is every fragment of the group parked (R419)? -/
def allParked (g : Group) : Bool := !g.frs.isEmpty && g.frs.all (fun p => flagWait p.2)

def laneIdle (g : Group) : Bool := g.task.isNone && g.taskq.isEmpty

/-- Beats in which a mask has a thread (R28). -/
def beats (m : Mask) : Nat := ((iota 0 4).filter (fun b => (m >>> (16 * b)) &&& 0xFFFF#64 ≠ 0)).length

/-- Guard of a lane word. -/
def guardOf (i : Instr) : BitVec 4 × Bool :=
  match i with
  | .bra k n _ _ | .lend k n | .lnop k n | .chpt k n _ _ _ => (k, n)
  | _ => match entryOf i with
    | some (w, _) => (w.k, w.neg)
    | none => (0, false)

/-- Predicate masks that a lane word names: its guard and its operands. -/
def kNamed (i : Instr) : List Nat :=
  let of' (r : Role) (o : Opnd) : List Nat := match r with
    | .k => [o.idx.toNat]
    | _ => []
  (guardOf i).1.toNat :: (match entryOf i with
    | some (w, e) => of' e.d (dOpnd w) ++ of' e.a w.a ++ of' e.b w.b ++ of' e.c w.c
    | none => [])

/-- What a lane word names that is pending (R37, R333): a vector register, or a predicate mask as 512 more than its number. -/
def pendingFor (g : Group) (i : Instr) : Option Nat :=
  match (vNamed i).find? (fun r => (pendingRegs g).contains r) with
  | some r => some r
  | none => ((kNamed i).find? (fun k => g.ops.any (fun o => o.pendK.contains k))).map (512 + ·)

/-- Active threads of a word of the executing fragment. -/
def activeIn (s : State) (i : Instr) : Mask := activeOf s (guardOf i).1 (guardOf i).2

/-- Those of the word at which the executing fragment stands. -/
def activeHere (s : State) : Mask :=
  match decodeLane (BitVec.ofNat 96 (((curF s).code[(curF s).idx - 1]?).getD 0)) with
  | .ok i => activeIn s i
  | .error _ => 0

/-- A lane word that began at s with the active threads `act` has executed and come to s'. In a large team it may not be the 4097th
since the count was last zero, unless every fragment is parked by it: then it faults in its place (R420). -/
def ranWord (act : Mask) (s s' : State) : State :=
  if isLarge s.t && decide (4096 ≤ s.g.nInstr) && !allParked s'.g then laneFault s .safeDistance 0
  else countG (countG { s' with g := { s'.g with nInstr := s'.g.nInstr + 1, lastAt := s'.cyc } } 0x01 1) 0x03 (beats act)

/-! ### Records of arithmetic causes -/

/-- The fields of a record raised at the executing instruction (R139). -/
def hereRec (s : State) (ty : LType) : ARec :=
  { time := dieNow s (dieOf s.t.core), pc := ((curF s).pc.toNat + 2 ^ 64 - lcBase s.l) % 2 ^ 64, team := s.t.idx, mask := 0, site := 0, core := s.t.core,
    group := s.g.idx, frag := s.fi, mx := false, count := 1, ty := tyCode ty, cause := 0 }

def logHere (s : State) (ty : LType) (who : List (Nat × List Cause)) : State := logExec s s.l (hereRec s ty) who

/-! ### The shape of a lane arithmetic word -/

/-- Compute `f` for each doing thread, record causes, pop, write the destination of type `ty`, go on (R148, R31, R40). -/
def laneRun (s : State) (w : LaneW) (ty : LType) (f : Nat → Res) : State :=
  withChans s w fun _ =>
    let act := active s w
    let rs := (doers w act).map (fun t => (t, f t))
    let s := popAll (logHere s w.ty (resCauses rs)) w
    laneNext { s with g := writeDst s.g w ty (spread w act (resCodes rs)) }

/-- The same for a predicate destination: `f` gives the bit of each doing thread. -/
def laneRunK (s : State) (w : LaneW) (f : Nat → Bool × List Cause) : State :=
  withChans s w fun _ =>
    let act := active s w
    let rs := (doers w act).map (fun t => (t, f t))
    let s := popAll (logHere s w.ty (rs.map (fun p => (p.1, p.2.2)))) w
    let ones := spread w act (rs.map (fun p => (p.1, p.2.1.toNat)))
    let b := maskOf ((ones.filter (fun p => p.2 == 1)).map (·.1))
    laneNext { s with g := writeK s.g w.d.toNat act b }

/-- A result without causes. -/
def plain (x : Nat) : Res := ⟨x, []⟩

end Sys2Proof.Machine
end

