-- ==== Sys2Proof/Machine/LaneAlu.lean ====
section
/-! DEFINITION. Lane arithmetic (R151 to R165): integer and floating arithmetic, bits and fields, compares and selects,
conversions, M8 quantising, special-function seeds. Every word takes the shape `laneRun` gives it. -/

namespace Sys2Proof.Machine

/-! ### Values -/

/-- int() of R151. -/
def intOf (ty : LType) (x : Nat) : Int := if tySigned ty then sint x (tyWidth ty) else Int.ofNat (x % 2 ^ tyWidth ty)
def intMin (ty : LType) : Int := if tySigned ty then -(2 ^ (tyWidth ty - 1)) else 0
def intMax (ty : LType) : Int := if tySigned ty then 2 ^ (tyWidth ty - 1) - 1 else 2 ^ tyWidth ty - 1

/-- z wrapped, or clamped to the range of the type with saturation recorded (R151). -/
def fitInt (sat : Bool) (ty : LType) (z : Int) : Res :=
  if sat ∧ z < intMin ty then ⟨ofInt (intMin ty) (tyWidth ty), [.saturation]⟩
  else if sat ∧ intMax ty < z then ⟨ofInt (intMax ty) (tyWidth ty), [.saturation]⟩
  else ⟨ofInt z (tyWidth ty), []⟩

/-- A floating operand after ftzin (R131). -/
def opF (s : State) (ty : LType) (x : Nat) : FVal := fread (ftzIn s.l) (fmtOf ty) x

/-- A word of two sources: exact integers, or floats. -/
def bin (s : State) (w : LaneW) (fi : Int → Int → Int) (ff : Fmt → Rnd → Bool → FVal → FVal → Res) : State :=
  laneRun s w w.ty fun t =>
    let x := vA s w.ty w t
    let y := vB s w.ty w t
    if tyFloat w.ty then ff (fmtOf w.ty) (rndOf s.l w.rnd) (ftzOut s.l) (opF s w.ty x) (opF s w.ty y)
    else fitInt w.sat w.ty (fi (intOf w.ty x) (intOf w.ty y))

/-! ### Arithmetic (R151 to R155) -/

def execLaneAdd (w : LaneW) (s : State) : Out := .next (bin s w (· + ·) faddR)
def execLaneSub (w : LaneW) (s : State) : Out := .next (bin s w (· - ·) fsubR)
def execLaneMul (w : LaneW) (s : State) : Out := .next (bin s w (· * ·) fmulR)

def madRes (s : State) (w : LaneW) (x y z : Nat) : Res :=
  if tyFloat w.ty then fmaR (fmtOf w.ty) (rndOf s.l w.rnd) (ftzOut s.l) (opF s w.ty x) (opF s w.ty y) (opF s w.ty z)
  else fitInt w.sat w.ty (intOf w.ty x * intOf w.ty y + intOf w.ty z)

def execMad (w : LaneW) (s : State) : Out :=
  .next (laneRun s w w.ty fun t => madRes s w (vA s w.ty w t) (vB s w.ty w t) (vC s w.ty w t))

/-- R152 for F types, R153 for integer types. -/
def divRes (s : State) (w : LaneW) (x y : Nat) : Res :=
  if tyFloat w.ty then fdivR (fmtOf w.ty) (rndOf s.l w.rnd) (ftzOut s.l) (opF s w.ty x) (opF s w.ty y)
  else if intOf w.ty y = 0 then ⟨2 ^ tyWidth w.ty - 1, [.intDiv]⟩
  else fitInt w.sat w.ty ((intOf w.ty x).tdiv (intOf w.ty y))

def execDiv (w : LaneW) (s : State) : Out :=
  .next (laneRun s w w.ty fun t => divRes s w (vA s w.ty w t) (vB s w.ty w t))

def remRes (ty : LType) (x y : Nat) : Res :=
  if intOf ty y = 0 then ⟨x % 2 ^ tyWidth ty, [.intDiv]⟩ else fitInt false ty ((intOf ty x).tmod (intOf ty y))

def execRem (w : LaneW) (s : State) : Out :=
  .next (laneRun s w w.ty fun t => remRes w.ty (vA s w.ty w t) (vB s w.ty w t))

/-- `abs` or `neg` of a float acts on the sign bit alone; a NaN gives the canonical NaN (R154). -/
def signRes (f : Fmt) (x : Nat) (sign : Bool) : Res :=
  match fclass f x with
  | .quiet => ⟨canonNaN f, []⟩
  | .signalling => ⟨canonNaN f, [.invalid]⟩
  | _ => ⟨setBit x (f.ew + f.fw) sign, []⟩

def absRes (w : LaneW) (x : Nat) : Res :=
  if tyFloat w.ty then signRes (fmtOf w.ty) x false else fitInt w.sat w.ty (Int.ofNat (intOf w.ty x).natAbs)
def negRes (w : LaneW) (x : Nat) : Res :=
  if tyFloat w.ty then signRes (fmtOf w.ty) x (!fsign (fmtOf w.ty) x) else fitInt w.sat w.ty (-(intOf w.ty x))

def execAbs (w : LaneW) (s : State) : Out := .next (laneRun s w w.ty fun t => absRes w (v1 s w.ty w t))
def execNeg (w : LaneW) (s : State) : Out := .next (laneRun s w w.ty fun t => negRes w (v1 s w.ty w t))

/-- `min` or `max` (R155). -/
def minMax (s : State) (ty : LType) (big : Bool) (x y : Nat) : Res :=
  if tyFloat ty then fminmax (fmtOf ty) (ftzIn s.l) big x y
  else if decide (intOf ty x < intOf ty y) != big then plain x else plain y

def execLaneMin (w : LaneW) (s : State) : Out :=
  .next (laneRun s w w.ty fun t => minMax s w.ty false (vA s w.ty w t) (vB s w.ty w t))
def execLaneMax (w : LaneW) (s : State) : Out :=
  .next (laneRun s w w.ty fun t => minMax s w.ty true (vA s w.ty w t) (vB s w.ty w t))

/-! ### Bits, shifts and fields (R156 to R159) -/

/-- A word whose result is a plain function of two operands at the width of its type. -/
def bin2 (s : State) (w : LaneW) (f : Nat → Nat → Nat) : State :=
  laneRun s w w.ty fun t => plain (f (vA s w.ty w t) (vB s w.ty w t) % 2 ^ tyWidth w.ty)
def un1 (s : State) (w : LaneW) (f : Nat → Nat) : State :=
  laneRun s w w.ty fun t => plain (f (v1 s w.ty w t) % 2 ^ tyWidth w.ty)

def execLaneAnd (w : LaneW) (s : State) : Out := .next (bin2 s w (· &&& ·))
def execLaneOr (w : LaneW) (s : State) : Out := .next (bin2 s w (· ||| ·))
def execLaneXor (w : LaneW) (s : State) : Out := .next (bin2 s w (· ^^^ ·))
def execNot (w : LaneW) (s : State) : Out := .next (un1 s w (fun x => 2 ^ tyWidth w.ty - 1 - x))

def execLaneShl (w : LaneW) (s : State) : Out := .next (bin2 s w (fun x y => x <<< (y % tyWidth w.ty)))
def execLaneShr (w : LaneW) (s : State) : Out :=
  .next (bin2 s w (fun x y => ofInt (intOf w.ty x / 2 ^ (y % tyWidth w.ty)) (tyWidth w.ty)))
/-- Rotate left by s within the width. -/
def rotl (n x k : Nat) : Nat := x * 2 ^ k % 2 ^ n + x / 2 ^ (n - k)
def execRot (w : LaneW) (s : State) : Out := .next (bin2 s w (fun x y => rotl (tyWidth w.ty) x (y % tyWidth w.ty)))

/-- l' of R158. -/
def fieldLen (n ctl : Nat) : Nat :=
  let p := bits ctl 5 0
  let l := bits ctl 14 8
  if n ≤ p ∨ l = 0 then 0 else min l (n - p)

def bfxRes (ty : LType) (a ctl : Nat) : Nat :=
  let l := fieldLen (tyWidth ty) ctl
  let f := a / 2 ^ bits ctl 5 0 % 2 ^ l
  if l = 0 then 0 else if tySigned ty then ofInt (sint f l) (tyWidth ty) else f

def bfiRes (ty : LType) (a ctl c : Nat) : Nat :=
  let l := fieldLen (tyWidth ty) ctl
  if l = 0 then c else setBits c (bits ctl 5 0 + l - 1) (bits ctl 5 0) a

def execBfx (w : LaneW) (s : State) : Out := .next (bin2 s w (bfxRes w.ty))
def execBfi (w : LaneW) (s : State) : Out :=
  .next (laneRun s w w.ty fun t => plain (bfiRes w.ty (vA s w.ty w t) (vB s w.ty w t) (vC s w.ty w t)))

def popcount (n x : Nat) : Nat := ((iota 0 n).filter (fun i => bit x i)).length
def leadZeros (n x : Nat) : Nat := if x = 0 then n else n - 1 - Nat.log2 x

def execPopc (w : LaneW) (s : State) : Out := .next (un1 s w (popcount (tyWidth w.ty)))
def execClz (w : LaneW) (s : State) : Out := .next (un1 s w (leadZeros (tyWidth w.ty)))

/-! ### Compares, selects, moves (R160, R161) -/

/-- The condition `cc` on a comparison. -/
def condOf (cc : Nat) (eq lt : Bool) : Bool :=
  match cc with
  | 0 => eq
  | 1 => !eq
  | 2 => lt
  | 3 => lt || eq
  | 4 => !lt && !eq
  | _ => !lt

def setpRes (s : State) (ty : LType) (cc x y : Nat) : Bool × List Cause :=
  if tyFloat ty then
    let a := opF s ty x
    let b := opF s ty y
    let ca : List Cause := if isSNaN a || isSNaN b then [.invalid] else []
    if isNaN a || isNaN b then (cc == 1 || cc == 6, ca)
    else if cc = 6 then (false, ca)
    else if cc = 7 then (true, ca)
    else (condOf cc (fcmp a b == 0) (decide (fcmp a b < 0)), ca)
  else (condOf cc (x == y) (decide (intOf ty x < intOf ty y)), [])

def execSetp (w : LaneW) (s : State) : Out :=
  .next (laneRunK s w fun t => setpRes s w.ty (cCode w) (vA s w.ty w t) (vB s w.ty w t))

def execSel (w : LaneW) (s : State) : Out :=
  .next (laneRun s w w.ty fun t =>
    plain (if (readK s.g w.c.idx.toNat).getLsbD t then vA s w.ty w t else vB s w.ty w t))
def execMov (w : LaneW) (s : State) : Out := .next (laneRun s w w.ty fun t => plain (v1 s w.ty w t))

/-! ### Conversions and M8 (R162 to R164) -/

/-- The value a conversion reads. -/
def cvtVal (s : State) (src : LType) (x : Nat) : FVal :=
  if src = .m8 then m8Val (x % 256)
  else if tyFloat src then opF s src x
  else .num (decide (intOf src x < 0)) (intOf src x).natAbs 1

def isFinite : FVal → Bool
  | .num .. => true
  | _ => false

def cvtRes (s : State) (w : LaneW) (src : LType) (x : Nat) : Res :=
  let m := rndOf s.l w.rnd
  let v := cvtVal s src x
  let ca : List Cause := if isSNaN v then [.invalid] else []
  if w.ty = .m8 then ⟨roundM8 v, ca ++ (if m8Saturates v then [.saturation] else [])⟩
  else if tyInt w.ty then
    if tyInt src then fitInt w.sat w.ty (intOf src x)
    else match v with
    | .nan _ => ⟨0, [.invalid]⟩
    | .inf neg => fitInt true w.ty (if neg then intMin w.ty - 1 else intMax w.ty + 1)
    | .num neg n d => fitInt true w.ty (fToInt m neg n d)
  else
    let r := finishF (fmtOf w.ty) m (ftzOut s.l) (isSNaN v) (some v)
    if w.sat ∧ isFinite v ∧ Cause.overflow ∈ r.causes then ⟨maxBits (fmtOf w.ty) (fsignV v), [.saturation]⟩ else r

def execCvt (w : LaneW) (s : State) : Out :=
  let src := (cvtSrc w).getD .i32
  .next (laneRun s w w.ty fun t => cvtRes s w src (opndVal s src w.a 0 t))

/-- Block length of `qnt`. -/
def qntLen (w : LaneW) : Nat := 8 * 2 ^ x24n w

/-- One block of `qnt`: its active threads with codes and scale, and what every one of them records (R458). -/
def qntBlock (s : State) (w : LaneW) (ts : List Nat) : List (Nat × Nat × Nat) × List (Nat × List Cause) :=
  if ts.isEmpty then ([], []) else
  let xs := ts.map (fun t => opF s w.ty (vA s w.ty w t))
  let q := quantiseBlock xs
  let ca : List Cause := (if xs.any isSNaN then [.invalid] else []) ++ (if q.2.2 then [.underflow] else [])
  ((ts.zip q.1).map (fun p => (p.1, p.2, q.2.1)), ts.map (fun t => (t, ca)))

/-- Quantise the blocks of the fragment's active threads (R163); a cross-lane word (R150). -/
def execQnt (w : LaneW) (s : State) : Out :=
  .next (match joinSibling s with
    | .hold s => s
    | .pass s => withChans s w fun _ =>
      let n := qntLen w
      let act := active s w
      let bs := (iota 0 (64 / n)).map (fun j => qntBlock s w ((threads act).filter (fun t => t / n == j)))
      let s' := popAll (logHere s w.ty (bs.flatMap (·.2))) w
      let d := w.d.toNat
      laneNext { s' with g := (bs.flatMap (·.1)).foldl (fun g p =>
        writeV (writeV g d p.1 (BitVec.ofNat 32 p.2.1)) (d + 1) p.1 (BitVec.ofNat 32 p.2.2)) s'.g })

/-- Element J of A against the scale in B (R164). -/
def execDqnt (w : LaneW) (s : State) : Out :=
  .next (laneRun s w w.ty fun t =>
    let a := opndVal s .n32 w.a 0 t
    let b := opndVal s .n32 w.b (skipB w) t
    let j := x24n w
    let e := m8Elem (bits a (8 * j + 7) (8 * j)) (b % 65536)
    finishF (fmtOf w.ty) (rndOf s.l w.rnd) (ftzOut s.l) (isSNaN e) (some e))

/-! ### Special functions (R133, R165) -/

/-- Start a seed: operands are read and causes recorded now, results land with the move that completes it (R148). -/
def special (s : State) (w : LaneW) (f : Fmt → Bool → Bool → Nat → Res) : State :=
  withChans s w fun _ =>
    let act := active s w
    let rs := (doers w act).map (fun t => (t, f (fmtOf w.ty) (ftzIn s.l) (ftzOut s.l) (v1 s w.ty w t)))
    let s := popAll (logHere s w.ty (resCauses rs)) w
    if act = 0 then laneNext s
    else
      let d := w.d.toNat
      let res := (spread w act (resCodes rs)).flatMap (fun p =>
        if tyWide w.ty then [(d * 64 + p.1, BitVec.ofNat 32 p.2), ((d + 1) * 64 + p.1, BitVec.ofNat 32 (p.2 / 2 ^ 32))]
        else [(d * 64 + p.1, regOf w.ty p.2)])
      let o : LOp := { id := s.nid, kind := .special, pend := if tyWide w.ty then [d, d + 1] else [d], act := act, uni := w.uni,
                       ty := w.ty, d := d, left := 1, res := res }
      laneNext (startOp { s with nid := s.nid + 1 } o)

def execFrsq (w : LaneW) (s : State) : Out := .next (special s w frsqR)
def execFrcp (w : LaneW) (s : State) : Out := .next (special s w frcpR)
def execXln (w : LaneW) (s : State) : Out := .next (special s w xlnR)
def execFexp (w : LaneW) (s : State) : Out := .next (special s w fexpR)

/-- A special function finishes: its results land, its registers and flags are released. -/
def execSpecialFunctionComplete (g op : Nat) (s : State) : Out :=
  .next (updG s g (fun x => match getOp x op with
    | some o => if o.kind = .special then opLess x op else x
    | none => x))

end Sys2Proof.Machine
end

