-- ==== Sys2Proof/Machine/LaneCross.lean ====
section
/-! DEFINITION. Cross-lane words (R150, R166 to R168), generated and identity values (R169, R170), predicate logic and
classification (R171, R172). -/

namespace Sys2Proof.Machine

/-- A cross-lane word waits for the sibling of a hit and miss split, then executes once (R150). -/
def crossed (s : State) (k : State → State) : State :=
  match joinSibling s with
  | .hold s => s
  | .pass s => k s

/-- m of R166: X24, or a fraction of the group width. -/
def xmvM (w : LaneW) : Nat := if bit (x24n w) 7 then Config.warpW / 2 ^ bits (x24n w) 2 0 else bits (x24n w) 6 0

/-- Source thread of thread t; none below 0. -/
def xmvFrom (s : State) (w : LaneW) (t : Nat) : Option Nat :=
  match cCode w with
  | 0 => some (t ^^^ xmvM w)
  | 1 => if xmvM w ≤ t then some (t - xmvM w) else none
  | 2 => some (t + xmvM w)
  | _ => some (vB s w.ty w t % 2 ^ 32)

def execXmv (w : LaneW) (s : State) : Out :=
  .next (crossed s fun s => laneRun s w w.ty fun t =>
    let u := match xmvFrom s w t with
      | some u => if u < Config.warpW ∧ (curF s).mask.getLsbD u then u else t
      | none => t
    plain (vA s w.ty w u))

/-- Combine two contributions; an identity leaves the other side as it is (R167). -/
def combine (f : Nat → Nat → Res) (a b : Option Nat × List Cause) : Option Nat × List Cause :=
  match a.1, b.1 with
  | none, _ => (b.1, a.2 ++ b.2)
  | some _, none => (a.1, a.2 ++ b.2)
  | some x, some y => let r := f x y; (some r.code, a.2 ++ b.2 ++ r.causes)

/-- The log-step order of R135 over 2^n contributions. -/
def rdcTree (f : Nat → Nat → Res) : Nat → List (Option Nat × List Cause) → Option Nat × List Cause
  | 0, l => l.headD (none, [])
  | n + 1, l => rdcTree f n (List.zipWith (combine f) (l.take (2 ^ n)) (l.drop (2 ^ n)))

/-- The combine of an operation code (R167). -/
def rdcOp (s : State) (w : LaneW) (x y : Nat) : Res :=
  match x24n w with
  | 0 => if tyFloat w.ty then faddR (fmtOf w.ty) (rndOf s.l w.rnd) (ftzOut s.l) (opF s w.ty x) (opF s w.ty y)
    else fitInt w.sat w.ty (intOf w.ty x + intOf w.ty y)
  | 1 => minMax s w.ty false x y
  | 2 => minMax s w.ty true x y
  | 3 => plain (x &&& y)
  | 4 => plain (x ||| y)
  | _ => plain (x ^^^ y)

def execRdc (w : LaneW) (s : State) : Out :=
  .next (crossed s fun s =>
    let act := active s w
    let r := rdcTree (rdcOp s w) 6 ((iota 0 64).map (fun t => (if act.getLsbD t then some (vA s w.ty w t) else none, [])))
    laneRun s w w.ty fun _ => ⟨r.1.getD 0, r.2⟩)

def execBallot (w : LaneW) (s : State) : Out :=
  .next (crossed s fun s => laneRun s w w.ty fun _ => plain (active s w &&& readK s.g w.a.idx.toNat).toNat)

def execRng (w : LaneW) (s : State) : Out :=
  .next (laneRun s w w.ty fun t => plain (rngMix (vA s w.ty w t) (readU s.g (bits (x24n w) 5 0)).toNat))

def lidVal (s : State) (code t : Nat) : Nat :=
  match code with
  | 0 => t
  | 1 => t % 16
  | 2 => t / 16
  | _ => s.fi

def execLid (w : LaneW) (s : State) : Out := .next (laneRun s w w.ty fun t => plain (lidVal s (x24n w) t))

def kopBit (code : Nat) (a b : Bool) : Bool :=
  match code with
  | 0 => a && b
  | 1 => a || b
  | 2 => a != b
  | 3 => a && !b
  | 4 => !a
  | 5 => a
  | 6 => true
  | _ => false

def execKop (w : LaneW) (s : State) : Out :=
  .next (laneRunK s w fun t =>
    (kopBit (x24n w) ((readK s.g w.a.idx.toNat).getLsbD t) ((readK s.g w.b.idx.toNat).getLsbD t), []))

/-- Bit of the class of an encoding in the mask of R172. -/
def classBit (f : Fmt) (x : Nat) : Nat :=
  let neg := fsign f x
  match fclass f x with
  | .infinity => if neg then 0 else 7
  | .normal => if neg then 1 else 6
  | .subnormal => if neg then 2 else 5
  | .zero => if neg then 3 else 4
  | .quiet => 8
  | .signalling => 9

def execFcls (w : LaneW) (s : State) : Out :=
  .next (laneRunK s w fun t => (bit (x24n w) (classBit (fmtOf w.ty) (vA s w.ty w t)), []))

end Sys2Proof.Machine
end

