-- ==== Sys2Proof/Machine/Dev.lean ====
section
/-! DEFINITION. Stores and reads that the device makes itself through the page tables of a context (R292, R397, R425, R456),
and the determinism buffers with their spill area (R141 to R143). -/

namespace Sys2Proof.Machine

/-! ### The device in a context -/

inductive DevOut where
  | ok (s : State)
  | bad (c : FCause)
  | away (aw : Away)

/-- Write bytes that lie in one page at a virtual address of context c, carrying `vec`; a window takes them through a store path, so
that an error of its answer is the context's (R245). -/
def devWriteV (s : State) (c va : Nat) (data : List Byte) (vec : V4) : DevOut :=
  match walk s c .store va with
  | .bad f => .bad f
  | .away aw => .away aw
  | .ok pa key _ _ _ _ => .ok (if isWindow s pa then devEnter s c va pa key vec data.length data else devStoreV s pa key data vec)
def devWrite (s : State) (c va : Nat) (data : List Byte) : DevOut := devWriteV s c va data {}

/-- Outcome of a read of the device through a context. -/
inductive DevIn where
  | ok (data : List Byte) (vec : V4)
  | bad (c : FCause)
  | away (aw : Away)
  deriving DecidableEq, Repr

/-- Read bytes that lie in one page at a virtual address of context c for a party of the device, from the home's view, or, in a
window, from the remote home (R243), whose poisoned answer is the poison fault of the context (R433). -/
def devReadBy (s : State) (o : Owner) (frag c va n : Nat) : DevIn :=
  match walk s c .load va with
  | .bad f => .bad f
  | .away aw => .away aw
  | .ok pa key _ _ _ _ =>
    if isWindow s pa then
      match winRead s o frag c pa n with
      | .inl (d, pz) => if pz then .bad .poison else .ok d {}
      | .inr pas => .away (.window o false frag va pas)
    else match scatLines s pa n with
    | l :: _ => .away (.line l)
    | [] =>
      let h := homeDie s pa
      .ok (rdBytes s h pa key n) (stampsVec h (rdStamps s h pa n))
def devRead (s : State) (c va n : Nat) : DevIn := devReadBy s .device 0 c va n

/-! ### Determinism buffers -/

/-- The 32 bytes of a spilled entry (R143). -/
def detBytes (e : DetEnt) : List Byte :=
  leBytes 8 (e.acc.va % 2 ^ 57 + spaceCode e.acc.sp * 2 ^ 60) ++ leBytes 8 e.value ++
  leBytes 8 (rndCode e.rnd * 2 ^ 12 + tyCode e.ty * 2 ^ 14 + e.op * 2 ^ 18 + e.thread * 2 ^ 21 + e.group * 2 ^ 28 + e.team % 2 ^ 32 * 2 ^ 32) ++
  leBytes 8 e.seq

/-- Entries the spill area of a launch holds (R143). -/
def spillRoom (l : Launch) : Nat := 2048 * bits (lw l 5) 15 0
def spilledN (l : Launch) : Nat := (l.det.filter (·.spilled)).length
/-- Entries a core's buffer holds, for every launch (R142). -/
def coreDet (s : State) (core : Nat) : Nat :=
  (allL s).foldl (fun n l => n + (l.det.filter (fun e => e.core == core && !e.spilled)).length) 0

/-- Entries of a core's buffer that can spill: those of a launch whose area has room. -/
def spillable (s : State) (core : Nat) : List (Nat × DetEnt) :=
  (allL s).flatMap (fun l => if spillRoom l ≤ spilledN l then [] else
    (l.det.filter (fun e => e.core == core && !e.spilled)).map (fun e => (l.uid, e)))

/-- The oldest of them. -/
def oldestDet : List (Nat × DetEnt) → Option (Nat × DetEnt)
  | [] => none
  | x :: r => match oldestDet r with
    | none => some x
    | some y => if y.2.age < x.2.age then some y else some x

/-- Write an entry of launch `lu` to the launch's spill area (R142, R143). -/
def spillEnt (s : State) (lu : Nat) (e : DetEnt) : DevOut :=
  match getL s lu with
  | none => .ok s
  | some l =>
    if spillRoom l ≤ spilledN l then .bad .detOverflow
    else match devWrite s l.ctx (lw l 4 + 32 * spilledN l) (detBytes e) with
      | .ok s => .ok (updL s lu (fun l => { l with det := mapFirst (fun x => x == e) (fun x => { x with spilled := true }) l.det }))
      | r => r

/-- Put an entry into the buffer of its core. A full buffer first spills its oldest entry, of whatever launch, to that launch's area;
with no room for any of them the buffer overflows (R142). -/
def detPut (s : State) (lu : Nat) (e : DetEnt) : DevOut :=
  let add (s : State) : State := { updL s lu (fun l => { l with det := l.det ++ [{ e with age := s.nid }] }) with nid := s.nid + 1 }
  if coreDet s e.core < Config.detEntries then .ok (add s)
  else match oldestDet (spillable s e.core) with
    | none => .bad .detOverflow
    | some (u, x) => match spillEnt s u x with
      | .ok s => .ok (add s)
      | r => r

end Sys2Proof.Machine
end

