-- ==== Sys2Proof/Machine/OrderMoves.lean ====
section
/-! DEFINITION. The moves of the ordering machine as steps (R200 to R203, R218 to R220) and the wake of a fragment that
waits for memory (R21). A move that is not enabled changes nothing. -/

namespace Sys2Proof.Machine

def execStoreArrival (k : Nat) (s : State) : Out := .next (arriveStore s k)
def execUpdateApplication (h e : Nat) (s : State) : Out := .next (applyUpd s h e)
def execAtomicArrival (k : Nat) (s : State) : Out := .next (arriveAtomic s k)
def execUpdateOnlyGrant (k : Nat) (s : State) : Out := .next (grantCopy s k)
def execReductionMerge (k : Nat) (s : State) : Out := .next (mergeRed s k)
def execRecall (line : Nat) (s : State) : Out := .next (recallLine s line)
def execL1SectorDrop (i : Nat) (s : State) : Out := .next { s with l1 := dropAt s.l1 i }

/-- Part j of an operation is no longer due; `more` completions become due in its place. -/
def takePart (g : Group) (id j more bound : Nat) : Group :=
  opStep g id (fun o => { o with parts := dropAt o.parts j, left := o.left + more, bound := bound })

/-- A load of thread p.t has its bytes: they land (R203, R111). -/
def landBytes (s : State) (g : Group) (o : LOp) (p : Part) (j : Nat) (d : List Byte) (vec : V4) : State :=
  let b := s.nid
  let s := updG s g.uid (fun g => match getOp g o.id with
    | some o => takePart { landVal g o p.t (leNat d) with obs := v4max g.obs vec } o.id j 0 b
    | none => g)
  replayLoad s g.uid o.entry p.acc d

/-- A load of a window takes its bytes from own stores that cover them, waits for own entries that cover some of them, or
leaves for its remote home (R203, R243). -/
def sendLoad (s : State) (g : Group) (o : LOp) (p : Part) (j pa c : Nat) : State :=
  match ownWin s g.uid p.acc with
  | .all d => landBytes s g o p j d {}
  | .wait => s
  | .none =>
    openWin (updG s g.uid (fun g => takePart g o.id j 1 o.bound)) (teamOfG s g).core 0
      { id := 0, kind := .load, peer := false, ctx := c, owner := .group g.uid, pa := pa, n := p.acc.n, lop := o.id, t := p.t, va := p.acc.va }

/-- Sectors of global memory of an access. -/
def accSecs (a : Acc) : List Nat :=
  match a.loc with
  | .mem pa => sectorsOf pa a.n
  | _ => []

/-- A load of thread p.t is performed and its value lands (R203, R111); its sectors are delivered to every request that waits for
them (R21). -/
def landLoad (s : State) (g : Group) (o : LOp) (p : Part) (j core c : Nat) : State :=
  match performLoad s g.uid core p.acc o.past (o.reqs.flatMap (·.got)) with
  | .wait s => s
  | .got d vec pz s =>
    if pz then workFaultK s 0 g.uid o.entry o.hdr.toNat .poison p.acc.va c core (akindNo .load)
    else landBytes (deliverSecs s (accSecs p.acc)) g o p j d vec

/-- A load returns poison to thread t (R424): its registers are marked. -/
def poisonVal (g : Group) (o : LOp) (t : Nat) : Group :=
  let rs := if tyWide o.ty then [o.d, o.d + 1] else [o.d]
  let ks := (landTo o t).flatMap (fun t => rs.map (fun r => r * 64 + t))
  if o.kind = .load then { g with pzV := g.pzV ++ ks.filter (fun k => !g.pzV.contains k) } else g

/-- One load of a lane operation is performed in one move: the range-lock check is made at that move (R233). A late load of a faulted
team's region returns poison and is a consequence of the fault (R424). -/
def performPart (s : State) (g : Group) (o : LOp) (p : Part) (j : Nat) : State :=
  let t := teamOfG s g
  let c := (launchOfT s t).ctx
  if t.slot = .out then s
  else if locked s c p.acc false then workFault s 0 g.uid o.entry o.hdr.toNat .rangeLocked p.acc.va c t.core
  else if poisonedRegion s p.acc then
    clusterPoison (updG s g.uid (fun g => poisonVal (takePart g o.id j 0 o.bound) o p.t)) c p.acc.va g.uid
  else match p.acc.loc with
  | .mem pa => if isWindow s pa then sendLoad s g o p j pa c else landLoad s g o p j t.core c
  | _ => landLoad s g o p j t.core c

def execLoadPerform (g op j : Nat) (s : State) : Out :=
  .next (match getG s g with
    | none => s
    | some x =>
      match getOp x op with
      | none => s
      | some o =>
        match o.parts[j]? with
        | some p => performPart s x o p j
        | none => s)

/-- The entry of the fragment with a name. -/
def entryOfFrag (g : Group) (f : Nat) : Option (Nat × Frag) := g.frs.find? (fun p => p.2.id == f)

/-- A waiting fragment of group g becomes ready: its wait record ends, and at a clause it looks where it stands. -/
def wake (s : State) (g e : Nat) : State :=
  atEntry (focus s g) e (fun s =>
    let s := unstall (modF s (fun f => { f with wait := .go }))
    if (curF s).idx = 0 then arrive s else s)

/-- Have the sectors of an operation all been delivered (R21)? -/
def missDone (g : Group) (op : Nat) : Bool :=
  match getOp g op with
  | none => true
  | some o => secsDue o == 0 && !o.reqs.isEmpty

/-- The acquire of a load that split its fragment: it waits for the rest of the load, if any is due (R209). -/
def missAcquire (g : Group) (op : Nat) (scp : Scope) (b : Nat) : FWait := if (getOp g op).isSome then .acqOp op scp else .acqDue scp b

/-- The sectors that a miss fragment waits for have all come (R21, R48). -/
def execMissFragmentWake (g f : Nat) (s : State) : Out :=
  .next (match getG s g with
    | none => s
    | some x =>
      match entryOfFrag x f with
      | some (e, fr) =>
        match fr.wait with
        | .mem op acq =>
          if !missDone x op then s
          else match acq with
          | none => wake s g e
          | some scp => updG (wake s g e) g (fun y => updF y f (fun fr => { fr with wait := missAcquire y op scp s.nid }))
        | _ => s
      | none => s)

end Sys2Proof.Machine
end

