-- ==== Sys2Proof/Machine/LaneMem.lean ====
section
/-! DEFINITION. Lane loads, stores and atomics (R256 to R265), the fence (R266) and the prefetch hint (R267): checks of
every thread first, then the order, then one access per thread in ascending order. -/

namespace Sys2Proof.Machine

/-! ### Addresses and checks (R256, R257) -/

def memSpace (w : LaneW) : Space := (spaceOfCode (bits (x24n w) 23 21)).getD .g
/-- sext(X24 [20:0], 21). -/
def memOff (w : LaneW) : Nat := (sextW (x24n w) 21).toNat
/-- ea(t) of R257. -/
def laneEa (s : State) (w : LaneW) (t : Nat) : Nat := (readV64 s.g w.a.idx.toNat t + memOff w) % 2 ^ 64

/-- Steps 1 and 2 of R257 for every thread of a list, ascending; the lowest failing thread names the fault. -/
inductive Checks where
  | ok (l : List (Nat × Acc))
  | bad (c : FCause) (va : Nat)
  | away (aw : Away)

def checkAll (s : State) (sp : Space) (kind : AKind) (n al : Nat) (ea : Nat → Nat) : List Nat → Checks
  | [] => .ok []
  | t :: r =>
    match checkAcc s s.g.uid s.t s.l.ctx t sp kind (ea t) n al with
    | .bad c => .bad c (ea t)
    | .away aw => .away aw
    | .ok a =>
      match checkAll s sp kind n al ea r with
      | .ok l => .ok ((t, a) :: l)
      | x => x

/-- The Roaster counts every translated access (R377). -/
def roastAll (s : State) (kind : AKind) (l : List (Nat × Acc)) : State :=
  if !sysBit s 0x1307 63 then s
  else l.foldl (fun s p => if p.2.sp = .g then roastNote s s.t.core s.l.ctx s.g.uid kind p.2.va else s) s

/-- A word that accesses memory: channels, checks, the order before, then `k` with the accesses of its threads. -/
def memGate (s : State) (w : LaneW) (kind : AKind) (n : Nat) (k : List (Nat × Acc) → State → State) : State :=
  withChans s w fun _ =>
    match checkAll s (memSpace w) kind n n (laneEa s w) (doers w (active s w)) with
    | .bad c va => laneFaultK s c va (akindNo kind)
    | .away aw => stall (park s s.l.ctx aw) 3 0
    | .ok accs =>
      match orderBefore s w.ord w.scp with
      | .hold s => s
      | .pass s => k accs s

/-- One whose accesses are made when it issues: the Roaster counts them (R377). -/
def memWord (s : State) (w : LaneW) (kind : AKind) (n : Nat) (k : List (Nat × Acc) → State → State) : State :=
  memGate s w kind n (fun accs s => k accs (roastAll s kind accs))

/-- The word is done but for the acquire that follows its access, if its order has one (R210). -/
def doneWord (s : State) (ord : MOrd) (scp : Scope) (op : Option Nat) : State :=
  match ord with
  | .rlx | .rel => laneNext s
  | _ =>
    let s := orderAfter (modF (unstall s) stepOver) ord scp op
    if (curF s).wait = .go then arrive s else s

/-! ### Loads (R260) -/

def wideScope : Scope → Bool
  | .grp | .team => false
  | _ => true
/-- An acquire load of scope clu or wider reads past the L1 (R203). -/
def readsPast (w : LaneW) : Bool := (w.ord == .acq || w.ord == .sc) && wideScope w.scp

def destRegs (w : LaneW) : List Nat := if tyWide w.ty then [w.d.toNat, w.d.toNat + 1] else [w.d.toNat]

/-- Does the L1 hold the sector of an access (R48)? -/
def inL1 (s : State) (a : Acc) : Bool :=
  a.cached && (match a.loc with
    | .mem pa => (l1Find s s.t.core pa a.key).isSome
    | _ => false)

/-- The load of a lane slice is performed at once: a thread's own program order (R204). A poisoned unit faults (R257). -/
def loadSlice (s : State) (w : LaneW) (accs : List (Nat × Acc)) : State :=
  match accs.find? (fun p => pzScratch s p.2.loc p.2.n) with
  | some p => laneFaultK s .poison p.2.va (akindNo .load)
  | none => laneNext { s with g := accs.foldl (fun g p => writeTy g w.ty w.d.toNat p.1 (leNat (rdScratch s p.2.loc p.2.n))) s.g }

/-- The acquire that an order of a load carries (R210). -/
def loadAcq (w : LaneW) : Option Scope := if w.ord = .rlx then none else some w.scp

/-- A coalesced access whose sectors are partly present splits its fragment; with no free entry it waits whole (R48). R48
speaks of the threads whose data is present or missing; the threads of the fragment that are not active in the load go with
the hit fragment (log 15). -/
def hitMiss (w : LaneW) (s : State) (op : Nat) (accs : List (Nat × Acc)) : State :=
  let miss := maskOf ((accs.filter (fun p => !inL1 s p.2)).map (·.1))
  let s := unstall s
  match freeEntry s.g.frs with
  | none => stall (modF (splitMiss s (~~~miss) op (loadAcq w)) stepOver) 3 0
  | some e2 =>
    let s := splitMiss s ((curF s).mask &&& ~~~miss) op (loadAcq w)
    doneWord (atEntry s e2 (fun s => stall (modF s stepOver) 3 0)) w.ord w.scp (some op)

/-- The requests of a coalesced access of the issuing fragment: the sectors that its core's L1 does not give, by home slice
(R20). Bytes of windows have no home here. -/
def formReqs (s : State) (past : Bool) (accs : List (Nat × Acc)) : List SecReq :=
  let me : SecReq := { die := 0, slice := 0, core := s.t.core, part := partOf s.g, slot := s.g.idx, entry := s.fi, secs := [] }
  (accs.filter (fun p => past || !inL1 s p.2)).foldl (fun l p => match p.2.loc with
    | .mem pa => if inMem s pa then (sectorsOf pa p.2.n).foldl (addSec s me) l else l
    | _ => l) []

/-- The load enters the machine: its parts, its requests (R20), its split where its sectors are partly present (R48). A load none of
whose sectors is present does not make its fragment wait: the pending registers hold back what needs them (log 15). -/
def issueLoad (w : LaneW) (accs : List (Nat × Acc)) (s : State) : State :=
  if accs.isEmpty then doneWord (popAll s w) w.ord w.scp none
  else if memSpace w = .l then loadSlice s w accs
  else
    let op := s.nid
    let o : LOp := { id := op, kind := .load, pend := destRegs w, act := active s w, uni := w.uni, ty := w.ty, d := w.d.toNat,
                     parts := accs.map (fun p => ⟨p.1, p.2⟩), past := readsPast w, reqs := formReqs s (readsPast w) accs }
    let partly := !readsPast w && memSpace w == .g && accs.any (fun p => inL1 s p.2) && accs.any (fun p => !inL1 s p.2)
    let s' := startOp { s with nid := s.nid + 1 } o
    if partly then hitMiss w s' op accs else doneWord s' w.ord w.scp (some op)

def execLaneLd (w : LaneW) (s : State) : Out := .next (memWord s w .load (tySize w.ty) (issueLoad w))

/-! ### Stores (R261) -/

/-- Enter one entry per access in ascending thread order; a locked range traps at the entry it would make (R233). -/
def enterEach (s : State) (f : State → Nat → Acc → State) : List (Nat × Acc) → State × Option Nat
  | [] => (s, none)
  | (t, a) :: r => if locked s s.l.ctx a true then (s, some a.va) else enterEach (f s t a) f r

/-- Low bytes of a value of a type. -/
def lowBytes (ty : LType) (x : Nat) : Nat := x % 256 ^ tySize ty

def issueStore (w : LaneW) (accs : List (Nat × Acc)) (s : State) : State :=
  let vals := accs.map (fun p => (p.1, lowBytes w.ty (vB s w.ty w p.1)))
  let op := s.nid
  let o : LOp := { id := op, kind := .store, act := active s w, left := accs.length, reqs := formReqs s true accs }
  let s := popAll s w
  let s := if accs.isEmpty || memSpace w == .l then s else startOp { s with nid := s.nid + 1 } o
  let r := enterEach s (fun s t a => storeEnt s a (valOf vals t) op none) accs
  match r.2 with
  | some va => laneFaultK r.1 .rangeLocked va (akindNo .store)
  | none => laneNext r.1

def execSt (w : LaneW) (s : State) : Out := .next (memWord s w .store (tySize w.ty) (issueStore w))

/-! ### Atomics (R262 to R265) -/

/-- One entry of an atomic or reduction in the store path. -/
def atomEnt (s : State) (op : EntOp) (t : Nat) (a : Acc) (x y lop : Nat) : State :=
  enter s { id := 0, owner := .group s.g.uid, op := op, acc := a, x := x, y := y, vec := s.g.car, core := s.t.core, ctx := s.l.ctx,
            lop := lop, t := t, hdr := (curF s).pc, entry := s.fi, launch := s.l.uid, tidx := s.t.idx, gidx := s.g.idx }

/-- What refuses an atomic or a reduction to a window (R251). -/
def remoteRefusal (s : State) (op : EntOp) (a : Acc) : Option FCause :=
  match a.loc with
  | .mem pa =>
    match paKind s pa, op with
    | .host, .atom _ ty _ => if tyFloat ty then some .remoteAtomic else none
    | .host, .red code ty _ => if isDet s.l && tyFloat ty then some .nondetAtomic else if code = 0 ∧ !tyFloat ty then none else some .remoteAtomic
    | .peer _, .red _ ty _ => if isDet s.l && tyFloat ty then some .nondetAtomic else none
    | _, _ => none
  | _ => none

/-- Run `k` unless some access is refused; the lowest thread names the fault. -/
def unlessRefused (s : State) (op : EntOp) (accs : List (Nat × Acc)) (k : Unit → State) : State :=
  match accs.find? (fun p => (remoteRefusal s op p.2).isSome) with
  | some p => laneFault s ((remoteRefusal s op p.2).getD .remoteAtomic) p.2.va
  | none => k ()

/-- Enter an atomic's entries; `ret` says that each returns the old value to its thread. -/
def issueAtomic (w : LaneW) (op : EntOp) (ret : Bool) (accs : List (Nat × Acc)) (s : State) : State :=
  unlessRefused s op accs fun _ =>
  let vals := accs.map (fun p => (p.1, vB s w.ty w p.1))
  let news := accs.map (fun p => (p.1, if op = .cas then vC s w.ty w p.1 else 0))
  let lop := s.nid
  let o : LOp := { id := lop, kind := .atomic, pend := if ret then destRegs w else [], act := active s w, uni := w.uni, ty := w.ty,
                   d := w.d.toNat, left := accs.length }
  let s := popAll s w
  let s := if accs.isEmpty then s else startOp { s with nid := s.nid + 1 } o
  let r := enterEach s (fun s t a => atomEnt s op t a (valOf vals t) (valOf news t) lop) accs
  match r.2 with
  | some va => laneFault r.1 .rangeLocked va
  | none => if ret then doneWord r.1 w.ord w.scp (if accs.isEmpty then none else some lop) else laneNext r.1

/-- A floating add, min or max under determinism mode (R141). -/
def detFloat (s : State) (w : LaneW) : Bool := isDet s.l && tyFloat w.ty && decide (cCode w < 3)

def execAtom (w : LaneW) (s : State) : Out :=
  .next (if detFloat s w then laneFault s .nondetAtomic 0
    else memWord s w .atom (tySize w.ty) (issueAtomic w (.atom (cCode w) w.ty (rndOf s.l w.rnd)) true))

/-- Hold the reductions of a determinism launch in the core's buffer (R141, R142), which the Roaster counts once all are held (R377); a
spill that meets an away page leaves the word to be executed again from `s0`. -/
def detEach (s0 s : State) (w : LaneW) (vals : List (Nat × Nat)) (all : List (Nat × Acc)) : List (Nat × Acc) → State
  | [] => laneNext (roastAll s .red all)
  | (t, a) :: r =>
    if locked s s.l.ctx a true then laneFault s .rangeLocked a.va
    else
      let q := mget s.g.detSeq 0 t
      let e : DetEnt := { acc := a, op := cCode w, ty := w.ty, rnd := rndOf s.l w.rnd, value := valOf vals t, team := s.t.idx,
                          group := s.g.idx, thread := t, seq := q, core := s.t.core }
      match detPut s s.l.uid e with
      | .ok s => detEach s0 { s with g := { s.g with detSeq := mput s.g.detSeq 0 t (q + 1) } } w vals all r
      | .bad c => laneFault s c a.va
      | .away aw => stall (park s0 s0.l.ctx aw) 3 0

/-- The reductions of a determinism launch. -/
def detRed (w : LaneW) (accs : List (Nat × Acc)) (s : State) : State :=
  unlessRefused s (.red (cCode w) w.ty .rn) accs fun _ =>
  let vals := accs.map (fun p => (p.1, vB s w.ty w p.1))
  detEach s (popAll s w) w vals accs accs

def execRed (w : LaneW) (s : State) : Out :=
  .next (if detFloat s w then memGate s w .red (tySize w.ty) (detRed w)
    else memWord s w .red (tySize w.ty) (issueAtomic w (.red (cCode w) w.ty (rndOf s.l w.rnd)) false))
def execCas (w : LaneW) (s : State) : Out := .next (memWord s w .atom (tySize w.ty) (issueAtomic w .cas true))

/-! ### Loads that an instruction makes beside its threads' own (R270, R340, R343, R351) -/

/-- Does an access lie in a window (R242)? -/
def remoteWord (s : State) (a : Acc) : Bool :=
  match a.loc with
  | .mem pa => isWindow s pa
  | _ => false

/-- Outcome of such a load. -/
inductive FrOut where
  | wait (s : State)
  | fault (c : FCause)
  | got (s : State) (data : List Byte)

/-- A relaxed load of a window by the issuing fragment (R203, R243): own stores give it whole, or hold it back; else its bytes are
asked for at the remote home, piece by piece. -/
def fragWindow (s : State) (a : Acc) (pa : Nat) : FrOut :=
  let own : Owner := .group s.g.uid
  match ownWin s s.g.uid a with
  | .all d => .got s d
  | .wait => .wait s
  | .none =>
    match winRead s own (curF s).id s.l.ctx pa a.n with
    | .inl (d, pz) => if pz then .fault .poison else .got s d
    | .inr pas => .wait (park s s.l.ctx (.window own false (curF s).id a.va pas))

/-- A relaxed load of the issuing group at a checked place (R257, R203): range lock, window (R243), poison. Answers of windows
stay until `clearWin`. -/
def fragLoad (s : State) (a : Acc) : FrOut :=
  if locked s s.l.ctx a false then .fault .rangeLocked
  else if poisonedRegion s a then .got (clusterPoison s s.l.ctx a.va s.g.uid) (List.replicate a.n 0)
  else
    let window : Option Nat := match a.loc with
      | .mem pa => if isWindow s pa then some pa else none
      | _ => none
    match window with
    | some pa => fragWindow s a pa
    | none =>
      match performLoad s s.g.uid s.t.core a false [] with
      | .wait s => .wait s
      | .got d vec pz s => if pz then .fault .poison else .got (replayLoad (mergeObs s s.g.uid vec) s.g.uid s.fi a d) d

/-- The pieces of [va, va + n) that lie in one page of 4 KiB each. -/
def pagePieces (va n : Nat) : List (Nat × Nat) :=
  (iota (va / 4096) ((va + n + 4095) / 4096 - va / 4096)).map
    (fun q => (max va (4096 * q), min (va + n) (4096 * q + 4096) - max va (4096 * q)))

/-- Places of a range that may cross pages, each piece checked on its own (R257); the first failing one names the fault. -/
def checkRange (s : State) (sp : Space) (kind : AKind) : List (Nat × Nat) → Checks
  | [] => .ok []
  | (va, n) :: r =>
    match checkAcc s s.g.uid s.t s.l.ctx 0 sp kind va n 1 with
    | .bad c => .bad c va
    | .away aw => .away aw
    | .ok a => match checkRange s sp kind r with
      | .ok l => .ok ((n, a) :: l)
      | x => x

/-- Load the places of a range in turn. -/
def fragLoads (s : State) : List (Nat × Acc) → FrOut
  | [] => .got s []
  | (_, a) :: r =>
    match fragLoad s a with
    | .got s d => match fragLoads s r with
      | .got s d' => .got s (d ++ d')
      | x => x
    | x => x

/-! ### Fence and prefetch (R266, R267) -/

def execFence (w : LaneW) (s : State) : Out :=
  .next (match orderBefore s w.ord w.scp with
    | .hold s => s
    | .pass s =>
      match w.ord with
      | .acq | .ar => doneWord s .acq w.scp none
      | _ => laneNext s)

/-- The fill that a hint may make for thread t, as a free choice of the device: the sector at ea(t) from the die view, to the L1
of a cached mapping (level 0) or to the L2 only. An address that would fault, wait, recall or leave the device is dropped. -/
def prefThread (w : LaneW) (s : State) (t : Nat) : State :=
  match checkAcc s s.g.uid s.t s.l.ctx t .g .load (laneEa s w t) 1 1 with
  | .ok a =>
    match a.loc with
    | .mem pa =>
      let die := dieOf s.t.core
      if !inMem s pa || isScat s die pa then s
      else if Config.freeChoice s.fresh % 2 = 0 then { s with fresh := s.fresh + 1 }
      else
        let s := l2Read { s with fresh := s.fresh + 1 } die (some s.l.ctx) (pa / 32)
        if cCode w = 0 && a.cached then fillL1 s s.t.core die pa a.key else s
    | _ => s
  | _ => s

/-- A hint (R267): whether a thread's sector is filled is the device's choice (log 39). -/
def execPref (w : LaneW) (s : State) : Out := .next (laneNext ((threads (active s w)).foldl (prefThread w) s))

end Sys2Proof.Machine
end

