-- ==== Sys2Proof/Machine/Claim.lean ====
section
/-! DEFINITION. The Carafe claim table (R309 to R323) and its instructions (R340 to R342): an instruction reads its name and
sends a request, the home decides it in one move, an answer comes back. -/

namespace Sys2Proof.Machine

/-! ### Requests (R340 to R342) -/

/-- Claim domain of a context (R311). -/
def domainOf (s : State) (c : Nat) : Nat := sysBits s (0x0900 + c) 7 0

/-- The place of the name at the address of the lowest active thread: 32 aligned bytes under the checks of R257, then `k`. -/
def withName (s : State) (w : LaneW) (k : Acc → State) : State :=
  let t := (lowest (active s w)).getD 0
  match checkAll s (memSpace w) .load 32 32 (laneEa s w) [t] with
  | .bad c va => laneFaultK s c va (akindNo .load)
  | .away aw => stall (park s s.l.ctx aw) 3 0
  | .ok accs => match accs with
    | (_, a) :: _ => k a
    | [] => s

/-- The four relaxed loads of a name (R340), word j as part j. -/
def nameParts (a : Acc) : List Part := (iota 0 4).map (fun j => ⟨j, { a with va := a.va + 8 * j, loc := locAdd a.loc (8 * j), n := 8 }⟩)

/-- Four words of a name (R310), as an operation has loaded them. -/
def nameOf (o : LOp) : List Word := (iota 0 4).map (fun j => BitVec.ofNat 64 (valOf o.vals j))

/-- A claim word begins: its operation is in flight from here, with its destination pending (R340); its name is being loaded, its
handle is captured. -/
def startName (s : State) (w : LaneW) (regs handle : Nat) (a : Acc) : State :=
  let s := roastAll s .load ((nameParts a).map (fun p => (p.t, p.acc)))
  let op := s.nid
  stall (startOp { s with nid := op + 1 }
    { id := op, kind := .claim, pend := iota w.d.toNat regs, act := active s w, d := w.d.toNat, left := 1, mid := true, parts := nameParts a,
      opnds := [(0, handle, 0)] }) 3 0

/-- Is every word of the name there? -/
def nameDue (o : LOp) : Bool := !o.parts.isEmpty || decide (o.vals.length < 4)

/-- The request leaves for its home with the name as loaded (R340). -/
def sendReq (s : State) (w : LaneW) (kind : ReqK) (o : LOp) : State :=
  let r : CReq := { id := s.nid, kind := kind, group := s.g.uid, team := s.t.uid, ctx := s.l.ctx, domain := domainOf s s.l.ctx, name := nameOf o,
                    handle := BitVec.ofNat 64 (((o.opnds.map (·.2.1)).headD 0)), vec := s.g.car, lop := o.id, fid := (curF s).id,
                    core := s.t.core, ord := w.ord, scp := w.scp, monitor := kind == .claimw }
  { s with nid := s.nid + 1, reqs := s.reqs ++ [r],
           g := opStep s.g o.id (fun o => { o with mid := false, vals := [], opnds := [] }) }

/-- `claim` and `claimw`: the name, the monitor of a `claimw`, the request; the fragment goes on when the answer has come (R316, R317,
R341). -/
def claimWord (w : LaneW) (kind : ReqK) (s : State) : State :=
  match midOp s with
  | some o =>
    if nameDue o then stall s 3 0
    else if kind = .claimw ∧ Config.monitors ≤ monitorsUsed s s.t.core then stall s 4 0
    else modF (stall (unstall (sendReq s w kind o)) (if kind = .claimw then 4 else 3) 0) (fun f => { stepOver f with wait := .answer o.id })
  | none =>
    crossed s fun s =>
      if active s w = 0 then doneWord s w.ord w.scp none else withName s w (startName s w 4 0)

def execClaim (w : LaneW) (s : State) : Out := .next (claimWord w .claim s)
def execClaimw (w : LaneW) (s : State) : Out := .next (claimWord w .claimw s)

/-- The release that comes before a request (R316, R342). -/
def endRelease (s : State) (w : LaneW) (kind : ReqK) : Gate :=
  if kind = .fulfil ∧ active s w ≠ 0 then releaseGate s (if w.ord = .rel ∧ w.scp = .sys then .sys else .dev)
  else orderBefore s w.ord w.scp

/-- `fulfil` and `abandon` (R342): the name, then the release, which covers the loads of the name, then the request. -/
def endWord (w : LaneW) (kind : ReqK) (s : State) : State :=
  match midOp s with
  | some o =>
    if nameDue o then stall s 3 0
    else match endRelease s w kind with
    | .hold s => s
    | .pass s => laneNext (sendReq s w kind o)
  | none =>
    crossed s fun s => withChans s w fun _ =>
      if active s w = 0 then
        match endRelease s w kind with
        | .hold s => s
        | .pass s => laneNext (popAll s w)
      else withName s w fun a =>
        let handle := if kind = .fulfil then opndVal s .n64 w.b 0 ((lowest (active s w)).getD 0) else 0
        startName (popAll s w) w 1 handle a

def execFulfil (w : LaneW) (s : State) : Out := .next (endWord w .fulfil s)
def execAbandon (w : LaneW) (s : State) : Out := .next (endWord w .abandon s)

/-! ### The move at the home (R314, R315, R319) -/

def findC (s : State) (d : Nat) (name : List Word) : Option CEnt := s.claims.find? (fun e => e.domain == d && e.name == name)

/-- Entries of the set of x in a domain: the sixteen ways are a domain's own (R311, R321). -/
def setOf (s : State) (d x : Nat) : List CEnt := s.claims.filter (fun e => e.domain == d && claimX e == x)

/-- A usable way: the lowest empty one, else that of the oldest done entry (R319). -/
def usableWay (s : State) (d x : Nat) : Option (Nat × Option CEnt) :=
  let l := setOf s d x
  match (iota 0 16).find? (fun i => !l.any (fun e => e.way == i)) with
  | some i => some (i, none)
  | none =>
    match l.filter (fun e => !e.making) with
    | [] => none
    | e :: r =>
      let o := r.foldl (fun m e => if e.age < m.age then e else m) e
      some (o.way, some o)

/-- Parked-waiter records of a home slice (R317). -/
def parkedAt (s : State) (x : Nat) : Nat :=
  (s.reqs.filter (fun r => r.parked && nameX s r.domain r.name % 256 == x % 256)).length

/-- Does the domain serve requests (R311, R322)? -/
def domainServes (s : State) (d : Nat) : Bool := sysBit s (0x0800 + d) 63 && !sysBit s (0x0800 + d) 61

/-- The name becomes the requester's to make, in a way of its set; a done entry may have to go (R319, R323). -/
def makeEntry (s : State) (r : CReq) (x way : Nat) (old : Option CEnt) : State :=
  let s := match old with
    | none => s
    | some o => countDie (emitClaim (delC s o.id) 4 r.ctx x r.domain 0 0 0 0 none) (xDie x) 0x08 (some r.ctx) 1
  { s with
    nid := s.nid + 1
    claims := s.claims ++ [{ id := s.nid, die := xDie x, slice := xSlice x, set := xSet x, way := way, domain := r.domain, name := r.name,
                             making := true, maker := r.group, mteam := r.team, mctx := r.ctx, limit := clmLease s r.domain }] }

/-- A claim (R315). -/
def homeClaim (s : State) (r : CReq) : State :=
  let x := nameX s r.domain r.name
  match findC s r.domain r.name with
  | none =>
    if 16 ≤ makerCount s r.group then answerReq s r 3 0 {}
    else match usableWay s r.domain x with
    | none => answerReq s r 3 0 {}
    | some (way, old) => answerReq (makeEntry s r x way old) r 0 0 {}
  | some e =>
    if !e.making then
      answerReq { updC s e.id (fun e => { e with age := s.nid }) with nid := s.nid + 1 } r 2 e.handle e.vec
    else if e.maker = r.group then
      answerReq (updC s e.id (fun e => { e with lease := 0, limit := clmLease s e.domain })) r 0 0 {}
    else if r.kind = .claimw ∧ parkedAt s x < Config.parkedRecords then
      updC { s with reqs := mapFirst (fun q => q.id == r.id) (fun q => { q with parked := true }) s.reqs } e.id
        (fun e => { e with waiters := e.waiters ++ [r.id] })
    else answerReq s r 1 0 {}

/-- A fulfilment: the entry is done and every parked waiter receives the handle (R315). -/
def homeFulfil (s : State) (r : CReq) : State :=
  match findC s r.domain r.name with
  | none => answerReq s r 1 0 {}
  | some e =>
    if e.making && e.maker == r.group then
      let s := updC { s with nid := s.nid + 1 } e.id (fun e => { e with
        making := false, maker := 0, mteam := 0, mctx := 0, lease := 0, waiters := [], handle := r.handle, vec := r.vec, age := s.nid })
      let s := answerReq s r 0 0 {}
      e.waiters.foldl (fun s w => match getReq s w with
        | some q => answerReq s q 2 r.handle r.vec
        | none => s) s
    else answerReq s r 1 0 {}

/-- An abandonment (R315, R318). -/
def homeAbandon (s : State) (r : CReq) : State :=
  match findC s r.domain r.name with
  | none => answerReq s r 1 0 {}
  | some e => if e.making && e.maker == r.group then makerFail (answerReq s r 0 0 {}) e.id 0 else answerReq s r 1 0 {}

/-- One request is decided at its home. -/
def homeMove (s : State) (r : CReq) : State :=
  if r.parked then s
  else if !domainServes s r.domain then answerReq s r (if isClaim r.kind then 3 else 1) 0 {}
  else match r.kind with
  | .claim | .claimw => homeClaim s r
  | .fulfil => homeFulfil s r
  | .abandon => homeAbandon s r

def execClaimHomeMove (k : Nat) (s : State) : Out :=
  .next (match s.reqs[k]? with
    | some r => homeMove s r
    | none => s)

/-- The lease of a maker has run out (R318). -/
def execLeaseExpiry (e : Nat) (s : State) : Out :=
  .next (match s.claims.find? (fun x => x.id == e) with
    | some x => if x.making && decide (x.limit * 1000 ≤ x.lease) then makerFail s e 4 else s
    | none => s)

/-! ### Domains (R311, R322) -/

/-- A purge record at the first home of the domain: no party, `ph` 0 at its start and 1 at its end (R323; log 6). -/
def emitPurge (s : State) (d ph : Nat) : State := emitClaim s 5 0 0 d 0 0 0 ph none

/-- `CLMDOM`: lease and en are kept; clearing en starts a sweep, a purge bit a purge, and either sets busy. -/
def writeClmdom (s : State) (d v : Nat) : State :=
  let n := 0x0800 + d
  let was := sysBit s n 63
  let s := sysSetBit (sysSetBits s n 19 0 (bits v 19 0)) n 63 (bit v 63)
  let s := if was && !bit v 63 then sysSetBit { s with purges := s.purges ++ [⟨d, false⟩] } n 61 true else s
  if bit v 62 then emitPurge (sysSetBit { s with purges := s.purges ++ [⟨d, true⟩] } n 61 true) d 0 else s

/-- One entry of a swept domain: a done one goes in a purge, a making one always, its parked waiters answered full. -/
def sweepEnt (full : Bool) (s : State) (e : CEnt) : State :=
  if e.making then e.waiters.foldl (fun s w => match getReq s w with
      | some q => answerReq s q 3 0 {}
      | none => s) (delC s e.id)
  else if full then delC s e.id else s

/-- The oldest sweep of a domain ends on every die; busy clears with the last one. -/
def purgeDone (s : State) (d : Nat) : State :=
  match findAt (fun p => p.domain == d) s.purges 0 with
  | none => s
  | some (i, p) =>
    let s := (s.claims.filter (fun e => e.domain == d)).foldl (sweepEnt p.full) s
    let s := { s with purges := dropAt s.purges i }
    let s := if p.full then emitPurge s d 1 else s
    if s.purges.any (fun p => p.domain == d) then s else sysSetBit s (0x0800 + d) 61 false

def execClmdomEnClear (d : Nat) (v : Word) (s : State) : Out :=
  .next (if d < 256 then writeClmdom s d (setBit v.toNat 63 false) else s)
def execClmdomEnSet (d : Nat) (v : Word) (s : State) : Out :=
  .next (if d < 256 then writeClmdom s d (setBit v.toNat 63 true) else s)
def execClmdomPurge (d : Nat) (v : Word) (s : State) : Out :=
  .next (if d < 256 then writeClmdom s d (setBit v.toNat 62 true) else s)
def execPurgeComplete (d : Nat) (s : State) : Out := .next (purgeDone s d)

end Sys2Proof.Machine
end

