-- ==== Sys2Proof/Machine/Clause.lean ====
section
/-! DEFINITION. The starts of the lane stream and its control words (R33, R35, R72, R173, R174). -/

namespace Sys2Proof.Machine

/-- The executing fragment starts the clause whose header it has fetched (R35, R72). -/
def execClauseStart (h : Header) (s : State) : Out := .next (beginClause s h)

/-- The lane stream of group `g` takes its next task (R33). -/
def execLaneTaskStart (g : Nat) (s : State) : Out := .next (startTask (focus s g))

/-- The lane branch (R173): taken threads are active(k), the others of the fragment are not taken. -/
def execBra (k : BitVec 4) (neg : Bool) (target join : BitVec 24) (s : State) : Out :=
  let f := curF s
  let taken := activeOf s k neg
  let tgt := laneAddr s.l target.toNat
  .next (if taken = 0 then laneNext s
    else if taken = f.mask then laneGoto s tgt
    else diverge s taken tgt (followPc f) (joinAddr s.l join.toNat))

/-- The guards of `lend` and `lnop` take no part (R174). -/
def execLend (_k : BitVec 4) (_neg : Bool) (s : State) : Out := .next (lendHere s)
def execLnop (_k : BitVec 4) (_neg : Bool) (s : State) : Out := .next (laneNext s)

end Sys2Proof.Machine
end

