-- ==== Sys2Proof/Machine/Sync.lean ====
section
/-! DEFINITION. Byte-counting barrier words (R235 to R237, R275 to R278), named barriers (R279, R280) and flag waits (R238,
R281). -/

namespace Sys2Proof.Machine

/-! ### The move on a barrier word (R236, R237) -/

/-- Outcome of a barrier move: a fault, or the word as it stood before and the state after. -/
inductive BarOut where
  | bad (c : FCause)
  | ok (before : Nat) (s : State)

/-- Groups of the phase restart their Lap Clock (R307). -/
def lapZero (s : State) (us : List Nat) : State := us.foldl (fun s u => updG s u (fun g => { g with lap := 0 })) s

/-- The completing party of a move, for the overrun record (R446): group name (0 for an engine), its index, team, core. -/
structure BarBy where
  uid : Nat := 0
  group : Nat := 0
  team : Nat := 0
  core : Nat := 0
  ctx : Nat := 0
  engine : Bool := false
  deriving DecidableEq, Repr

/-- A phase has settled: excess bytes are logged, the vector is published, waiting clocks restart. -/
def barSettle (s : State) (a : Acc) (u off excess : Nat) (by' : BarBy) : State :=
  let s := if excess = 0 then s else
    pushB s by'.ctx ⟨dieNow s (dieOf by'.core), by'.team, excess, spaceCode a.sp, a.va, by'.group, by'.engine, by'.core⟩
  let who := match getT s u with
    | some t => mget t.barWho [] off
    | none => []
  lapZero (updT s u (fun t => { t with barPub := mput t.barPub {} off (mget t.barCur {} off), barCur := mput t.barCur {} off {},
                                       barWho := mput t.barWho [] off [] })) who

/-- Bit [63] phase, [62:48] arr, [47] ovf, [46:39] spare, [38:24] rld, [23:0] tx (R235). -/
def barWord (phase : Bool) (arr : Nat) (ovf : Bool) (rld : Nat) (tx : Int) : Nat :=
  phase.toNat * 2 ^ 63 + arr * 2 ^ 48 + ovf.toNat * 2 ^ 47 + rld * 2 ^ 24 + ofInt tx 24

/-- Write a barrier word in place. -/
def barPut (s : State) (a : Acc) (x : Nat) : State := wrScratch s a.loc (leBytes 8 x) false

/-- `bar_move` of R236: one atomic move at the word; `vec` joins the phase vector. -/
def barMove (s : State) (a : Acc) (arrive : Bool) (posted delivered : Nat) (vec : V4) (by' : BarBy) : BarOut :=
  match a.loc with
  | .team u off =>
    if pzScratch s a.loc 8 then .bad .poison else
    let w := leNat (rdScratch s a.loc 8)
    let arr := bits w 62 48
    let rld := bits w 38 24
    if off % 8 ≠ 0 ∨ rld = 0 ∨ bits w 46 39 ≠ 0 ∨ (arrive ∧ arr = 0) then .bad .badBarrier
    else
      let t : Int := sint w 24 + posted - delivered
      if t < -(2 ^ 23) ∨ 2 ^ 23 ≤ t then .bad .barrierRange
      else
        let n := arr - arrive.toNat
        let s := updT s u (fun x => { x with
          barCur := mput x.barCur {} off (v4max (mget x.barCur {} off) vec)
          barWho := if by'.engine then x.barWho else mput x.barWho [] off (mget x.barWho [] off ++ [by'.uid]) })
        let s := if n = 0 ∧ t ≤ 0 then
            barSettle (barPut s a (barWord (!bit w 63) rld (decide (t < 0)) rld 0)) a u off (-t).toNat by'
          else barPut s a (barWord (bit w 63) n (bit w 47) rld t)
        .ok w (monitorCheck s a)
  | _ => .bad .badBarrier

def barBy (s : State) : BarBy := { uid := s.g.uid, group := s.g.idx, team := s.t.idx, core := s.t.core, ctx := s.l.ctx }

/-! ### Words on barriers (R275 to R278) -/

/-- Does the group's own store path hold an entry over the word? Moves of one group keep their order (R200). -/
def ownPending (s : State) (a : Acc) : Bool := s.path.any (fun e => e.owner == .group s.g.uid && overlap e.acc a)

/-- The barrier word that the lowest active thread names, with its checks (R275): alignment at the size of type code 0,
extent, range lock; then `k` with the access and the value of B. -/
def barAt (s : State) (w : LaneW) (write : Bool) (k : Acc → Nat → State) : State :=
  let t := (lowest (active s w)).getD 0
  match checkAll s (memSpace w) (if write then .atom else .load) 8 4 (laneEa s w) [t] with
  | .bad c va => laneFault s c va
  | .away aw => stall (park s s.l.ctx aw) 3 0
  | .ok accs =>
    match accs with
    | (_, a) :: _ =>
      if locked s s.l.ctx a write then laneFault s .rangeLocked a.va
      else if a.va % 8 ≠ 0 ∨ !(memSpace w == .s || memSpace w == .k) then laneFault s .badBarrier a.va
      else if ownPending s a then s
      else k a (vB s .n32 w t)
    | [] => s

/-- Every active thread receives x in D, a register or a channel. -/
def giveAll (s : State) (w : LaneW) (x : Nat) : State :=
  { s with g := writeDst s.g w .n32 ((threads (active s w)).map (fun t => (t, x))) }

/-- A move on a barrier word is a memory access of the clause (R36, R259): its operation raises the flags of the clause and lowers
them again as it completes with the move, which the model makes at the issue (log 18). -/
def barOp (s : State) : State :=
  { s with g := (curF s).flags.foldl lowerFlag ((curF s).flags.foldl raiseFlag s.g) }

def execBarx (w : LaneW) (s : State) : Out :=
  .next (withChans s w fun _ =>
    if active s w = 0 then laneNext (popAll s w)
    else barAt s w true fun a b =>
      match barMove s a false b 0 {} (barBy s) with
      | .bad c => laneFault s c a.va
      | .ok _ s => laneNext (popAll (barOp s) w))

def execBara (w : LaneW) (s : State) : Out :=
  .next (withChans s w fun _ =>
    match orderBefore s w.ord w.scp with
    | .hold s => s
    | .pass s =>
      if active s w = 0 then laneNext (giveAll (popAll s w) w 0)
      else barAt s w true fun a b =>
        match barMove s a true b 0 (if w.ord = .rel then s.g.car else {}) (barBy s) with
        | .bad c => laneFault s c a.va
        | .ok before s =>
          let s := barOp s
          let x := (bit before 63).toNat
          let act := threads (active s w)
          laneNext (replay (giveAll (popAll s w) w x) s.g.uid 1 .g 0 s.fi (perThread false (act.map (fun t => (t, x))))))

/-- A phase is found complete: the published vector, ovf, the acquire, the next word (R278). -/
def barDone (s : State) (a : Acc) (x kd : Nat) (act : Mask) (ord : MOrd) (scp : Scope) : State :=
  let pub := match a.loc with
    | .team u off => match getT s u with
      | some t => mget t.barPub {} off
      | none => {}
    | _ => {}
  let ovf := bit x 47
  let s := replay s s.g.uid 2 .g 0 s.fi (perThread false ((threads act).map (fun t => (t, ovf.toNat))))
  let g := writeK s.g kd act (if ovf then act else 0)
  doneWord { s with g := { g with obs := v4max g.obs pub } } ord scp none

/-- Is the word at `a` usable as a barrier word (R236)? -/
def barLegal (x : Nat) : Bool := decide (bits x 38 24 ≠ 0 ∧ bits x 46 39 = 0)

/-- The group waits on the phase of the word. -/
def barJoin (s : State) (a : Acc) : State :=
  match a.loc with
  | .team u off => updT s u (fun t => { t with barWho := mput t.barWho [] off (mget t.barWho [] off ++ [s.g.uid]) })
  | _ => s

def execBarw (w : LaneW) (s : State) : Out :=
  .next (withChans s w fun _ =>
    if active s w = 0 then doneWord (popAll s w) w.ord w.scp none
    else barAt s w false fun a b =>
      let r := rdPoint s a
      let kd := w.d.toNat
      if r.2.2 then laneFault s .poison a.va
      else if !barLegal r.1 then laneFault s .badBarrier a.va
      else
        let act := active s w
        let s := popAll s w
        if bit r.1 63 != bit b 0 then barDone s a r.1 kd act w.ord w.scp
        else
          let s := stall (barJoin s a) 4 0
          modF s (fun f => { f with wait := .barrier a (bit b 0) kd act w.ord w.scp }))

/-- A parked `barw` reads its word again (R278). -/
def execBarwWake (g f : Nat) (s : State) : Out :=
  .next (match getG s g with
    | none => s
    | some x =>
      match entryOfFrag x f with
      | some (e, fr) =>
        match fr.wait with
        | .barrier a p kd act ord scp =>
          if (teamOfG s x).slot = .out then s
          else
            let r := rdPoint s a
            atEntry (focus s g) e (fun s =>
              if locked s s.l.ctx a false then laneFault s .rangeLocked a.va
              else if r.2.2 then laneFault s .poison a.va
              else if bit r.1 63 == p then s
              else ranWord (activeHere s) s (barDone (modF s (fun f => { f with wait := .go })) a r.1 kd act ord scp))
        | _ => s
      | none => s)

/-! ### Named barriers (R279, R280) -/

/-- A group parked at nb `n` goes on: the published vector, then the acquire of its own order. -/
def nbWake (s : State) (n : Nat) (vec : V4) (uid : Nat) : State :=
  let b := s.nid
  updG s uid (fun g => { g with
    obs := if g.frs.any (fun p => match p.2.wait with | .named m _ _ _ => m == n | _ => false) then v4max g.obs vec else g.obs
    frs := g.frs.map (fun p => match p.2.wait with
      | .named m _ ord scp =>
        if m = n then (p.1, { p.2 with blk := none, wait := if ord = .acq ∨ ord = .ar then .acqDue scp b else .go }) else p
      | _ => p) })

/-- End records of the fragments parked at nb `n` (R393). -/
def nbRecords (s : State) (n : Nat) (g : Group) : State :=
  g.frs.foldl (fun s p => match p.2.wait with
    | .named m _ _ _ => if m = n ∧ p.2.blk.isSome then
        emit s 0x02 1 s.l.ctx s.t.core 4 (some (idB (partOf g) g.idx p.1 s.t.idx 0)) (some g.uid) else s
    | _ => s) s

/-- Arrival count of a word: 0 names the team's group count at launch. -/
def nbExpect (s : State) (w : LaneW) : Nat := if bits (x24n w) 8 4 = 0 then s.t.ngrp else bits (x24n w) 8 4

/-- The arrival has been counted: complete the phase, or go on or park. -/
def nbArrived (s : State) (w : LaneW) (n : Nat) (b : NBar) : State :=
  let sync := cCode w == 0
  if b.arrived = b.expected then
    let s := { s with t := { s.t with nb := mput s.t.nb {} n { phase := !b.phase, expected := b.expected } } }
    let s := (groupsOfT s s.t.uid).foldl (fun s g => nbRecords s n g) s
    let s := (groupsOfT s s.t.uid).foldl (fun s g => nbWake s n b.vec g.uid) s
    let s := lapZero s b.who
    if sync then doneWord { s with g := { s.g with obs := v4max s.g.obs b.vec } } w.ord w.scp none else laneNext s
  else
    let s := { s with t := { s.t with nb := mput s.t.nb {} n b } }
    if sync then modF (stall s 4 0) (fun f => { stepOver f with wait := .named n b.phase w.ord w.scp }) else laneNext s

def execNbar (w : LaneW) (s : State) : Out :=
  .next (match gatherAll s with
    | .hold s => stall s 4 0
    | .pass s =>
      match orderBefore s w.ord w.scp with
      | .hold s => s
      | .pass s =>
        if active s w = 0 then doneWord s w.ord w.scp none
        else
          let n := bits (x24n w) 3 0
          let b := mget s.t.nb {} n
          let e := nbExpect s w
          if b.arrived ≠ 0 ∧ e ≠ b.expected then laneFault s .badBarrier 0
          else
            let rel := w.ord == .rel || w.ord == .ar
            nbArrived s w n { b with
              expected := e
              arrived := b.arrived + 1
              vec := if rel then v4max b.vec s.g.car else b.vec
              waiters := if cCode w = 0 then setBit b.waiters s.g.idx true else b.waiters
              who := b.who ++ [s.g.uid] })

/-! ### Flag waits (R238, R281) -/

/-- The satisfying read is the fragment's load: its vector, then the acquire. -/
def waitDone (s : State) (vec : V4) (ord : MOrd) (scp : Scope) : State :=
  doneWord { s with g := { s.g with obs := v4max s.g.obs vec } } ord scp none

/-- A scattered line is first recalled (R220). -/
def scattered (s : State) (a : Acc) : Option Nat :=
  match a.loc with
  | .mem pa => if isScat s (homeDie s pa) pa then some (lineOf pa) else none
  | _ => none

/-- Arm a monitor and make its first read (R238 steps 1 to 4). -/
def armWait (s : State) (w : LaneW) (a : Acc) (b : Nat) : State :=
  if Config.monitors ≤ monitorsUsed s s.t.core then stall s 4 0
  else match scattered s a with
  | some l => want s l
  | none =>
    let s := countDie s (dieOf s.t.core) 0x09 (some s.l.ctx) 1
    let r := rdPoint s a
    if r.2.2 then laneFault s .poison a.va
    else
      let s := popAll s w
      if waitCmp (cCode w) r.1 b then waitDone s r.2.1 w.ord w.scp
      else modF (stall s 4 0) (fun f => { f with wait := .monitor a (cCode w) b w.ord w.scp })

def execWaitf (w : LaneW) (s : State) : Out :=
  .next (withChans s w fun _ =>
    match lowest (active s w) with
    | none => doneWord (popAll s w) w.ord w.scp none
    | some t =>
      match checkAll s (memSpace w) .load 8 8 (laneEa s w) [t] with
      | .bad c va => laneFault s c va
      | .away aw => stall (park s s.l.ctx aw) 3 0
      | .ok accs =>
        match accs with
        | (_, a) :: _ =>
          if remoteWord s a then laneFault s .remoteMonitor a.va
          else if locked s s.l.ctx a false then laneFault s .rangeLocked a.va
          else armWait s w a (opndVal s .n64 w.b (skipB w) t)
        | [] => s)

/-- A monitor has read a satisfying value: the fragment wakes with it (R238). -/
def execMonitorWake (g f : Nat) (s : State) : Out :=
  .next (match getG s g with
    | none => s
    | some x =>
      match entryOfFrag x f with
      | some (e, fr) =>
        match fr.wait with
        | .monHit vec ord scp =>
          if (teamOfG s x).slot = .out then s
          else atEntry (focus s g) e (fun s => ranWord (activeHere s) s (waitDone (modF s (fun f => { f with wait := .go })) vec ord scp))
        | _ => s
      | none => s)

end Sys2Proof.Machine
end

