-- ==== Sys2Proof/Machine/Engine.lean ====
section
/-! DEFINITION. Words that issue engine operations and wait for their batches (R221 to R234, R268 to R274): descriptors,
layout records, lock registration. What an issued operation then does is in EngineMoves. -/

namespace Sys2Proof.Machine

/-! ### Descriptors (R223, R224) -/

/-- The barrier fields of a descriptor: none when refused, otherwise the word named, if any. -/
def barOf (s : State) (x : Nat) : Option (Option Acc) :=
  let code := bits x 25 24
  let va := bits x 63 32
  if bits x 31 26 ≠ 0 ∨ code = 3 ∨ va % 8 ≠ 0 then none
  else if code = 0 then (if va = 0 then some none else none)
  else match checkAcc s s.g.uid s.t s.l.ctx 0 (if code = 1 then .s else .k) .atom va 8 8 with
    | .ok a => some (some a)
    | _ => none

/-- Length 1 to 4 194 304 (R223). -/
def lenOk (n : Nat) : Bool := decide (1 ≤ n ∧ n ≤ 4194304)

/-! ### Ranges and locks (R232) -/

/-- A byte range as the lock table compares it: space, holder, first byte, end. -/
structure Rng where
  sp : Space
  holder : Nat
  lo : Nat
  hi : Nat
  deriving DecidableEq, Repr

/-- The ranges that [va, va + n) of a space names: of `.k`, one in the region of each rank that it touches (R54, R232). -/
def rangesOf (s : State) (sp : Space) (va n : Nat) : List Rng :=
  match sp with
  | .g => [⟨.g, 0, va, va + n⟩]
  | .s => [⟨.s, s.t.uid, va, va + n⟩]
  | .k => (iota (va / 2 ^ 20) (min 16 ((va + n + 2 ^ 20 - 1) / 2 ^ 20) - va / 2 ^ 20)).filterMap (fun r =>
      (teamOfRank s s.t r).map (fun x => ⟨.s, x.uid, max va (2 ^ 20 * r) - 2 ^ 20 * r, min (va + n) (2 ^ 20 * r + 2 ^ 20) - 2 ^ 20 * r⟩))
  | .d =>
    let w := sysGet s (rCtx s.l.ctx 5)
    [⟨.d, dieOf s.t.core, 65536 * bits w 25 16 + va, 65536 * bits w 25 16 + va + n⟩]
  | .l => [⟨.l, 0, va, va + n⟩]

def rngMeet (a b : Rng) : Bool := a.sp == b.sp && a.holder == b.holder && decide (a.lo < b.hi ∧ b.lo < a.hi)
/-- Does a range of one list meet one of the other? -/
def rngsMeet (l m : List Rng) : Bool := l.any (fun a => m.any (rngMeet a))

/-- The die that holds a range's bytes; none for `.g`, which takes an entry on every die. -/
def rngDie (s : State) (r : Rng) : Option Nat :=
  match r.sp with
  | .g => none
  | .d => some r.holder
  | _ => some (dieOf ((getT s r.holder).getD {}).core)

def lockRng (k : Lock) : Rng := ⟨k.sp, k.holder, k.lo, k.hi⟩

/-- Entries of context c used on die d, and those that new ranges need. -/
def locksOn (s : State) (c d : Nat) : Nat :=
  (s.locks.filter (fun k => k.ctx == c && (match rngDie s (lockRng k) with | none => true | some e => e == d))).length
def needOn (s : State) (rs : List Rng) (d : Nat) : Nat :=
  (rs.filter (fun r => match rngDie s r with | none => true | some e => e == d)).length
def lockRoom (s : State) (c : Nat) (rs : List Rng) : Bool :=
  dies.all (fun d => decide (locksOn s c d + needOn s rs d ≤ Config.lockEntries))

/-- Does a lock of an earlier operation conflict with new source ranges and a new destination (R233)? -/
def conflicts (s : State) (c id : Nat) (src dst : List Rng) : Bool :=
  s.locks.any (fun k => k.ctx == c && decide (k.op < id) &&
    (dst.any (fun r => rngMeet r (lockRng k)) || (k.dst && src.any (fun r => rngMeet r (lockRng k)))))

/-! ### Issue (R222) -/

/-- An operation ready to be issued: what it moves, its total, its unit, its barrier, its ranges. -/
structure EPlan where
  kind : EKind
  total : Nat
  esize : Nat := 1
  bar : Option Acc := none
  src : List Rng
  dst : List Rng

/-- Operations of a group in flight. -/
def eopsOf (s : State) (uid : Nat) : Nat := (s.eops.filter (fun e => e.group == uid)).length

/-- The open batch gains an operation (R229). -/
def joinBatch (g : Group) : Group :=
  let n := g.batchNo + 1
  if g.batches.any (fun b => b.no == n) then
    { g with batches := mapFirst (fun b => b.no == n) (fun b => { b with left := b.left + 1 }) g.batches }
  else { g with batches := g.batches ++ [{ no := n, left := 1 }] }

/-- A collective takes the next sequence number of its slot when it is issued (R252). -/
def takeSeq (s : State) (k : EKind) : State :=
  match k with
  | .coll _ _ _ _ _ slot q => { s with collSeq := mput s.collSeq 0 slot q }
  | _ => s

/-- Register the locks and issue (R221, R232). -/
def issueEng (s : State) (act : Mask) (p : EPlan) : State :=
  let s := takeSeq s p.kind
  let id := s.nid
  let mk (dst : Bool) (r : Rng) : Lock := ⟨id, s.l.ctx, r.sp, r.holder, r.lo, r.hi, dst⟩
  let o : LOp := { id := id + 1, kind := .engine, act := act, left := 1 }
  let hit := conflicts s s.l.ctx id p.src p.dst
  let e : EngOp := { id := id, kind := p.kind, group := s.g.uid, gidx := s.g.idx, team := s.t.uid, teamIdx := s.t.idx, launch := s.l.uid,
                     ctx := s.l.ctx, core := s.t.core, lop := id + 1, hdr := (curF s).pc, entry := s.fi, act := act, batch := s.g.batchNo + 1,
                     total := p.total, todo := [(0, p.total)], esize := p.esize, bar := p.bar, vec := s.g.car, waited := hit }
  let s := startOp { s with nid := id + 2, locks := s.locks ++ p.src.map (mk false) ++ p.dst.map (mk true), eops := s.eops ++ [e] } o
  let s := { s with g := joinBatch s.g }
  let s := emit s 0x03 0 s.l.ctx (srcEng (dieOf s.t.core)) (e.batch % 2 ^ 16) (some (idG s p.total)) (some id)
  if hit then emit s 0x03 2 s.l.ctx (srcEng (dieOf s.t.core)) (e.batch % 2 ^ 16) (some (idG s 0)) (some id) else s

/-- What checking a descriptor comes to. -/
inductive Planned where
  | plan (s : State) (p : EPlan)
  | fault (c : FCause) (va : Nat)
  | wait (s : State)

/-- The shape of every engine word (R222, R268): the sibling, the release, the descriptor, room, the issue. -/
def engineWord (s : State) (w : LaneW) (plan : State → Planned) : State :=
  crossed s fun s =>
    match orderBefore s w.ord w.scp with
    | .hold s => s
    | .pass s =>
      if active s w = 0 then laneNext s
      else match plan s with
      | .fault c va => laneFault s c va
      | .wait s => s
      | .plan s p =>
        if Config.engineOps ≤ eopsOf s s.g.uid || !lockRoom s s.l.ctx (p.src ++ p.dst) then stall s 3 0
        else laneNext (issueEng (clearWin s (.group s.g.uid) (curF s).id) (active s w) p)

/-- Uniform register N + i of a descriptor. -/
def descr (s : State) (w : LaneW) (i : Nat) : Nat := (readU s.g (bits (x24n w) 5 0 + i)).toNat

/-- An access of n bytes named by space and address, before it is checked (R228: faults are found when it runs). -/
def rawAcc (sp : Space) (va n : Nat) : Acc := { sp := sp, va := va, loc := .mem 0, n := n }

/-- R269. -/
def planCpy (w : LaneW) (s : State) : Planned :=
  let x := descr s w 2
  let n := bits x 23 0
  match packedOf (descr s w 0), packedOf (descr s w 1), barOf s x with
  | some (sa, va), some (sb, vb), some bar =>
    if !lenOk n then .fault .engineDescriptor 0
    else if rngsMeet (rangesOf s sa va n) (rangesOf s sb vb n) then .fault .rangeOverlap va
    else .plan s { kind := .cpy (rawAcc sa va n) (rawAcc sb vb n), total := n, bar := bar,
                   src := rangesOf s sa va n, dst := rangesOf s sb vb n }
  | _, _, _ => .fault .engineDescriptor 0

def execCpy (w : LaneW) (s : State) : Out := .next (engineWord s w (planCpy w))

/-! ### Layout records (R224 to R226, R270) -/

/-- Bits [hi:lo] of a record of eight words. -/
def lbits (l : List Nat) (hi lo : Nat) : Nat := bits ((l[lo / 64]?).getD 0) (hi - lo / 64 * 64) (lo % 64)
def lsint (l : List Nat) (hi lo : Nat) : Int := sint (lbits l hi lo) (hi + 1 - lo)

def lEsize (l : List Nat) : Nat := 2 ^ lbits l 385 384
/-- Box size and tensor extent in dimension d. -/
def lBox (l : List Nat) (d : Nat) : Nat := lbits l (231 + 8 * d) (224 + 8 * d) + 1
def lExt (l : List Nat) (d : Nat) : Nat := lbits l (79 + 16 * d) (64 + 16 * d) + 1
def lOrg (l : List Nat) (d : Nat) : Int := lsint l (287 + 32 * d) (256 + 32 * d)
/-- Bytes between neighbours; dimension 0 is contiguous. -/
def lStep (l : List Nat) (d : Nat) : Nat := if d = 0 then lEsize l else lbits l (127 + 32 * d) (96 + 32 * d)
def lConv (l : List Nat) : Bool := lbits l 389 389 == 1
def lRep (l : List Nat) : Bool := lbits l 388 388 == 1
def lEdge (l : List Nat) : Nat := lbits l 387 386

/-- Reflection of R225. -/
def reflect (c : Int) (e : Nat) (rep : Bool) : Nat :=
  let p := if rep then 2 * e else 2 * e - 2
  if p = 0 then 0
  else
    let m := (c % (p : Int)).toNat
    if m < e then m else if rep then p - 1 - m else p - m

/-- Where one coordinate of a box position falls (R225): inside, folded, or zero filled; `over` past the last image. -/
inductive Coord where
  | at (c : Nat) (edge : Bool)
  | zero
  | ovf
  deriving DecidableEq, Repr

def coordRaw (l : List Nat) (d i : Nat) : Int :=
  if lConv l && d == 1 then lOrg l 1 + (lbits l 427 424 + 1) * i + lsint l 399 392 - lbits l 415 408
  else if lConv l && d == 2 then lOrg l 2 + (lbits l 431 428 + 1) * i + lsint l 407 400 - lbits l 423 416
  else lOrg l d + i

def coord (l : List Nat) (d i : Nat) : Coord :=
  let c := coordRaw l d i
  let e := lExt l d
  if lConv l && d == 3 then (if (e : Int) ≤ c then .ovf else .at c.toNat false)
  else if 0 ≤ c ∧ c < e then .at c.toNat false
  else if lEdge l = 1 then .zero
  else .at (reflect c e (lRep l)) true

/-- Box coordinate of dense element k in dimension d. -/
def boxIdx (l : List Nat) (k d : Nat) : Nat :=
  match d with
  | 0 => k % lBox l 0
  | 1 => k / lBox l 0 % lBox l 1
  | 2 => k / (lBox l 0 * lBox l 1) % lBox l 2
  | _ => k / (lBox l 0 * lBox l 1 * lBox l 2)

/-- Element k of the box (R225): the byte offset of its tensor element from the base, none for zero bits; status. -/
def boxElem (l : List Nat) (k : Nat) : Option Nat × Nat :=
  match coord l 3 (boxIdx l k 3) with
  | .ovf => (none, 1)
  | c3 =>
    let cs := [coord l 0 (boxIdx l k 0), coord l 1 (boxIdx l k 1), coord l 2 (boxIdx l k 2), c3]
    let edge := cs.any (fun c => match c with | .at _ e => e | _ => true)
    if cs.any (fun c => c == .zero) then (none, 2)
    else (some (cs.zipIdx.foldl (fun (o : Nat) p => match p.1 with | .at c _ => o + c * lStep l p.2 | _ => o) 0), if edge then 2 else 0)

def boxCount (l : List Nat) : Nat := lBox l 0 * lBox l 1 * lBox l 2 * lBox l 3

/-- Offsets from the base that dimension d reads; none of them means that nothing is read. -/
def dimOffs (l : List Nat) (d : Nat) : List Nat :=
  (iota 0 (lBox l d)).filterMap (fun i => match coord l d i with | .at c _ => some (c * lStep l d) | _ => none)

/-- The bounding range of the elements read, as offsets from the base (R232). -/
def boxRange (l : List Nat) : Option (Nat × Nat) :=
  let ds := (iota 0 4).map (dimOffs l)
  if ds.any (·.isEmpty) then none
  else
    let lo := ds.foldl (fun (n : Nat) x => n + x.foldl min (x.headD 0)) 0
    let hi := ds.foldl (fun (n : Nat) x => n + x.foldl max 0) 0
    some (lo, hi + lEsize l)

/-- R226. -/
def layoutOk (l : List Nat) (base dst : Nat) : Bool :=
  let e := lEsize l
  lbits l 511 448 == 0 && lbits l 447 432 == 0 && lbits l 391 390 == 0 && !(lEdge l == 1 && lRep l) && decide (lEdge l < 2) &&
  !(lConv l && decide (lOrg l 3 < 0)) && !decide ((2 : Int) ^ 31 ≤ lBox l 3 - 1 + lOrg l 3) &&
  decide (e * boxCount l ≤ 4194304) && decide (base % e = 0) && decide (dst % e = 0) && (iota 1 3).all (fun d => decide (lStep l d % e = 0))

/-- The 64 bytes of the layout record as a relaxed load of the fragment (R270). -/
def readRecord (s : State) (sp : Space) (va : Nat) : Planned ⊕ (State × List Nat) :=
  match checkAcc s s.g.uid s.t s.l.ctx 0 sp .load va 64 1 with
  | .bad c => .inl (.fault c va)
  | .away aw => .inl (.wait (stall (park s s.l.ctx aw) 3 0))
  | .ok a =>
    let words (d : List Byte) : List Nat := (iota 0 8).map (fun i => leNat ((d.drop (8 * i)).take 8))
    match fragLoad s a with
    | .wait s => .inl (.wait s)
    | .fault c => .inl (.fault c va)
    | .got s d => .inr (if sp = .g then roastNote s s.t.core s.l.ctx s.g.uid .load va else s, words d)

def planCpyt (w : LaneW) (s : State) : Planned :=
  let x := descr s w 2
  match packedOf (descr s w 0), packedOf (descr s w 1), barOf s x with
  | some (sr, vr), some (sb, vb), some bar =>
    if bits x 23 0 ≠ 0 then .fault .engineDescriptor 0
    else if vr % 64 ≠ 0 then .fault .layoutRecord vr
    else match readRecord s sr vr with
    | .inl p => p
    | .inr (s, l) =>
      match packedOf ((l[0]?).getD 0) with
      | none => .fault .layoutRecord vr
      | some (sa, va) =>
        if !layoutOk l va vb then .fault .layoutRecord vr
        else
          let n := lEsize l * boxCount l
          let src := match boxRange l with
            | some (lo, hi) => rangesOf s sa (va + lo) (hi - lo)
            | none => []
          let dst := rangesOf s sb vb n
          if rngsMeet src dst then .fault .rangeOverlap va
          else .plan s { kind := .cpyt l (rawAcc sb vb n), total := n, esize := lEsize l, bar := bar, src := src, dst := dst }
  | _, _, _ => .fault .engineDescriptor 0

def execCpyt (w : LaneW) (s : State) : Out := .next (engineWord s w (planCpyt w))

/-! ### Gather and scatter (R227, R271) -/

def planGs (w : LaneW) (scatter : Bool) (s : State) : Planned :=
  let sz := 2 ^ bits (x24n w) 16 15
  let sp := (spaceOfCode (bits (x24n w) 14 12)).getD .g
  let x := descr s w 1
  let ts := threads (active s w)
  let els := ts.map (fun t => (t, readV64 s.g w.a.idx.toNat t))
  match packedOf (descr s w 0), barOf s x with
  | some (sb, vb), some bar =>
    if bits x 23 0 ≠ 0 then .fault .engineDescriptor 0
    else match els.find? (fun p => p.2 % sz != 0), decide (vb % sz = 0) with
    | some p, _ => .fault .misaligned p.2
    | none, false => .fault .misaligned vb
    | none, true =>
      let a0 := ((els.map (·.2)).headD 0)
      let lo := (els.map (·.2)).foldl min a0
      let hi := (els.map (·.2)).foldl max a0 + sz
      let tl := ts.headD 0
      let th := ts.foldl max 0
      let per := rangesOf s sp lo (hi - lo)
      let con := rangesOf s sb (vb + sz * tl) (sz * (th + 1 - tl))
      if rngsMeet per con then .fault .rangeOverlap lo
      else if scatter then
        .plan s { kind := .scat els sp (rawAcc sb vb 0), total := sz * ts.length, esize := sz, bar := bar, src := con, dst := per }
      else .plan s { kind := .gath els sp (rawAcc sb vb 0), total := sz * ts.length, esize := sz, bar := bar, src := per, dst := con }
  | _, _ => .fault .engineDescriptor 0

def execGath (w : LaneW) (s : State) : Out := .next (engineWord s w (planGs w false))
def execScat (w : LaneW) (s : State) : Out := .next (engineWord s w (planGs w true))

/-! ### Collectives (R252, R253, R272) -/

/-- Does the slot hold a set for the context, and is the device a member? -/
def slotReady (s : State) (slot : Nat) : Bool :=
  sysBit s (0x0200 + 2 * slot) 63 && sysBits s (0x0201 + 2 * slot) 7 0 == s.l.ctx &&
  (mget s.sets [] slot).contains (sysBits s 0x0100 8 0)

def planColl (w : LaneW) (s : State) : Planned :=
  let x := descr s w 2
  let n := bits x 23 0
  let slot := bits (x24n w) 11 6
  match packedOf (descr s w 0), packedOf (descr s w 1), barOf s x with
  | some (sa, va), some (sb, vb), some bar =>
    if !slotReady s slot ∨ n % tySize w.ty ≠ 0 ∨ n < 8 ∨ 4194304 < n then .fault .engineDescriptor 0
    else if rngsMeet (rangesOf s sa va n) (rangesOf s sb vb n) then .fault .rangeOverlap va
    else
      let q := mget s.collSeq 0 slot + 1
      .plan s { kind := .coll (rawAcc sa va n) (rawAcc sb vb n) (cCode w) w.ty (rndOf s.l w.rnd) slot q, total := n,
                esize := tySize w.ty, bar := bar, src := rangesOf s sa va n, dst := rangesOf s sb vb n }
  | _, _, _ => .fault .engineDescriptor 0

def execColl (w : LaneW) (s : State) : Out := .next (engineWord s w (planColl w))

/-! ### Batches (R229 to R231, R273, R274) -/

/-- Batches complete in sequence order (R230): mark every one whose turn has come; newly complete ones are returned. -/
def settle (last : Nat) : Bool → List Batch → List Batch × List Batch
  | _, [] => ([], [])
  | prev, b :: r =>
    let now := b.done || (prev && b.left == 0 && decide (b.no ≤ last))
    let x := settle last now r
    ({ b with done := now } :: x.1, if now && !b.done then b :: x.2 else x.2)

/-- Settle the batches of a group and emit their records (R393). -/
def settleG (s : State) (uid : Nat) : State :=
  match getG s uid with
  | none => s
  | some g =>
    let r := settle g.batchNo true g.batches
    let t := teamOfG s g
    let c := (launchOfT s t).ctx
    let s := updG s uid (fun g => { g with batches := r.1 })
    r.2.foldl (fun s b => emit s 0x03 4 c (srcEng (dieOf t.core)) (b.no % 2 ^ 16)
      (some (idB (partOf g) g.idx 0 t.idx b.status)) none) s

/-- Closed batches that are not complete. -/
def openClosed (g : Group) : Nat := (g.batches.filter (fun b => decide (b.no ≤ g.batchNo) && !b.done)).length

def execBclose (w : LaneW) (s : State) : Out :=
  .next (withChans s w fun _ =>
    let act := active s w
    if act = 0 then laneNext (giveAll s w 0)
    else if 32 ≤ openClosed s.g then stall s 3 0
    else
      let n := s.g.batchNo + 1
      let bs := if s.g.batches.any (fun b => b.no == n) then s.g.batches else s.g.batches ++ [{ no := n }]
      laneNext (giveAll (settleG { s with g := { s.g with batchNo := n, batches := bs } } s.g.uid) w (n % 2 ^ 16)))

/-- The wait of `bwait` for batches up to `n` is over: vectors, statuses, acquire. -/
def bwaitDone (s : State) (w : LaneW) (n : Nat) : State :=
  let bs := s.g.batches.filter (fun b => decide (b.no ≤ n))
  let vec := bs.foldl (fun v b => v4max v b.vec) s.g.obs
  let st := (bs.filter (fun b => !b.returned)).foldl (fun x b => x ||| b.status) 0
  let act := active s w
  let s := popAll { s with g := { s.g with obs := vec } } w
  let s := if x24n w = 1 then
      let g := (threads act).foldl (fun g t => writeV g w.d.toNat t (BitVec.ofNat 32 st)) s.g
      replay { s with g := { g with batches := g.batches.map (fun b => if b.no ≤ n then { b with returned := true } else b) } }
        s.g.uid 2 .g 0 s.fi (perThread false ((threads act).map (fun t => (t, st))))
    else s
  doneWord s w.ord w.scp none

def execBwait (w : LaneW) (s : State) : Out :=
  .next (withChans s w fun _ =>
    match lowest (active s w) with
    | none => doneWord (popAll s w) w.ord w.scp none
    | some t =>
      let d := (s.g.batchNo + 2 ^ 16 - opndVal s .n32 w.a 0 t % 2 ^ 16) % 2 ^ 16
      if 2 ^ 15 ≤ d then laneFault s .batchNumber 0
      else
        let n := s.g.batchNo - d
        if s.g.batches.any (fun b => decide (b.no ≤ n) && !b.done) then stall s 4 0 else bwaitDone s w n)

end Sys2Proof.Machine
end

