-- ==== Sys2Proof/Machine/Place.lean ====
section
/-! DEFINITION. The life of a team on a core: starting its groups (R27, R294, R296), the slots of a core (R413, R414), the
end of a group (R34) and of its team (R294, R295, R306, R457). -/

namespace Sys2Proof.Machine

/-! ### Resources (R51, R52, R289, R303) -/

def resRegs (w : Nat) : Nat := (bits w 5 0 + 1) * 8
def resSlice (w : Nat) : Nat := bits w 11 6 * 64
def resScratch (w : Nat) : Nat := bits w 29 16 * 64

/-! ### Slots of a core (R413) -/

def inSlot (s : State) (core : Nat) (k : Slot) : Option Team := (allT s).find? (fun t => t.core == core && t.slot == k)
def running (s : State) (core : Nat) : Option Team := inSlot s core .running
def shadow (s : State) (core : Nat) : Option Team := inSlot s core .shadow

/-- A pre-emption-class record of a team (R393). -/
def emitSwitch (s : State) (code : Nat) (t : Team) : State :=
  emit s 0x08 code (launchOfT s t).ctx t.core (t.idx % 2 ^ 24) (some (idB 0 0 0 t.idx 0)) none

/-- The shadow team takes an empty running slot (R414). -/
def shadowTakes (s : State) (core : Nat) : State :=
  match running s core, shadow s core with
  | none, some t => emitSwitch (updT (emitSwitch s 2 t) t.uid (fun t => { t with slot := .running })) 3 t
  | _, _ => s

/-! ### Starting a team -/

/-- The groups of a team start (R27), each with one fragment of every thread, which has no clause until a task starts (log 9): `args` go to a1 to a8, `obs` is the vector they observe; with
`acq` they start with an acquire (R290, R305). -/
def startGroups (s : State) (t : Team) (pc : Word) (args : List Word) (obs : V4) (acq : Option Nat) : Nat → State
  | 0 => s
  | n + 1 =>
    let s := startGroups s t pc args obs acq n
    let a := args.zipIdx.foldl (fun m p => mput m 0 (p.2 + 1) p.1) []
    let g : Group := { uid := s.nid, team := t.uid, idx := n, pc := pc, a := a, obs := obs, born := s.nid, lastAt := s.cyc,
                       frs := idleTable (s.nid + 1) 0, swait := match acq with | some b => .acq b | none => .go }
    let s := { s with groups := s.groups ++ [g], nid := s.nid + 2 }
    let s := emit s 0x01 7 (launchOfT s t).ctx t.core 0 (some (idB (n % 4) n 0 t.idx 0)) (some g.uid)
    replayInterval s g.uid

/-- A team takes the running slot of its core and its groups start. -/
def startTeam (s : State) (t : Team) (pc : Word) (args : List Word) (obs : V4) (acq : Option Nat) : State :=
  let t := { t with uid := s.nid }
  let s := if acq.isSome then dropL1 s t.core else s
  startGroups { s with teams := s.teams ++ [t], nid := s.nid + 1, scrLeft := s.scrLeft.filter (fun x => x.core != t.core) } t pc args obs acq t.ngrp

/-! ### The end of a team -/

/-- The signed deficit of a queue (R294): it saturates at −2^47. -/
def setDef (s : State) (q : Nat) (d : Int) : State := sysSetBits s (rQ q 5) 47 0 (ofInt (max d (-(2 ^ 47))) 48)
def getDef (s : State) (q : Nat) : Int := sint (sysGet s (rQ q 5)) 48

/-- Core-cycles a team is charged (R295): nanoseconds times MHz over 1000. -/
def cyclesOf (t : Team) : Nat := t.charge / 1000

/-- A posted steal request is answered and the mailbox is empty (R306): code, value, the victim's C, the thief's acquire. -/
def mailAnswer (s : State) (uid code : Nat) (val : Word) (vec : V4) (acq : Option Scope) : State :=
  match getT s uid with
  | none => s
  | some t =>
    match t.mail with
    | none => s
    | some m =>
      let s := updT s uid (fun t => { t with mail := none })
      match getG s m.thief with
      | none => s
      | some g =>
        let fid := match getOp g m.req with
          | some o => o.fid
          | none => 0
        answer (xfer s t.core (teamOfG s g).core 16)
          { group := m.thief, lop := m.req, fid := fid, block := true, code := code, val := val, vec := vec, acq := acq }

/-- Code 2 empty. -/
def mailEmpty (s : State) (uid : Nat) : State := mailAnswer s uid 2 0 {} none

/-- Teams of a cluster. -/
def clusterOf (s : State) (t : Team) : List Team :=
  if t.clusterN ≤ 1 then [t]
  else (allT s).filter (fun x => x.launch == t.launch && x.cluster == t.cluster && x.node == t.node && x.clusterN == t.clusterN)

/-- The records of a cluster go once every team of it has retired (R457) and no engine operation of it runs (R231); the bytes of its regions stay
in their cores (R455). -/
def dropCluster (s : State) (t : Team) : State :=
  let c := clusterOf s t
  if c.all (fun x => x.uid == t.uid || x.slot == .retired) && !s.eops.any (fun e => c.any (fun x => x.uid == e.team)) then
    c.foldl (fun s x => delT { s with scrLeft := s.scrLeft ++ [⟨x.core, x.launch, x.idx, x.scr, x.pzS⟩] } x.uid) s
  else updT s t.uid (fun t => { t with slot := .retired })

/-- A team leaves its core. -/
def retireTeam (s : State) (t : Team) : State :=
  let q := (launchOfT s t).queue
  let s := mailEmpty s t.uid
  let s := setDef s q (getDef s q - cyclesOf t)
  shadowTakes (dropCluster s t) t.core

/-- A team leaves its core once its last group has retired and its matrix queue is empty: entries that no flag names may outlive
their group (R34, R36; log 35). -/
def teamEnd (s : State) (uid : Nat) : State :=
  match getT s uid with
  | none => s
  | some t => if (groupsOfT s uid).isEmpty && t.mq.isEmpty && !(t.slot == .retired) then retireTeam s t else s

/-- The end of a group (R34, R145, R318), a release for the phase and for the launch (R145, R292): its channels, flags and registers are gone. -/
def retireGroup (s : State) (g : Group) : State :=
  let t := teamOfG s g
  let l := launchOfT s t
  let s := emit s 0x01 8 l.ctx t.core 0 (some (idB (partOf g) g.idx 0 t.idx 0)) none
  let s := makersFail s g.uid 1
  let s := updL s l.uid (fun l => { l with
    retired := if t.node.isNone then l.retired + 1 else l.retired
    ended := l.ended.filter (· != g.uid)
    cvec := v4max l.cvec g.obs
    obsv := v4max l.obsv g.obs
    hostSt := l.hostSt || g.hostSt })
  teamEnd (delG s g.uid) t.uid

end Sys2Proof.Machine
end

