-- ==== Sys2Proof/Machine/EngineMoves.lean ====
section
/-! DEFINITION. What an issued engine operation does (R221, R225, R227, R228, R230, R233, R237, R253, R254), and the
transfers of neighbour and stream channels (R240, R241). A move that is not enabled changes nothing. -/

namespace Sys2Proof.Machine

/-! ### Operations -/

def getE (s : State) (id : Nat) : Option EngOp := s.eops.find? (fun e => e.id == id)
def updE (s : State) (id : Nat) (f : EngOp → EngOp) : State := { s with eops := mapFirst (fun e => e.id == id) f s.eops }

/-- May an operation make a move: its context runs, its team is not out, no record holds it back (R411, R415,
R399)? -/
def engRuns (s : State) (e : EngOp) : Bool := !e.stopped && !e.suspended && !heldBack s e.id

/-- The operation has waited for every earlier one in its way and may make its first access (R233). -/
def startEng (s : State) (e : EngOp) : State :=
  let of (dst : Bool) := (s.locks.filter (fun k => k.op == e.id && k.dst == dst)).map lockRng
  if e.started || !engRuns s e || conflicts s e.ctx e.id (of false) (of true) then s
  else
    let s := updE s e.id (fun e => { e with started := true })
    if e.waited then
      emit s 0x03 3 e.ctx (srcEng (dieOf e.core)) (e.batch % 2 ^ 16) (some (idB (e.gidx % 4) e.gidx e.entry e.teamIdx 0)) (some e.id)
    else s

def execEngineOpStart (e : Nat) (s : State) : Out :=
  .next (match getE s e with
    | some x => startEng s x
    | none => s)

/-- The source place of byte j, none for a byte of a zero-filled element; and what it adds to the status (R224 to R227). -/
def engSrc (e : EngOp) (j : Nat) : Option (Space × Nat) × Nat :=
  match e.kind with
  | .cpy a _ | .coll a _ _ _ _ _ _ => (some (a.sp, a.va + j), 0)
  | .cpyt l _ =>
    let base := (packedOf ((l[0]?).getD 0)).getD (.g, 0)
    let x := boxElem l (j / e.esize)
    (x.1.map (fun o => (base.1, (base.2 + o + j % e.esize) % 2 ^ 64)), x.2)
  | .gath els sp _ => (some (sp, (((els[j / e.esize]?).map (·.2)).getD 0) + j % e.esize), 0)
  | .scat els _ b => (some (b.sp, b.va + e.esize * (((els[j / e.esize]?).map (·.1)).getD 0) + j % e.esize), 0)

/-- The destination place of byte j. -/
def engDst (e : EngOp) (j : Nat) : Space × Nat :=
  match e.kind with
  | .cpy _ b | .coll _ b _ _ _ _ _ => (b.sp, b.va + j)
  | .cpyt _ b => (b.sp, b.va + j)
  | .gath els _ b => (b.sp, b.va + e.esize * (((els[j / e.esize]?).map (·.1)).getD 0) + j % e.esize)
  | .scat els sp _ => (sp, (((els[j / e.esize]?).map (·.2)).getD 0) + j % e.esize)

/-- Do the elements of an operation stand apart: at the source, at the destination? -/
def srcApart (e : EngOp) : Bool :=
  match e.kind with
  | .gath .. | .scat .. | .cpyt .. => true
  | _ => false
def dstApart (e : EngOp) : Bool :=
  match e.kind with
  | .gath .. | .scat .. => true
  | _ => false

/-- Half-open runs without [a, a + n). -/
def dropRun (l : List (Nat × Nat)) (a n : Nat) : List (Nat × Nat) :=
  l.flatMap (fun p => [(p.1, min p.2 a), (max p.1 (a + n), p.2)].filter (fun q => decide (q.1 < q.2)))
def inRuns (l : List (Nat × Nat)) (j : Nat) : Bool := l.any (fun p => decide (p.1 ≤ j ∧ j < p.2))

/-- The bytes that one read brings with byte j (R221): its first byte and their number. They lie together at the source, in one
element and in one aligned 4-byte unit. -/
def engPiece (e : EngOp) (j : Nat) : Nat × Nat :=
  let fromRun := if srcApart e then j % e.esize else j
  let endRun := if srcApart e then min e.total (j - fromRun + e.esize) else e.total
  let va : Nat := match (engSrc e j).1 with
    | some p => p.2
    | none => j
  let a := j - min fromRun (va % 4)
  (a, min (endRun - a) (4 - (va - (j - a)) % 4))

/-- The bytes that go to the aligned 4-byte unit of the destination which byte j goes to (R221), ascending. -/
def engUnit (e : EngOp) (j : Nat) : List Nat :=
  let u := (engDst e j).2 / 4
  if dstApart e then (iota 0 e.total).filter (fun i => (engDst e i).2 / 4 == u)
  else
    let a := j - min j ((engDst e j).2 % 4)
    iota a (min (e.total - a) (4 - (engDst e a).2 % 4))

/-- Have the bytes of a unit all been read? A byte asked of a window has not. -/
def unitRead (s : State) (e : EngOp) (js : List Nat) : Bool :=
  js.all (fun j => !inRuns e.todo j && !s.wins.any (fun w => w.owner == .engine e.id && w.kind == .load && decide (w.t ≤ j ∧ j < w.t + w.n)))

/-- Outcome of a read. -/
inductive EngRd where
  | wait (s : State)
  | fault (c : FCause) (va : Nat)
  /-- the bytes lie in a window at a physical address -/
  | window (pa : Nat)
  | got (s : State) (data : List Byte) (vec : V4) (poison : Bool)

/-- One read: from the die view of the issuing core's die, or the scratchpad (R221); poison travels (R433). -/
def engLoad (s : State) (e : EngOp) (t : Team) (at' : Option (Space × Nat)) (n : Nat) : EngRd :=
  match at' with
  | none => .got s (List.replicate n 0) {} false
  | some (sp, va) =>
    match checkAcc s e.group t e.ctx 0 sp .load va n 1 with
    | .bad c => .fault c va
    | .away aw => .wait (park s e.ctx aw)
    | .ok a =>
      match a.loc with
      | .mem pa =>
        if isWindow s pa then .window pa
        else
          let die := dieOf e.core
          if isScat s die pa then .wait (want s (lineOf pa))
          else .got (l2Reads s die (some e.ctx) pa n) (rdBytes s die pa a.key n) (stampsVec (homeDie s pa) (rdStamps s die pa n)) ((iota pa n).any (pzByte s die))
      | l => .got s (rdScratch s l n) {} (pzScratch s l n)

/-- A read of a window leaves for the remote home (R24, R243). -/
def engSend (s : State) (e : EngOp) (j pa n : Nat) : State :=
  openWin (updE s e.id (fun e => { e with todo := dropRun e.todo j n })) (srcEng (dieOf e.core)) 0
    { id := 0, kind := .load, peer := false, ctx := e.ctx, owner := .engine e.id, pa := pa, n := n, t := j }

/-- A fault of an operation, reported in the clause that issued it (R228); its group may have retired (R231). -/
def engFault (s : State) (e : EngOp) (c : FCause) (va kind : Nat) : State :=
  siteFault s (e.gidx % 4, e.gidx, e.teamIdx) 2 e.team e.entry e.hdr.toNat c va e.ctx e.core kind

/-- The bytes of a store at places `va + b` for b below 4, from the last byte of the operation that goes there (R227), with its first
place. -/
def unitBytes (e : EngOp) (js : List Nat) (f : Nat → Byte) : Nat × List (Option Byte) :=
  let u := 4 * ((engDst e (js.headD 0)).2 / 4)
  let all := (iota 0 4).map (fun b => (js.reverse.find? (fun j => (engDst e j).2 == u + b)).map f)
  let lead := (all.takeWhile (·.isNone)).length
  (u + lead, ((all.drop lead).reverse.dropWhile (·.isNone)).reverse)

/-- Mask of the bytes that a store writes, 0 where it writes all (R221). -/
def byteMask (d : List (Option Byte)) : Nat :=
  if d.all (·.isSome) then 0 else (d.zipIdx.filter (fun p => p.1.isSome)).foldl (fun m p => m + 2 ^ p.2) 0

/-- A unit whose bytes are all there enters the operation's store path as one store (R221), or waits at an away page. -/
def engStore (s : State) (e : EngOp) (js : List Nat) (f : Nat → Byte) (done : EngOp → EngOp) : State :=
  let t := (getT s e.team).getD {}
  let u := unitBytes e js f
  let sp := (engDst e (js.headD 0)).1
  match checkAcc s e.group t e.ctx 0 sp .store u.1 u.2.length 1 with
  | .bad c => engFault s e c u.1 (akindNo .store)
  | .away aw => park s e.ctx aw
  | .ok a =>
    enter (updE s e.id done)
      { id := 0, owner := .engine e.id, op := .store, acc := a, x := leNat (u.2.map (·.getD 0)), vec := e.vec, core := e.core, ctx := e.ctx,
        poison := js.any (fun j => e.pzs.contains j), be := byteMask u.2, credit := js.length, hdr := e.hdr, entry := e.entry,
        launch := e.launch, tidx := e.teamIdx, gidx := e.gidx }

/-- The unit of byte j that has been read whole is stored. -/
def engPut (s : State) (e : EngOp) (j : Nat) : State :=
  let js := engUnit e j
  engStore s e js (mget e.bytes 0) (fun e => { e with whole := e.whole.filter (fun x => !js.contains x), pzs := e.pzs.filter (fun x => !js.contains x),
                                                      bytes := js.foldl (fun m x => mput m 0 x 0) e.bytes })

/-- Bytes j, j + 1, … have been read: they are kept, with what they add to vector and status. -/
def engTake (e : EngOp) (j : Nat) (d : List Byte) (vec : V4) (pz : Bool) : EngOp :=
  { e with
    todo := dropRun e.todo j d.length
    bytes := mputs e.bytes 0 j d
    pzs := if pz then iota j d.length ++ e.pzs else e.pzs
    rd := e.rd + d.length
    vec := v4max e.vec vec
    status := (iota j d.length).foldl (fun n i => n ||| (engSrc e i).2) e.status }

/-- A collective keeps its contribution until it is combined. -/
def isColl (e : EngOp) : Bool :=
  match e.kind with
  | .coll .. => true
  | _ => false

/-- Store the units that the bytes j to j + n − 1 have made whole. -/
def engUnits (s : State) (e : EngOp) (j n : Nat) : State :=
  if isColl e then s
  else
    let firsts := ((iota j n).map (fun i => (engUnit e i).headD 0)).eraseDups
    firsts.foldl (fun s a => match s.eops.find? (fun x => x.id == e.id) with
      | some e => if unitRead s e (engUnit e a) then
          let e := { e with whole := e.whole ++ [a] }
          engPut (updE s e.id (fun _ => e)) e a
        else s
      | none => s) s

/-- Bytes of a read come to an operation. -/
def engGot (s : State) (e : EngOp) (j : Nat) (d : List Byte) (vec : V4) (pz : Bool) : State :=
  let e := engTake e j d vec pz
  engUnits (updE s e.id (fun _ => e)) e j d.length

/-- The unit of byte j of a combined collective's result is stored. -/
def engResult (s : State) (e : EngOp) (j : Nat) (r : List Byte) : State :=
  let js := engUnit e j
  engStore s e js (fun i => (r[i]?).getD 0) (fun e => { e with todo := dropRun e.todo (js.headD 0) js.length, rd := e.rd + js.length })

/-- A move of an operation at byte j (R221): its unit waits to be stored; or it is read, at any point and in any order, and the units
so made whole are stored. -/
def engRead (s : State) (e : EngOp) (j : Nat) : State :=
  if !e.started || !engRuns s e then s
  else match e.result with
  | some r => if inRuns e.todo j then engResult s e j r else s
  | none =>
    if e.whole.contains ((engUnit e j).headD 0) then engPut s e ((engUnit e j).headD 0)
    else if !inRuns e.todo j then s
    else
      let p := engPiece e j
      match engLoad s e ((getT s e.team).getD {}) (engSrc e p.1).1 p.2 with
      | .wait s => s
      | .fault c va => engFault s e c va (akindNo .load)
      | .window pa => engSend s e p.1 pa p.2
      | .got s d v pz => engGot s e p.1 d v pz

def execEngineRead (r : EngPoint) (s : State) : Out :=
  .next (match getE s r.e with
    | some x => engRead s x r.j
    | none => s)

/-- A delivery of n acknowledged bytes to the barrier word (R237). -/
def engDeliver (s : State) (e : EngOp) (n : Nat) : State :=
  match e.bar with
  | none => s
  | some a =>
    if n = 0 ∨ !engRuns s e ∨ e.ackd < e.delivered + n then s
    else match barMove s a false 0 n e.vec { team := e.teamIdx, core := e.core, ctx := e.ctx, engine := true } with
    | .bad c => engFault s e c a.va 0
    | .ok _ s => updE s e.id (fun e => { e with delivered := e.delivered + n })

def execEngineDelivery (e n : Nat) (s : State) : Out :=
  .next (match getE s e with
    | some x => engDeliver s x n
    | none => s)

/-- Has an operation done all of R230? -/
def engDone (e : EngOp) : Bool := engMoved e && (e.bar.isNone || e.delivered == e.total)

/-- The operation completes: locks, batch, flags, records (R230, R234, R393). -/
def engComplete (s : State) (e : EngOp) : State :=
  if !engDone e || !engRuns s e then s
  else
    let src := srcEng (dieOf e.core)
    let s := collSettle { s with eops := s.eops.filter (fun x => x.id != e.id), locks := s.locks.filter (fun k => k.op != e.id) }
    let s := updG s e.group (fun g => opLess { g with
      batches := mapFirst (fun b => b.no == e.batch)
        (fun b => { b with left := b.left - 1, vec := v4max b.vec e.vec, status := b.status ||| e.status }) g.batches } e.lop)
    let s := emit s 0x03 1 e.ctx src (e.batch % 2 ^ 16)
      (some (idB (e.gidx % 4) e.gidx e.entry e.teamIdx (e.total + 2 ^ 32 * e.status))) none
    let s := countDie (countCore s e.core 0x0D (some e.ctx) e.total) (dieOf e.core) 0x0D (some e.ctx) e.total
    let s := settleG s e.group
    match getT s e.team with
    | some t => if t.slot = .retired then dropCluster s t else s
    | none => s

def execEngineOpComplete (e : Nat) (s : State) : Out :=
  .next (match getE s e with
    | some x => engComplete s x
    | none => s)

/-! ### Collectives (R253, R254, R272) -/

/-- Element i of a contribution of bytes. -/
def collElem (esize : Nat) (d : List Byte) (i : Nat) : Nat := leNat ((d.drop (esize * i)).take esize)

/-- Element i of the result with the causes that its combines raise: the contributions of the members in ascending order, at
positions from 0, over 512 (R135, R253). -/
def collCombine (s : State) (e : EngOp) (code : Nat) (ty : LType) (rnd : Rnd) (all : List (List Nat)) (i : Nat) : Nat × List Cause :=
  let l := (getL s e.launch).getD {}
  let cs := all.map (fun c => (some (c.getD i 0), ([] : List Cause)))
  let r := rdcTree (atomNew (fpctl l) code ty rnd) 9 (cs ++ List.replicate (512 - cs.length) (none, []))
  (r.1.getD 0, r.2)

/-- The records of a combine (R131, R138). R139 and R458 name no site for an engine; the model gives them site 1, a place away from the clause,
with the fields of the clause that issued the collective, and enters them when the combine is made (log 13). -/
def logColl (s : State) (e : EngOp) (ty : LType) (cs : List Cause) : State :=
  let l := (getL s e.launch).getD {}
  (allCauses.filter (fun c => cs.contains c)).foldl (fun s c => logA s l
    { time := dieNow s (dieOf e.core), pc := (e.hdr.toNat + 2 ^ 64 - lcBase l) % 2 ^ 64, team := e.teamIdx, mask := e.act, site := 1, core := e.core, group := e.gidx,
      frag := e.entry, mx := false, count := 1, ty := tyCode ty, cause := causeCode c }) s

/-- Every member's contribution has been read: the others' are `peers`, by domain index (R254). Contributions that do not
fit the local operation end it in remote error (R272). -/
def collJoin (s : State) (e : EngOp) (peers : List (Nat × List Word)) : State :=
  match e.kind with
  | .coll _ _ code ty rnd slot _ =>
    if !e.started || !engRuns s e || e.result.isSome || decide (e.rd < e.total) then s
    else
      let me := sysBits s 0x0100 8 0
      let n := e.total / e.esize
      let members := mget s.sets [] slot
      let given (m : Nat) : Option (List Nat) :=
        if m = me then some ((iota 0 n).map (collElem e.esize (mgets e.bytes 0 0 e.total)))
        else match peers.find? (fun p => p.1 == m) with
        | some p => if p.2.length = n then some (p.2.map (fun x => x.toNat % 256 ^ e.esize)) else none
        | none => none
      let all := members.map given
      if all.any (·.isNone) || peers.any (fun p => !members.contains p.1 || p.1 == me) then engFault s e .remoteError 0 0
      else
        let r := (iota 0 n).map (collCombine s e code ty rnd (all.map (·.getD [])))
        updE (logColl s e ty (r.flatMap (·.2))) e.id (fun e => { e with result := some (r.flatMap (fun p => leBytes e.esize p.1)), todo := [(0, e.total)], bytes := [] })
  | _ => s

def execCollectiveCombine (e : Nat) (peers : List (Nat × List Word)) (s : State) : Out :=
  .next (match getE s e with
    | some x => collJoin s x peers
    | none => s)

/-! ### Channels (R240, R241) -/

/-- The group and binding that a neighbour-out binding of group g is joined to. R240 does not speak of two bindings of different widths: here they
are not joined (log 41). -/
def joined (s : State) (g : Group) (b : Bind) : Option (Group × Bind) :=
  let t := teamOfG s g
  match teamOfRank s t b.rank with
  | none => none
  | some u =>
    match (groupsOfT s u.uid).find? (fun x => x.idx == b.grp) with
    | none => none
    | some x =>
      match bindOf x b.peer with
      | some i => if i.kind == 1 && i.rank == t.rank && i.grp == g.idx && i.peer == b.chan && i.vec == b.vec then some (x, i) else none
      | none => none

/-- Channels of a group move while its context runs and its team is not out (R241, R411). -/
def chanRuns (s : State) (g : Group) : Bool :=
  ctxState s (ctxOfG s g) == 1 && !((teamOfG s g).slot == .out)

def getBind (g : Group) (c kind : Nat) : Option Bind := g.bind.find? (fun b => b.chan == c && b.kind == kind)

def execNeighbourEntryTransfer (g c : Nat) (s : State) : Out :=
  .next (match getG s g with
    | none => s
    | some x =>
      match getBind x c 0 with
      | none => s
      | some b =>
        match joined s x b with
        | none => s
        | some (y, i) =>
          if !chanRuns s x || !chanRuns s y || chanLen x c == 0 || decide (chanDepth y i.chan ≤ chanLen y i.chan) then s
          else
            let vec := (vecQ x c).headD []
            let w := (wordQ x c).headD 0
            let s := updG s x.uid (fun x => popChan x c)
            updG s y.uid (fun y => if b.vec then pushVec y i.chan vec else pushWord y i.chan w))

/-- Bytes of one entry. -/
def entryBytes (b : Bind) : Nat := if b.vec then 256 else 8

/-- A fault of a stream access. -/
def streamFault (s : State) (g : Group) (c : FCause) (va : Nat) : State :=
  workFault s 2 g.uid 0 g.pc.toNat c va (ctxOfG s g) (teamOfG s g).core

/-- The channel's next entry gains bytes; a whole one joins the queue. -/
def streamTake (g : Group) (c : Nat) (d : List Byte) : Group :=
  match getBind g c 2 with
  | none => g
  | some b =>
    let buf := b.buf ++ d
    let set (f : Bind → Bind) : Group := { g with bind := g.bind.map (fun x => if x.chan = c then f x else x) }
    if buf.length < entryBytes b then set (fun b => { b with buf := buf })
    else
      let g := set (fun b => { b with buf := [], pos := b.pos + 1 })
      if b.vec then pushVec g c ((iota 0 64).map (fun t => BitVec.ofNat 32 (leNat ((buf.drop (4 * t)).take 4))))
      else pushWord g c (BitVec.ofNat 64 (leNat buf))

/-- One 8-byte read of a stream-in channel: a relaxed engine read (R240, R221). -/
def streamRead (s : State) (g : Group) (b : Bind) : State :=
  let t := teamOfG s g
  let c := ctxOfG s g
  let va := b.addr + entryBytes b * b.pos + b.buf.length
  let asked := s.wins.any (fun w => w.owner == .stream g.uid && w.kind == .load && w.t == b.chan)
  if !chanRuns s g || asked || decide (chanDepth g b.chan ≤ chanLen g b.chan) then s
  else match checkAcc s g.uid t c 0 b.sp .load (packedVa b.sp va) 8 8 with
  | .bad f => streamFault s g f va
  | .away aw => park s c aw
  | .ok a =>
    match a.loc with
    | .mem pa =>
      if isWindow s pa then
        openWin s (srcEng (dieOf t.core)) 0
          { id := 0, kind := .load, peer := false, ctx := c, owner := .stream g.uid, pa := pa, n := 8, t := b.chan, va := va }
      else
        let die := dieOf t.core
        if isScat s die pa then want s (lineOf pa)
        else if (iota 0 8).any (fun i => pzByte s die (pa + i)) then streamFault s g .poison va
        else updG (l2Reads s die (some c) pa 8) g.uid (fun g => streamTake g b.chan (rdBytes s die pa a.key 8))
    | l => if pzScratch s l 8 then streamFault s g .poison va else updG s g.uid (fun g => streamTake g b.chan (rdScratch s l 8))

def execStreamInFill (g c : Nat) (s : State) : Out :=
  .next (match getG s g with
    | none => s
    | some x =>
      match getBind x c 2 with
      | some b => streamRead s x b
      | none => s)

/-- The 4-byte units of a pushed entry enter the store path of the stream; a unit that cannot be written leaves the entry
where it is, with the fault or the park from the state `s0` (R240). -/
def streamUnits (s0 s : State) (g : Group) (b : Bind) : Nat → List Nat → State × Bool
  | _, [] => (s, true)
  | va, x :: r =>
    let t := teamOfG s g
    let c := ctxOfG s g
    match checkAcc s g.uid t c 0 b.sp .store (packedVa b.sp va) 4 4 with
    | .bad f => (streamFault s0 g f va, false)
    | .away aw => (park s0 c aw, false)
    | .ok a =>
      streamUnits s0 (enter s { id := 0, owner := .stream g.uid, op := .store, acc := a, x := x, vec := g.car, core := t.core, ctx := c,
                                t := b.chan, hdr := g.pc, launch := t.launch, tidx := t.idx, gidx := g.idx }) g b (va + 4) r

def streamWrite (s : State) (g : Group) (b : Bind) : State :=
  if !chanRuns s g || chanLen g b.chan == 0 then s
  else
    let word := ((wordQ g b.chan).headD 0).toNat
    let units := if b.vec then ((vecQ g b.chan).headD []).map (·.toNat) else [word % 2 ^ 32, word / 2 ^ 32]
    match streamUnits s s g b (b.addr + entryBytes b * b.pos) units with
    | (s, false) => s
    | (s, true) => updG s g.uid (fun g =>
      let g := popChan g b.chan
      { g with bind := g.bind.map (fun x => if x.chan = b.chan then { x with pos := x.pos + 1 } else x) })

def execStreamOutWrite (g c : Nat) (s : State) : Out :=
  .next (match getG s g with
    | none => s
    | some x =>
      match getBind x c 3 with
      | some b => streamWrite s x b
      | none => s)

end Sys2Proof.Machine
end

