-- ==== Sys2Proof/Machine/Issue.lean ====
section
/-! DEFINITION. What stands around an instruction: passing time (R295, R306, R307, R318, R388), who may issue (R298,
R399, R406, R411, R419), fetching and decoding the next word of a stream (R55, R72, R74, R96), what a word waits for
(R36, R37, R433), the counts that follow it (R300, R407, R420), and the choice of the next move (log 1). -/

namespace Sys2Proof.Machine

/-! ### Time -/

/-- Does the time of a group count for the Lap Clock (R307, R400)? -/
def clockRuns (s : State) (g : Group) : Bool :=
  let t := teamOfG s g
  t.slot == .running && !heldBack s g.uid && !isStopped s t.core (partOf g)

/-- Nanoseconds of device time that pass with `n` of the clock: slew and rate of R388, always forward. -/
def stepTime (s : State) (n : Nat) : Nat :=
  let off := sint (sysGet s 0x1312) 48
  let rate := sint (sysGet s 0x1313) 32
  let k := (s.now + n) / 1000 - s.now / 1000
  let slew : Int := if off < 0 then - Int.ofNat (min k off.natAbs) else Int.ofNat (min k off.natAbs)
  let drift : Int := (Int.ofNat (s.now + n) * rate) / 2 ^ 40 - (Int.ofNat s.now * rate) / 2 ^ 40
  if off = 0 ∧ rate = 0 then n else (max 1 (Int.ofNat n + slew + drift)).toNat

/-- What is left of `TBADJ.offset`. -/
def slewLeft (s : State) (n : Nat) : State :=
  let off := sint (sysGet s 0x1312) 48
  let k := (s.now + n) / 1000 - s.now / 1000
  if off = 0 ∨ k = 0 then s
  else
    let m := min k off.natAbs
    sysSetBits s 0x1312 47 0 (ofInt (if off < 0 then off + m else off - m) 48)

/-- Is a group held back by a record, or stopped, which R400 and R406 except alike? -/
def kept (s : State) (core : Nat) (g : Group) : Bool := heldBack s g.uid || isStopped s core (partOf g)

/-- The 64 µs of a posted steal request at team `v` run while the Lap Clock of the thief's group would (R306, R353), and while a group of
the victim is not held back, which could not answer (R400). -/
def bumpMail (s : State) (d v : Nat) (core : Nat) (m : StealReq) : StealReq :=
  match getG s m.thief with
  | some g => if clockRuns s g && !(groupsOfT s v).any (kept s core) then { m with ns := m.ns + d } else m
  | none => m

def bumpTeam (s : State) (d : Nat) (t : Team) : Team :=
  let t := { t with mail := t.mail.map (bumpMail s d t.uid t.core) }
  if t.slot = .running then
    let gs := groupsOfT s t.uid
    let all := !gs.isEmpty && gs.all (kept s t.core)
    { t with charge := if all then t.charge else t.charge + d * s.clock }
  else t

def bumpGroup (s : State) (d : Nat) (g : Group) : Group :=
  if isPers (launchOfG s g) && clockRuns s g then { g with lap := g.lap + d } else g

def bumpClaim (s : State) (d : Nat) (e : CEnt) : CEnt :=
  if e.making then
    match getG s e.maker with
    | some g => if clockRuns s g then { e with lease := e.lease + d } else e
    | none => e
  else e

/-- `n` nanoseconds pass, at least three, so that slew and rate together can take two (R388, log 1). -/
def passTime (s : State) (n : Nat) : State :=
  let n := max n 3
  let d := stepTime s n
  let s := countCycles s ((s.cyc + d * s.clock) / 1000 - s.cyc / 1000)
  let s1 := slewLeft s n
  { s1 with
    now := s.now + d
    cyc := s.cyc + d * s.clock
    g := if s.g.uid = 0 then s.g else bumpGroup s d s.g
    groups := s.groups.map (bumpGroup s d)
    t := if s.t.uid = 0 then s.t else bumpTeam s d s.t
    teams := s.teams.map (bumpTeam s d)
    claims := s.claims.map (bumpClaim s d) }

/-! ### Who may issue -/

/-- Is a group of a large team at a pre-emption point (R419)? A `safe` that has begun to wait is past the boundary before it, and the
group is at its point once it has executed (R418, R452). -/
def atPoint (g : Group) : Bool := g.safe.isSome || (laneIdle g && !g.inSafe) || allParked g

/-- May either stream of the group issue (R411, R406, R399, R419)? -/
def mayIssue (s : State) (g : Group) (t : Team) (c : Nat) : Bool :=
  ctxState s c == 1 && t.slot == .running && !isStopped s t.core (partOf g) && !heldBack s g.uid &&
  !(t.preempt && (t.small || atPoint g)) && !(s.service == .dead) && !(s.service == .mailbox)

/-- What issuing comes to: nothing but a new state, or an instruction to run at a state. -/
inductive Issue where
  | idle (s : State)
  | run (i : Instr) (s : State)

/-! ### The scalar stream -/

/-- Scalar registers a word reads. -/
def readsA : Instr → List Nat
  | .add _ a b | .sub _ a b | .and _ a b | .or _ a b | .xor _ a b | .shl _ a b | .shr _ a b | .sar _ a b | .mul _ a b
  | .mulhs _ a b | .mulhu _ a b | .divs _ a b | .divu _ a b | .rems _ a b | .remu _ a b | .min _ a b | .minu _ a b
  | .max _ a b | .maxu _ a b | .slt _ a b | .sltu _ a b | .seq _ a b | .movz _ a b | .movnz _ a b => [a.toNat, b.toNat]
  | .addi _ a _ | .andi _ a _ | .ori _ a _ | .xori _ a _ | .shli _ a _ | .shri _ a _ | .sari _ a _ | .slti _ a _
  | .sltui _ a _ | .lb _ a _ _ | .lbu _ a _ _ | .lh _ a _ _ | .lhu _ a _ _ | .lw _ a _ _ | .lwu _ a _ _ | .ld _ a _ _ => [a.toNat]
  | .sb d a _ _ | .sh d a _ _ | .sw d a _ _ | .sd d a _ _ => [d.toNat, a.toNat]
  | .beq a b _ | .bne a b _ | .blt a b _ | .bge a b _ | .bltu a b _ | .bgeu a b _ => [a.toNat, b.toNat]
  | .loop a _ | .jr a | .callr _ a | .issuex a | .push _ a | .cbind _ a | .mtg _ a | .mtsh _ a | .ctrRd _ a | .ctrClr a
  | .elogRd _ a | .elogPop a | .mtsr a _ => [a.toNat]
  | .trc a b | .ctrArm a b | .ctxSave _ a b | .ctxRest _ a b => [a.toNat, b.toNat]
  | _ => []

/-- Uniform registers a scalar word reads. -/
def readsUS : Instr → List Nat
  | .mfg _ n => [n.toNat]
  | _ => []

/-- Words that wait at a channel (R99, R100). -/
def usesChan : Instr → Bool
  | .push .. | .pop .. | .peek .. => true
  | _ => false

/-- Counter words, whose own issue is counted before they act: the events of their cycle come first (R445). -/
def countsItself : Instr → Bool
  | .ctrRd .. | .ctrArm .. | .ctrClr _ => true
  | _ => false

/-- The next word of the issuing group's scalar stream. R74 and R87 do not order illegal instruction and privileged for a word of opcode 0x38
or 0x39 in the program view that is also malformed: it is decoded first, and is an illegal instruction (log 41). -/
def scalarIssue (s : State) : Issue :=
  if !mayIssue s s.g s.t s.l.ctx || s.g.atEnd then .idle s
  else match s.g.swait with
  | .remote _ => .idle s
  | .acq b => .idle (if queuesDone s s.g s.t.core b true then { s with g := { s.g with swait := .go } } else s)
  | _ =>
    match fetch4 s false s.t.core s.l.ctx s.g.pc.toNat with
    | .bad _ _ | .away .. => .run .textFetchTranslationFault s
    | .word x =>
      let s := clearWin s (.group s.g.uid) 0
      match decodeScalar (BitVec.ofNat 32 x) with
      | .error _ => .run (.scalarIllegalInstruction (BitVec.ofNat 32 x)) s
      | .ok i =>
        if (readsA i).any (fun r => s.g.pzA.contains r) || (readsUS i).any (fun r => s.g.pzU.contains r) then
          .idle (scalarFault s .poison s.g.pc.toNat)
        else .run i (if countsItself i then countG s 0x02 1 else s)

/-- Words that end an iteration's standing as a spin (R300). -/
def breaksSpin : Instr → Bool
  | .sb .. | .sh .. | .sw .. | .sd .. | .push .. | .pop .. | .issue _ | .issuex _ | .mtg .. | .mtsh .. | .cbind .. | .cfree _
  | .call _ => true
  | _ => false

/-- Is the scalar stream lowered by the Pacer (R300)? -/
def lowered (g : Group) : Bool := g.pacer.any (·.low)

/-- The watched branches change; the stream is lowered by the first spin among them, with a counter event, and restored with the
last (R300). `br` is the branch that the record names. -/
def setPacer (s : State) (br : Word) (l : List Pacer) : State :=
  let was := lowered s.g
  let s := { s with g := { s.g with pacer := l } }
  if was == lowered s.g then s
  else if was then emitS s 0x01 6 (br.toNat % 2 ^ 24) 0
  else countG (emitS s 0x01 5 (br.toNat % 2 ^ 24) 0) 0x0B 1

/-- What the Pacer sees of word i at pc, after which the stream stands at `next` (R300): a watched branch that fell through, or
that the stream has left the words of, is watched no more; a store or its like spoils the iteration. -/
def pacerSees (i : Instr) (pc next : Word) (l : List Pacer) : List Pacer :=
  (l.filter (fun p => decide (p.tgt.toNat ≤ pc.toNat ∧ pc.toNat ≤ p.br.toNat) && !(p.br == pc && next != p.tgt))).map
    (fun p => if breaksSpin i then { p with clean := false } else p)

/-- Branches, which execute although the pc may stay. -/
def isJump : Instr → Bool
  | .beq .. | .bne .. | .blt .. | .bge .. | .bltu .. | .bgeu .. | .jmp _ | .loop .. | .jr _ | .callr .. | .call _ => true
  | _ => false

/-- `safe`, which makes a point that lasts until the next word issues (R418). -/
def isSafe : Instr → Bool
  | .safe .. => true
  | _ => false

/-- Destination of a scalar load (R92). -/
def loadDst : Instr → Nat
  | .lb d .. | .lbu d .. | .lh d .. | .lhu d .. | .lw d .. | .lwu d .. | .ld d .. => d.toNat
  | _ => 0

/-- Does a word of the scalar stream wait for an answer that it will write? -/
def loadWaits (g : Group) : Bool :=
  match g.swait with
  | .remote _ | .got _ => true
  | _ => false

/-- After a scalar word that stood at `pc`: counts (R407), the end of a `safe`'s point (R418), and what the Pacer saw of it (R300). -/
def afterScalar (i : Instr) (pc : Word) (s : State) : State :=
  if s.g.uid = 0 then s
  else if s.g.pc = pc ∧ !isJump i then { s with g := { s.g with sblk := usesChan i, inSafe := isSafe i, sdst := if loadWaits s.g then loadDst i else 0 } }
  else
    let s := { s with g := { s.g with sblk := false, inSafe := false, sdst := 0, safe := if isSafe i then s.g.safe else none,
                                      lastAt := s.cyc, seen := [] } }
    let s := if countsItself i then s else countG s 0x02 1
    if s.g.pacer.isEmpty then s else setPacer s pc (pacerSees i pc s.g.pc s.g.pacer)

/-! ### The lane stream -/

/-- Vector registers, as keys, that the source operands of a word read for the threads of a mask. -/
def readsV (i : Instr) (act : Mask) : List Nat :=
  match entryOf i with
  | none => []
  | some (w, e) =>
    let b := if w.imm && e.imm == .replacesB then [] else roleRegs e.b w.b
    let a := if w.imm && e.imm == .single then [] else roleRegs e.a w.a
    (a ++ b ++ roleRegs e.c w.c).flatMap (fun r => (threads act).map (fun t => r * 64 + t))

/-- Uniform registers that a lane word reads: keys, format blocks, descriptors, address registers. -/
def readsU : Instr → List Nat
  | .rng w => [bits (x24n w) 5 0]
  | .mxl w | .mxb w => iota (bits (x24n w) 5 0) 4
  | .mxs w => iota (bits (x24n w) 5 0) 6
  | .tld w | .tst w | .zld w | .zst w => [bits (x24n w) 5 0]
  | .cpy w | .cpyt w | .coll w => iota (bits (x24n w) 5 0) 3
  | .gath w | .scat w => iota (bits (x24n w) 5 0) 2
  | _ => []

def isPoisoned (s : State) (i : Instr) (act : Mask) : Bool :=
  (!s.g.pzV.isEmpty && (readsV i act).any (fun k => s.g.pzV.contains k)) ||
  (!s.g.pzU.isEmpty && !(act == 0) && (readsU i).any (fun r => s.g.pzU.contains r))

/-- Long-latency words (R36). -/
def isLong : Instr → Bool
  | .laneLd _ | .st _ | .atom _ | .red _ | .cas _ | .cpy _ | .cpyt _ | .gath _ | .scat _ | .coll _ | .mxl _ | .mxb _ | .mxs _
  | .tld _ | .tst _ | .tclr _ | .tmov _ | .zrd _ | .zclr _ | .zld _ | .zst _ | .frsq _ | .frcp _ | .xln _ | .fexp _
  | .barx _ | .bara _ | .claim _ | .claimw _ | .fulfil _ | .abandon _ | .deref _ | .unify _ | .bind _ | .bindg _ | .chpt .. | .fail _ => true
  | _ => false

/-- Words of the matrix unit, which do nothing with no active thread (R179). -/
def isMatrix : Instr → Bool
  | .mxl _ | .mxb _ | .mxs _ | .tld _ | .tst _ | .tclr _ | .tmov _ | .zrd _ | .zclr _ | .zld _ | .zst _ => true
  | _ => false

/-- Cross-lane words (R150), which a hit and miss pair executes once. -/
def isCross (i : Instr) : Bool :=
  isMatrix i || (match i with
    | .xmv _ | .rdc _ | .ballot _ | .qnt _ | .claim _ | .claimw _ | .fulfil _ | .abandon _ | .cpy _ | .cpyt _ | .gath _ | .scat _
    | .coll _ | .spawn _ | .steal _ | .yield _ | .beat _ => true
    | _ => false)

/-- Is a fragment one half of a hit and miss pair (R48)? -/
def isHalf (f : Frag) : Bool := (f.lin.head?).any (·.hm)

/-- The state that a wait for the sibling, or the fusion with it, leaves. -/
def joinHere (s : State) : State :=
  match joinSibling s with
  | .hold s => s
  | .pass s => s

/-- What word `i` of the started clause waits for before it executes (R36, R37, R150, R433); one that has begun goes on. A half of a hit
and miss pair joins its sibling before a cross-lane word is looked at, so that the fragment of both is what the rest asks of. A word
that is long but has no active thread starts no operation and needs no room in a flag. -/
def laneGate (s : State) (i : Instr) : Issue :=
  let act := activeIn s i
  if (midOp s).isSome then .run i s
  else if isCross i && isHalf (curF s) then .idle (joinHere s)
  else if isMatrix i && act == 0 then .run i s
  else match pendingFor s.g i with
  | some r => .idle (stall s 1 r)
  | none =>
    if isLong i && !(act == 0) && flagsFull s.g (curF s) then .idle (stall s 0 (fullFlags s.g (curF s)))
    else if isPoisoned s i act then .idle (laneFault s .poison 0)
    else .run i s

/-- The wait of a fragment that would go on while its group is held back begins (R393, R399). -/
def heldWait (s : State) (e : Nat) : State :=
  match fget s.g.frs e with
  | some f =>
    if heldBack s s.g.uid && s.t.slot == .running && ctxState s s.l.ctx == 1 && s.g.task.isSome && f.wait == .go && f.blk.isNone then
      { stall { s with fi := e } 5 0 with fi := s.fi }
    else s
  | none => s

/-- The next word of the fragment in entry `e` (inside a clause, the word that its check fetched: R72, R73) of the issuing group, or the start of a queued task. -/
def laneIssue (s : State) (e : Nat) : Issue :=
  if !mayIssue s s.g s.t s.l.ctx then .idle (heldWait s e)
  else if s.g.task.isNone then (if s.g.taskq.isEmpty then .idle s else .run (.laneTaskStart s.g.uid) s)
  else match fget s.g.frs e with
  | none => .idle s
  | some f =>
    let s := { s with fi := e }
    let ready : Bool := match f.wait with
      | .go | .fenced | .fenceX => true
      | _ => false
    if !ready then .idle (wakeFrag s)
    else if f.idx = 0 then
      match fetch12 s s.t.core s.l.ctx f.pc.toNat with
      | .bad c va => .idle (clauseFault s c va 0)
      | .away aw => .idle (stall (park s s.l.ctx aw) 3 0)
      | .word x =>
        match decodeLane (BitVec.ofNat 96 x) with
        | .ok (.clauseStart h) => .run (.clauseStart h) s
        | _ => .idle (badHeader s x)
    else match decodeLane (BitVec.ofNat 96 ((f.code[f.idx - 1]?).getD 0)) with
    | .error _ => .idle (clauseFault s .illegal f.pc.toNat f.idx)
    | .ok i => laneGate s i

/-- Has the fragment that stood at `f0` left its word? -/
def wordDone (f0 f : Option Frag) : Bool :=
  match f0, f with
  | some a, some b => !(a.pc == b.pc && a.idx == b.idx)
  | some _, none => true
  | none, _ => false

/-- After word i, which ran at s and came to s': its counts (R407, R420) once it has executed. -/
def afterLane (i : Instr) (s s' : State) : State :=
  let word : Bool := match i with
    | .clauseStart _ | .laneTaskStart _ => false
    | _ => true
  let s' := if wordDone (fget s.g.frs s.fi) (fget s'.g.frs s.fi) && word then ranWord (activeIn s i) s s' else s'
  if allParked s'.g || laneIdle s'.g then { s' with g := { s'.g with nInstr := 0, nClause := 0 } } else s'

end Sys2Proof.Machine
end

