-- ==== Sys2Proof/Machine/ScalarCtl.lean ====
section
/-! DEFINITION. Scalar control flow (R94 to R96) with the Pacer (R300), lane tasks (R97, R98), the end of a group (R34,
R110). -/

namespace Sys2Proof.Machine

/-- pc + 4 × the sign-extended offset. -/
def relPc (s : State) (off : Word) : Word := s.g.pc + 4 * off

/-- What the Pacer makes of a watched branch that is taken again (R300): after a clean iteration that left every scalar register as it
was, a spin; where a register has changed, a new start. -/
def pacerAgain (p : Pacer) (a : SMap Word) : Pacer :=
  if p.regs = a then { p with low := p.low || p.clean, clean := true } else { p with regs := a, clean := true, low := false }

/-- A taken branch at the pc, as the Pacer sees it (R300): every branch with a short way back is watched, each for itself. -/
def pacerTaken (s : State) (tgt : Word) : State :=
  let pc := s.g.pc
  if !(tgt.toNat ≤ pc.toNat && decide ((pc.toNat - tgt.toNat) / 4 + 1 ≤ 16)) then s
  else
    let here (p : Pacer) : Bool := p.br == pc && p.tgt == tgt
    setPacer s pc (match s.g.pacer.find? here with
      | some p => pacerAgain p s.g.a :: s.g.pacer.filter (fun p => !here p)
      | none => { br := pc, tgt := tgt, regs := s.g.a, clean := true } :: s.g.pacer)

/-- A conditional branch (R94). -/
def branch (s : State) (c : Bool) (off : BitVec 11) : State :=
  let tgt := relPc s (off.signExtend 64)
  if c then jump (pacerTaken s tgt) tgt else advance s

def execBeq (a b : Reg) (off : BitVec 11) (s : State) : Out := .next (branch s (srcA s a == srcA s b) off)
def execBne (a b : Reg) (off : BitVec 11) (s : State) : Out := .next (branch s (srcA s a != srcA s b) off)
def execBlt (a b : Reg) (off : BitVec 11) (s : State) : Out := .next (branch s ((srcA s a).slt (srcA s b)) off)
def execBge (a b : Reg) (off : BitVec 11) (s : State) : Out := .next (branch s (!(srcA s a).slt (srcA s b)) off)
def execBltu (a b : Reg) (off : BitVec 11) (s : State) : Out := .next (branch s ((srcA s a).ult (srcA s b)) off)
def execBgeu (a b : Reg) (off : BitVec 11) (s : State) : Out := .next (branch s (!(srcA s a).ult (srcA s b)) off)

/-- The counted loop (R95): never a spin. -/
def execLoop (a : Reg) (off : BitVec 11) (s : State) : Out :=
  let n := srcA s a
  let s' := if n = 0 then s else { s with g := writeA s.g a.toNat (n - 1) }
  .next (if a ≠ 0 ∧ 1 < n.toNat then jump s' (relPc s (off.signExtend 64)) else advance s')

def execJmp (off : BitVec 26) (s : State) : Out :=
  let tgt := relPc s (off.signExtend 64)
  .next (jump (pacerTaken s tgt) tgt)

/-- a63 := pc + 4, then the jump (R96). -/
def execCall (off : BitVec 26) (s : State) : Out :=
  .next (jump { s with g := writeA s.g 63 (s.g.pc + 4) } (relPc s (off.signExtend 64)))

/-- The handled trap of a scalar word at its own pc, with its word (R87, R410). -/
def trapHere (s : State) (cause : Nat) (i : Instr) : State := takeTrap s cause s.g.pc.toNat ((encodeScalar i).getD 0)

def execJr (a : Reg) (s : State) : Out :=
  let tgt := srcA s a
  .next (if tgt.toNat % 4 ≠ 0 then trapHere s 3 (.jr a) else jump s tgt)

def execCallr (d a : Reg) (s : State) : Out :=
  let tgt := srcA s a
  .next (if tgt.toNat % 4 ≠ 0 then trapHere s 3 (.callr d a) else jump { s with g := writeA s.g d.toNat (s.g.pc + 4) } tgt)

/-- Entries of the lane task queue (R33). -/
def taskDepth : Nat := 8

/-- Append a task, or wait for a free entry. -/
def enqueue (s : State) (a : Word) : State :=
  if taskDepth ≤ s.g.taskq.length then s else advance { s with g := { s.g with taskq := s.g.taskq ++ [a] } }

def execIssue (off : BitVec 20) (s : State) : Out := .next (enqueue s (laneAddr s.l off.toNat))

/-- The offset is read, and its alignment checked, when the word executes (R98). -/
def execIssuex (a : Reg) (s : State) : Out :=
  let x := srcA s a
  .next (if x.toNat % 4 ≠ 0 then trapHere s 3 (.issuex a) else enqueue s (BitVec.ofNat 64 (lcBase s.l) + x))

/-- `end` waits at its address; the retirement is a move of its own (R34, R110). -/
def execEndGroup (s : State) : Out := .next { s with g := { s.g with atEnd := true } }

/-- The three things of R34, in a team of a live context that is on its core, in either slot (R411, R413); no record holds the group back (R399), its
partition is not stopped (R406), and its site-0 records are in the log (R140). -/
def mayRetire (s : State) (g : Group) : Bool :=
  let t := teamOfG s g
  g.atEnd && laneIdle g && flagsClear g 0xFFF && ctxState s (ctxOfG s g) == 1 && (t.slot == .running || t.slot == .shadow) &&
  !(t.slot == .running && isStopped s t.core (partOf g)) && !heldBack s g.uid && !recordsDue s g

def execGroupRetire (g : Nat) (s : State) : Out :=
  .next (match getG s g with
    | none => s
    | some x => if mayRetire s x then retireGroup s x else s)

end Sys2Proof.Machine
end

