-- ==== Sys2Proof/Machine/ScalarChan.lean ====
section
/-! DEFINITION. Scalar use of channels and their bindings (R99 to R101, R239, R240), uniform registers, predicate masks
and tile shapes (R102, R103), the wait on completion flags (R109). A word that waits leaves the state as it is. -/

namespace Sys2Proof.Machine

/-! ### Channels -/

/-- What refuses a scalar use of channel `c` (R87): unbound, against its binding, or a vector-width binding (R239). -/
def chanTrap (g : Group) (c : Nat) (inward : Bool) : Option FCause :=
  if c < 12 then none
  else match chanDir g c inward with
  | some f => some f
  | none => if chanVec g c then some .channelDirection else none

def execPush (c a : Reg) (s : State) : Out :=
  let n := c.toNat
  .next (match chanTrap s.g n false with
    | some f => scalarFault s f s.g.pc.toNat
    | none => if chanDepth s.g n ≤ chanLen s.g n then s else advance { s with g := pushWord s.g n (srcA s a) })

/-- The head entry of the channel to d, removed or not. -/
def takeHead (s : State) (d c : Reg) (remove : Bool) : State :=
  let n := c.toNat
  match chanTrap s.g n true with
  | some f => scalarFault s f s.g.pc.toNat
  | none =>
    match wordQ s.g n with
    | [] => s
    | x :: _ =>
      let s' := if remove then { completePop { s with fi := 0 } n with fi := s.fi } else s
      setA s' d x

def execPop (d c : Reg) (s : State) : Out := .next (takeHead s d c true)
def execPeek (d c : Reg) (s : State) : Out := .next (takeHead s d c false)

/-! ### Bindings -/

/-- A descriptor of R239 as a binding of channel `c`; none when a field is refused. -/
def bindOfWord (s : State) (c x : Nat) : Option Bind :=
  let kind := bits x 63 62
  let width := bits x 61 60
  let sp := bits x 59 57
  let a := bits x 56 0
  if 2 ≤ width then none
  else if kind < 2 then
    let rank := bits a 19 16
    let grp := bits a 11 8
    let peer := bits a 1 0 + 12
    if sp ≠ 0 ∨ a ≠ rank * 2 ^ 16 + grp * 2 ^ 8 + bits a 1 0 then none
    else if s.t.clusterN ≤ rank then none
    else match teamOfRank s s.t rank with
    | none => none
    | some t =>
      if t.ngrp ≤ grp ∨ (t.uid = s.t.uid ∧ grp = s.g.idx) then none
      else some { chan := c, kind := kind, vec := width == 1, rank := rank, grp := grp, peer := peer }
  else if 4 ≤ sp ∨ a % 8 ≠ 0 then none
  else some { chan := c, kind := kind, vec := width == 1, sp := (spaceOfCode sp).getD .g, addr := a }

/-- Every lane task issued before has ended (R100). -/
def tasksEnded (s : State) : Bool := laneIdle s.g

/-- R101 and R239 do not order their two causes: a refused descriptor is named before a channel already bound (log 41). -/
def execCbind (c a : Reg) (s : State) : Out :=
  .next (if !tasksEnded s then s else
    match bindOfWord s c.toNat (srcA s a).toNat with
    | none => scalarFault s .badBinding s.g.pc.toNat
    | some b =>
      if (bindOf s.g c.toNat).isSome then scalarFault s .channelBound s.g.pc.toNat
      else advance { s with g := { s.g with bind := s.g.bind ++ [b] } })

/-- Transfers of a bound channel in flight (R101): writes not acknowledged, reads of a window not answered, an entry read in part.
A path entry and a request hold the channel in `t`. -/
def streamBusy (s : State) (c : Nat) : Bool :=
  s.path.any (fun e => e.owner == .stream s.g.uid && e.t == c) ||
  s.wins.any (fun w => w.owner == .stream s.g.uid && w.t == c) ||
  s.g.bind.any (fun b => b.chan == c && !b.buf.isEmpty)

def execCfree (c : Reg) (s : State) : Out :=
  let n := c.toNat
  .next (if !tasksEnded s then s
    else if (bindOf s.g n).isNone then advance s
    else if chanLen s.g n ≠ 0 ∨ streamBusy s n then s
    else advance { s with g := { s.g with bind := s.g.bind.filter (fun b => b.chan != n) } })

/-! ### Uniform registers, predicate masks, shapes -/

def execMtg (n a : Reg) (s : State) : Out :=
  .next (if !tasksEnded s then s else advance { s with g := writeU s.g n.toNat (srcA s a) })
def execMfg (d n : Reg) (s : State) : Out := .next (setA s d (readU s.g n.toNat))
/-- Bits [64j+63:64j] of kN; a group has 64 threads, so j is 0 (R102). -/
def execMfk (d n j : Reg) (s : State) : Out :=
  .next (if !tasksEnded s then s else setA s d (if j = 0 then readK s.g n.toNat else 0))

/-- Reset value of a shape register (R177). -/
def shapeReset : Word := 0x00087F7F
def shapeGet (t : Team) (i : Nat) : Nat := (mget t.shapes shapeReset i).toNat
/-- R177. -/
def shapeOk (x : Nat) : Bool :=
  decide (bits x 63 20 = 0) && !bit x 15 && !bit x 7 &&
  (match fmtSize (shFmt x) with
    | some z => decide (shRows x * shCols x * z ≤ 16384)
    | none => false)

def execMtsh (t a : Reg) (s : State) : Out :=
  .next (if !tasksEnded s then s
    else if shapeOk (srcA s a).toNat then advance { s with t := { s.t with shapes := mput s.t.shapes shapeReset t.toNat (srcA s a) } }
    else scalarFault s .badShape s.g.pc.toNat)
def execMfsh (d t : Reg) (s : State) : Out := .next (setA s d (mget s.t.shapes shapeReset t.toNat))

/-- Every flag of the mask clear at one moment (R109). -/
def execWflag (mask : BitVec 12) (s : State) : Out := .next (if flagsClear s.g mask.toNat then advance s else s)

end Sys2Proof.Machine
end

