-- ==== Sys2Proof/Machine/Term.lean ====
section
/-! DEFINITION. Logic terms (R124 to R126, R324 to R337, R360) and the term instructions (R343 to R350). An execution captures the
operands of its threads, raises its flags and holds its destinations pending, and then runs the threads one after another. A
thread's state between steps stands in the operation (`TProg`): steps made keep their effect while the word waits, and other
moves may come between two loads (log 42). -/

namespace Sys2Proof.Machine

/-! ### Outcomes -/

/-- What an action of a thread comes to: a result, a wait with nothing made, or a fault at the state it has reached. -/
inductive TR (α : Type) where
  | ok (a : α) (s : State)
  | wait (s : State)
  | fault (s : State) (c : FCause) (va : Nat)

def TR.andThen {α β : Type} (x : TR α) (f : α → State → TR β) : TR β :=
  match x with
  | .ok a s => f a s
  | .wait s => .wait s
  | .fault s c va => .fault s c va

/-- What a turn of a thread comes to: it goes on or is done (`ld`: it made its load), its next step is a load that this execution
may not make, it waits, or a fault. -/
inductive TOut where
  | go (ld : Bool) (p : TProg) (s : State)
  | done (ld : Bool) (x : Nat) (s : State)
  | pause
  | wait (s : State)
  | fault (s : State) (c : FCause) (va : Nat)

/-! ### The term area (R325 to R327) -/

def tGet (s : State) (th off n : Nat) : Nat := leNat (mgets s.g.slice 0 (lkey th off) n)
def tPut (s : State) (th off n x : Nat) : State :=
  { s with g := { s.g with slice := mputs s.g.slice 0 (lkey th off) (leBytes n x), pzL := pzWrite s.g.pzL (lkey th off) n false } }

/-- Does a read of n bytes of a thread's area meet a poisoned unit (R325, R433)? -/
def tBad (s : State) (th off n : Nat) : Bool :=
  !s.g.pzL.isEmpty && (unitsTouched (lkey th off) n).any (fun u => s.g.pzL.contains u)

/-- Header word 2. -/
def h2 (s : State) (th : Nat) : Nat := tGet s th 0x10 8
def tcnt (s : State) (th : Nat) : Nat := bits (h2 s th) 7 0
def wdp (s : State) (th : Nat) : Nat := bits (h2 s th) 15 8
def cpn (s : State) (th : Nat) : Nat := bits (h2 s th) 23 16
def ocnt (s : State) (th : Nat) : Nat := bits (h2 s th) 31 24
def wact (s : State) (th : Nat) : Bool := bit (h2 s th) 32
def h2Set (s : State) (th hi lo x : Nat) : State := tPut s th 0x10 8 (setBits (h2 s th) hi lo x)
def setTcnt (s : State) (th x : Nat) : State := h2Set s th 7 0 x
def setWalk (s : State) (th : Nat) (active : Bool) (slots : Nat) : State := h2Set (h2Set s th 32 32 active.toNat) th 15 8 slots
def setFcause (s : State) (th x : Nat) : State := h2Set s th 34 33 x

/-- R326. -/
def headerOk (s : State) (th : Nat) : Bool :=
  let w0 := tGet s th 0 8
  let w2 := h2 s th
  bits w0 63 60 == 0 && decide (bits w0 59 57 ≤ 3) && bits w0 56 0 % 8 == 0 && bits w2 63 35 == 0 && tGet s th 0x18 8 == 0 &&
  decide (ocnt s th ≤ 128) && decide (cpn s th ≤ 23) && decide (wdp s th ≤ 46) && decide (tcnt s th ≤ 46) &&
  decide (tcnt s th + wdp s th + 2 * cpn s th ≤ 46)

/-- Offsets of trail slot j, and of slot j counted from the top (R327). -/
def trailOff (j : Nat) : Nat := 0x520 + 16 * j
def downOff (j : Nat) : Nat := 0x800 - 16 * (j + 1)

def put2 (s : State) (th off x y : Nat) : State := tPut (tPut s th off 8 x) th (off + 8) 8 y

/-! ### Words (R124 to R126, R324) -/

def ttag (w : Nat) : Nat := bits w 63 60
/-- Bits [59:0]. -/
def tbody (w : Nat) : Nat := bits w 59 0
def mkRef (body : Nat) : Nat := 2 ^ 60 + body % 2 ^ 60
/-- Is a REF or STR word malformed (R126)? -/
def malformed (w : Nat) : Bool := decide (4 < bits w 59 57) || bits w 2 0 != 0

/-- A word that must be a value or a reference (R324). -/
def wordFault (w : Nat) : Option FCause :=
  if 5 < ttag w then some .reservedTag else if ttag w = 0 ∨ ttag w = 5 then some .badTerm else none

/-- Space and address of a REF or STR word (R125). -/
def cellOf (w : Nat) : Space × Nat :=
  let sp := (spaceOfCode (bits w 59 57)).getD .g
  (sp, packedVa sp (bits w 56 0))

/-- The word 8n bytes on. -/
def refPlus (w n : Nat) : Nat := bits w 59 57 * 2 ^ 57 + (bits w 56 0 + 8 * n) % 2 ^ 57

/-- A checked cell, for a load, a store or an atomic (R126, R257, R343). -/
def cellAcc (s : State) (th : Nat) (kind : AKind) (w : Nat) : TR Acc :=
  if malformed w then .fault s .badTerm (bits w 56 0)
  else
    let p := cellOf w
    match checkAcc s s.g.uid s.t s.l.ctx th p.1 kind p.2 8 8 with
    | .bad c => .fault s c p.2
    | .away aw => .wait (park s s.l.ctx aw)
    | .ok a => .ok a s

/-- One step: the load of the cell that a REF or STR word points to, which the Roaster counts (R377). -/
def cellLoad (s : State) (th w : Nat) : TR Nat :=
  (cellAcc s th .load w).andThen fun a s =>
    match fragLoad s a with
    | .wait s => .wait s
    | .fault c => .fault s c a.va
    | .got s d => .ok (leNat d) (roastAll (clearWin s (.group s.g.uid) (curF s).id) .load [(th, a)])

/-- A relaxed `.grp` store of the group into a cell. -/
def cellStore (s : State) (th w x : Nat) : TR Unit :=
  (cellAcc s th .store w).andThen fun a s =>
    if locked s s.l.ctx a true then .fault s .rangeLocked a.va else .ok () (storeEnt (roastAll s .store [(th, a)]) a x 0 none)

/-! ### The overlay (R328) -/

def okey (s : State) (th i : Nat) : Nat := tGet s th (0x020 + 2 * i) 2
def oval (s : State) (th i : Nat) : Nat := tGet s th (0x120 + 8 * i) 8

/-- Key of the cell a REF word names; none when the table does not hold it. -/
def cellKey (s : State) (th w : Nat) : Option Nat :=
  let w0 := tGet s th 0 8
  let b := cellOf w0
  let p := cellOf w
  let d := (p.2 + 2 ^ 64 - b.2) % 2 ^ 64
  if b.1 = p.1 ∧ d % 8 = 0 ∧ d / 8 ≤ 65534 then some (d / 8 + 1) else none

/-- The probe for a key: the slot that holds it, or the first free slot. -/
def probe (s : State) (th key : Nat) : Nat → Nat → Option (Nat × Bool)
  | 0, _ => none
  | n + 1, i =>
    if okey s th i = key then some (i, true) else if okey s th i = 0 then some (i, false) else probe s th key n ((i + 1) % 128)

def lookup (s : State) (th key : Nat) : Option (Nat × Bool) := probe s th key 128 ((key - 1) % 128)

/-- Does the probe for a key read a poisoned unit of the keys? -/
def probeBad (s : State) (th key : Nat) : Nat → Nat → Bool
  | 0, _ => false
  | n + 1, i =>
    tBad s th (0x020 + 2 * i) 2 || (okey s th i != key && okey s th i != 0 && probeBad s th key n ((i + 1) % 128))

/-- Does looking up the binding of a cell by its key read one, of keys or values? -/
def lookBad (s : State) (th key : Nat) : Bool :=
  probeBad s th key 128 ((key - 1) % 128) || (match lookup s th key with
    | some (i, true) => tBad s th (0x120 + 8 * i) 8
    | _ => false)

/-- Is a cell word a shared variable? -/
def sharedVar (c : Nat) : Bool := ttag c == 0 && bit c 0

/-! ### Dereferencing (R329) -/

/-- The binding of this thread that hides a cell, if the overlay is consulted. -/
def ownBinding (s : State) (th : Nat) (ovf : Bool) (w c : Nat) : Option Nat :=
  if ovf && bit c 0 then
    match cellKey s th w with
    | some k => match lookup s th k with
      | some (i, true) => some (oval s th i)
      | _ => none
    | none => none
  else none

/-- Does consulting the overlay for a cell read poison? -/
def ownBad (s : State) (th : Nat) (ovf : Bool) (w c : Nat) : Bool :=
  ovf && bit c 0 && !s.g.pzL.isEmpty && (cellKey s th w).any (lookBad s th)

/-- One turn of the loop of R329 on word w with n steps left: it ends, goes on from a word, or does not get on. -/
inductive DOut where
  | stop (d : DRes) (n : Nat) (ld : Bool) (s : State)
  | on (w n : Nat) (s : State)
  | none (r : TOut)

/-- A load of a turn, if the execution may make one. -/
def onCell (may : Bool) (s : State) (th w : Nat) (k : Nat → State → TOut) : TOut :=
  if malformed w then .fault s .badTerm (bits w 56 0)
  else if !may then .pause
  else match cellLoad s th w with
  | .ok c s => k c s
  | .wait s => .wait s
  | .fault s c va => .fault s c va

/-- What the cell of REF w says: c is its word. -/
def derefCell (s : State) (th : Nat) (ovf : Bool) (w c n : Nat) : DOut :=
  if ttag c = 1 then .on c n s
  else if ttag c = 0 then
    if ownBad s th ovf w c then .none (.fault s .poison 0) else
    match ownBinding s th ovf w c with
    | some v => .on v n s
    | none => .stop (.unb w c) n true s
  else match wordFault c with
    | some f => .none (.fault s f (cellOf w).2)
    | none => .stop (.val c) n true s

def derefTurn (may : Bool) (s : State) (th : Nat) (ovf : Bool) (w n : Nat) : DOut :=
  match wordFault w with
  | some c => .none (.fault s c 0)
  | none =>
    if ttag w ≠ 1 then .stop (.val w) n false s
    else if malformed w then .none (.fault s .badTerm (bits w 56 0))
    else match n with
    | 0 => .stop (.more w) 0 false s
    | n + 1 =>
      if !may then .none .pause
      else match cellLoad s th w with
      | .ok c s => derefCell s th ovf w c n
      | .wait s => .none (.wait s)
      | .fault s c va => .none (.fault s c va)

/-- The word a dereference stands at. -/
def dWord : DRes → Nat
  | .val w => w
  | .unb r _ => r
  | .more w => w

/-! ### Binding (R330) -/

/-- Slots that bindings and choice points leave, with `walk` slots of a walk. -/
def slotsUsed (s : State) (th walk : Nat) : Nat := tcnt s th + 2 * cpn s th + walk

/-- Append a trail entry. -/
def pushTrail (s : State) (th x y : Nat) : State := setTcnt (put2 s th (trailOff (tcnt s th)) x y) th (tcnt s th + 1)

/-- Bind the unbound variable at REF r, whose cell holds `old`, to v, in one action: 0 done, else the cause of a full overlay. -/
def bindVar (s : State) (th walk r old v : Nat) : TR Nat :=
  if !sharedVar old then
    if 46 ≤ slotsUsed s th walk then .ok 2 s
    else (cellStore s th r v).andThen fun _ s => .ok 0 (pushTrail s th (mkRef (tbody r)) old)
  else match cellKey s th r with
  | none => .fault s .badTerm (cellOf r).2
  | some k =>
    if 46 ≤ slotsUsed s th walk then .ok 2 s
    else if 128 ≤ ocnt s th then .ok 1 s
    else if probeBad s th k 128 ((k - 1) % 128) then .fault s .poison 0
    else match lookup s th k with
    | none => .ok 1 s
    | some (i, _) =>
      let s := tPut (tPut s th (0x020 + 2 * i) 2 k) th (0x120 + 8 * i) 8 v
      .ok 0 (pushTrail (h2Set s th 31 24 (ocnt s th + 1)) th (2 * 2 ^ 60 + i) 0)

/-- Which of two unbound variables is bound (R331): none when they are one. -/
inductive Pick where
  | same | first | second | bad
  deriving DecidableEq, Repr

def pickVar (s : State) (th r1 o1 r2 o2 : Nat) : Pick :=
  if tbody r1 = tbody r2 then .same
  else match sharedVar o1, sharedVar o2 with
  | false, true => .first
  | true, false => .second
  | false, false => if tbody r2 < tbody r1 then .first else .second
  | true, true =>
    match cellKey s th r1, cellKey s th r2 with
    | some a, some b => if b < a then .first else .second
    | _, _ => .bad

/-! ### The walk (R332, R360) -/

def wSlots : List WEnt → Nat
  | [] => 0
  | .cells .. :: r => 1 + wSlots r
  | .pair .. :: r => 2 + wSlots r

/-- The saved walk, from the slot at the lowest address up; `n` slots of it (R327). -/
def loadWalk (s : State) (th : Nat) : Nat → Nat → List WEnt
  | _, 0 => []
  | top, n + 1 =>
    let off := downOff (top + n)
    let x := tGet s th off 8
    let y := tGet s th (off + 8) 8
    if x = 0 ∧ y = 0 then
      match n with
      | 0 => [.pair 0 0]
      | m + 1 => .pair (tGet s th (off + 16) 8) (tGet s th (off + 24) 8) :: loadWalk s th top m
    else .cells (tbody x) (tbody y) (16 * ttag x + ttag y) :: loadWalk s th top n

/-- Write a walk, oldest entry first, from slot j down. -/
def putWalk (s : State) (th : Nat) : Nat → List WEnt → State
  | _, [] => s
  | j, .cells a b n :: r => putWalk (put2 s th (downOff j) (n / 16 % 16 * 2 ^ 60 + a) (n % 16 * 2 ^ 60 + b)) th (j + 1) r
  | j, .pair x y :: r => putWalk (put2 (put2 s th (downOff j) x y) th (downOff (j + 1)) 0 0) th (j + 2) r

/-- The walk is saved and continues with a later execution. -/
def saveWalk (s : State) (th fcause : Nat) (st : List WEnt) : State :=
  setFcause (setWalk (putWalk s th (2 * cpn s th) st.reverse) th true (wSlots st)) th fcause

/-- The walk is over. -/
def endWalk (s : State) (th : Nat) : State := setFcause (setWalk s th false 0) th 0

/-- A walk that stops with status more work or overlay full is saved (R332, R360). -/
def walkStop (ld : Bool) (s : State) (th code fcause : Nat) (st : List WEnt) : TOut := .done ld code (saveWalk s th fcause st)

/-- The next pair of the walk, with n steps left (R332): an empty walk succeeds; a pair of argument cells needs a step left and
slots for the pair in hand. -/
def walkTake (s : State) (th n : Nat) (st : List WEnt) : TOut :=
  match st with
  | [] => .done false 0 (endWalk s th)
  | .pair x y :: rest => .go false ⟨th, n, rest, .first x y⟩ s
  | .cells a b k :: rest =>
    let left := if k ≤ 1 then rest else .cells (refPlus a 1) (refPlus b 1) (k - 1) :: rest
    if n = 0 then walkStop false s th 2 0 st
    else if 46 < slotsUsed s th (wSlots left + 2) then walkStop false s th 3 2 st
    else .go false ⟨th, n, left, .first (mkRef a) (mkRef b)⟩ s

/-- One side of a pair is bound to v, the other side's word (R330, R331); a full overlay keeps the pair in hand. -/
def walkBind (s : State) (th n : Nat) (st : List WEnt) (dx dy : DRes) (r old v : Nat) : TOut :=
  match bindVar s th (wSlots st + 2) r old v with
  | .ok 0 s => .go false ⟨th, n, st, .take⟩ s
  | .ok c s => walkStop false s th 3 c (.pair (dWord dx) (dWord dy) :: st)
  | .wait s => .wait s
  | .fault s c va => .fault s c va

/-- The walk fails: nothing of it is kept but the bindings made (R332). -/
def walkFail (ld : Bool) (s : State) (th : Nat) : TOut := .done ld 1 (endWalk s th)

/-- Both words of the pair in hand are dereferenced (R331, R332). -/
def walkMeet (s : State) (th n : Nat) (st : List WEnt) (dx dy : DRes) : TOut :=
  match dx, dy with
  | .unb r1 o1, .unb r2 o2 =>
    match pickVar s th r1 o1 r2 o2 with
    | .same => .go false ⟨th, n, st, .take⟩ s
    | .bad => .fault s .badTerm (cellOf r1).2
    | .first => walkBind s th n st dx dy r1 o1 r2
    | .second => walkBind s th n st dx dy r2 o2 r1
  | .unb r o, dy => walkBind s th n st dx dy r o (dWord dy)
  | dx, .unb r o => walkBind s th n st dx dy r o (dWord dx)
  | dx, dy =>
    let v := dWord dx
    let u := dWord dy
    if ttag v ≠ ttag u then walkFail false s th
    else if ttag v = 4 then .go false ⟨th, n, st, .funs v u⟩ s
    else if v = u then .go false ⟨th, n, st, .take⟩ s
    else walkFail false s th

/-- What a word loaded as a functor must be (R324). -/
def funFault (f : Nat) : Option FCause := if 5 < ttag f then some .reservedTag else if ttag f ≠ 5 then some .badTerm else none

/-- The functor of the first of two structures. -/
def walkFun (may : Bool) (s : State) (th n x y : Nat) (st : List WEnt) : TOut :=
  if !malformed x && n == 0 then walkStop false s th 2 0 (.pair x y :: st)
  else onCell may s th x fun fx s =>
    match funFault fx with
    | some c => .fault s c (cellOf x).2
    | none => .go true ⟨th, n - 1, st, .funs2 x y fx⟩ s

/-- The functor of the second: the structures agree in it, and their arguments are walked; the push of their entry counts the pair in hand
(R330, R332). -/
def walkFun2 (may : Bool) (s : State) (th n x y fx : Nat) (st : List WEnt) : TOut :=
  if !malformed y && n == 0 then walkStop false s th 2 0 (.pair x y :: st)
  else onCell may s th y fun fy s =>
    match funFault fy with
    | some c => .fault s c (cellOf y).2
    | none =>
      let args : List WEnt := .cells (refPlus x 1) (refPlus y 1) (bits fx 59 52) :: st
      if fx ≠ fy then walkFail true s th
      else if bits fx 59 52 = 0 ∨ x = y then .go true ⟨th, n - 1, st, .take⟩ s
      else if 46 < slotsUsed s th (wSlots args + 2) then walkStop true s th 3 2 (.pair x y :: st)
      else .go true ⟨th, n - 1, args, .take⟩ s

/-! ### The other instructions of one thread -/

/-- Every term instruction but `unify` clears a saved walk (R332). -/
def dropWalk (s : State) (th : Nat) : State := setWalk s th false 0

/-- `bind` of two dereferenced words (R346). -/
def bindMeet (s : State) (th : Nat) (dx dy : DRes) : TOut :=
  match dx with
  | .unb r o =>
    if dy matches .unb .. && tbody (dWord dy) == tbody r then .done false 0 s
    else match bindVar s th 0 r o (dWord dy) with
    | .ok c s => .done false (if c = 0 then 0 else 3) (setFcause s th c)
    | .wait s => .wait s
    | .fault s c va => .fault s c va
  | _ => .done false 1 s

/-- `bindg` of two dereferenced words (R347). -/
def bindgMeet (s : State) (p : TProg) (dx dy : DRes) : TOut :=
  match dx with
  | .unb r _ => .go false { p with ph := .gate r (dWord dy) } s
  | _ => .done false 1 s

/-- R336, R348. -/
def chptT (s : State) (th alt join : Nat) : TOut :=
  if 46 < slotsUsed s th 2 then .done false 3 (setFcause s th 2)
  else if tBad s th 0x08 8 then .fault s .poison 0
  else
    let c := cpn s th
    let s := put2 (put2 s th (downOff (2 * c)) 0 0) th (downOff (2 * c + 1)) (tGet s th 0x08 8) (tcnt s th + 2 ^ 8 * alt + 2 ^ 32 * join)
    .done false 0 (h2Set s th 23 16 (c + 1))

/-- The control word of the newest choice point (R327). -/
def topControl (s : State) (th : Nat) : Nat := tGet s th (downOff (2 * (cpn s th - 1) + 1) + 8) 8

/-- R337: the trail is unwound as far as the newest choice point tells. -/
def failStart (s : State) (th : Nat) : TProg := ⟨th, 0, [], .undo (if cpn s th = 0 then 0 else bits (topControl s th) 7 0)⟩

/-- The trail is unwound (R337): 0 when the thread is exhausted, else 1 + 2 × alternative + 2^25 × join. -/
def failEnd (s : State) (th : Nat) : TOut :=
  let c := cpn s th
  if c = 0 then .done false 0 s
  else if tBad s th (downOff (2 * (c - 1) + 1)) 16 then .fault s .poison 0
  else
    let w := topControl s th
    let s := h2Set (tPut s th 0x08 8 (tGet s th (downOff (2 * (c - 1) + 1)) 8)) th 23 16 (c - 1)
    .done false (1 + 2 * bits w 31 8 + 2 ^ 25 * bits w 55 32) s

/-- The newest trail entry is undone (R337). A trail word that is neither kind of R327 is no word of a trail: a reserved tag
faults as such, any other as a bad term (log 42). -/
def undoOne (s : State) (p : TProg) : TOut :=
  let th := p.th
  let k := tcnt s th
  let x := tGet s th (trailOff (k - 1)) 8
  let y := tGet s th (trailOff (k - 1) + 8) 8
  if tBad s th (trailOff (k - 1)) 16 then .fault s .poison 0
  else if ttag x = 2 then
    let i := bits x 6 0
    let s := tPut (tPut s th (0x020 + 2 * i) 2 0) th (0x120 + 8 * i) 8 0
    .go false p (setTcnt (h2Set s th 31 24 (ocnt s th - 1)) th (k - 1))
  else if ttag x = 1 then
    match cellStore s th x y with
    | .ok _ s => .go false p (setTcnt s th (k - 1))
    | .wait s => .wait s
    | .fault s c va => .fault s c va
  else .fault s (if 5 < ttag x then .reservedTag else .badTerm) (bits x 56 0)

/-! ### Executions (R333, R343) -/

def setOp (g : Group) (id : Nat) (f : LOp → LOp) : Group := { g with ops := mapFirst (fun o => o.id == id) f g.ops }

/-- A thread begins (R325, R326, R343): its area is checked, a saved walk cleared but by `unify`; a and b are its captured
operands, for `chpt` the two offsets. -/
def termStart (s : State) (opcode th a b : Nat) : TOut :=
  if s.t.sliceB < 2048 then .fault s .bounds 0
  else if tBad s th 0 8 || tBad s th 0x10 16 then .fault s .poison 0
  else if !headerOk s th then .fault s .termArea 0
  else match opcode with
  | 0x84 => .go false ⟨th, Config.termSteps, [], .first a 0⟩ (dropWalk s th)
  | 0x85 =>
    if wact s th && tBad s th (downOff (2 * cpn s th + wdp s th - 1)) (16 * wdp s th) then .fault s .poison 0
    else if wact s th then .go false ⟨th, Config.termSteps, loadWalk s th (2 * cpn s th) (wdp s th), .take⟩ s
    else if 46 < slotsUsed s th 2 then .done false 3 (setFcause s th 2)
    else .go false ⟨th, Config.termSteps, [.pair a b], .take⟩ (setWalk s th true 0)
  | 0x86 | 0x87 => .go false ⟨th, Config.termSteps, [], .first a b⟩ (setFcause (dropWalk s th) th 0)
  | 0x88 => chptT (setFcause (dropWalk s th) th 0) th a b
  | _ =>
    let s := setFcause (dropWalk s th) th 0
    if cpn s th ≠ 0 ∧ tBad s th (downOff (2 * (cpn s th - 1) + 1)) 16 then .fault s .poison 0 else .go false (failStart s th) s

/-- The budget is used up at word w of the first (`y` to follow) or second operand (R344 to R347): `deref` gives the word it
reached, a walk is saved with the pair in hand, the others keep nothing. -/
def outOfSteps (s : State) (opcode : Nat) (p : TProg) (x y : Nat) : TOut :=
  match opcode with
  | 0x84 => .done false x s
  | 0x85 => walkStop false s p.th 2 0 (.pair x y :: p.st)
  | _ => .done false 2 s

/-- Both operands of a pair are dereferenced. -/
def pairMeet (s : State) (opcode : Nat) (p : TProg) (dx dy : DRes) : TOut :=
  match opcode with
  | 0x85 => walkMeet s p.th p.n p.st dx dy
  | 0x86 => bindMeet s p.th dx dy
  | _ => bindgMeet s p dx dy

/-- A turn inherits that a load was made before it. -/
def TOut.loaded (ld : Bool) : TOut → TOut
  | .go l p s => .go (ld || l) p s
  | .done l x s => .done (ld || l) x s
  | r => r

/-- The move of `bindg` at the cell of r leaves (R335): through the store path as any value-returning atomic (R218), at once in the
thread's own lane slice. -/
def bindgMove (s : State) (op : Nat) (p : TProg) (r v : Nat) : TOut :=
  match cellAcc s p.th .atom r with
  | .wait s => .wait s
  | .fault s c va => .fault s c va
  | .ok a s =>
    if locked s s.l.ctx a true then .fault s .rangeLocked a.va
    else if pzScratch s a.loc 8 then .fault s .poison a.va
    else
      let s := roastAll s .atom [(p.th, a)]
      match a.loc with
      | .lane .. =>
        let free : Bool := ttag (leNat (rdScratch s a.loc 8)) == 0
        let s := if free then wrScratch s a.loc (leBytes 8 v) false else s
        .go false { p with ph := .sent } { s with g := keepVal (setOp s.g op (fun o => { o with ordered := true })) op p.th (if free then 0 else 1) }
      | _ =>
        let s := { s with g := setOp s.g op (fun o => { o with left := o.left + 1, ordered := true }) }
        .go false { p with ph := .sent } (atomEnt s .bindg p.th a v 0 op)

/-- One turn of the running thread p of operation o; `scp` is the scope of a `bindg` (R335, R347). -/
def termTurn (may : Bool) (s : State) (o : LOp) (scp : Scope) (p : TProg) : TOut :=
  let ovf : Bool := !(o.info == 0x87)
  if tBad s p.th 0 8 || tBad s p.th 0x10 8 then .fault s .poison 0 else
  match p.ph with
  | .take => walkTake s p.th p.n p.st
  | .first x y =>
    match derefTurn may s p.th ovf x p.n with
    | .none r => r
    | .on w n s => .go true { p with n := n, ph := .first w y } s
    | .stop (.more w) _ ld s => (outOfSteps s o.info p w y).loaded ld
    | .stop d n ld s =>
      if o.info = 0x84 then .done ld (2 ^ 64 + dWord d) s else .go ld { p with n := n, ph := .second d y } s
  | .second dx y =>
    match derefTurn may s p.th true y p.n with
    | .none r => r
    | .on w n s => .go true { p with n := n, ph := .second dx w } s
    | .stop (.more w) _ ld s => (outOfSteps s o.info p (dWord dx) w).loaded ld
    | .stop d n ld s => (pairMeet s o.info { p with n := n } dx d).loaded ld
  | .funs x y => walkFun may s p.th p.n x y p.st
  | .funs2 x y fx => walkFun2 may s p.th p.n x y fx p.st
  | .undo n => if tcnt s p.th ≤ n then failEnd s p.th else undoOne s p
  | .gate r v =>
    match releaseGate s scp with
    | .hold s => .wait s
    | .pass s => bindgMove s o.id p r v
  | .sent =>
    match o.vals.find? (fun q => q.1 == p.th) with
    | none => .wait s
    | some q => .done false q.2 (acquire s scp o.bound)

/-- A thread has its result; the landing of an atomic may have kept it already. -/
def termDone (o : LOp) (th x : Nat) : LOp :=
  { o with prog := none, vals := if o.vals.any (fun q => q.1 == th) then o.vals else o.vals ++ [(th, x)] }

/-- The next turn of an operation: of its running thread, or of the next one in ascending order; none when every thread is done. -/
def nextTurn (may : Bool) (s : State) (o : LOp) (scp : Scope) : Option (Nat × TOut) :=
  match o.prog with
  | some p => some (p.th, termTurn may s o scp p)
  | none => (o.opnds.find? (fun q => !o.vals.any (fun v => v.1 == q.1))).map (fun q => (q.1, termStart s o.info q.1 q.2.1 q.2.2))

/-- Run turns of operation `op` until one needs a second load or waits, or every thread has its result: then `k` ends the word. -/
def runTurns (op : Nat) (scp : Scope) (k : State → State) : Nat → Bool → State → State
  | 0, _, s => unstall s
  | fuel + 1, may, s =>
    if !((curF s).wait == .go) then s
    else match getOp s.g op with
    | none => s
    | some o =>
      match nextTurn may s o scp with
      | none => k s
      | some (_, .go ld p s) => runTurns op scp k fuel (may && !ld) { s with g := setOp s.g op (fun o => { o with prog := some p }) }
      | some (th, .done ld x s) => runTurns op scp k fuel (may && !ld) { s with g := setOp s.g op (fun o => termDone o th x) }
      | some (_, .pause) => unstall s
      | some (_, .wait s) => stall s 3 0
      | some (_, .fault s c va) => laneFault s c va

/-- Turns that one execution can make without a second load: 64 threads, at most 46 trail entries each, with its beginning and end. -/
def turnFuel : Nat := 4096

/-- Values of an execution, by thread. -/
def termVals (s : State) (op : Nat) : List (Nat × Nat) := ((getOp s.g op).map (·.vals)).getD []

/-- Begin the execution of a term word, or take it up again (R333, R343): its operands are captured and its channels popped at its
start (R43), its flags rise and its destinations are pending until the results land; `k` ends it. -/
def termRun (s : State) (act : Mask) (opcode : Nat) (pend pendK : List Nat) (opnds : List (Nat × Nat × Nat)) (pop : State → State) (scp : Scope)
    (k : Nat → State → State) : State :=
  match midOp s with
  | some o => runTurns o.id scp (k o.id) turnFuel true s
  | none =>
    let op := s.nid
    let s := startOp (pop { s with nid := op + 1 })
      { id := op, kind := .term, act := act, left := 1, info := opcode, pend := pend, pendK := pendK, mid := true, opnds := opnds }
    runTurns op scp (k op) turnFuel true s

/-- Two bits of status for each thread (R393). -/
def statBits (vs : List (Nat × Nat)) : Nat := vs.foldl (fun n p => n ||| (p.2 % 4) * 4 ^ p.1) 0

/-- The word is done: its results wait for the move that finishes the operation, and are logged for a `bindg` (R403). -/
def termEnd (s : State) (op : Nat) (res : List (Nat × VWord)) (kres : List (Nat × Mask × Mask)) (stat : Nat) : State :=
  { s with g := setOp s.g op (fun o => { o with mid := false, res := res, kres := kres, stat := stat, bound := s.nid }) }

/-- A status in vD for each thread. -/
def endStatus (d op : Nat) (s : State) : State :=
  let vs := termVals s op
  termEnd s op (vs.map (fun p => (d * 64 + p.1, BitVec.ofNat 32 p.2))) [] (statBits vs)

/-- The two 64-bit operands of each thread. -/
def pairOpnds (s : State) (w : LaneW) (act : Mask) : List (Nat × Nat × Nat) :=
  (threads act).map (fun t => (t, opndVal s .n64 w.a 0 t, opndVal s .n64 w.b (skipB w) t))

/-- scp 0 and 1 both mean `.team` (R347). -/
def bindgScope (w : LaneW) : Scope := if w.scp = .grp then .team else w.scp

/-- A term word on one or two 64-bit operands: the channels are its concern only until it has begun; `none` is what it does with no
active thread. -/
def termWord (w : LaneW) (opcode : Nat) (pend pendK : List Nat) (k : Nat → State → State) (none : State → State) (s : State) : State :=
  let act := active s w
  let run (_ : Unit) : State :=
    termRun s act opcode pend pendK (pairOpnds s w act) (fun s => popAll s w) (bindgScope w) k
  if (midOp s).isSome then run ()
  else withChans s w fun _ => if act = 0 then none s else run ()

def execUnify (w : LaneW) (s : State) : Out :=
  .next (termWord w 0x85 [w.d.toNat] [] (fun op s => laneNext (endStatus w.d.toNat op s)) (fun s => laneNext (popAll s w)) s)
def execBind (w : LaneW) (s : State) : Out :=
  .next (termWord w 0x86 [w.d.toNat] [] (fun op s => laneNext (endStatus w.d.toNat op s)) (fun s => laneNext (popAll s w)) s)

/-- R344: the word in a pair, the done mask. -/
def endDeref (d kc : Nat) (op : Nat) (s : State) : State :=
  let vs := termVals s op
  let act := maskOf (vs.map (·.1))
  let done := maskOf ((vs.filter (fun p => decide (2 ^ 64 ≤ p.2))).map (·.1))
  termEnd s op (vs.flatMap (fun p => [(d * 64 + p.1, BitVec.ofNat 32 p.2), ((d + 1) * 64 + p.1, BitVec.ofNat 32 (p.2 / 2 ^ 32))]))
    [(kc, act, done)] 0

def execDeref (w : LaneW) (s : State) : Out :=
  .next (termWord w 0x84 [w.d.toNat, w.d.toNat + 1] [w.c.idx.toNat] (fun op s => laneNext (endDeref w.d.toNat w.c.idx.toNat op s))
    (fun s => laneNext (popAll s w)) s)

/-- With no active thread the order of `bindg` acts all the same (R212, R338). -/
def bindgIdle (w : LaneW) (s : State) : State :=
  match releaseGate s (bindgScope w) with
  | .hold s => s
  | .pass s => doneWord (popAll s w) .ar (bindgScope w) none

/-- The end of a `bindg`: its statuses are logged as those of an atomic (R403); when no thread of it has made a move, its order acts
here (R212). -/
def bindgEnd (w : LaneW) (op : Nat) (s : State) : State :=
  let fin (s : State) : State := endStatus w.d.toNat op (replay s s.g.uid 1 .g 0 s.fi (perThread false (termVals s op)))
  if (getOp s.g op).any (·.ordered) then laneNext (fin s)
  else match releaseGate s (bindgScope w) with
  | .hold s => s
  | .pass s => doneWord (fin s) .ar (bindgScope w) none

/-- `bindg`: a release before the move of each thread, an acquire after it (R335, R347). -/
def execBindg (w : LaneW) (s : State) : Out := .next (termWord w 0x87 [w.d.toNat] [] (bindgEnd w) (bindgIdle w) s)

/-- R348: the status goes to vC, which stands in the C field. -/
def execChpt (k : BitVec 4) (neg : Bool) (st : BitVec 9) (alt join : BitVec 24) (s : State) : Out :=
  let act := activeOf s k neg
  .next (if act = 0 then laneNext s
    else termRun s act 0x88 [st.toNat] [] ((threads act).map (fun t => (t, alt.toNat, join.toNat))) id .team
      (fun op s => laneNext (endStatus st.toNat op s)))

/-! ### The splits of `fail` (R337, R349) -/

/-- Groups of threads by (alternative, join), in ascending order of the alternative. -/
def failGroups (vs : List (Nat × Nat)) : List (Nat × Mask) :=
  let keys := (vs.filter (fun p => p.2 != 0)).map (·.2)
  let le (a b : Nat) : Bool := decide (a / 2 % 2 ^ 24 * 2 ^ 24 + a / 2 ^ 25 ≤ b / 2 % 2 ^ 24 * 2 ^ 24 + b / 2 ^ 25)
  ((keys.eraseDups).mergeSort le).map (fun k => (k, maskOf ((vs.filter (fun p => p.2 == k)).map (·.1))))

def failAlt (s : State) (k : Nat) : Word := laneAddr s.l (k / 2 % 2 ^ 24)
def failJoin (s : State) (k : Nat) : Option Word := joinAddr s.l (k / 2 ^ 25)

/-- Push every other set on the held stack and run the first group (R337). -/
def failHold (s : State) (first : Nat × Mask) (rest : List (Nat × Mask)) (stay : Mask) : State :=
  let f := curF s
  let lv (p : Nat × Mask) : Held := { mask := p.2, pc := failAlt s p.1, rejoin := failJoin s p.1 }
  let last := ((first :: rest).getLast?).getD first
  let base : List Held := if stay = 0 then [] else [{ mask := stay, pc := followPc f, rejoin := failJoin s last.1 }]
  let add := rest.map lv ++ base
  arrive (modF { s with g := { s.g with held := add ++ s.g.held } }
    (fun f => { f with
      mask := first.2
      pc := failAlt s first.1
      idx := 0
      rcv := failJoin s first.1
      under := (s.g.held.length, f.rcv) :: f.under }))

/-- Can the free entries and levels take every set (R337)? Entries first, one for each set but one. -/
def failFits (s : State) (gs : List (Nat × Mask)) : Bool :=
  let out := gs.foldl (fun m q => m ||| q.2) 0
  let sets := gs.length + (if (curF s).mask &&& ~~~out = 0 then 0 else 1)
  decide (sets - 1 ≤ (Config.splitEntries - s.g.frs.length) + heldFree s.g)

/-- Split the groups off one at a time; the threads that remain continue at the next clause, or, when the last group is all
that remains, at its alternative. -/
def failSplit : Nat → State → List (Nat × Mask) → State
  | 0, s, _ => s
  | _, s, [] => laneNext s
  | fuel + 1, s, p :: r =>
    let f := curF s
    if p.2 = f.mask then laneGoto s (failAlt s p.1)
    else match freeEntry s.g.frs with
    | none => failHold (unstall s) p r (f.mask &&& ~~~(r.foldl (fun m q => m ||| q.2) p.2))
    | some e2 =>
      -- the leaving group takes the free entry, the rest keeps its own with the same reconvergence address
      match splitTwo (unstall s) (f.mask &&& ~~~p.2) f.pc (failAlt s p.1) (failJoin s p.1) with
      | none => s
      | some s =>
        let s := modF s (fun g => { g with idx := f.idx, len := f.len, flags := f.flags })
        failSplit fuel (atEntry s e2 arrive) r

/-- Every thread is unwound: the exhausted mask is written, then the threads leave (R337, R349). -/
def failGo (w : LaneW) (act : Mask) (op : Nat) (s : State) : State :=
  let vs := termVals s op
  let out := maskOf ((vs.filter (fun p => p.2 == 0)).map (·.1))
  let s := termEnd s op [] [] 0
  let s := { s with g := writeK s.g w.d.toNat act out }
  if failFits s (failGroups vs) then failSplit 65 s (failGroups vs) else laneFault s .divergenceOverflow 0

def execFail (w : LaneW) (s : State) : Out :=
  let act := active s w
  .next (if act = 0 then laneNext s
    else termRun s act 0x89 [] [] ((threads act).map (fun t => (t, 0, 0))) id .team (failGo w act))

/-! ### A switch in the midst of an execution (R334) -/

/-- What a thread of a term word gives that a switch stops after its current step: status more work, for `deref` the word it has
reached; a walk is saved. -/
def cutThread (s : State) (opcode : Nat) (p : TProg) : Nat × State :=
  match p.ph, opcode with
  | .first x _, 0x84 => (x, s)
  | .first x y, 0x85 | .funs x y, 0x85 | .funs2 x y _, 0x85 => (2, saveWalk s p.th 0 (.pair x y :: p.st))
  | .second dx y, 0x85 => (2, saveWalk s p.th 0 (.pair (dWord dx) y :: p.st))
  | .take, 0x85 => (2, saveWalk s p.th 0 p.st)
  | _, _ => (2, s)

/-- A thread that a switch stops before it has begun (R334): a `unify` saves the walk that it would begin, from its captured operands,
unless its area is one that its beginning faults on, which it then does when it is executed again. -/
def cutNew (s : State) (opcode th a b : Nat) : Nat × State :=
  match opcode with
  | 0x84 => (a, s)
  | 0x85 =>
    if tBad s th 0 32 || !headerOk s th || wact s th then (2, s)
    else if 46 < slotsUsed s th 2 then (3, setFcause s th 2)
    else (2, saveWalk s th 0 [.pair a b])
  | _ => (2, s)

/-- The threads of an operation that have not begun, in turn: their results, and the state. -/
def cutRest (s : State) (o : LOp) : List (Nat × Nat) × State :=
  (o.opnds.filter (fun q => !o.vals.any (fun v => v.1 == q.1) && o.prog.all (fun p => p.th != q.1))).foldl
    (fun r q => let x := cutNew r.2 o.info q.1 q.2.1 q.2.2; (r.1 ++ [(q.1, x.1)], x.2)) ([], s)

/-- The running thread of an operation that a switch stops; a move of `bindg` that has left is finished by its answer. -/
def cutRun (s : State) (o : LOp) : List (Nat × Nat) × Option TProg × State :=
  match o.prog with
  | none => ([], none, s)
  | some p => if p.ph == .sent then ([], some p, s) else let x := cutThread s o.info p; ([(p.th, x.1)], none, x.2)

/-- A switch stops the unfinished threads of a term word of the issuing group (R334); its results land when the fragment next
executes. `chpt` has no wait, and a `fail`, which has no status, goes on after it. -/
def cutTerm (s : State) (o : LOp) : State :=
  if !(o.kind == .term && o.mid) || o.info == 0x89 then s
  else
    let r := cutRun s o
    let x := cutRest r.2.2 o
    { x.2 with g := setOp x.2.g o.id (fun o => { o with prog := r.2.1, vals := o.vals ++ r.1 ++ x.1 }) }

/-- Every term word of a group that leaves its core is cut. -/
def cutTerms (s : State) (uid : Nat) : State :=
  match getG s uid with
  | none => s
  | some g => if g.ops.any (fun o => o.kind == .term && o.mid) then g.ops.foldl cutTerm (focus s uid) else s

/-- A finished term instruction: its results land, its record is made (R393); a `bindg` is acknowledged first (R205). -/
def execTermInstructionFinished (g op : Nat) (s : State) : Out :=
  .next (match getG s g with
    | none => s
    | some x => match getOp x op with
      | none => s
      | some o =>
        if o.kind ≠ .term ∨ o.left ≠ 1 ∨ o.mid then s
        else
          let t := teamOfG s x
          let s := emit s 0x06 0 (launchOfT s t).ctx t.core o.info (some (idB (partOf x) x.idx o.entry t.idx o.stat)) (some g)
          updG s g (fun x => opLess x op))

/-! ### Tag operations (R350) -/

def tagOp (w : LaneW) (a : Nat) : Nat :=
  match cCode w with
  | 0 => bits a 63 60
  | 1 => bits (x24n w) 3 0 * 2 ^ 60 + bits a 59 0
  | 2 => ofInt (sint a 60) 64
  | 3 => bits a 59 52
  | 4 => bits a 59 57
  | _ => if bits a 59 57 = 0 then (sextW (bits a 56 0) 57).toNat else bits a 56 0

def execTag (w : LaneW) (s : State) : Out :=
  .next (withChans s w fun _ =>
    let rs := (threads (active s w)).map (fun t => (t, tagOp w (opndVal s .n64 w.a 0 t)))
    let s := popAll s w
    laneNext { s with g := writeDst s.g w (if tagWide (cCode w) then .n64 else .n32) rs })

end Sys2Proof.Machine
end

