-- ==== Sys2Proof/Machine/Switch.lean ====
section
/-! DEFINITION. Switching teams (R413 to R422, R142, R238, R317, R357, R457): which groups are ready, the exchange of the
running and the shadow team, the switch to the save area and the restore. What the saved image looks like is not stated by
the manual: its bytes are free values (log 5), and a switched-out team keeps its state as the records of State. -/

namespace Sys2Proof.Machine

/-! ### Readiness (R298, R414) -/

/-- Does the next scalar word of the issuing group wait? -/
def scalarStalls (s : State) (i : Instr) : Bool :=
  match i with
  | .push c _ => decide (chanDepth s.g c.toNat ≤ chanLen s.g c.toNat)
  | .pop _ c | .peek _ c => chanLen s.g c.toNat == 0
  | .wflag m => !flagsClear s.g m.toNat
  | .issue _ | .issuex _ => decide (taskDepth ≤ s.g.taskq.length)
  | .cbind .. | .mtg .. | .mtsh .. | .mfk .. => !laneIdle s.g
  | .cfree c => !laneIdle s.g || ((bindOf s.g c.toNat).isSome && (chanLen s.g c.toNat != 0 || streamBusy s c.toNat))
  | .safe .. => !s.t.small && !laneIdle s.g
  | _ => false

/-- Would the scalar stream of the issuing group issue now? At `end` it would not. -/
def scalarReady (s : State) : Bool :=
  !s.g.atEnd && (match s.g.swait with
    | .remote _ => false
    | .saved _ => !savesDue s s.g
    | .acq b => queuesDone s s.g s.t.core b true
    | _ => match fetch4 s false s.t.core s.l.ctx s.g.pc.toNat with
      | .bad .. => true
      | .away .. => false
      | .word x => match decodeScalar (BitVec.ofNat 32 x) with
        | .ok i => !scalarStalls s i
        | .error _ => true)

/-- Does the word that the executing fragment is in the midst of wait: for the words of a name or records, for the move of a
`bindg`? -/
def midStalls (o : LOp) : Bool :=
  match o.kind with
  | .term => o.prog.any (fun p => p.ph == .sent && !o.vals.any (fun v => v.1 == p.th))
  | .claim => nameDue o
  | _ => !o.parts.isEmpty || decide (1 < o.left)

/-- Does a release hold a word back (R208)? -/
def releaseStalls (s : State) (f : Frag) (i : Instr) : Bool :=
  let due (scp : Scope) : Bool := loadsDue s.t s.g f || recordsDue s s.g || (!(scp == .grp) && uCount s s.g.uid != 0)
  match i with
  | .spawn _ | .phase _ | .emit _ => due .dev
  | .fulfil _ | .abandon _ | .bindg _ => false
  | _ => match entryOf i with
    | some (w, _) => (w.ord == .rel || w.ord == .ar || w.ord == .sc) && due w.scp
    | none => false

/-- Locks that an engine word would register, where its descriptor is sound (R232). -/
def locksOf (s : State) (i : Instr) : List Rng :=
  let of' (p : Planned) : List Rng := match p with
    | .plan _ p => p.src ++ p.dst
    | _ => []
  match i with
  | .cpy w => of' (planCpy w s)
  | .cpyt w => of' (planCpyt w s)
  | .gath w => of' (planGs w true s)
  | .scat w => of' (planGs w false s)
  | .coll w => of' (planColl w s)
  | _ => []

/-- Is there no room for the work of a word: a full matrix queue (R180), 64 engine operations (R222), the locks of a die (R232), 32 closed
batches (R229)? -/
def noRoom (s : State) (i : Instr) : Bool :=
  (isMatrix i && decide (Config.matrixQueue ≤ s.t.mq.length)) ||
  (match i with
    | .cpy _ | .cpyt _ | .gath _ | .scat _ | .coll _ => decide (Config.engineOps ≤ eopsOf s s.g.uid) || !lockRoom s s.l.ctx (locksOf s i)
    | .bclose _ => decide (32 ≤ openClosed s.g)
    | _ => false)

/-- Would a word of a started clause stall on a pending register, a full flag, a channel, a release, a queue, a batch or a monitor? -/
def wordStalls (s : State) (f : Frag) (i : Instr) : Bool :=
  if let some o := midOp s then midStalls o else
  releaseStalls s f i || (pendingFor s.g i).isSome || (!(activeIn s i == 0) && ((isLong i && flagsFull s.g f) || noRoom s i)) ||
  (match entryOf i with
    | some (w, _) => (match chansReady s w with | .stall _ => true | _ => false)
    | none => false) ||
  (match i with
    | .waitf _ | .claimw _ => decide (Config.monitors ≤ monitorsUsed s s.t.core)
    | .bwait w => match lowest (active s w) with
      | none => false
      | some t =>
        let d := (s.g.batchNo + 2 ^ 16 - opndVal s .n32 w.a 0 t % 2 ^ 16) % 2 ^ 16
        decide (d < 2 ^ 15) && s.g.batches.any (fun b => decide (b.no ≤ s.g.batchNo - d) && !b.done)
    | _ => false)

/-- Would the fragment in entry `e` of the issuing group issue now? -/
def fragReady (s : State) (e : Nat) (f : Frag) : Bool :=
  let s := { s with fi := e }
  s.g.task.isSome && (match f.wait with
  | .go | .fenced =>
    if f.idx = 0 then (match fetch12 s s.t.core s.l.ctx f.pc.toNat with
      | .bad .. => true
      | .away .. => false
      | .word x => flagsClear s.g (rawWait x))
    else (match clauseWord s f.len f.idx ((f.code[f.idx - 1]?).getD 0) with
      | some i => !wordStalls s f i
      | none => true)
  | .fenceX => xCount s s.g.uid == 0
  | .acqDue .. | .monHit .. => true
  | .acq b => queuesDone s s.g s.t.core b true
  | .fence b => queuesDone s s.g s.t.core b false
  | .barrier a p _ _ _ _ => bit (rdPoint s a).1 63 != p
  | .rearm .. => decide (monitorsUsed s s.t.core < Config.monitors)
  | .mem op _ => missDone s.g op
  | _ => false)

/-- Is a group ready: some fragment or its scalar stream would issue, or a queued task would start (R298)? -/
def groupReady (s : State) (uid : Nat) : Bool :=
  let s := focus s uid
  ctxState s s.l.ctx == 1 && !isStopped s s.t.core (partOf s.g) && !heldBack s s.g.uid &&
  (scalarReady s || (s.g.task.isNone && !s.g.taskq.isEmpty) || s.g.frs.any (fun p => fragReady s p.1 p.2))

def teamReady (s : State) (t : Team) : Bool := (groupsOfT s t.uid).any (fun g => groupReady s g.uid)

/-- Cycles of the running clock since `cyc` stood at n (R14). -/
def cyclesSince (s : State) (n : Nat) : Nat := (s.cyc - n) / 1000

/-- Every group of a team has waited for 2048 cycles (R414). -/
def longWait (s : State) (t : Team) : Bool :=
  !teamReady s t && (groupsOfT s t.uid).all (fun g => decide (2048 ≤ cyclesSince s g.lastAt))

/-! ### Unfinished teams of a grid (R297) -/

/-- Is a team the lowest-numbered unfinished one of its grid, or of the bin teams of its launch (R305)? -/
def isLowest (s : State) (t : Team) : Bool :=
  !(allT s).any (fun x => x.launch == t.launch && x.node.isSome == t.node.isSome && !(x.slot == .retired) && decide (x.idx < t.idx))

/-- Does every live group of a team wait at `phase` (R357)? -/
def allAtPhase (s : State) (t : Team) : Bool :=
  let gs := groupsOfT s t.uid
  let l := launchOfT s t
  !gs.isEmpty && gs.all (fun g => l.ended.contains g.uid)

/-! ### The shadow switch (R414) -/

def touch (s : State) (t : Team) : State := (groupsOfT s t.uid).foldl (fun s g => updG s g.uid (fun g => { g with lastAt := s.cyc })) s

/-- A team takes the running slot. -/
def switchIn (s : State) (t : Team) : State := touch (emitSwitch (updT (emitSwitch s 2 t) t.uid (fun t => { t with slot := .running })) 3 t) t

/-- The term words of a team's groups are cut (R334). -/
def cutTeam (s : State) (t : Team) : State := (groupsOfT s t.uid).foldl (fun s g => cutTerms s g.uid) s

/-- A team leaves the running slot for the shadow slot. -/
def toShadow (s : State) (t : Team) : State :=
  let s := cutTeam s t
  emitSwitch (updT (emitSwitch s 0 t) t.uid (fun t => { t with slot := .shadow })) 1 t

/-- Exchange the running and the shadow team of a core, unless R414 forbids it. -/
def exchange (s : State) (core : Nat) : Option State :=
  match running s core, shadow s core with
  | some a, some b => if 1 < a.clusterN then none else some (switchIn (toShadow s a) b)
  | _, _ => none

/-! ### Determinism buffers at a switch (R142) -/

/-- Entries of a context in the buffer of a core, launch by launch in the order they came. -/
def coreDets (s : State) (c core : Nat) : List (Nat × DetEnt) :=
  ((allL s).filter (fun l => l.ctx == c)).flatMap (fun l => (l.det.filter (fun e => e.core == core && !e.spilled)).map (fun e => (l.uid, e)))

/-- Spill entries in turn: the state with what has been written, and what ended it short (R142). -/
def spillAll (s : State) : List (Nat × DetEnt) → State × Option DevOut
  | [] => (s, none)
  | (u, e) :: r =>
    match spillEnt s u e with
    | .ok s => spillAll s r
    | x => (s, some x)

/-! ### The save area (R415) -/

/-- Registers a group of a large team keeps at its point (R418, R419): all below this number. -/
def keptRegs (t : Team) (g : Group) : Nat :=
  if t.small then t.vregs
  else match g.safe with
  | some m => min t.vregs (8 * bits m 6 0)
  | none => if g.atEnd && laneIdle g then 0 else t.vregs

/-- Does a group of a large team leave the tile bank unused (R418)? -/
def dropsTiles (g : Group) : Bool :=
  match g.safe with
  | some m => !bit m 7
  | none => g.atEnd && laneIdle g

/-- Bytes of a team's image: this model's count of what R415 lists, in whole pages of 4 KiB; of the tile bank only the
bytes that are not zero take room, twice each for their place (log 5). -/
def imageSize (s : State) (t : Team) : Nat :=
  let gs := groupsOfT s t.uid
  let per := gs.foldl (fun n g => n + 7168 + 256 * keptRegs t g) 0
  let bank := if gs.all dropsTiles && !t.small then 0 else 128 + min 524288 (2 * (t.tiles.length + t.accs.length))
  ceilDiv (per + 512 + t.scrB + 64 * t.sliceB * t.ngrp + bank + 64 * t.mq.length + 64 * (s.eops.filter (fun e => e.team == t.uid)).length) 4096 * 4096

/-- Other teams of a context whose images lie in its save area. -/
def savedTeams (s : State) (c u : Nat) : List Team := (allT s).filter (fun t => t.saveLen != 0 && t.uid != u && (launchOfT s t).ctx == c)

/-- The lowest place in the save area with room for n bytes, none when it does not fit. -/
def savePlace (s : State) (c u n : Nat) : Option Nat :=
  let l := savedTeams s c u
  let ends := 0 :: l.map (fun t => t.saveOff + t.saveLen)
  let ok (o : Nat) : Bool := l.all (fun t => decide (o + n ≤ t.saveOff ∨ t.saveOff + t.saveLen ≤ o))
  let fit := (ends.filter ok).foldl (fun m o => match m with | none => some o | some x => some (min x o)) (none : Option Nat)
  match fit with
  | some o => if o + n ≤ 2 ^ (sysBits s (rRec c 2) 5 0 + 12) then some o else none
  | none => none

/-- Write `n` pages of 4 KiB of image bytes, whose values the manual does not state. -/
def savePages (s : State) (c : Nat) : Nat → Nat → DevOut
  | _, 0 => .ok s
  | va, n + 1 =>
    match devWrite { s with fresh := s.fresh + 4096 } c va ((iota s.fresh 4096).map Config.freeByte) with
    | .ok s => savePages s c ((va + 4096) % 2 ^ 64) n
    | r => r

/-! ### Switching out (R415, R416, R419) -/

/-- The teams that leave with a team (R457). -/
def switchSet (s : State) (t : Team) : List Team := (clusterOf s t).filter (fun x => x.slot == .running)

/-- Are the operations of a group where R415 wants them: loads, atomics, special functions, the loads of names and records done,
unless a fragment waits on their memory? A term word in its midst is cut at the switch (R334). -/
def opsSettled (g : Group) : Bool :=
  g.ops.all (fun o => match o.kind with
    | .load => g.frs.any (fun p => match p.2.wait with
      | .mem i _ => i == o.id
      | _ => false)
    | .atomic | .special => false
    | .term => o.mid
    | .claim | .emit => o.parts.isEmpty && decide (o.left ≤ 1)
    | _ => true) &&
  (match g.swait with | .remote _ => false | _ => true)

/-- An engine operation that has not begun its accesses, or waits for members (R416). -/
def suspendable (e : EngOp) : Bool :=
  !e.started || (match e.kind with | .coll .. => e.result.isNone | _ => false)

/-- May a team leave its core now? -/
def settled (s : State) (t : Team) : Bool :=
  let gs := groupsOfT s t.uid
  gs.all (fun g => opsSettled g && (t.small || atPoint g) && !s.reqs.any (fun r => r.group == g.uid && !r.parked)) &&
  !s.path.any (fun e => e.launch == t.launch && e.tidx == t.idx && (match e.owner with | .group _ | .stream _ => true | _ => false)) &&
  (s.eops.filter (fun e => e.team == t.uid)).all suspendable

/-- What a switch to memory does to a fragment: its monitor is freed (R238). -/
def leaveFrag (f : Frag) : Frag :=
  match f.wait with
  | .monitor a cc b ord scp => { f with wait := .rearm a cc b ord scp }
  | _ => f

/-- Registers that are not saved read as zero after the restore (R418). -/
def leaveGroup (t : Team) (g : Group) : Group :=
  let n := 64 * keptRegs t g
  { g with
    v := if t.small then g.v else g.v.filter (fun e => decide (e.1 < n))
    pzV := if t.small then g.pzV else g.pzV.filter (fun k => decide (k < n))
    frs := g.frs.map (fun p => (p.1, leaveFrag p.2)) }

/-- Context-class faults are precise at the move (R409, R142, R415). -/
def switchFault (s : State) (t : Team) (c : FCause) (addr : Nat) : State :=
  contextStop s { ctx := (launchOfT s t).ctx, cause := c, addr := addr, core := t.core, team := t.idx, tuid := t.uid }

/-- Write a team's image; the state after, and whether the team may go. -/
def saveTeam (s : State) (t : Team) : State × Bool :=
  let c := (launchOfT s t).ctx
  match spillAll s (coreDets s c t.core) with
  | (s, some (.away aw)) => (park s c aw, false)
  | (s, some (.bad x)) => (switchFault s t x 0, false)
  | (s, _) =>
    let n := imageSize s t
    match savePlace s c t.uid n with
    | none => (switchFault s t .saveArea 0, false)
    | some o =>
      let va := ((sextW (sysBits s (rRec c 2) 56 12 * 4096) 57).toNat + o) % 2 ^ 64
      match savePages s c va (n / 4096) with
      | .away aw => (park s c aw, false)
      | .bad _ => (switchFault s t .saveArea va, false)
      | .ok s => (updT s t.uid (fun t => { t with saveOff := o, saveLen := n }), true)

/-- A team whose image is written leaves its core. -/
def leaveCore (s : State) (t : Team) : State :=
  let gs := groupsOfT s t.uid
  let zero := !t.small && gs.all dropsTiles
  let s := emitSwitch (cutTeam s t) 0 t
  let s := gs.foldl (fun s g => updG s g.uid (leaveGroup t)) s
  let s := updT s t.uid (fun t => { t with
    slot := .out, preempt := false
    tiles := if zero then [] else t.tiles
    accs := if zero then [] else t.accs
    shapes := if zero then [] else t.shapes
    pzT := if zero then [] else t.pzT
    pzZ := if zero then [] else t.pzZ })
  let mine (r : CReq) : Bool := r.team == t.uid
  let s := { s with
    reqs := s.reqs.map (fun r => if mine r then { r with monitor := false } else r)
    heldAns := s.heldAns.map (fun a => if gs.any (fun g => g.uid == a.group) then { a with mon := none } else a)
    eops := s.eops.map (fun e => if e.team = t.uid then { e with suspended := true } else e) }
  shadowTakes (emitSwitch s 1 t) t.core

/-- Write the images of a set of teams, in order; a failure ends the switch. -/
def saveTeams (s : State) : List Team → State × Bool
  | [] => (s, true)
  | t :: r =>
    match saveTeam s t with
    | (s, true) => saveTeams s r
    | x => x

/-- One switch to memory of a team with its cluster, once every part of it is settled (R415, R457). -/
def switchOut (s : State) (t : Team) : State :=
  let ts := switchSet s t
  if ts.isEmpty || !ts.all (settled s) then s
  else match saveTeams s ts with
  | (s, true) => ts.foldl (fun s t => match getT s t.uid with | some t => leaveCore s t | none => s) s
  | (s, false) => s

/-- Does a supervisor switch send a running team to memory, and not to a free shadow slot (R417)? -/
def toMemory (s : State) (t : Team) : Bool := !t.small || decide (1 < t.clusterN) || (shadow s t.core).isSome

/-- A request to pre-empt a team stops issue in each group as soon as it is at a point; every instruction boundary is one in a small
team (R415, R419). -/
def askPoint (s : State) (t : Team) : State :=
  (switchSet s t).foldl (fun s t => updT s t.uid (fun t => { t with preempt := true })) s

/-! ### Restoring (R415, R417, R421, R422) -/

/-- May a switched-out team run on a core: what its groups have observed has reached the core's die, so that no load of them
reads back in time (R206, R408). -/
def mayReturn (s : State) (t : Team) (core : Nat) : Bool :=
  (groupsOfT s t.uid).all (fun g => queuesDone s g core 0 true)

/-- A switched-out team takes the running slot of a core. -/
def restoreTeam (s : State) (t : Team) (core : Nat) : State :=
  let s := emitSwitch s 2 { t with core := core }
  let s := dropL1 s core
  let s := updT s t.uid (fun t => { t with preempt := false, slot := .running, core := core, saved := [], saveOff := 0, saveLen := 0 })
  let s := { s with
    eops := s.eops.map (fun e => if e.team = t.uid then { e with suspended := false, core := core } else e)
    reqs := s.reqs.map (fun r => if r.team = t.uid then { r with core := core } else r) }
  let s := (groupsOfT s t.uid).foldl (fun s g => replayInterval s g.uid) s
  let s := t.saved.foldl deliver s
  emitSwitch (touch s t) 3 { t with core := core }

end Sys2Proof.Machine
end

