-- ==== Sys2Proof/Machine/Sched.lean ====
section
/-! DEFINITION. Work graphs (R302 to R305, R351), work stealing (R306, R352 to R354), the Lap Clock's `beat` (R355), phases and
the Baton (R144 to R146, R356, R357). -/

namespace Sys2Proof.Machine

/-! ### Node table and bins (R303, R304) -/

/-- Word j of node v of the table a launch read. -/
def nodeW (l : Launch) (v j : Nat) : Nat := ((((l.nodes[v]?).getD [])[j]?).getD 0).toNat
def nodeCount (l : Launch) (v : Nat) : Nat := bits (nodeW l v 1) 7 0
def nodeSize (l : Launch) (v : Nat) : Nat := 8 * bits (nodeW l v 1) 15 8
/-- Timer of a node in ns. -/
def nodeTimer (l : Launch) (v : Nat) : Nat := 1000 * bits (nodeW l v 1) 31 16
def nodeGroups (l : Launch) (v : Nat) : Nat := bits (nodeW l v 1) 35 32 + 1
/-- Nodes of the table. -/
def nodeN (l : Launch) : Nat := bits (lw l 5) 23 16 + 1

/-- Bins of a node that are in use: open ones, and launched ones that wait for a core (log 22). -/
def binsUsed (l : Launch) (v : Nat) : Nat :=
  (l.bins.filter (fun b => b.node == v)).length + (l.binq.filter (fun b => b.node == v)).length

/-- A bin launches its team: it takes the next index after the root grid and waits for a core (R304, R305). -/
def binGo (l : Launch) (b : Bin) : Launch :=
  { l with
    bins := l.bins.filter (fun x => x.id != b.id)
    binq := l.binq ++ [{ idx := gridN l + l.binIdx, node := b.node, recs := b.recs, vec := b.vec }]
    binIdx := l.binIdx + 1 }

/-- Append one record to the oldest bin of a node with room, or to a new one; none while sixteen are full. -/
def binPut (s : State) (lu v : Nat) (data : List Byte) (vec : V4) : Option State :=
  match getL s lu with
  | none => none
  | some l =>
    let grow (b : Bin) : Bin := { b with recs := b.recs ++ [data], vec := v4max b.vec vec }
    let done (l : Launch) (b : Bin) : Launch := if nodeCount l v ≤ b.recs.length then binGo l b else l
    match l.bins.find? (fun b => b.node == v) with
    | some b => some (updL s lu (fun l => done { l with bins := mapFirst (fun x => x.id == b.id) grow l.bins } (grow b)))
    | none =>
      if 16 ≤ binsUsed l v then none
      else
        let b := grow { id := s.nid, node := v, start := s.now }
        some (updL { s with nid := s.nid + 1 } lu (fun l => done { l with bins := l.bins ++ [b] } b))

/-- The timer of a bin has expired (R304). -/
def execBinTimerExpiry (l b : Nat) (s : State) : Out :=
  .next (match getL s l with
    | none => s
    | some x =>
      match x.bins.find? (fun y => y.id == b) with
      | none => s
      | some y => if nodeTimer x y.node ≤ s.now - y.start ∧ ctxState s x.ctx = 1 then updL s l (fun l => binGo l y) else s)

/-! ### `emit` (R351) -/

/-- The words of a record of n bytes of each thread, with their addresses from the base captured at the start. -/
def recWords (n : Nat) (opnds : List (Nat × Nat × Nat)) : List (Nat × Nat × Nat) :=
  opnds.flatMap (fun q => (iota 0 (n / 8)).map (fun j => (q.1, j, (q.2.1 + 8 * j) % 2 ^ 64)))

/-- The checks of R257 of every word of every record; word j of thread t is part t + 64 × j. -/
def checkRecs (s : State) (sp : Space) : List (Nat × Nat × Nat) → Checks
  | [] => .ok []
  | (t, j, va) :: r =>
    match checkAcc s s.g.uid s.t s.l.ctx t sp .load va 8 8 with
    | .bad c => .bad c va
    | .away aw => .away aw
    | .ok a => match checkRecs s sp r with
      | .ok l => .ok ((t + 64 * j, a) :: l)
      | x => x

/-- Bytes of the record of thread t, as the operation has loaded them. -/
def emitRec (o : LOp) (t n : Nat) : List Byte := (iota 0 (n / 8)).flatMap (fun j => leBytes 8 (valOf o.vals (t + 64 * j)))

/-- Put the records of the threads that are still due into bins. -/
def emitPut (s : State) (o : LOp) (v : Nat) : List Nat → State
  | [] => laneNext { s with g := { s.g with ops := s.g.ops.filter (fun x => x.id != o.id) } }
  | t :: r =>
    match binPut s s.l.uid v (emitRec o t (nodeSize s.l v)) o.vec with
    | some s => emitPut s o v r
    | none => stall { s with g := { s.g with ops := mapFirst (fun x => x.id == o.id) (fun x => { x with act := maskOf (t :: r) }) s.g.ops } } 3 0

/-- The records' words are checked, then loaded as relaxed loads of their own (R351, R377). -/
def emitLoads (s : State) (w : LaneW) (o : LOp) (v : Nat) : State :=
  match checkRecs s (memSpace w) (recWords (nodeSize s.l v) o.opnds) with
  | .bad c va => laneFaultK s c va (akindNo .load)
  | .away aw => stall (park s s.l.ctx aw) 3 0
  | .ok accs =>
    let s := roastAll s .load accs
    let put (x : LOp) : LOp := { x with parts := accs.map (fun p => ⟨p.1, p.2⟩), opnds := [] }
    stall { s with g := { s.g with ops := mapFirst (fun x => x.id == o.id) put s.g.ops } } 3 0

/-- `emit` that has begun: its loads leave, all land, its records enter bins. -/
def emitGo (s : State) (w : LaneW) (o : LOp) (v : Nat) : State :=
  if !o.opnds.isEmpty then emitLoads s w o v
  else if !o.parts.isEmpty || decide (1 < o.left) then stall s 3 0
  else emitPut s o v (threads o.act)

/-- R36 and R259 name no `emit`, and R351 calls its record loads relaxed loads: here they count on no flag of the clause (log 18). -/
def execEmit (w : LaneW) (s : State) : Out :=
  let v := bits (x24n w) 7 0
  .next (match midOp s with
    | some o => emitGo s w o v
    | none =>
      if !isGraph s.l || decide (nodeN s.l ≤ v) then laneFault s .badNode 0
      else match releaseGate s .dev with
      | .hold s => s
      | .pass s =>
        let act := active s w
        if act = 0 then laneNext s
        else
          let o : LOp := { id := s.nid, kind := .emit, fid := (curF s).id, entry := s.fi, hdr := (curF s).pc, act := act, left := 1, mid := true,
                           opnds := (threads act).map (fun t => (t, readV64 s.g w.a.idx.toNat t, 0)), vec := s.g.car }
          emitGo { s with nid := s.nid + 1, g := { s.g with ops := s.g.ops ++ [o] } } w o v)

/-! ### Work stealing (R306) -/

/-- Words of work stealing stand only in a persistent launch. -/
def stealOk (s : State) (k : State → State) : State :=
  if isPers s.l then crossed s k else laneFault s .workStealing 0

/-- Every active thread receives a 32-bit value in D. -/
def giveReg (s : State) (w : LaneW) (x : Nat) : State :=
  { s with g := (threads (active s w)).foldl (fun g t => writeV g w.d.toNat t (BitVec.ofNat 32 x)) s.g }

/-- Every active thread receives a result block (R339). -/
def giveBlock (s : State) (w : LaneW) (code : Nat) : State :=
  { s with g := (threads (active s w)).foldl (fun g t =>
    writeV64 (writeV (writeV g w.d.toNat t (BitVec.ofNat 32 code)) (w.d.toNat + 1) t 0) (w.d.toNat + 2) t 0) s.g }

def execSpawn (w : LaneW) (s : State) : Out :=
  .next (stealOk s fun s => withChans s w fun _ =>
    match releaseGate s .dev with
    | .hold s => s
    | .pass s =>
      match lowest (active s w) with
      | none => laneNext (popAll s w)
      | some t =>
        let task := BitVec.ofNat 64 (opndVal s .n64 w.b 0 t)
        let given := s.t.mail.isSome
        let s := popAll s w
        let s := mailAnswer s s.t.uid 0 task s.g.car (some .dev)
        laneNext (replay (giveReg s w given.toNat) s.g.uid 2 .g 0 s.fi (perThread false ((threads (active s w)).map (fun t => (t, given.toNat))))))

/-- The grid's team that `steal` names, if it is placed and unfinished. -/
def victim (s : State) (v : Nat) : Option Team :=
  (allT s).find? (fun t => t.launch == s.l.uid && t.idx == v && t.node.isNone && !(t.slot == .retired))

/-- `steal`: busy or empty at once, or a request posted and a wait for its answer (R353). -/
def execSteal (w : LaneW) (s : State) : Out :=
  .next (stealOk s fun s => withChans s w fun _ =>
    match lowest (active s w) with
    | none => laneNext (popAll s w)
    | some th =>
      let v := if w.imm then x24n w else opndVal s .n32 w.b 0 th
      if gridN s.l ≤ v then laneFault s .workStealing 0
      else
        let s := popAll s w
        let now (code : Nat) : State :=
          laneNext (replay (giveBlock s w code) s.g.uid 2 .g 0 s.fi (perThreadN 16 ((threads (active s w)).map (fun t => (t, code)))))
        match victim s v with
        | none => now 2
        | some t =>
          if t.mail.isSome then now 1
          else
            let op := s.nid
            let o : LOp := { id := op, kind := .claim, fid := (curF s).id, entry := s.fi, hdr := (curF s).pc, pend := iota w.d.toNat 4,
                             act := active s w, d := w.d.toNat, left := 1 }
            let s := { s with nid := op + 1, g := { s.g with ops := s.g.ops ++ [o] } }
            let s := updT s t.uid (fun t => { t with mail := some { thief := s.g.uid, req := op } })
            modF (stall (unstall s) 4 0) (fun f => { stepOver f with wait := .answer op }))

/-- 64 µs after its posting a request is answered empty (R306). -/
def execStealTimeout (t : Nat) (s : State) : Out :=
  .next (match getT s t with
    | none => s
    | some x => match x.mail with
      | none => s
      | some m => if 64000 ≤ m.ns then mailEmpty s t else s)

def execYield (w : LaneW) (s : State) : Out :=
  .next (stealOk s fun s => laneNext (if active s w = 0 then s else mailEmpty s s.t.uid))

/-- The Lap Clock count of the group starts again (R355). -/
def execBeat (w : LaneW) (s : State) : Out :=
  .next (crossed s fun s => laneNext (if isPers s.l && !(active s w == 0) then { s with g := { s.g with lap := 0 } } else s))

/-! ### Phases (R356) -/

def execPhase (_w : LaneW) (s : State) : Out :=
  .next (match gatherAll s with
    | .hold s => stall s 4 0
    | .pass s =>
      match releaseGate s .dev with
      | .hold s => s
      | .pass s =>
        let s := { s with l := { s.l with ended := s.l.ended ++ [s.g.uid], cvec := v4max s.l.cvec s.g.car } }
        modF (stall s 4 0) (fun f => { stepOver f with wait := .phase }))

/-! ### The Baton (R144) -/

/-- Order of the drain: team, group, thread, sequence number (R142). -/
def detLess (a b : DetEnt) : Bool :=
  if a.team ≠ b.team then decide (a.team < b.team)
  else if a.group ≠ b.group then decide (a.group < b.group)
  else if a.thread ≠ b.thread then decide (a.thread < b.thread)
  else decide (a.seq < b.seq)

def detInsert (e : DetEnt) : List DetEnt → List DetEnt
  | [] => [e]
  | x :: r => if detLess e x then e :: x :: r else x :: detInsert e r

def detSort (l : List DetEnt) : List DetEnt := l.foldr detInsert []

/-- Where an entry is applied: its address is translated again, since its page may have moved (R374). -/
def detPlace (s : State) (c : Nat) (e : DetEnt) : Chk :=
  match e.acc.sp with
  | .g => match walk s c .red e.acc.va with
    | .ok pa key unc _ _ _ => .ok { e.acc with loc := .mem pa, key := key, cached := !unc }
    | .bad f => .bad f
    | .away aw => .away aw
  | _ => .ok e.acc

/-- What keeps the Baton from an entry: an away page, or a line to be recalled first. -/
def detWaits (s : State) (c : Nat) (e : DetEnt) : Option State :=
  match detPlace s c e with
  | .away aw => some (park s c aw)
  | .ok a => match a.loc with
    | .mem pa => if inMem s pa && isScat s (homeDie s pa) pa then some (want s (lineOf pa)) else none
    | _ => none
  | .bad _ => none

/-- One entry is applied at its home as an atomic move; the launch's vectors cover the number it received (R145, R290). -/
def detApply (lu : Nat) (s : State) (e : DetEnt) : State :=
  match getL s lu with
  | none => s
  | some l =>
    if !(ctxState s l.ctx == 1) then s else
    match detPlace s l.ctx e with
    | .away .. => s
    | .bad c => contextStop s { ctx := l.ctx, cause := c, addr := e.acc.va, core := e.core, group := e.group, team := e.team }
    | .ok a =>
      let r := rdPoint s a
      if r.2.2 then contextStop s { ctx := l.ctx, cause := .poison, addr := e.acc.va, core := e.core, group := e.group, team := e.team }
      else
        let n := atomNew (fpctl l) e.op e.ty e.rnd r.1 e.value
        let s := n.causes.foldl (fun s c => logA s l { siteRec s 0xFFFFFFFF 0 e.group 0 e.team 2 (tyCode e.ty) e.thread with cause := causeCode c }) s
        let data := leBytes a.n n.code
        match a.loc with
        | .mem pa =>
          let x := arriveBytes s pa a.key data l.cvec .device 0 false
          let s := updL x.2 lu (fun l => { l with cvec := v4raise l.cvec (homeDie s pa) x.1, obsv := v4raise l.obsv (homeDie s pa) x.1 })
          monitorCheck s a
        | p => monitorCheck (wrScratch s p data false) a

/-- What a retired group of a launch has issued and is not acknowledged: the commit is its release too (R145). -/
def retiredDue (s : State) (l : Launch) : Bool :=
  s.path.any (fun e => e.launch == l.uid && (match e.owner with
    | .group u | .stream u => (getG s u).isNone
    | _ => false))

/-- Has every group of the grid, bin teams included, ended its part or retired (R145)? Some group waits, or entries are due. -/
def phaseDue (s : State) (l : Launch) : Bool :=
  let gs := (teamsOfL s l.uid).flatMap (fun t => groupsOfT s t.uid)
  decide (gridN l ≤ l.placed) && l.binq.isEmpty && gs.all (fun g => l.ended.contains g.uid) && (!gs.isEmpty || !l.det.isEmpty) &&
  !retiredDue s l && ctxState s l.ctx == 1

/-- A group that waits at `phase` goes on to the acquire with the commit's vector. -/
def phaseWake (s : State) (vec : V4) (g : Group) : State :=
  let t := teamOfG s g
  let s := g.frs.foldl (fun s p => if p.2.wait = .phase ∧ p.2.blk.isSome then
      emit s 0x02 1 (launchOfT s t).ctx t.core 4 (some (idB (partOf g) g.idx p.1 t.idx 0)) (some g.uid) else s) s
  let b := s.nid
  updG s g.uid (fun g => { g with
    obs := v4max g.obs vec
    frs := g.frs.map (fun p => if p.2.wait = .phase then (p.1, { p.2 with wait := .acqDue .dev b, blk := none }) else p) })

/-- The commit (R145): the Baton runs once over the grid, then `PHASENO` rises and every party goes on. -/
def commit (s : State) (l : Launch) : State :=
  if !phaseDue s l then s
  else match l.det.findSome? (detWaits s l.ctx) with
  | some s => s
  | none =>
    let s := (detSort l.det).foldl (detApply l.uid) s
    if !(ctxState s l.ctx == 1) then s
    else
      let vec := ((getL s l.uid).getD l).cvec
      let gs := (teamsOfL s l.uid).flatMap (fun t => groupsOfT s t.uid)
      let s := updL s l.uid (fun l => { l with det := [], ended := [], pvec := vec, phaseNo := (l.phaseNo + 1) % 2 ^ 32 })
      gs.foldl (fun s g => phaseWake s vec g) s

def execPhaseCommit (l : Nat) (s : State) : Out :=
  .next (match getL s l with
    | some x => commit s x
    | none => s)

/-! ### Giving up the slot (R357) -/

/-- Is a team of the grid still to be placed, a switched-out one with its part still to run among them (R357, R455)? -/
def othersToPlace (s : State) (l : Launch) : Bool :=
  decide (l.placed < gridN l) || !l.binq.isEmpty ||
  (teamsOfL s l.uid).any (fun t => t.slot == .out && !allAtPhase s t)

/-- A team wholly at `phase` is switched out as a supervisor switch would, to a free shadow slot or to memory (R417), while others wait for a slot. -/
def execPhaseYieldSlot (t : Nat) (s : State) : Out :=
  .next (match getT s t with
    | none => s
    | some x =>
      let l := launchOfT s x
      if x.slot = .running ∧ (switchSet s x).all (allAtPhase s) ∧ othersToPlace s l ∧ ctxState s l.ctx = 1 then
        (if toMemory s x then switchOut s x else toShadow s x)
      else s)

end Sys2Proof.Machine
end

