-- ==== Sys2Proof/Machine/Launching.lean ====
section
/-! DEFINITION. Launch queues (R288 to R292, R456), node tables (R303), the offer of free cores by deficit round-robin (R294 to
R296), the placing of teams, clusters, bin teams and switched-out teams (R27, R297, R304, R305), completion (R292). -/

namespace Sys2Proof.Machine

/-! ### Registers of a queue (R288, R290) -/

/-- Slots of the ring. -/
def ringSlots (s : State) (q : Nat) : Nat := 2 ^ (min (sysBits s (rQ q 1) 3 0) 12 + 4)
def qHead (s : State) (q : Nat) : Nat := sysGet s (rQ q 3)
def qTail (s : State) (q : Nat) : Nat := sysGet s (rQ q 2)

/-- A doorbell: kept, or ignored with err (R290). -/
def writeQtail (s : State) (q : Nat) (v : Nat) : State :=
  let d := (v % 2 ^ 32 + 2 ^ 32 - qHead s q) % 2 ^ 32
  if ringSlots s q < d ∨ d < (qTail s q + 2 ^ 32 - qHead s q) % 2 ^ 32 then sysSetBit s (rQ q 1) 14 true
  else sysPut s (rQ q 2) (v % 2 ^ 32)

/-- `QCTL`: rerr and err clear where 1 is written; ctx and size are kept while en is 1 (R288). -/
def writeQctl (s : State) (q : Nat) (v : Nat) : State :=
  let n := rQ q 1
  let old := sysGet s n
  let x := setBits 0 40 32 (bits v 40 32)
  let x := setBits x 15 14 (bits old 15 14 - (bits old 15 14 &&& bits v 15 14))
  let x := setBits x 13 13 (bits v 13 13)
  let from' := if bit old 13 then old else v
  sysPut s n (setBits (setBits x 11 4 (bits from' 11 4)) 3 0 (bits from' 3 0))

/-! ### Reading a launch (R289, R291, R303, R456) -/

/-- Virtual address of slot k of the ring. -/
def slotVa (s : State) (q k : Nat) : Nat :=
  ((sextW (sysBits s (rQ q 0) 56 12 * 4096) 57).toNat + 64 * (k % ringSlots s q)) % 2 ^ 64

/-- The device reads words of the context, each run in one page; a failed read, an away page, or the words. -/
def readWords (s : State) (c va n : Nat) : DevIn := devRead s c va (8 * n)

/-- The 64-bit words of a run of bytes. -/
def wordsOf (d : List Byte) : List Word := (iota 0 (d.length / 8)).map (fun i => BitVec.ofNat 64 (leNat ((d.drop (8 * i)).take 8)))

def wordAt (w : List Word) (i : Nat) : Nat := ((w[i]?).getD 0).toNat

/-- An address that is canonical and a multiple of 4. -/
def codeAddr (x : Nat) : Bool := canonical x && x % 4 == 0

/-- Does a resource word hold only legal fields (R289 word 3)? -/
def resOk (w : Nat) : Bool :=
  decide (bits w 11 6 ≤ 32) && decide (bits w 29 16 ≤ 12288) && decide (bits w 15 12 = 0) && decide (bits w 31 30 = 0) && decide (bits w 63 44 = 0)

/-- Do the resources of `g` groups fit on a core (R51, R52, R291)? -/
def fits (w g : Nat) : Bool :=
  decide (resScratch w + 64 * resSlice w * g ≤ 786432) && decide (resRegs w * ceilDiv g 4 ≤ 1024)

/-- The control slot passes R291, but for its node table. -/
def recordOk (w : List Word) : Bool :=
  let w2 := wordAt w 2
  let w3 := wordAt w 3
  let g := bits w2 35 32 + 1
  let n := (bits w2 38 36 + 1) * (bits w2 41 39 + 1)
  let teams := if bits w2 31 0 = 0 then 2 ^ 32 else bits w2 31 0
  let det := bit w2 45
  codeAddr (wordAt w 0) && codeAddr (wordAt w 1) && !bit w2 42 && decide (bits w2 63 56 = 0) && decide (n ≤ 12) &&
  decide (teams % n = 0) && (n == 1 || decide (teams / n ≤ 65536)) && resOk w3 && fits w3 g &&
  decide (wordAt w 4 % 65536 = 0) && (!det || (decide (wordAt w 4 ≠ 0) && decide (bits (wordAt w 5) 15 0 ≠ 0))) &&
  decide (bits (wordAt w 5) 63 24 = 0) && decide (wordAt w 6 % 32 = 0) && (bit w2 47 == decide (wordAt w 6 ≠ 0)) &&
  decide (wordAt w 7 % 8 = 0)

/-- An entry of the node table passes R303. -/
def nodeOk (w : List Word) : Bool :=
  let w1 := wordAt w 1
  let w2 := wordAt w 2
  let count := bits w1 7 0
  let rsize := bits w1 15 8
  wordAt w 0 % 4 == 0 && decide (1 ≤ count ∧ count ≤ 64) && decide (1 ≤ rsize ∧ rsize ≤ 32) && decide (1 ≤ bits w1 31 16) &&
  decide (bits w1 63 36 = 0) && resOk w2 && decide (bits w2 63 30 = 0) && fits w2 (bits w1 35 32 + 1) &&
  decide (count * rsize * 8 ≤ resScratch w2) && decide (wordAt w 3 = 0)

/-- Outcome of reading a node table: it waits, or its entries as far as they can be read. -/
inductive NodeRd where
  | wait (aw : Away)
  | got (l : List (List Word)) (whole : Bool)

def readNodes (s : State) (c va : Nat) : Nat → NodeRd
  | 0 => .got [] true
  | n + 1 =>
    match readWords s c va 4 with
    | .away aw => .wait aw
    | .bad _ => .got [] false
    | .ok d _ =>
      match readNodes s c ((va + 32) % 2 ^ 64) n with
      | .got l b => .got (wordsOf d :: l) b
      | r => r

/-- Outcome of the completion-word write (R292). -/
def completionWord (slot status : Nat) : List Byte := leBytes 8 (slot % 2 ^ 32 + 2 ^ 32 * status)

/-- Write the completion word in the queue's context; what does not translate is dropped. `none`: it waits. -/
def writeCword (s : State) (c va slot status : Nat) (vec : V4) : Option State × State :=
  if va = 0 ∨ va % 8 ≠ 0 then (some s, s)
  else match devWriteV s c va (completionWord slot status) vec with
  | .ok s => (some s, s)
  | .bad _ => (some s, s)
  | .away aw => (none, park s c aw)

def doneRises (s : State) (q : Nat) : State := sysPut s (rQ q 6) ((sysGet s (rQ q 6) + 1) % 2 ^ 32)

/-- A read of the ring failed (R456). -/
def ringFailed (s : State) (q : Nat) : State := sysSetBit (sysSetBit (clearWin s .device 0) (rQ q 1) 15 true) (rQ q 1) 13 false

/-- Head passes the two slots. -/
def headOn (s : State) (q : Nat) : State := sysPut s (rQ q 3) ((qHead s q + 2) % 2 ^ 32)

/-- A launch is refused: completed at once with status 1 (R291). -/
def refuse (s : State) (q c cword : Nat) : State :=
  match writeCword s c cword (qHead s q) 1 {} with
  | (some s, _) => doneRises (headOn { clearWin s .device 0 with qlast := mput s.qlast 0 q 0, qvec := mput s.qvec {} q {} } q) q
  | (none, s) => s

/-- A launch is accepted: it waits for cores. -/
def accept (s : State) (q c : Nat) (w args : List Word) (nodes : List (List Word)) : State :=
  let prev := mget s.qlast 0 q
  let live := (getL s prev).isSome && prev != 0
  let l : Launch := { uid := s.nid, queue := q, slotNo := qHead s q, ctx := c, w := w, args := args, nodes := nodes }
  let l := if isAfter l then { l with after := if live then some prev else none, ovec := if live then {} else mget s.qvec {} q } else l
  headOn { clearWin s .device 0 with launches := s.launches ++ [l], nid := s.nid + 1, qlast := mput s.qlast 0 q l.uid } q

/-- Does the device serve queue q (R384, R433, R436)? -/
def servesQueue (s : State) (q : Nat) : Bool :=
  (match s.service with
    | .full => true
    | .bringUp => q == 0
    | .mailbox | .dead => false) && queueEn s q

/-- One launch is read (R290, R456, R291). -/
def readLaunch (s : State) (q : Nat) : State :=
  let h := qHead s q
  let c := queueCtx s q
  if !servesQueue s q || decide ((qTail s q + 2 ^ 32 - h) % 2 ^ 32 < 2) then s
  else match readWords s c (slotVa s q h) 8, readWords s c (slotVa s q (h + 1)) 8 with
  | .bad _, _ | _, .bad _ => ringFailed s q
  | .away aw, _ | _, .away aw => park s c aw
  | .ok dw _, .ok da _ =>
    let w := wordsOf dw
    if !recordOk w then refuse s q c (wordAt w 7)
    else if !bit (wordAt w 2) 47 then accept s q c w (wordsOf da) []
    else match readNodes s c (wordAt w 6) (bits (wordAt w 5) 23 16 + 1) with
    | .wait aw => park s c aw
    | .got l whole => if whole && l.all nodeOk then accept s q c w (wordsOf da) l else refuse s q c (wordAt w 7)

def execLaunchRead (q : Nat) (s : State) : Out := .next (if q < 64 then readLaunch s q else s)

/-! ### Completion (R292, R411) -/

/-- Entries of store paths and engine operations of a launch, retired groups included. -/
def launchDrained (s : State) (l : Launch) : Bool :=
  !s.path.any (fun e => e.launch == l.uid) && (l.status.isSome || !s.eops.any (fun e => e.launch == l.uid))

/-- Has every group retired and is nothing of a work graph left? -/
def launchOver (s : State) (l : Launch) : Bool :=
  decide (gridN l ≤ l.placed) && (teamsOfL s l.uid).all (fun t => t.slot == .retired) && l.bins.isEmpty && l.binq.isEmpty && l.det.isEmpty

/-- Every record of a launch leaves the device; what its teams were charged falls on the queue. -/
def dropLaunch (s : State) (l : Launch) : State :=
  let ts := teamsOfL s l.uid
  let s := ts.foldl (fun s t => (groupsOfT s t.uid).foldl (fun s g => delG s g.uid) s) s
  let s := ts.foldl (fun s t =>
    let s := if t.slot = .retired then s else setDef s l.queue (getDef s l.queue - cyclesOf t)
    delT s t.uid) s
  let s := delL s l.uid
  ts.foldl (fun s t => if t.slot = .running then shadowTakes s t.core else s) s

/-- The count of completions rises, and what waits for the launch may go on with the vector of its `.sys` release (R290, R292). -/
def finishRest (s : State) (l : Launch) : State :=
  let s := doneRises (dropLaunch s l) l.queue
  let s := if mget s.qlast 0 l.queue = l.uid then { s with qvec := mput s.qvec {} l.queue l.obsv } else s
  (allL s).foldl (fun s x => if x.after = some l.uid then updL s x.uid (fun x => { x with after := none, ovec := l.obsv }) else s) s

/-- The launch completes with a status (R292); it waits while its completion word does. -/
def finishLaunch (s : State) (l : Launch) (status : Nat) : State :=
  match writeCword s l.ctx (lw l 7) l.slotNo status l.obsv with
  | (none, s) => s
  | (some s, _) => finishRest s l

/-- The zero-length host read of the completion's release (R249). -/
def completionFlush (s : State) (l : Launch) : State :=
  openWin (updL s l.uid (fun l => { l with flush := 1 })) srcDev 0
    { id := 0, kind := .flush, peer := false, ctx := l.ctx, owner := .device, pa := sysGet s (rCtx l.ctx 4), n := 0, lop := l.uid }

def execLaunchComplete (l : Nat) (s : State) : Out :=
  .next (match getL s l with
    | none => s
    | some x =>
      let ends := match x.status with
        | some _ => !x.dumping
        | none => launchOver s x
      if !launchDrained s x || !ends then s
      else if x.hostSt && x.flush == 0 then completionFlush s x
      else if x.flush = 1 then s
      else finishLaunch s x (x.status.getD 0))

/-! ### Candidates of a queue (R290, R296, R297, R305) -/

/-- What a queue would place next: a switched-out team with its cluster, the next teams of a grid, or a bin team. -/
inductive Cand where
  | back (t : Nat)
  | grid (l : Nat)
  | bin (l : Nat)
  deriving DecidableEq, Repr

/-- Put a launch in its place in the order of reading. -/
def inOrder (l : Launch) : List Launch → List Launch
  | [] => [l]
  | x :: r => if l.uid ≤ x.uid then l :: x :: r else x :: inOrder l r

/-- Running launches of a queue, in the order they were read. -/
def launchesOf (s : State) (q : Nat) : List Launch :=
  ((allL s).filter (fun l => l.queue == q && l.status.isNone && ctxState s l.ctx == 1)).foldr inOrder []

/-- Switched-out teams of a launch that have something to do, the lowest first (R297, R357). -/
def returning (s : State) (l : Launch) : Option Team :=
  ((teamsOfL s l.uid).filter (fun t => t.slot == .out && !(clusterOf s t).all (fun x => !(x.slot == .out) || allAtPhase s x))).foldl
    (fun m t => match m with
      | none => some t
      | some x => if t.idx < x.idx then some t else m) none

/-- The first launch that has teams to place; one that waits for its predecessor holds back those after it. -/
def freshCand : List Launch → Option Cand
  | [] => none
  | l :: r =>
    if l.placed < gridN l then (if l.after.isNone then some (.grid l.uid) else none)
    else if !l.binq.isEmpty then some (.bin l.uid)
    else freshCand r

def candOf (s : State) (q : Nat) : Option Cand :=
  let ls := launchesOf s q
  match ls.findSome? (returning s) with
  | some t => some (.back t.uid)
  | none => freshCand ls

/-- Launch, width and height of the rectangle a candidate needs, and whether its teams are large (R296, R413). -/
structure Need where
  l : Launch
  w : Nat := 1
  h : Nat := 1
  large : Bool := false

def needOf (s : State) (c : Cand) : Option Need :=
  match c with
  | .back u => match getT s u with
    | none => none
    | some t => some { l := launchOfT s t, w := t.clusterW, h := t.clusterN / t.clusterW, large := !t.small }
  | .grid u => match getL s u with
    | none => none
    | some l => some { l := l, w := cwN l, h := chN l,
                       large := !isSmall (resRegs (lw l 3)) (grpN l) (resScratch (lw l 3)) (resSlice (lw l 3)) }
  | .bin u => match getL s u with
    | none => none
    | some l => match l.binq with
      | [] => none
      | b :: _ => some { l := l, large := !isSmall (resRegs (nodeW l b.node 2)) (nodeGroups l b.node) (resScratch (nodeW l b.node 2))
                                                  (resSlice (nodeW l b.node 2)) }

/-! ### Cores (R294, R296, R413) -/

/-- May a team of a queue take this core: it is free, held for no other queue, and has the slots. -/
def coreFor (s : State) (q : Nat) (large : Bool) (core : Nat) : Bool :=
  (running s core).isNone && (!large || (shadow s core).isNone) && !s.holdCores.any (fun p => p.1 == core && p.2 != q) &&
  (s.service == .full || decide (core < 64))

/-- Cores of the rectangle of w columns and h rows whose first corner is at `core`, row by row; none when it does not lie on the die. -/
def rectAt (core w h : Nat) : List Nat :=
  if core % 8 + w ≤ 8 ∧ core / 8 % 8 + h ≤ 8 then (iota 0 h).flatMap (fun r => (iota 0 w).map (fun c => core + 8 * r + c)) else []

/-- A rectangle of free cores that holds `core`: the first one, which is the device's choice (R296). -/
def rectWith (s : State) (q : Nat) (n : Need) (core : Nat) : Option (List Nat) :=
  ((iota (64 * dieOf core) 64).map (fun c => rectAt c n.w n.h)).find?
    (fun r => !r.isEmpty && r.contains core && r.all (coreFor s q n.large))

/-- Any rectangle of free cores on the device. -/
def rectAny (s : State) (q : Nat) (n : Need) : Bool :=
  ((iota 0 256).map (fun c => rectAt c n.w n.h)).any (fun r => !r.isEmpty && r.all (coreFor s q n.large))

/-- The die with the most free cores, ties to the lower number. -/
def holdDie (s : State) (q : Nat) : Nat :=
  let free (d : Nat) : Nat := ((iota (64 * d) 64).filter (coreFor s q false)).length
  dies.foldl (fun m d => if free m < free d then d else m) 0

/-- Cores a queue holds. -/
def coresHeld (s : State) (q : Nat) : Nat :=
  ((allT s).filter (fun t => t.slot == .running && (launchOfT s t).queue == q)).length

/-- A queue takes part in a round: it has teams ready, lies under its limit and has a quantum (R294). -/
def takesPart (s : State) (q : Nat) (n : Need) : Bool :=
  let lim := sysBits s (rQ q 1) 40 32
  decide (sysGet s (rQ q 4) ≠ 0) && (lim == 0 || decide (coresHeld s q + n.w * n.h ≤ lim))

/-! ### Placing -/

/-- The teams of the next cluster of a grid start together on their rectangle (R27, R296). -/
def placeGrid (s : State) (l : Launch) (cores : List Nat) : State :=
  let n := cores.length
  let w3 := lw l 3
  let s := updL s l.uid (fun l => { l with placed := l.placed + n })
  cores.zipIdx.foldl (fun s p =>
    let t : Team := { launch := l.uid, idx := l.placed + p.2, cluster := (l.placed / n) % 65536, rank := p.2, clusterN := n, clusterW := cwN l,
                      ngrp := grpN l, core := p.1, small := isSmall (resRegs w3) (grpN l) (resScratch w3) (resSlice w3), vregs := resRegs w3,
                      sliceB := resSlice w3, scrB := resScratch w3 }
    startTeam s t (BitVec.ofNat 64 (lw l 0)) l.args l.ovec (if isAfter l then some s.nid else none)) s

/-- The next bin team starts: its records lie in its scratchpad, a7 is the node, a8 the number of records (R304, R305); it is a party of the
phase that runs, and so acquires the last commit too (R145). -/
def placeBin (s : State) (l : Launch) (core : Nat) : State :=
  match l.binq with
  | [] => s
  | b :: r =>
    let w2 := nodeW l b.node 2
    let g := nodeGroups l b.node
    let s := updL s l.uid (fun l => { l with binq := r })
    let t : Team := { launch := l.uid, idx := b.idx, cluster := b.idx % 65536, ngrp := g, core := core,
                      small := isSmall (resRegs w2) g (resScratch w2) (resSlice w2), vregs := resRegs w2, sliceB := resSlice w2,
                      scrB := resScratch w2, scr := mputs [] 0 0 b.recs.flatten, node := some b.node }
    startTeam s t (BitVec.ofNat 64 (nodeW l b.node 0))
      (l.args.take 6 ++ [BitVec.ofNat 64 b.node, BitVec.ofNat 64 b.recs.length]) (v4max b.vec l.pvec) (some 0)

/-- A switched-out team and its cluster return, each to its place in the rectangle. -/
def placeBack (s : State) (u : Nat) (cores : List Nat) : State :=
  match getT s u with
  | none => s
  | some t =>
    (clusterOf s t).foldl (fun s x => if x.slot = .out then restoreTeam s x ((cores[x.rank]?).getD (cores.headD 0)) else s) s

/-- A queue's candidate on a rectangle; its held cores are free again. -/
def placeCand (s : State) (q : Nat) (c : Cand) (cores : List Nat) : State :=
  let s := { s with served := q, holdCores := s.holdCores.filter (fun p => p.2 != q) }
  match c with
  | .back u => placeBack s u cores
  | .grid u => match getL s u with
    | some l => placeGrid s l cores
    | none => s
  | .bin u => match getL s u with
    | some l => placeBin s l (cores.headD 0)
    | none => s

/-- May a candidate run on these cores now? -/
def candFits (s : State) (c : Cand) (cores : List Nat) : Bool :=
  match c with
  | .back u => match getT s u with
    | none => false
    | some t => (clusterOf s t).all (fun x => mayReturn s x ((cores[x.rank]?).getD (cores.headD 0)))
  | _ => true

/-! ### The offer (R294) -/

/-- Outcome of one pass over the queues. -/
inductive Pass where
  | place (q : Nat) (c : Cand) (cores : List Nat)
  | hold (q : Nat)
  | blocked
  | noneYet

/-- One pass: the first queue in order with a positive deficit that can place on this core. -/
def passOver (s : State) (core : Nat) : List Nat → Pass
  | [] => .noneYet
  | q :: r =>
    match candOf s q with
    | none => passOver s core r
    | some c =>
      match needOf s c with
      | none => passOver s core r
      | some n =>
        if !takesPart s q n || decide (getDef s q ≤ 0) then passOver s core r
        else match rectWith s q n core with
        | some cores => if candFits s c cores then .place q c cores else .blocked
        | none =>
          if 1 < n.w * n.h ∧ !rectAny s q n ∧ dieOf core = holdDie s q ∧ coreFor s q n.large core then .hold q
          else match passOver s core r with
          | .noneYet => .blocked
          | x => x

/-- A queue with no team ready keeps no credit (R294). -/
def passDef (s : State) (q : Nat) : State :=
  if (candOf s q).isNone ∧ 0 < getDef s q then setDef s q 0 else s

/-- Queues that take part, with quantum and deficit. -/
def roundOf (s : State) (qs : List Nat) : List (Nat × Nat × Int) :=
  qs.filterMap (fun q => match candOf s q with
    | none => none
    | some c => match needOf s c with
      | none => none
      | some n => if takesPart s q n then some (q, sysGet s (rQ q 4), getDef s q) else none)

/-- Rounds until some deficit is positive, made at once: after k rounds a deficit is min(D + kQ, Q). -/
def rounds (s : State) (e : List (Nat × Nat × Int)) : State :=
  let need (p : Nat × Nat × Int) : Nat := if 0 < p.2.2 then 0 else ceilDiv (1 - p.2.2).toNat p.2.1
  let k := e.foldl (fun m p => min m (need p)) (e.foldl (fun m p => max m (need p)) 0)
  e.foldl (fun s p => if k = 0 then s else setDef s p.1 (min (p.2.2 + k * p.2.1) p.2.1)) s

/-- Queues in the order of the offer of a core. -/
def offerOrder (s : State) (core : Nat) : List Nat :=
  let qs := ((iota (s.served + 1) 64).map (· % 64)).filter (servesQueue s)
  match s.holdCores.find? (fun p => p.1 == core) with
  | some p => qs.filter (· == p.2)
  | none => qs

/-- What an offer of a core comes to, with the deficits it leaves. -/
def offer (s : State) (core : Nat) : State × Pass :=
  let qs := offerOrder s core
  match passOver s core qs with
  | .noneYet =>
    let s := qs.foldl passDef s
    let e := roundOf s qs
    if e.isEmpty then (s, .noneYet)
    else
      let s := rounds s e
      (s, passOver s core qs)
  | .place q c cores => ((qs.takeWhile (· != q)).foldl passDef s, .place q c cores)
  | x => (qs.foldl passDef s, x)

def offerable (s : State) (core : Nat) : Bool :=
  decide (core < 256) && (running s core).isNone && (s.service == .full || (s.service == .bringUp && decide (core < 64)))

/-- After an offer that places no team, a shadow team takes the running slot once it is ready (R414). -/
def shadowReturns (s : State) (core : Nat) : State :=
  match running s core, shadow s core with
  | none, some t => if teamReady s t then switchIn s t else s
  | _, _ => s

/-- One offer of a free core. A core that an offer holds for a queue stays held until the queue places on it: R296 does not say when a hold ends whose
launch is stopped or reset, or whose queue is disabled (log 36). -/
def offerCore (s : State) (core : Nat) : State :=
  if !offerable s core then s
  else match offer s core with
  | (s, .place q c cores) => placeCand s q c cores
  | (s, .hold q) => shadowReturns { s with holdCores := if s.holdCores.contains (core, q) then s.holdCores else s.holdCores ++ [(core, q)] } core
  | (s, _) => shadowReturns s core

def execCoreOffer (core : Nat) (s : State) : Out := .next (offerCore s core)

/-- The offer of a core as far as it returns team t from memory. -/
def returnTeam (s : State) (t core : Nat) : State :=
  if !offerable s core then s
  else match offer s core with
  | (s', .place q (.back u) cores) => if u = t then placeCand s' q (.back u) cores else s
  | _ => s

/-! ### Doorbell and control as moves from outside -/

def execQtailWrite (q : Nat) (v : Word) (s : State) : Out := .next (if q < 64 then writeQtail s q v.toNat else s)
def execQctlWrite (q : Nat) (v : Word) (s : State) : Out := .next (if q < 64 then writeQctl s q v.toNat else s)

end Sys2Proof.Machine
end

