-- ==== Sys2Proof/Machine/Dump.lean ====
section
/-! DEFINITION. Dumps (R425 to R429): the records of a stopped context and the dump engine. The manual gives the sections and
their sizes; where it does not give a field's place inside its section the model chose one (log 5). -/

namespace Sys2Proof.Machine

/-! ### Records (R426, R427) -/

def words8 (l : List Nat) : List Byte := l.flatMap (leBytes 8)

/-- A record: kind, length with its head, stamp, body. -/
def dumpRec (kind stamp : Nat) (body : List Byte) : List Byte :=
  leBytes 8 (kind + 2 ^ 16 * (16 + body.length)) ++ leBytes 8 stamp ++ body

/-- Exactly n bytes: the list, cut or filled with zeros. -/
def padTo (n : Nat) (l : List Byte) : List Byte := l.take n ++ List.replicate (n - l.length) 0

/-- A number for the state of a fragment (R45): 0 ready, 1 waiting on memory, 2 on a channel or register, 3 at its reconvergence
address; 4 and 5 the waits for other fragments and parks (log 5). A fragment that stalls at its word says so by the cause of its begin
record. -/
def waitNo (f : Frag) : Nat :=
  match f.wait with
  | .go => (match f.blk with
    | none => 0
    | some 1 | some 2 => 2
    | some 4 => 5
    | some _ => 1)
  | .mem .. | .acqOp .. | .remote _ | .acqDue .. | .acq _ | .fenceX | .fence _ | .fenced => 1
  | .join => 3
  | .gather | .cross | .phase => 4
  | .monitor .. | .rearm .. | .barrier .. | .named .. | .answer _ | .monHit .. => 5

def beginBody (r : FaultRec) : List Byte :=
  words8 [r.ctx, causeNo r.cause, r.sub, r.addr, r.pc, r.core, r.part, r.group, r.team, r.frag]

def off4 (l : Launch) (a : Option Word) : List Byte := leBytes 4 (match a with | some x => laneOff l x | none => 0xFFFFFF)

def identBytes (t : Team) (g : Group) : List Byte :=
  words8 [partOf g + 2 ^ 8 * g.idx + 2 ^ 16 * (t.idx % 2 ^ 32), g.pc.toNat, g.atEnd.toNat + 2 * g.frame.isSome.toNat + 4 * g.task.isSome.toNat,
          g.frame.getD 0]

def fragBytes (l : Launch) : Option Frag → List Byte
  | none => List.replicate 32 0
  | some f => leBytes 8 f.mask.toNat ++ off4 l (some f.pc) ++ leBytes 4 f.idx ++ off4 l f.rcv ++
      leBytes 4 (match f.lin with | x :: _ => x.entry | [] => 2 ^ 32 - 1) ++ leBytes 8 (waitNo f)

def heldBytes (l : Launch) (h : Held) : List Byte := leBytes 8 h.mask.toNat ++ off4 l (some h.pc) ++ off4 l h.rejoin

/-- A binding as the descriptor of R239 that would make it, a stream's address being that of its next entry; an unbound channel shows
width code 3 (log 5). -/
def bindBytes (g : Group) (c : Nat) : List Byte :=
  match g.bind.find? (fun b => b.chan == c) with
  | none => leBytes 8 (3 * 2 ^ 60)
  | some b =>
    let a := if b.kind < 2 then b.rank * 2 ^ 16 + b.grp * 2 ^ 8 + (b.peer - 12) else b.addr + (if b.vec then 256 else 8) * b.pos
    leBytes 8 (b.kind * 2 ^ 62 + b.vec.toNat * 2 ^ 60 + (if b.kind < 2 then 0 else spaceCode b.sp * 2 ^ 57) + a % 2 ^ 57)

/-- Pending register writes: vector registers and masks of operations, and the register of a scalar load that waits; and poisoned
registers, marked in bit [31]. Above the vector registers stand the a registers at 0x1000, the u registers at 0x2000, the masks at 0x3000
(log 5). -/
def scoreBytes (g : Group) : List (List Byte) :=
  g.ops.flatMap (fun o => (o.pend ++ o.pendK.map (0x3000 + ·)).map (fun r => leBytes 4 r ++ leBytes 4 o.entry ++ leBytes 8 o.act.toNat)) ++
  (if g.sdst = 0 then [] else [leBytes 4 (0x1000 + g.sdst) ++ leBytes 12 0]) ++
  ((g.pzV.map (· / 64)).eraseDups).map (fun r =>
    leBytes 4 (2 ^ 31 + r) ++ leBytes 4 0 ++ leBytes 8 (maskOf ((g.pzV.filter (fun k => k / 64 == r)).map (· % 64))).toNat) ++
  g.pzA.map (fun r => leBytes 4 (2 ^ 31 + 0x1000 + r) ++ leBytes 12 0) ++
  g.pzU.map (fun r => leBytes 4 (2 ^ 31 + 0x2000 + r) ++ leBytes 12 0)

/-- The sections of R427 up to the scoreboard; the sets that have popped a held level and wait for its threads stand above the held stack's
depth (log 5); the registers that `ctx.rest` may change are `editable` below. -/
def groupBody (l : Launch) (t : Team) (g : Group) : List Byte :=
  let sb := scoreBytes g
  identBytes t g ++ words8 ((iota 0 64).map (fun r => (readA g r).toNat)) ++ words8 ((iota 0 64).map (fun r => (readU g r).toNat)) ++
  words8 ((iota 0 16).map (fun n => (readK g n).toNat)) ++ padTo 16 ((iota 0 12).flatMap (fun f => leBytes 1 (mget g.fl 0 f))) ++
  padTo 32 (g.taskq.flatMap (fun a => off4 l (some a))) ++ leBytes 16 g.taskq.length ++
  (iota 0 8).flatMap (fun e => fragBytes l (fget g.frs e)) ++
  padTo 256 ((g.held ++ g.frs.flatMap (fun p => p.2.back)).flatMap (heldBytes l)) ++ leBytes 16 g.held.length ++
  (iota 0 8).flatMap (fun c => let q := mget g.ch [] c; leBytes 8 q.length ++ padTo 128 (words8 (q.map (·.toNat)))) ++
  (iota 8 4).flatMap (fun c => let q := mget g.chv [] c; leBytes 16 q.length ++
    padTo 1024 (q.flatMap (fun v => padTo 256 (v.flatMap (fun x => leBytes 4 x.toNat))))) ++
  (iota 12 4).flatMap (bindBytes g) ++
  leBytes 16 sb.length ++ sb.flatten ++
  (iota 0 t.vregs).flatMap (fun r => (iota 0 64).flatMap (fun th => leBytes 4 (readV g r th).toNat))

/-- The team record (R426 kind 3). -/
def teamBody (s : State) (t : Team) : List Byte :=
  let nb (i : Nat) : List Byte :=
    let b := mget t.nb {} i
    leBytes 8 (b.phase.toNat + 2 ^ 8 * b.arrived + 2 ^ 16 * b.expected + 2 ^ 32 * b.waiters) ++
      leBytes 6 b.vec.n0 ++ leBytes 6 b.vec.n1 ++ leBytes 6 b.vec.n2 ++ leBytes 6 b.vec.n3
  let ids := (s.eops.filter (fun e => e.team == t.uid)).map (·.id)
  let ls := s.locks.filter (fun k => ids.contains k.op)
  (iota 0 16).flatMap nb ++ words8 ((iota 0 16).map (fun i => (mget t.shapes shapeReset i).toNat)) ++
  mgets t.tiles 0 0 262144 ++ mgets t.accs 0 0 262144 ++
  leBytes 16 t.mq.length ++ t.mq.flatMap (fun e => words8 [e.hdr.toNat, e.step]) ++
  leBytes 16 ls.length ++ ls.flatMap (fun k => words8 [k.lo, k.hi, spaceCode k.sp + 8 * k.dst.toNat, k.holder])

/-! ### What a dump holds (R425) -/

/-- One record of a dump. -/
inductive DRec where
  | first (r : FaultRec)
  | group (uid : Nat)
  | team (uid : Nat)
  | cons (r : FaultRec)
  | nested (r : FaultRec)
  | fin (flags : Nat)

/-- Groups of a dump: those of the faulting partition, of the faulting cluster, of a switched-out team. -/
def dumpGroups (s : State) (d : Dump) : List Group :=
  let r := d.first
  let more : List Nat := match getT s r.tuid with
    | some t => if 1 < t.clusterN then (clusterOf s t).map (fun x => x.uid) else if t.slot = Slot.out then [t.uid] else []
    | none => []
  (ctxGroups s d.ctx).filter (fun g =>
    let t := teamOfG s g
    more.contains g.team || ((t.slot == .running || t.slot == .shadow) && t.core == r.core && partOf g == r.part))

/-- Nested records of a dump. -/
def nestedN (d : Dump) : Nat := (d.more.filter (·.1)).length

/-- The records of a dump in their order; one that comes while it is written stands after those before it (R424, R428). -/
def dumpRecs (s : State) (d : Dump) : List DRec :=
  let gs := dumpGroups s d
  [.first d.first] ++ gs.map (fun g => .group g.uid) ++ ((gs.map (fun g => g.team)).eraseDups).map .team ++
  d.more.map (fun p => if p.1 then .nested p.2 else .cons p.2) ++ [.fin (2 ^ 8 * (nestedN d % 256))]

def drecBytes (s : State) (stamp : Nat) : DRec → List Byte
  | .first r => dumpRec 1 stamp (beginBody r)
  | .group u => match getG s u with
    | some g => dumpRec 2 stamp (groupBody (launchOfG s g) (teamOfG s g) g)
    | none => []
  | .team u => match getT s u with
    | some t => dumpRec 3 stamp (teamBody s t)
    | none => []
  | .cons r => dumpRec 4 stamp (words8 [r.addr, r.part, r.group, r.team])
  | .nested r => dumpRec 5 stamp (beginBody r)
  | .fin f => dumpRec 6 stamp (leBytes 16 f)

/-! ### The dump engine (R425, R428, R429) -/

/-- Write a run of bytes through the tables of a context, page by page. -/
def devWriteRun (s : State) (c va : Nat) : Nat → List Byte → DevOut
  | 0, _ => .ok s
  | n + 1, data =>
    if data.isEmpty then .ok s else
    let m := 4096 - va % 4096
    match devWrite s c va (data.take m) with
    | .ok s => devWriteRun s c ((va + m) % 2 ^ 64) n (data.drop m)
    | r => r

/-- Address of the dump area of a context, and its bytes. -/
def dumpVa (s : State) (c : Nat) : Nat := (sextW (sysBits s (rRec c 3) 56 12 * 4096) 57).toNat
def dumpSize (s : State) (c : Nat) : Nat := 2 ^ (sysBits s (rRec c 3) 5 0 + 12)

/-- The running dump ends: its record, its launches may complete, the next one starts. -/
def dumpOver (s : State) (d : Dump) (r : List Dump) : State :=
  let f := d.first
  let s := emit s 0x07 5 d.ctx f.core (causeNo f.cause) (some (idB f.part f.group f.frag f.team 0)) none
  let s := syncDump { s with dumps := r }
  (allL s).foldl (fun s l => if l.ctx = d.ctx then updL s l.uid (fun l => { l with dumping := false }) else s) s

/-- The end record of a dump that cannot go on; one that cannot be written is counted. -/
def dumpEnd (s : State) (d : Dump) (flags : Nat) : State :=
  let p := takeStamp s d.first.core
  let data := drecBytes p.2 p.1 (.fin (flags + 2 ^ 8 * (nestedN d % 256)))
  if dumpSize s d.ctx < d.pos + data.length then dumpLost s
  else match devWriteRun p.2 d.ctx ((dumpVa s d.ctx + d.pos) % 2 ^ 64) 2 data with
  | .ok s => s
  | _ => dumpLost s

/-- The next record of the running dump is written. -/
def dumpWrite (s : State) : State :=
  match s.dumps with
  | [] => s
  | d :: r =>
    let f := d.first
    let begun (s : State) : State :=
      if d.k = 0 then emit s 0x07 4 d.ctx f.core (causeNo f.cause) (some (idB f.part f.group f.frag f.team 0)) none else s
    if d.struck then dumpOver (dumpEnd s d 1) d r else
    match (dumpRecs s d)[d.k]? with
    | none => dumpOver s d r
    | some x =>
      let p := takeStamp s f.core
      let data := drecBytes p.2 p.1 x
      if dumpSize s d.ctx < d.pos + data.length then dumpOver (dumpLost s) d r
      else match devWriteRun p.2 d.ctx ((dumpVa s d.ctx + d.pos) % 2 ^ 64) (data.length / 4096 + 2) data with
      | .ok s => { begun s with dumps := { d with k := d.k + 1, pos := d.pos + data.length } :: r }
      | .away aw => park s d.ctx aw
      | .bad _ => dumpOver (dumpEnd s d 1) d r

/-- A reset meets a dump of its context: a running one is cut, a waiting one dropped and counted (R431). -/
def cutDump (s : State) (c : Nat) : State :=
  let s := match s.dumps with
    | [] => s
    | d :: r => if d.ctx = c then dumpOver (dumpEnd s d 3) d r else s
  let n := (s.dumps.filter (fun d => d.ctx == c)).length
  syncDump ((iota 0 n).foldl (fun s _ => dumpLost s) { s with dumps := s.dumps.filter (fun d => d.ctx != c) })

end Sys2Proof.Machine
end

