-- ==== Sys2Proof/Machine/Sign.lean ====
section
/-! DEFINITION. ECDSA over brainpoolP384r1 with SHA-384 (R383): the curve of RFC 5639, signing with the device's identity key
(R385) and the check of a firmware image (R384). The curve's numbers and the algorithm are taken from outside the manual
(log 43). -/

namespace Sys2Proof.Machine

/-- The field, the coefficients, the base point and its order. -/
def bpP : Nat := 0x8CB91E82A3386D280F5D6F7E50E641DF152F7109ED5456B412B1DA197FB71123ACD3A729901D1A71874700133107EC53
def bpA : Nat := 0x7BC382C63D8C150C3C72080ACE05AFA0C2BEA28E4FB22787139165EFBA91F90F8AA5814A503AD4EB04A8C7DD22CE2826
def bpB : Nat := 0x04A8C7DD22CE28268B39B55416F0447C2FB77DE107DCD2A62E880EA53EEB62D57CB4390295DBC9943AB78696FA504C11
def bpX : Nat := 0x1D1C64F068CF45FFA2A63A81B7C13F6B8847A3E77EF14FE3DB7FCAFE0CBD10E8E826E03436D646AAEF87B2E247D4AF1E
def bpY : Nat := 0x8ABE1D7520F9C2A45CB1EB8E95CFD55262B70B29FEEC5864E19C054FF99129280E4646217791811142820341263C5315
def bpQ : Nat := 0x8CB91E82A3386D280F5D6F7E50E641DF152F7109ED5456B31F166E6CAC0425A7CF3AB6AF6B7FC3103B883202E9046565

/-- b^e modulo m, for an exponent of at most `fuel` bits. -/
def powMod (m : Nat) : (fuel b e : Nat) → Nat
  | 0, _, _ => 1 % m
  | n + 1, b, e =>
    let t := powMod m n (b * b % m) (e / 2)
    if e % 2 = 1 then b * t % m else t

/-- Inverse modulo a prime of 384 bits. -/
def invMod (m x : Nat) : Nat := powMod m 384 (x % m) (m - 2)

/-- A point of the curve; none is the neutral one. -/
abbrev Pt := Option (Nat × Nat)

def onCurve (x y : Nat) : Bool := decide (x < bpP ∧ y < bpP) && y * y % bpP == (x * x * x + bpA * x + bpB) % bpP

/-- The point of slope l through (x, y) and (u, _). -/
def ptThird (l x y u : Nat) : Pt :=
  let z := (l * l + 2 * bpP - x - u) % bpP
  some (z, (l * (x + bpP - z) + bpP - y) % bpP)

def ptAdd : Pt → Pt → Pt
  | none, q => q
  | p, none => p
  | some (x, y), some (u, v) =>
    if x = u then
      if (y + v) % bpP = 0 then none
      else ptThird ((3 * x * x + bpA) * invMod bpP (2 * y) % bpP) x y x
    else ptThird ((v + bpP - y) * invMod bpP (u + bpP - x) % bpP) x y u

/-- k times a point, for k of at most `fuel` bits. -/
def ptMul : (fuel k : Nat) → Pt → Pt
  | 0, _, _ => none
  | n + 1, k, p =>
    let t := ptMul n (k / 2) (ptAdd p p)
    if k % 2 = 1 then ptAdd p t else t

def bpG : Pt := some (bpX, bpY)

/-- The signature of a digest with key d and nonce k; none when k gives none. -/
def signOne (d k : Nat) (digest : List Byte) : Option (Nat × Nat) :=
  match ptMul 384 k bpG with
  | none => none
  | some (x, _) =>
    let r := x % bpQ
    let t := invMod bpQ k * (beNat digest + r * d) % bpQ
    if r = 0 ∨ t = 0 then none else some (r, t)

/-- A number from 1 to the order less 1. -/
def toScalar (n : Nat) : Nat := 1 + n % (bpQ - 1)

/-- The signature of a message with the identity key: r then s, 48 bytes each, big-endian; a nonce that gives none is passed over. -/
def signMsg (msg : List Byte) (no : Nat) : List Byte :=
  match (iota no 8).findSome? (fun i => signOne (toScalar Config.identityKey) (toScalar (Config.signNonce i)) (sha384 msg)) with
  | some (r, t) => beBytes 48 r ++ beBytes 48 t
  | none => List.replicate 96 0

/-- Does a signature of a digest verify with the public key (x, y)? -/
def verifies (x y : Nat) (digest sig : List Byte) : Bool :=
  let r := beNat (sig.take 48)
  let t := beNat (sig.drop 48)
  let w := invMod bpQ t
  sig.length == 96 && decide (0 < r ∧ r < bpQ ∧ 0 < t ∧ t < bpQ) && onCurve x y &&
  (match ptAdd (ptMul 384 (beNat digest * w % bpQ) bpG) (ptMul 384 (r * w % bpQ) (some (x, y))) with
    | some (z, _) => z % bpQ == r
    | none => false)

/-- The check of boot ROM (R384): the key that comes with the image is the one whose digest is fused, and signs the image. The
key is its two coordinates, 48 bytes each. -/
def imageGood (image sig key : List Byte) : Bool :=
  key.length == 96 && sha384 key == Config.keyFuse && verifies (beNat (key.take 48)) (beNat (key.drop 48)) (sha384 image) sig

end Sys2Proof.Machine
end

