-- ==== Sys2Proof/Machine/Isolation.lean ====
section
/-! DEFINITION. Contexts, key slots, invalidation, page walks, migration, the Roaster, attestation and row activation counters
(R363 to R385): the writes of their registers and the moves they start. -/

namespace Sys2Proof.Machine

/-! ### Contexts and key slots (R365, R379) -/

/-- `CTXPT`: kept only while en is 0; setting en makes the context live. -/
def writeCtxpt (s : State) (c v : Nat) : State :=
  if ctxLive s c then s
  else
    let s := sysPut s (rCtx c 0) (setBits (setBits 0 63 63 (bits v 63 63)) 51 12 (bits v 51 12))
    if bit v 63 then setCtxState s c 1 else s

def execCtxptWrite (c : Nat) (v : Word) (s : State) : Out := .next (if c < 256 then writeCtxpt s c v.toNat else s)

/-- `KEYSLOT` n: a fresh key, or none. The generation stands for the key. -/
def writeKeyslot (s : State) (n v : Nat) : State :=
  if n = 0 ∨ sysBit s (rKey n) 0 = bit v 0 then s
  else if bit v 0 then sysPut { s with keygen := mput s.keygen 0 n (s.nid + 1), nid := s.nid + 1 } (rKey n) 1
  else sysPut { s with keygen := mput s.keygen 0 n (s.nid + 1), nid := s.nid + 1 } (rKey n) 0

def execKeyslotWrite (n : Nat) (v : Word) (s : State) : Out := .next (if n < 256 then writeKeyslot s n v.toNat else s)

/-! ### Invalidation (R372) -/

/-- `TLBINVC`: start an invalidation; while one runs a write is ignored with err. -/
def writeTlbinvc (s : State) (v : Nat) : State :=
  let old := sysGet s 0x1306
  if bit old 63 then sysSetBit s 0x1306 62 true
  else
    let err := bit old 62 && !bit v 62
    let va := (sextW (sysBits s 0x1305 56 12 * 4096) 57).toNat
    { sysPut s 0x1306 (2 ^ 63 + err.toNat * 2 ^ 62 + bits v 39 0) with
      invals := s.invals ++ [{ ctx := bits v 7 0, va := va, len := bits v 39 8,
                               walks := (s.walks.filter (fun w => w.ctx == bits v 7 0 && w.failed.isNone)).map (·.id) }] }

def execTlbinvcWrite (v : Word) (s : State) : Out := .next (writeTlbinvc s v.toNat)

/-- A range of virtual addresses of a context; length 0 is the whole context. -/
def inRange (lo len va n : Nat) : Bool := len == 0 || decide (va < lo + len ∧ lo < va + n)

/-- Is an access of context c to the range that was translated before serial number `b` not yet performed or acknowledged (R372,
R205)? Loads of windows are among them. -/
def accessDue (s : State) (c lo len b : Nat) : Bool :=
  let hit (a : Acc) : Bool := a.sp == .g && inRange lo len a.va a.n
  s.path.any (fun e => decide (e.id < b) && e.ctx == c && hit e.acc) ||
  s.wins.any (fun w => decide (w.id < b) && w.ctx == c && inRange lo len w.va w.n) ||
  (allG s).any (fun g => ctxOfG s g == c && g.ops.any (fun o => decide (o.id < b) && o.parts.any (fun p => hit p.acc)))

/-- A parked `waitf` on the range will be translated again. -/
def rearmRange (s : State) (c lo len : Nat) : State :=
  (allG s).foldl (fun s g => if ctxOfG s g = c then
    updG s g.uid (fun g => { g with frs := g.frs.map (fun p => match p.2.wait with
      | .monitor a cc b ord scp => if a.sp = .g ∧ inRange lo len a.va a.n then (p.1, { p.2 with wait := .rearm a cc b ord scp }) else p
      | _ => p) }) else s) s

/-- Span of the page that an entry at a level covers. -/
def levelSpan (level : Nat) : Nat := 2 ^ (48 - 9 * level)

/-- Is the 4 KiB page of a walk in a range? -/
def walkIn (c lo len : Nat) (w : PWalk) : Bool := w.ctx == c && inRange lo len w.page 4096

/-- Every TLB and walker drops what it holds of a range; what ended walks have found is forgotten with it, and a walk of the context that is under
way, which may hold an old table entry, enters nothing any more. -/
def dropTlb (s : State) (c lo len : Nat) : State :=
  let kept (x : WKeep) : Bool := x.ctx == c && inRange (lo % 2 ^ 57) len (x.pre * levelSpan x.level) (levelSpan x.level)
  { s with
    tlb := s.tlb.filter (fun x => !(x.ctx == c && inRange lo len x.base x.size))
    wkeeps := s.wkeeps.filter (fun x => !kept x)
    walks := (s.walks.filter (fun w => !(w.failed.isSome && walkIn c lo len w))).map (fun w => if w.ctx = c ∧ w.failed.isNone then { w with stale := true } else w) }

/-- The oldest invalidation (R372): translations go at once; busy clears when the walks that had started by then have ended and nothing
translated through what was dropped is due. -/
def invalStep (s : State) : State :=
  match s.invals with
  | [] => s
  | i :: r =>
    match i.bound with
    | none =>
      let s := dropTlb s i.ctx i.va (4096 * i.len)
      { s with invals := { i with bound := some s.nid, walks := (s.walks.filter (fun w => w.ctx == i.ctx && w.failed.isNone)).map (·.id) } :: r, nid := s.nid + 1 }
    | some b =>
      if s.walks.any (fun w => i.walks.contains w.id && w.failed.isNone) || accessDue s i.ctx i.va (4096 * i.len) b then s
      else
        sysSetBit { rearmRange s i.ctx i.va (4096 * i.len) with invals := r } 0x1306 63 false

def execTlbInvalidationComplete (s : State) : Out := .next (invalStep s)

/-! ### Walks (R371) -/

/-- The leaf entry that translates an address, whatever its key and rights: its address and word. -/
def leafFrom (s : State) (va : Nat) : Nat → Nat → Nat → Option (Nat × Nat)
  | 0, _, _ => none
  | fuel + 1, level, base =>
    let ea := base + 8 * pteIndex level va
    let e := rdPhys s ea 8
    if !bit e 0 || badEntry s level e then none
    else if bit e 1 then leafFrom s va fuel (level + 1) (ptePa e)
    else some (ea, e)

def leafOf (s : State) (c va : Nat) : Option (Nat × Nat) :=
  let root := ptePa (sysGet s (rCtx c 0))
  if !canonical va || !ctxLive s c || !inMem s root then none else leafFrom s va 5 0 root

def pageSize (leaf : Nat) : Nat := 2 ^ pageLog (bits leaf 63 60)
def pageBase (leaf va : Nat) : Nat := va - va % pageSize leaf

/-- Walkers of a die. -/
def walkers : Nat := 64

/-- Change a walk. -/
def updW (s : State) (id : Nat) (f : PWalk → PWalk) : State := { s with walks := mapFirst (fun w => w.id == id) f s.walks }

/-- A walk ends without a leaf; its walker is free. One that an invalidation has passed leaves nothing. -/
def walkFails (s : State) (id : Nat) (c : FCause) : State :=
  updW { s with walks := s.walks.filter (fun w => !(w.id == id && w.stale)) } id (fun w => { w with going := false, failed := some c })

/-- A walk waits for one of the 64 walkers of its die, which then starts at the root. -/
def walkBegin (s : State) (w : PWalk) : State :=
  let die := dieOf w.core
  if walkers ≤ (s.walks.filter (fun x => x.going && dieOf x.core == die)).length then s
  else
    let root := ptePa (sysGet s (rCtx w.ctx 0))
    let s := countDie s die 0x06 (some w.ctx) 1
    if !inMem s root then walkFails s w.id .badEntry
    else updW s w.id (fun w => { w with going := true, level := 0, base := root })

/-- The entry that a walk reads next: one that its die's walkers keep, if they use it, or the word at its home (R371). -/
def walkEntry (s : State) (w : PWalk) : Nat × State :=
  let die := dieOf w.core
  let pre := w.page % 2 ^ 57 / levelSpan w.level
  let here (x : WKeep) : Bool := x.die == die && x.ctx == w.ctx && x.level == w.level && x.pre == pre
  let fresh (s : State) : Nat × State :=
    let ea := w.base + 8 * pteIndex w.level w.page
    let e := rdPhys s ea 8
    let s := openSeg s ea
    (e, if bit e 0 && !badEntry s w.level e && !w.stale then { s with wkeeps := ⟨die, w.ctx, w.level, pre, e⟩ :: s.wkeeps.filter (fun x => !here x) } else s)
  match (if w.stale then none else s.wkeeps.find? here) with
  | some x => if Config.freeChoice s.fresh % 2 = 0 then (x.entry, { s with fresh := s.fresh + 1 }) else fresh { s with fresh := s.fresh + 1 }
  | none => fresh s

/-- The leaf of a walk enters the core's TLB, unless an invalidation has passed the walk (R372). -/
def walkEnds (s : State) (w : PWalk) (e : Nat) : State :=
  let s := { s with walks := s.walks.filter (fun x => x.id != w.id) }
  if w.stale then s
  else { s with tlb := s.tlb ++ [{ core := w.core, ctx := w.ctx, base := pageBase e w.page, size := pageSize e, leaf := e,
                                   addr := w.base + 8 * pteIndex w.level w.page }] }

/-- A walker reads one entry (R371, R370). -/
def walkRead (s : State) (w : PWalk) : State :=
  let r := walkEntry s w
  let e := r.1
  if !bit e 0 || (!bit e 1 && paKind s (ptePa e) == .unmapped) then walkFails r.2 w.id .unmapped
  else if badEntry s w.level e then walkFails r.2 w.id .badEntry
  else if bit e 1 then updW r.2 w.id (fun w => { w with level := w.level + 1, base := ptePa e })
  else walkEnds r.2 w e

/-- One move of the walk that a group of a core has started on the page of an address (R371). -/
def walkStep (s : State) (core c va : Nat) : State :=
  match s.walks.find? (fun w => w.core == core && w.ctx == c && w.page == walkPage va && w.failed.isNone) with
  | none => s
  | some w => if w.going then walkRead s w else walkBegin s w

def execPageWalk (core c : Nat) (va : Word) (s : State) : Out := .next (walkStep s core c va.toNat)

/-! ### Landing entries as pins (R244) -/

def landA (s : State) (e : Nat) : Nat := sysGet s (0x3A00 + 2 * e)
def landB (s : State) (e : Nat) : Nat := sysGet s (0x3A01 + 2 * e)
def landBase (s : State) (e : Nat) : Nat := bits (landA s e) 51 21 * 2 ^ 21
def landSize (s : State) (e : Nat) : Nat := bits (landB s e) 20 0 * 2 ^ 21

/-- Does any enabled landing entry cover a byte of the range? -/
def pinned (s : State) (pa n : Nat) : Bool :=
  (iota 0 256).any (fun e => decide (landSize s e ≠ 0 ∧ pa < landBase s e + landSize s e ∧ landBase s e < pa + n))

/-! ### Migration (R373, R374, R376) -/

/-- `MIGCMDC`: err clears where 1 is written; a command is queued, or ignored with err while 64 wait. -/
def writeMigcmdc (s : State) (v : Nat) : State :=
  let s := if bit v 63 then sysSetBit s 0x1304 63 false else s
  if 64 ≤ (s.migq.filter (fun m => !m.byFault)).length then sysSetBit s 0x1304 63 true
  else
    let va := (sextW (sysBits s 0x1303 56 12 * 4096) 57).toNat
    { sysSetBits s 0x1304 8 0 (bits v 8 0) with migq := s.migq ++ [{ ctx := bits v 7 0, va := va, away := bit v 8, byFault := false }] }

def execMigcmdcWrite (v : Word) (s : State) : Out := .next (writeMigcmdc s v.toNat)

/-- A migration-class record with the page's address (R393). -/
def emitMig (s : State) (code c kind page : Nat) : State := emit s 0x09 code c srcDev kind (some (page % 2 ^ 64 * 2 ^ 64)) (some 0)

/-- A move is refused with a record of kind 4; leaf and page stay as they are. -/
def refuseMove (s : State) (c sz page : Nat) (r : List MigMove) : State :=
  { emitMig (migRecord s c 4 sz page 0) 3 c 4 page with migq := r }

/-- Is any byte of the frame on its way to a die view, or covered by a copy of an atomic cache? -/
def frameBusy (s : State) (pa n : Nat) : Bool :=
  s.inq.any (fun u => match u.k with
    | .bytes p d _ => decide (p < pa + n ∧ pa < p + d.length)
    | .runs ws _ => ws.any (fun w => decide (w.1 < pa + n ∧ pa < w.1 + w.2.length))
    | .same p d _ _ => decide (p < pa + n ∧ pa < p + d.length)
    | .mark l | .clear l _ => decide (128 * l < pa + n ∧ pa < 128 * l + 128)) ||
  s.path.any (fun e => match e.acc.loc with
    | .mem p => decide (p < pa + n ∧ pa < p + e.acc.n)
    | _ => false)

/-- Lines of a frame that update-only copies hold. -/
def copiedLines (s : State) (pa n : Nat) : List Nat :=
  (s.copies.map (·.line)).filter (fun l => decide (128 * l < pa + n ∧ pa < 128 * l + 128))

/-- The page's bytes at their home under its key slot, with stamps and poison, as they will stand in the new frame. -/
def moveBytes (s : State) (old new n key : Nat) : State :=
  let byte (i : Nat) : Byte := rdByte s (homeDie s (old + i)) (old + i) key
  let vec (i : Nat) : V4 := let d := homeDie s (old + i); stampVec d (mget s.stamps {} (vkey d (old + i)))
  let data := (iota 0 n).map byte
  let vecs := (iota 0 n).map vec
  let bad := (iota 0 n).map (fun i => pzByte s (homeDie s (old + i)) (old + i))
  let s := ((sectorsOf old n) ++ (sectorsOf new n)).foldl (fun s sec => openSeg s (32 * sec)) s
  let s := (sectorsOf new n).foldl (fun s sec => retag s key sec) s
  let nums := (dies.map (fun d => v4get s.seqn d + 1))
  let num (i : Nat) : Nat := (nums[homeDie s (new + i)]?).getD 0
  let homes := dies.filter (fun d => decide (16384 ≤ n) || homeDie s new == d)
  let s := { s with seqn := homes.foldl (fun v d => v4set v d (v4get v d + 1)) s.seqn }
  let stamps := vecs.zipIdx.map (fun p => (⟨num p.2, p.1⟩ : Stamp))
  let units := ((bad.zipIdx.filter (fun p => p.1)).map (fun p => (new + p.2) / 4)).eraseDups
  dies.foldl (fun s d => { s with
    mem := mputs s.mem 0 (vkey d new) data
    stamps := mputs s.stamps {} (vkey d new) stamps
    pz := pzWrite s.pz (vkey d new) n false ++ units.map (fun u => vkey d 0 / 4 + u) }) s

/-- Every sector of a frame leaves every L1. -/
def dropFrame (s : State) (pa n : Nat) : State := { s with l1 := s.l1.filter (fun x => decide (x.pa * 32 + 32 ≤ pa ∨ pa + n ≤ x.pa * 32)) }

/-- Entries of the run of a leaf (R369). -/
def runLen (sz : Nat) : Nat :=
  match sz with
  | 1 => 4 | 2 => 16 | 3 => 64 | 4 => 256 | 6 => 16 | 7 => 128 | 9 => 16 | _ => 1

/-- Store the leaf and its shadow, each entry of the run alike. -/
def storeLeaves (s : State) (c leafAddr leaf shadow : Nat) (away : Bool) : State :=
  let n := runLen (bits leaf 63 60)
  let base := leafAddr - leafAddr % (8 * n)
  let new := setBit (setBits leaf 51 12 (bits shadow 51 12)) 9 away
  let back := setBits shadow 51 12 (bits leaf 51 12)
  (iota 0 n).foldl (fun s i =>
    devStore (devStore s (base + 8 * i) 0 (leBytes 8 new)) (shadowAddr s c (base + 8 * i)) 0 (leBytes 8 back)) s

/-- The lines of a frame leave the L2 of every die (R374). -/
def dropFrameL2 (s : State) (pa n : Nat) : State :=
  { s with l2 := s.l2.filter (fun e => let a := e.1 % 2 ^ 52 * 128; decide (a + 128 ≤ pa ∨ pa + n ≤ a)) }

/-- Change the oldest move. -/
def updM (s : State) (m : MigMove) : State := { s with migq := m :: s.migq.drop 1 }

/-- Step 1 (R374): the page is marked moving. -/
def markMoving (s : State) (m : MigMove) (leaf : Nat) : State :=
  let page := pageBase leaf m.va
  updM (emitMig s 1 m.ctx 3 page) { m with va := page, moving := true, sz := bits leaf 63 60 }

/-- What step 2 and step 3 wait for: walks of the page, accesses that were translated to it, bytes on their way. -/
def moveWaits (s : State) (m : MigMove) (n old new : Nat) : Bool :=
  s.walks.any (fun w => w.failed.isNone && walkIn m.ctx m.va n w) || accessDue s m.ctx m.va n s.nid || frameBusy s old n || frameBusy s new n

/-- Steps 3 to 5: the frames' sectors are dropped, the bytes copied, the leaf and its shadow stored. -/
def movePage (s : State) (m : MigMove) (leafAddr leaf new : Nat) : State :=
  let n := pageSize leaf
  let old := ptePa leaf
  let shadow := shadowWord s m.ctx leafAddr
  let s := rearmRange (dropTlb s m.ctx m.va n) m.ctx m.va n
  let s := dropFrameL2 (dropFrame (dropFrame s old n) new n) old n
  let s := moveBytes s old new n (bits leaf 59 52)
  let b := s.nid
  let s := storeLeaves s m.ctx leafAddr leaf shadow (m.away && !m.byFault)
  let s := countDie s (homeDie s old) 0x0F none 1
  updM s { m with
    stored := true
    stores := (s.inq.filter (fun u => decide (b ≤ u.ser))).map (·.ser) ++ (s.path.filter (fun e => decide (b ≤ e.id))).map (·.id) }

/-- Step 6: both stores are acknowledged; the record of kind 3, and the parked accesses go on. -/
def moveDone (s : State) (m : MigMove) : State :=
  if s.inq.any (fun u => m.stores.contains u.ser) || s.path.any (fun e => m.stores.contains e.id) then s
  else
    let s := emitMig (migRecord s m.ctx 3 m.sz m.va 0) 2 m.ctx 3 m.va
    let s := if s.parks.any (fun p => p.ctx == m.ctx && p.page == m.va) then emitMig s 4 m.ctx 3 m.va else s
    { s with parks := s.parks.filter (fun p => !(p.ctx == m.ctx && p.page == m.va)), migq := s.migq.drop 1 }

/-- One move of the migration engine on the oldest queued move (R374): it is refused, marked, made once nothing is on its way
and no copy of its lines is out, or ended. A record waits while the ring is full. -/
def migrate (s : State) : State :=
  match s.migq with
  | [] => s
  | m :: r =>
    if ringFull s 0x1300 || heldBack s 0 then s
    else if m.stored then moveDone s m
    else match leafOf s m.ctx m.va with
    | none => refuseMove s m.ctx 0 (m.va - m.va % 4096) r
    | some (ea, e) =>
      match usableShadow s m.ctx ea e with
      | none => refuseMove s m.ctx (bits e 63 60) (pageBase e m.va) r
      | some new =>
        if !bit e 8 || pinned s (ptePa e) (pageSize e) then refuseMove s m.ctx (bits e 63 60) (pageBase e m.va) r
        else if !m.moving then markMoving s m e
        else if moveWaits s m (pageSize e) (ptePa e) new then dropTlb s m.ctx m.va (pageSize e)
        else match copiedLines s (ptePa e) (pageSize e) with
        | l :: ls => (l :: ls).foldl want s
        | [] => movePage s m ea e new

/-! ### The Roaster (R377) -/

/-- Every leaf of a table with its first virtual address: level, base, prefix of the address. -/
def leavesFrom (s : State) : Nat → Nat → Nat → Nat → List (Nat × Nat × Nat)
  | 0, _, _, _ => []
  | fuel + 1, level, base, va =>
    (iota 0 512).flatMap (fun i =>
      let ea := base + 8 * i
      let e := rdPhys s ea 8
      let v := va + i * 2 ^ (48 - 9 * level)
      if !bit e 0 || badEntry s level e then []
      else if bit e 1 then leavesFrom s fuel (level + 1) (ptePa e) v
      else if bit e 8 && v % pageSize e == 0 then [(v, ea, e)] else [])

/-- Migratable pages of every live context: context, page, leaf address, leaf. -/
def pagesAll (s : State) : List (Nat × Nat × Nat × Nat) :=
  ((iota 0 256).filter (ctxLive s)).flatMap (fun c =>
    let root := ptePa (sysGet s (rCtx c 0))
    if inMem s root then (leavesFrom s 5 0 root 0).map (fun x => (c, (sextW x.1 57).toNat, x.2.1, x.2.2)) else [])

/-- A candidate of the Roaster: context, page, size code, frame, bytes, its count and a free tie-break. -/
structure RoastCand where
  c : Nat
  page : Nat
  sz : Nat
  pa : Nat
  n : Nat
  count : Nat
  tie : Nat

def candBefore (up : Bool) (a b : RoastCand) : Bool :=
  if a.count = b.count then decide (a.tie < b.tie) else if up then decide (b.count < a.count) else decide (a.count < b.count)

def candInsert (up : Bool) (x : RoastCand) : List RoastCand → List RoastCand
  | [] => [x]
  | y :: r => if candBefore up x y then x :: y :: r else y :: candInsert up x r

/-- One proposal of a kind, or a pinned candidate passed over, or a drop. -/
def propose (kind : Nat) (left : Nat) (s : State) : List RoastCand → State
  | [] => s
  | x :: r =>
    match left with
    | 0 => s
    | n + 1 =>
      if pinned s x.pa x.n then
        propose kind left (sysSetBits s 0x1308 31 0 (min (2 ^ 32 - 1) (sysBits s 0x1308 31 0 + 1))) r
      else if ringFull s 0x1300 then
        propose kind n (sysSetBits s 0x1308 63 32 (min (2 ^ 32 - 1) (sysBits s 0x1308 63 32 + 1))) r
      else propose kind n (migRecord s x.c kind x.sz x.page x.count) r

/-- Length of an epoch in ns. -/
def epochNs (s : State) : Nat := (if sysBits s 0x1307 31 0 = 0 then 1000 else sysBits s 0x1307 31 0) * 1000

/-- The end of an epoch: proposals of both kinds, and new counts. -/
def epochEnd (s : State) : State :=
  if !sysBit s 0x1307 63 || decide (s.now < s.roastEnd) then s
  else
    let all := (pagesAll s).zipIdx.map (fun x =>
      let p := x.1
      let n := match s.roast.find? (fun r => r.ctx == p.1 && r.page == p.2.1) with
        | some r => r.n
        | none => 0
      (p, ({ c := p.1, page := p.2.1, sz := bits p.2.2.2 63 60, pa := ptePa p.2.2.2, n := pageSize p.2.2.2, count := n,
             tie := Config.freeChoice (s.fresh + x.2) } : RoastCand)))
    let ups := (all.filter (fun x => paKind s x.2.pa == .tier)).map (·.2)
    let downs := (all.filter (fun x => paKind s x.2.pa == .hbm && (usableShadow s x.1.1 x.1.2.2.1 x.1.2.2.2).isSome)).map (·.2)
    let m := sysBits s 0x1307 39 32
    let s := { s with fresh := s.fresh + all.length, roast := [], roastEnd := s.now + epochNs s }
    let s := propose 1 m s (ups.foldr (candInsert true) [])
    propose 2 m s (downs.foldr (candInsert false) [])

def execRoasterEpochEnd (s : State) : Out := .next (epochEnd s)

/-- `ROASTCTL`: an epoch starts when it is switched on. -/
def writeRoastctl (s : State) (v : Nat) : State :=
  let on := bit v 63 && !sysBit s 0x1307 63
  let s := sysPut s 0x1307 (setBits (setBits 0 63 63 (bits v 63 63)) 39 0 (bits v 39 0))
  if on then { s with roast := [], roastEnd := s.now + epochNs s } else s

/-! ### Attestation (R385) -/

/-- `ATTCTL`: starts a report unless one is being made. -/
def writeAttctl (s : State) (v : Nat) : State :=
  if sysBit s 0x130A 63 then s else { sysPut s 0x130A (2 ^ 63 + bits v 51 0) with atts := true }

def execAttctlWrite (v : Word) (s : State) : Out := .next (writeAttctl s v.toNat)

/-- Bytes 0 to 159 of the report (R385). -/
def reportBody (s : State) (buf c : Nat) : List Byte :=
  let nonce := (iota 16 48).map (fun i => rdByte s (homeDie s (buf + i)) (buf + i) 0)
  let regs := [rCtx c 0, rCtx c 1, rCtx c 2, rCtx c 3, 0x0900 + c].flatMap (fun n => leBytes 8 (sysGet s n))
  leBytes 8 1 ++ (iota 0 8).map Config.serialByte ++ nonce ++ s.firm.getD ((iota 0 48).map Config.imageDigest) ++ sha384 regs

/-- The report with its signature (R383, R385). -/
def reportBytes (s : State) (buf c : Nat) : List Byte := reportBody s buf c ++ signMsg (reportBody s buf c) s.fresh

/-- The report is written and busy clears. -/
def attDone (s : State) : State :=
  if !s.atts then s
  else
    let buf := sysBits s 0x130A 51 8 * 256
    let d := reportBytes s buf (sysBits s 0x130A 7 0)
    sysSetBit { devStore { s with fresh := s.fresh + 8 } buf 0 d with atts := false } 0x130A 63 false

def execAttestationReportDone (s : State) : Out := .next (attDone s)

/-! ### Row activation counters (R381, R382) -/

/-- The precharge of row r (R382): a counter whose parity fails is logged and qualifies; one at the threshold refreshes the
neighbours and starts again; the row closes (R18). -/
def prechargeRow (s : State) (r : Nat) (parityBad : Bool) : State :=
  let counted (s : State) : State := { s with act := mput s.act 0 r 4095 }
  let s := if parityBad then counted (errLog s 0 0 (0x300 + r / 2 ^ 40) 0 (rowPa s r) 0) else s
  let thr := max 64 (sysBits s 0x1309 11 0)
  let s := if thr ≤ mget s.act 0 r then countDie { s with act := mput s.act 0 r 0 } (rowDie r) 0x05 none 1 else s
  { s with rows := mput s.rows 0 r 0 }

/-- A row that is open is precharged. -/
def execPrecharge (row : Nat) (parityBad : Bool) (s : State) : Out :=
  .next (if mget s.rows 0 row = 0 then s else prechargeRow s row parityBad)

end Sys2Proof.Machine
end

