-- ==== Sys2Proof/Machine/Reset.lean ====
section
/-! DEFINITION. Teardown and queue-level reset (R380, R401, R430, R431): the moves that stop a context for good, flush its
sessions, complete its launches, and free what it held. The part that waits for sessions stands in `tears`. -/

namespace Sys2Proof.Machine

/-! ### The context's moves (R380 steps 1 and 2, R411) -/

/-- The engine operations of a context are discarded with their locks. What it has sent goes on by the moves that it would have taken; the lines of
its pending reductions are recalled. -/
def discardOps (s : State) (c : Nat) : State :=
  let s := ((s.units.filter (fun u => u.ctx == c)).map (fun u => lineOf u.pa)).foldl want s
  { s with eops := s.eops.filter (fun e => e.ctx != c), locks := s.locks.filter (fun k => k.ctx != c) }

/-- Is an entry the host's or a peer's, which no context has issued? -/
def fromOutside : Owner → Bool
  | .host | .peer _ => true
  | _ => false

/-- Is anything of a context still to end: a launch, an entry of a store path, a pending reduction, a request to a window, a walk, a move of a page,
commanded or of a fault (R380 steps 1 and 2)? -/
def goesOn (s : State) (c : Nat) : Bool :=
  (allL s).any (fun l => l.ctx == c) || s.path.any (fun e => e.ctx == c && !fromOutside e.owner) || s.units.any (fun u => u.ctx == c) ||
  s.wins.any (fun w => w.ctx == c && !(w.owner == .host)) || s.walks.any (fun w => w.ctx == c && w.failed.isNone) || s.migq.any (fun m => m.ctx == c)

/-! ### Sessions (R401) -/

/-- Is session i one that ends with context c? -/
def ownSession (s : State) (c i : Nat) : Bool :=
  tsOpen s i && sysBits s (rTs i 0) 7 0 == c && !(c == 0 && sysBit s (rTs i 0) 57)

/-- The sessions of a context flush and end with a code. -/
def flushSessions (s : State) (c code : Nat) : State :=
  ((iota 0 16).filter (ownSession s c)).foldl (fun s i =>
    { s with sess := mput s.sess {} i { mget s.sess {} i with closing := some code, since := s.now } }) s

/-- Is a session of the context still flushing? -/
def flushing (s : State) (c : Nat) : Bool := (iota 0 16).any (fun i => ownSession s c i && (mget s.sess {} i).closing.isSome)

/-! ### The end of a teardown (R380 steps 3 to 5) -/

/-- Does byte `off` of a die scratchpad lie in the window of context c (R366)? -/
def inWindow (s : State) (c off : Nat) : Bool :=
  let b := sysBits s (rCtx c 5) 25 16
  decide (65536 * b ≤ off ∧ off < 65536 * (b + sysBits s (rCtx c 5) 9 0))

/-- Zero the context's die-scratchpad windows but for bytes shared with another live context. -/
def zeroWindow (s : State) (c : Nat) : State :=
  let others := (iota 0 256).filter (fun x => x != c && ctxLive s x)
  let goes (off : Nat) : Bool := inWindow s c off && !others.any (fun x => inWindow s x off)
  { s with
    dscr := s.dscr.filter (fun e => !goes (e.1 % 2 ^ 26))
    pzD := s.pzD.filter (fun u => !goes (4 * u % 2 ^ 26)) }

/-- The owner slot is destroyed unless another live context names it. -/
def dropKey (s : State) (c : Nat) : State :=
  let o := sysBits s (rCtx c 2) 7 0
  let names (x : Nat) : Bool := x != c && ctxLive s x &&
    (sysBits s (rCtx x 2) 7 0 == o || (sysBit s (rCtx x 2) 16 && sysBits s (rCtx x 2) 15 8 == o))
  if (iota 0 256).any names then s else writeKeyslot s o 0

def tearFinish (s : State) (c : Nat) : State :=
  let s := zeroWindow (dropTlb s c 0 0) c
  let s := { s with
    walks := s.walks.filter (fun w => w.ctx != c)
    winVals := s.winVals.filter (fun v => v.ctx != c)
    parks := s.parks.filter (fun p => p.ctx != c) }
  let s := sysSetBit s (rCtx c 0) 63 false
  let s := setCtxState (dropKey s c) c 0
  let s := s.tears.foldl (fun s t => if t.1 = c ∧ t.2 ≠ 0 then sysSetBit s (0x3900 + (t.2 - 1)) 63 false else s) s
  { s with tears := s.tears.filter (fun t => t.1 != c) }

/-- Teardowns whose launches, moves and sessions have all ended are finished. -/
def tearSettle (s : State) : State :=
  s.tears.foldl (fun s t => if s.tears.contains t && !flushing s t.1 && !goesOn s t.1 then tearFinish s t.1 else s) s

/-- Tear a context down with end code 2 (reset of queue `q - 1`) or 3 (teardown): it stops, and each of its launches, one that a fault had stopped among
them, completes with status 4 by a move of its own (R292). -/
def tearDown (s : State) (c code q : Nat) : State :=
  let s := { s with tears := s.tears ++ [(c, q)] }
  let s := if q = 0 then s else sysSetBit s (0x3900 + (q - 1)) 63 true
  if ctxState s c = 3 then s
  else
    let s := (ctxGroups s c).foldl (fun s g => makersFail s g.uid 2) (freeReqs s c)
    let s := cutDump (haltCtx s c (fun _ => 4) false) c
    let s := ((allL s).filter (fun l => l.ctx == c)).foldl (fun s l => updL s l.uid (fun l => { l with status := some 4, dumping := false })) s
    discardOps (flushSessions (setCtxState s c 3) c code) c

/-- A move of the migration engine (R374). -/
def execMigrationMove (s : State) : Out := .next (migrate s)

/-- `CTXST.tdn`: only from live or stopped (R365). -/
def writeCtxst (s : State) (c v : Nat) : State :=
  if bit v 2 && (ctxState s c == 1 || ctxState s c == 2) then tearDown s c 3 0 else s

/-- `QRST.go` (R430). -/
def writeQrst (s : State) (q v : Nat) : State := if bit v 0 then tearDown s (queueCtx s q) 2 (q + 1) else s

end Sys2Proof.Machine
end

