-- ==== Sys2Proof/Machine/TraceMoves.lean ====
section
/-! DEFINITION. The moves of the Finish Line: opening, placing, closing (R394 to R401), counters (R407), the debugger's
registers (R405, R406), the time base and the clock (R388, R14), the events of links (R393). -/

namespace Sys2Proof.Machine

/-! ### Rings and the control block of a session (R394, R395) -/

def sessCtx (s : State) (i : Nat) : Nat := sysBits s (rTs i 0) 7 0
def sessGet (s : State) (i : Nat) : Session := mget s.sess {} i
def sessPut (s : State) (i : Nat) (f : Session → Session) : State := { s with sess := mput s.sess {} i (f (sessGet s i)) }

def ringReg : RingK → Nat
  | .record => 1 | .tile => 2 | .replay => 3
/-- Bytes of a slot, and slots of a ring. -/
def ringUnit : RingK → Nat
  | .record => 16 | .tile => 64 | .replay => 64
def ringLen (s : State) (i : Nat) (k : RingK) : Nat :=
  match k with
  | .record => 2 ^ (sysBits s (rTs i 1) 3 0 + 8)
  | k => 2 ^ (sysBits s (rTs i (ringReg k)) 3 0 + 6)
/-- Virtual address of slot n. -/
def ringVa (s : State) (i : Nat) (k : RingK) (n : Nat) : Nat :=
  ((sextW (sysBits s (rTs i (ringReg k)) 56 12 * 4096) 57).toNat + ringUnit k * (n % ringLen s i k)) % 2 ^ 64
/-- Virtual address of byte `o` of the control block. -/
def blkVa (s : State) (i o : Nat) : Nat := ((sextW (sysBits s (rTs i 4) 56 6 * 64) 57).toNat + o) % 2 ^ 64

/-- A write of the session, or the error code that ends it (R398). -/
inductive SOut where
  | ok (s : State)
  | bad (code : Nat)

def sessEnt (i c va pa key : Nat) (vec : V4) (d : List Byte) : PEnt :=
  { id := 0, owner := .session i, op := .store, acc := { sp := .g, va := va, loc := .mem pa, n := d.length, key := key },
    x := leNat d, vec := vec, ctx := c }

/-- The pieces of a run of bytes enter the session's store path (R221, R397). -/
def sessPieces (s : State) (i c va pa key : Nat) : List (List Byte) → State
  | [] => s
  | d :: r => sessPieces (enter s (sessEnt i c va pa key (sessGet s i).vec d)) i c (va + d.length) (pa + d.length) key r

/-- Cut into pieces of n bytes. -/
def pieces (n : Nat) : Nat → List Byte → List (List Byte)
  | 0, _ => []
  | k + 1, d => if d.isEmpty then [] else d.take n :: pieces n k (d.drop n)

/-- Store bytes that lie in one page, in pieces of n bytes. -/
def sessStore (s : State) (i va n : Nat) (data : List Byte) : SOut :=
  let c := sessCtx s i
  match walk s c .store va with
  | .bad .permission => .bad 2
  | .bad _ => .bad 1
  | .away .. => .bad 3
  | .ok pa key _ _ leaf _ => if bit leaf 8 then .bad 3 else .ok (sessPieces s i c va pa key (pieces n data.length data))

def sThen (r : SOut) (k : State → SOut) : SOut :=
  match r with
  | .ok s => k s
  | x => x

/-! ### What a record that goes lets go (R399) -/

/-- Answers whose records are all placed are delivered; one to a `claimw` that a switch has left without a monitor is kept until
the fragment has armed one (R317). -/
def releaseAns (s : State) : State :=
  s.heldAns.foldl (fun s a => if heldBack s a.lop then s else
    let s := { s with heldAns := s.heldAns.filter (fun x => x != a) }
    match getG s a.group with
    | none => s
    | some g => if a.parks && a.mon.isNone then updT s g.team (fun t => { t with saved := t.saved ++ [a] }) else answer s a) s

/-- A session ends by ring error: no end record, everything held is dropped and counted (R398). -/
def sessError (s : State) (i code : Nat) : State :=
  let n := rTs i 0
  let s := sysSetBit (sysSetBits (sysSetBit s n 62 true) n 61 58 code) n 63 false
  let s := (sessGet s i).held.foldl (fun s r => dropRec s i r) s
  releaseAns { s with sess := mput s.sess {} i {} }

def sessRun (s : State) (i : Nat) (r : SOut) : State :=
  match r with
  | .ok s => s
  | .bad c => sessError s i c

/-! ### Opening and closing (R394, R395, R401) -/

/-- A session-class record of session i from the device. Every other session that takes it is offered it as any record (R396): so the
supervisor's session sees, by the end record of code 2, which context a reset has cut short (R430). -/
def sessRecord (s : State) (i code a : Nat) : List Byte × State :=
  let p := takeStamp s srcDev
  let c := sessCtx s i
  let d := recBytes p.1 0 code (decide (dieNow s 0 < p.1)) srcDev c a none
  (d, ((iota 0 16).filter (fun j => j != i && takes s j 0 c srcDev)).foldl (fun s j => pushHeld s j ⟨.record, srcDev, d, none⟩) p.2)

/-- It is counted once it stands in its place. -/
def countRec (s : State) (i : Nat) : State := countDie s 0 0x0E (some (sessCtx s i)) 1

/-- Seven words of the control block become zero, then the begin record is offered. -/
def sessOpen (s : State) (i : Nat) : State :=
  let s := sysPut { s with sess := mput s.sess {} i { since := s.now } } (rTs i 5) 0
  match sessStore s i (blkVa s i 0) 8 (List.replicate 56 0) with
  | .bad c => sessError s i c
  | .ok s =>
    let r := sessRecord s i 0 i
    countRec (pushHeld r.2 i ⟨.record, srcDev, r.1, none⟩) i

/-- Fields of `TSCTL` that software sets while en is 0. -/
def tsctlKeep (old v : Nat) : Nat :=
  setBits (setBits (setBits (setBits 0 62 58 (bits old 62 58)) 57 50 (bits v 57 50)) 35 23 (bits v 35 23)) 7 0 (bits v 7 0)

/-- `TSCTL`: only the closing acts while en is 1 (R394); err clears where 1 is written. -/
def writeTsctl (s : State) (i v : Nat) : State :=
  let n := rTs i 0
  if tsOpen s i then
    if bit v 63 || (sessGet s i).closing.isSome then s
    else sessPut s i (fun x => { x with closing := some 1, since := s.now })
  else
    let s := sysPut s n (tsctlKeep (sysGet s n) v)
    let s := if bit v 62 then sysSetBit s n 62 false else s
    if bit v 63 then sessOpen (sysSetBit s n 63 true) i else s

def execTsctlOpen (i : Nat) (v : Word) (s : State) : Out := .next (if i < 16 then writeTsctl s i (setBit v.toNat 63 true) else s)
def execTsctlClose (i : Nat) (v : Word) (s : State) : Out := .next (if i < 16 then writeTsctl s i (setBit v.toNat 63 false) else s)

/-! ### Placing (R397) -/

def tailOf (x : Session) : RingK → Nat
  | .record => x.tailR | .tile => x.tailT | .replay => x.tailP
def headOf (x : Session) : RingK → Nat
  | .record => x.headR | .tile => x.headT | .replay => x.headP
def setTail (x : Session) (k : RingK) (n : Nat) : Session :=
  match k with
  | .record => { x with tailR := n }
  | .tile => { x with tailT := n }
  | .replay => { x with tailP := n }
def setHead (x : Session) (k : RingK) (n now : Nat) : Session :=
  if n = headOf x k then x else
  match k with
  | .record => { x with headR := n, since := now }
  | .tile => { x with headT := n, since := now }
  | .replay => { x with headP := n, since := now }

/-- The head word at its order point; one that moves backward, passes the tail or cannot be read is the old one. -/
def readHead (s : State) (i : Nat) (k : RingK) : State :=
  let r := ringReg k
  match devReadBy s (.session i) r (sessCtx s i) (blkVa s i (16 * r - 8)) 8 with
  | .ok d _ =>
    let s := clearWin s (.session i) r
    let x := sessGet s i
    let h := (leNat d + 2 ^ 64 - headOf x k % 2 ^ 64) % 2 ^ 64
    if h ≤ tailOf x k - headOf x k then sessPut s i (fun x => setHead x k (headOf x k + h) s.now) else s
  | .away aw => park s (sessCtx s i) aw
  | .bad _ => clearWin s (.session i) r

/-- Slots a held record takes, with the pad of a long one that would start in the last slot. -/
def needsPad (s : State) (i : Nat) (r : HeldRec) : Bool :=
  r.ring == .record && decide (16 < r.data.length) && (tailOf (sessGet s i) .record % ringLen s i .record == ringLen s i .record - 1)
def slotsOf (r : HeldRec) : Nat := r.data.length / ringUnit r.ring

/-- Is there room before the reserve of two slots? -/
def hasRoom (s : State) (i : Nat) (r : HeldRec) : Bool :=
  let x := sessGet s i
  decide (tailOf x r.ring + slotsOf r + (needsPad s i r).toNat + (if r.ring = .record then 2 else 0) ≤ headOf x r.ring + ringLen s i r.ring)

/-- Write consecutive slots and move the tail past them. -/
def putSlots (s : State) (i : Nat) (k : RingK) : List (List Byte) → SOut
  | [] => .ok s
  | d :: r =>
    sThen (sessStore s i (ringVa s i k (tailOf (sessGet s i) k)) 4 d)
      (fun s => putSlots (sessPut s i (fun x => setTail x k (tailOf x k + 1))) i k r)

/-- Mark the first record after a drop (R399). -/
def markLoss (s : State) (i : Nat) (d : List Byte) : List Byte :=
  if (sessGet s i).loss then setAt d 10 (((d[10]?).getD 0) ||| 2#8) else d

/-- The pad before a long record; its source is one that reports nothing else in this model. -/
def padRecord (s : State) (i : Nat) : List Byte × State :=
  let p := takeStamp s 0x300
  (recBytes p.1 0 5 (decide (dieNow s 0 < p.1)) 0x300 (sessCtx s i) 0 none, p.2)

/-- Place a held record: pad, slots, mark. -/
def placeRec (s : State) (i : Nat) (r : HeldRec) : SOut :=
  let p := if needsPad s i r then (let q := padRecord s i; putSlots q.2 i .record [q.1]) else .ok s
  sThen p (fun s =>
    let d := if r.ring = .record then markLoss s i r.data else r.data
    sThen (putSlots s i r.ring (pieces (ringUnit r.ring) (slotsOf r) d))
      (fun s => .ok (if r.ring = .record then sessPut s i (fun x => { x with loss := false }) else s)))

/-- Take record j out of what is held. -/
def dropHeld (s : State) (i j : Nat) : State := sessPut s i (fun x => { x with held := dropAt x.held j })

/-- The first held record of each ring in turn: placed, or dropped in lossy mode; false when nothing can be done but to ask for a head word
again. -/
def placeFirst (s : State) (i : Nat) : List RingK → State × Bool
  | [] => (s, false)
  | k :: ks =>
    match findAt (fun r => r.ring == k) (sessGet s i).held 0 with
    | none => placeFirst s i ks
    | some (j, r) =>
      let s := if hasRoom s i r then s else readHead s i k
      if hasRoom s i r then
        (match placeRec (dropHeld s i j) i r with
          | .ok s => releaseAns s
          | .bad c => sessError s i c, true)
      else if sysBit s (rTs i 0) 56 then placeFirst s i ks
      else (dropRec (dropHeld s i j) i r, true)

/-! ### Publishing, and the end (R397, R401) -/

def sessBusy (s : State) (i : Nat) : Bool := s.path.any (fun e => e.owner == .session i)

/-- Words of the control block that differ from what was stored last: offset and value. -/
def unpublished (s : State) (i : Nat) : List (Nat × Nat) :=
  let x := sessGet s i
  let lost := sysGet s (rTs i 5)
  (if x.tailR = x.pubR then [] else [(0, x.tailR)]) ++ (if x.tailT = x.pubT then [] else [(0x10, x.tailT)]) ++
  (if x.tailP = x.pubP then [] else [(0x20, x.tailP)]) ++ (if lost = x.pubL then [] else [(0x30, lost)])

/-- Store those words, as a release of the session: everything before is acknowledged, the words carry its vector. -/
def publish (s : State) (i : Nat) : List (Nat × Nat) → SOut
  | [] => .ok (sessPut s i (fun x => { x with
      pubR := x.tailR, pubT := x.tailT, pubP := x.tailP, pubL := sysGet s (rTs i 5), hostSt := false, flush := 0 }))
  | w :: r => sThen (sessStore s i (blkVa s i w.1) 8 (leBytes 8 w.2)) (fun s => publish s i r)

/-- The zero-length host read of a tail store over slots in a host window (R249, R397). -/
def sessFlush (s : State) (i : Nat) : State :=
  openWin (sessPut s i (fun x => { x with flush := 1 })) srcDev 0
    { id := 0, kind := .flush, peer := false, ctx := sessCtx s i, owner := .session i, pa := sysGet s (rCtx (sessCtx s i) 4), n := 0 }

/-- The end record goes into the reserve. -/
def placeEnd (s : State) (i code : Nat) : SOut :=
  let r := sessRecord s i code (if code = 1 then i else min (2 ^ 24 - 1) (sysGet s (rTs i 5)))
  sThen (putSlots r.2 i .record [markLoss r.2 i r.1]) (fun s => .ok (countRec (sessPut s i (fun x => { x with ended := true, loss := false })) i))

/-- The session is closed. -/
def sessShut (s : State) (i : Nat) : State :=
  sysSetBit { s with sess := mput s.sess {} i {} } (rTs i 0) 63 false

/-- One move of a session: its stores come back, then its words are published, behind the read that a host window asks for, then the next record is placed, and at last
the end record. -/
def recordPlace (s : State) (i : Nat) : State :=
  if !tsOpen s i || sessBusy s i then s
  else match unpublished s i with
  | w :: r =>
    let x := sessGet s i
    if x.hostSt && x.flush == 0 then sessFlush s i
    else if x.flush = 1 then s
    else sessRun s i (publish s i (w :: r))
  | [] =>
    match placeFirst s i [.record, .tile, .replay] with
    | (s, true) => s
    | (s, false) =>
      let x := sessGet s i
      match x.closing with
      | none => s
      | some code => if !x.held.isEmpty then s else if x.ended then sessShut s i else sessRun s i (placeEnd s i code)

def execRecordPlace (i : Nat) (s : State) : Out := .next (if i < 16 then recordPlace s i else s)

/-- A flush whose head words have not moved for 10 ms drops what remains (R401). -/
def flushTimeout (s : State) (i : Nat) : State :=
  let s := readHead (readHead (readHead s i .record) i .tile) i .replay
  let x := sessGet s i
  match x.closing with
  | some code =>
    if 2 ≤ code ∧ x.since + 10000000 ≤ s.now then
      releaseAns (x.held.foldl (fun s r => dropRec s i r) (sessPut s i (fun x => { x with held := [] })))
    else s
  | none => s

def execRecordFlushTimeout (i : Nat) (s : State) : Out := .next (if i < 16 ∧ tsOpen s i then flushTimeout s i else s)

/-! ### Counters and stops (R405 to R407) -/

/-- Is n the `CTRSEL` of a counter? -/
def isCtrSel (n : Nat) : Bool := decide (0x1600 ≤ n ∧ n < 0x3700 ∧ n % 2 = 0)

/-- The event after 2^48 − 1: the counter wraps. -/
def execCounterOverflow (n : Nat) (s : State) : Out :=
  .next (if isCtrSel n && sysBit s n 63 && sysGet s (n + 1) == 2 ^ 48 - 1 then bump s n 1 else s)

/-- `DBGCTL`: part is kept as written; halt and resume act, a halt only while nothing is stopped (R405, R406). -/
def writeDbgctl (s : State) (core v : Nat) : State :=
  let s := syncDbg (sysSetBits s (rDbg core) 5 4 (bits v 5 4)) core
  if bit v 7 then resumePart s core
  else if bit v 6 then stopPart s core (bits v 5 4) 1 0 else s

def execDbgctlHalt (core : Nat) (v : Word) (s : State) : Out :=
  .next (if core < 256 then writeDbgctl s core (setBit (setBit v.toNat 7 false) 6 true) else s)
def execDbgctlResume (core : Nat) (v : Word) (s : State) : Out :=
  .next (if core < 256 then writeDbgctl s core (setBit (setBit v.toNat 6 false) 7 true) else s)

/-! ### The time base (R388) -/

/-- A launch runs from the moment it is read until it completes. -/
def writeTbset (s : State) (v : Nat) : State :=
  if (iota 0 16).any (tsOpen s) || !(allL s).isEmpty then sysSetBit s 0x1310 61 true
  else sysSetBit { s with now := v } 0x1310 63 true

/-- The link record of a correction: `TBADJ` and `TBRATE` as they stand. -/
def tbRecord (s : State) : State := emit s 0x0A 5 0 srcDev 0 (some (sysGet s 0x1312 + 2 ^ 64 * sysGet s 0x1313)) none

def writeTbadj (s : State) (v : Nat) : State :=
  tbRecord (sysPut s 0x1312 ((sysGet s 0x1312 + v) % 2 ^ 48))

def writeTbrate (s : State) (v : Nat) : State :=
  tbRecord (sysPut s 0x1313 (ofInt (max (-(2 ^ 30)) (min (2 ^ 30) (sint v 32))) 32))

/-- `TBCTL`: ptm is kept, err clears where 1 is written. -/
def writeTbctl (s : State) (v : Nat) : State :=
  let s := sysSetBit s 0x1310 62 (bit v 62)
  if bit v 61 then sysSetBit s 0x1310 61 false else s

def execTbsetWrite (v : Word) (s : State) : Out := .next (writeTbset s v.toNat)
def execTbadjWrite (v : Word) (s : State) : Out := .next (writeTbadj s v.toNat)
def execTbrateWrite (v : Word) (s : State) : Out := .next (writeTbrate s v.toNat)

/-- A dialogue completes: device time of its completion, and the host's answer. -/
def execPtmDialogue (_dev host : Word) (s : State) : Out :=
  .next (if sysBit s 0x1310 62 then sysPut (sysPut s 0x1314 (dieNow s 0 % 2 ^ 64)) 0x1315 host.toNat else s)

/-! ### The clock and the links (R14, R393) -/

/-- The full clock of R11; the bring-up service runs at 425 MHz (R436). -/
def maxClock (s : State) : Nat := if s.service = .full then 850 else 425

/-- A step of 25 MHz, never below 425 MHz nor above the full clock. -/
def clockStep (s : State) (up : Bool) : State :=
  let c := if up then max s.clock (min (maxClock s) (s.clock + 25)) else max 425 (s.clock - 25)
  if c = s.clock then s else emit { s with clock := c } 0x0A 4 0 srcDev c none none

def execClockStep (up : Bool) (s : State) : Out := .next (clockStep s up)

/-- A link-class event of a port. -/
def portEvent (s : State) (code port peer : Nat) : State :=
  if port < 36 ∧ s.service = .full then emit s 0x0A code 0 (srcPort port) port (some (peer % 2 ^ 64)) none else s

def execPortDown (port peer : Nat) (s : State) : Out := .next (portEvent s 1 port peer)
def execPortUp (port peer : Nat) (s : State) : Out := .next (portEvent s 0 port peer)
def execLinkRetry (port peer : Nat) (s : State) : Out := .next (portEvent s 2 port peer)

end Sys2Proof.Machine
end

