-- ==== Sys2Proof/Machine/Domain.lean ====
section
/-! DEFINITION. The host and the domain: answers and errors of the windows (R243 to R251), requests of peers under the landing
table (R244, R247, R251), host writes (R248), member sets (R252). -/

namespace Sys2Proof.Machine

/-! ### Answers of windows (R203, R243, R247 to R251) -/

/-- The value of a load of a lane operation lands. -/
def winLane (s : State) (w : WinReq) (uid x : Nat) (poison : Bool) : State :=
  match getG s uid with
  | none => s
  | some g =>
    match getOp g w.lop with
    | none => s
    | some o =>
      if poison then workFault s 0 uid o.entry o.hdr.toNat .poison w.va w.ctx (teamOfG s g).core
      else
        let b := s.nid
        let s := updG s uid (fun g => opStep (landVal g o w.t x) o.id (fun o => { o with left := o.left - 1, bound := b }))
        replayLoad s uid o.entry { sp := .g, va := w.va, loc := .mem w.pa, n := w.n } (leBytes w.n x)

/-- The value of a load of a scalar stream has come; poison is the fault of the word that waits (R433). -/
def winScalar (s : State) (w : WinReq) (uid x : Nat) (poison : Bool) : State :=
  match getG s uid with
  | none => s
  | some g =>
    if g.swait ≠ .remote w.id then s
    else if poison then updG s uid (fun g => { g with swait := .poisoned })
    else updG s uid (fun g => { g with swait := .got (BitVec.ofNat 64 x) })

/-- Bytes of a read of an engine operation have come. -/
def winEngine (s : State) (w : WinReq) (id x : Nat) (poison : Bool) : State :=
  match s.eops.find? (fun e => e.id == id) with
  | none => s
  | some e => engGot s e w.t (leBytes w.n x) {} poison

def winStream (s : State) (w : WinReq) (uid x : Nat) (poison : Bool) : State :=
  match getG s uid with
  | none => s
  | some g => if poison then streamFault s g .poison w.va else updG s uid (fun g => streamTake g w.t (leBytes w.n x))

/-- The flush read of a release of a group, of a session's tail store or of a completion has completed (R249). -/
def winFlush (s : State) (w : WinReq) : State :=
  match w.owner with
  | .group uid => updG s uid (fun g => updF g w.frag (fun f => if f.wait = .remote w.id then { f with wait := .go, flushed := true } else f))
  | .session i => { s with sess := mput s.sess {} i { mget s.sess {} i with flush := 2 } }
  | _ => updL s w.lop (fun l => { l with flush := 2 })

/-- The path entry of an atomic or a store to a window is answered. -/
def winEntry (s : State) (w : WinReq) (x : Nat) (poison : Bool) : State :=
  match s.path.find? (fun e => e.id == w.ent) with
  | none => s
  | some e =>
    if w.kind = .atom ∧ poison then
      match e.owner with
      | .group uid => workFault (delEnt s e.id) 0 uid e.entry e.hdr.toNat .poison e.acc.va e.ctx e.core
      | _ => delEnt s e.id
    else
      let s := match w.kind, e.op with
        | .atom, .atom .. | .atom, .cas | .atom, .bindg => landAtomic s e x {}
        | _, _ => s
      ackEnt s e 0 0 none

/-- The value of a read by a party that reads several pieces is kept for it (R203, R243). -/
def winKeep (s : State) (w : WinReq) (x : Nat) (poison : Bool) : State :=
  { s with winVals := s.winVals ++ [{ owner := w.owner, frag := w.frag, ctx := w.ctx, pa := w.pa, n := w.n, x := x, poison := poison }] }

/-- An answer comes back with a value, over the links of its route (R7, R24, R391). -/
def winAnswer (s : State) (w : WinReq) (v : Nat) (poison : Bool) : State :=
  let s := xfer { s with wins := s.wins.filter (fun x => x.id != w.id) } w.port w.src (if w.kind = .load ∨ w.kind = .atom then w.n else 0)
  let x := v % 256 ^ w.n
  if w.keep then winKeep s w x poison else
  match w.kind, w.owner with
  | .load, .group uid => if w.scalar then winScalar s w uid x poison else winLane s w uid x poison
  | .load, .engine id => winEngine s w id x poison
  | .load, .stream uid => winStream s w uid x poison
  | .load, _ => s
  | .flush, _ => winFlush s w
  | _, _ => winEntry s w x poison

def execRemoteAnswer (k : Nat) (v : Word) (poison : Bool) (s : State) : Out :=
  .next (match s.wins[k]? with
    | some w => if w.peer then winAnswer s w v.toNat poison else s
    | none => s)

def execHostReadCompletion (k : Nat) (v : Word) (poison : Bool) (s : State) : Out :=
  .next (match s.wins[k]? with
    | some w => if w.peer then s else winAnswer s w v.toNat poison
    | none => s)

/-! ### Remote errors (R245) -/

/-- The link-class record of a remote error, at the port through which the request left (R24). -/
def errorRecord (s : State) (w : WinReq) : State :=
  match paKind s w.pa with
  | .peer p => emit s 0x0A 3 0 w.port (w.port % 256) (some p) none
  | _ => emit s 0x0A 3 0 0x500 0 (some 0) none

/-- Where the work of a group reports (R245): entry and header of the store-path entry, the lane operation, the matrix operation or
the fragment that made the request. -/
def winSite (s : State) (g : Group) (w : WinReq) (ent : Option PEnt) : Nat × Nat :=
  match ent, getOp g w.lop, (teamOfG s g).mq.find? (fun e => e.id == w.frag), g.frs.find? (fun p => p.2.id == w.frag) with
  | some e, _, _, _ => (e.entry, e.hdr.toNat)
  | none, some o, _, _ => (o.entry, o.hdr.toNat)
  | none, none, some e, _ => (e.entry, e.hdr.toNat)
  | none, none, none, some p => (p.1, p.2.pc.toNat)
  | none, none, none, none => (0, 0)

/-- A request of a group has failed: a precise trap of the word of its scalar stream that made it, which the word takes itself where it
waits for the answer, or a fault in the clause that issued the work; a group that
has retired is named by its entry (R245). -/
def groupFail (s : State) (w : WinReq) (ent : Option PEnt) (code uid va : Nat) : State :=
  let kind := if w.kind = .load then akindNo .load else if w.kind = .atom then akindNo .atom else akindNo .store
  match getG s uid, ent with
  | some g, _ =>
    if w.scalar ∧ w.kind = .load ∧ !w.keep then updG s uid (fun g => { g with swait := if g.swait = .remote w.id then .failed else g.swait })
    else if w.scalar then scalarFaultAt (focus s uid) .remoteError va kind w.pc.toNat
    else
      let p := winSite s g w ent
      workFaultK s code uid p.1 p.2 .remoteError va w.ctx (teamOfG s g).core kind
  | none, some e => siteFault s (e.gidx % 4, e.gidx, e.tidx) code 0 e.entry e.hdr.toNat .remoteError va w.ctx e.core kind
  | none, none => s

/-- A request has failed: the requesting context takes a remote error, fatal to it; a session ends. -/
def winFail (s : State) (w : WinReq) : State :=
  let s := errorRecord { s with wins := s.wins.filter (fun x => x.id != w.id) } w
  let ent := s.path.find? (fun e => e.id == w.ent)
  let va := match ent with
    | some e => e.acc.va
    | none => w.va
  let s := if w.ent = 0 then s else delEnt s w.ent
  match w.owner with
  | .group uid => groupFail s w ent 0 uid va
  | .engine id => match s.eops.find? (fun e => e.id == id) with
    | some e => engFault s e .remoteError va (if w.kind = .load then akindNo .load else akindNo .store)
    | none => s
  | .stream uid => groupFail s w ent 2 uid va
  | .session i => sessError s i 1
  | .device => contextStop s { ctx := w.ctx, cause := .remoteError, addr := va }
  | _ => s

def execLinkError (k : Nat) (s : State) : Out :=
  .next (match s.wins[k]? with
    | some w => winFail s w
    | none => s)

/-- No answer within 2 ms. -/
def execRemoteTimeout (k : Nat) (s : State) : Out :=
  .next (match s.wins[k]? with
    | some w => if w.born + 2000000 ≤ s.now then winFail s w else s
    | none => s)

/-! ### The landing table and requests of peers (R244, R247, R251) -/

/-- Bytes a request touches. -/
def peerBytes : PeerOp → Nat
  | .read n => n
  | .write d => d.length
  | .atom _ ty .. => tySize ty
  | .cas wide .. => if wide then 8 else 4

/-- Does landing entry e serve the request? An entry that is being disabled admits nothing new. -/
def landServes (s : State) (r : PeerReq) (e : Nat) : Bool :=
  let b := landB s e
  decide (landSize s e ≠ 0) && !s.landOff.any (fun p => p.1 == e) && bits b 63 48 == r.tag.toNat &&
  decide (landBase s e ≤ r.pa ∧ r.pa + peerBytes r.op ≤ landBase s e + landSize s e) &&
  (match r.op with
    | .read _ => bit b 32
    | .write _ => bit b 33
    | _ => bit b 34)

/-- A write or atomic of a peer enters the store path of the port (R247): the port stands on the home die of its address. -/
def peerEnter (s : State) (r : PeerReq) (e : Nat) (op : EntOp) (pa n x y ftz : Nat) : State :=
  let id := s.nid
  let s := enter s { id := 0, owner := .peer r.who, op := op,
                     acc := { sp := .g, va := pa, loc := .mem pa, n := n, key := bits (landB s e) 47 40 },
                     x := x, y := y, core := 64 * homeDie s pa, ftz := ftz }
  { s with landed := s.landed ++ [⟨e, id⟩] }

/-- A write of more than 8 bytes is stored in units of 4 (R221). -/
def peerWrite (s : State) (r : PeerReq) (e pa : Nat) : List (List Byte) → State
  | [] => s
  | d :: l => peerWrite (peerEnter s r e .store pa d.length (leNat d) 0 0) r e (pa + d.length) l

/-- A request is admitted, or refused with no effect. The value of a read leaves with the answer; a scattered line is recalled
first (R220). -/
def peerServe (s : State) (r : PeerReq) : State :=
  if s.service ≠ .full then s
  else match (iota 0 256).find? (landServes s r) with
  | none => s
  | some e =>
    if !inMem s r.pa then s
    else match r.op with
    | .read _ => if isScat s (homeDie s r.pa) r.pa then want s (lineOf r.pa) else s
    | .write d => peerWrite s r e r.pa (if d.length ≤ 8 then [d] else pieces 4 d.length d)
    | .atom code ty rnd v ftz =>
      if r.pa % tySize ty = 0 then peerEnter s r e (.atom code ty rnd) r.pa (tySize ty) (v.toNat % 256 ^ tySize ty) 0 ftz else s
    | .cas wide c v =>
      let n := if wide then 8 else 4
      if r.pa % n = 0 then peerEnter s r e .cas r.pa n (c.toNat % 256 ^ n) (v.toNat % 256 ^ n) 0 else s

def execPeerRequest (r : PeerReq) (s : State) : Out := .next (peerServe s r)

/-- Fields of `LANDB` that are kept. -/
def landbKeep (v : Nat) : Nat := setBits (setBits (setBits 0 63 40 (bits v 63 40)) 34 32 (bits v 34 32)) 20 0 (bits v 20 0)

/-- `LANDA`: ignored while the entry is enabled. -/
def writeLanda (s : State) (e v : Nat) : State :=
  if landSize s e ≠ 0 then s else sysPut s (0x3A00 + 2 * e) (setBits 0 51 21 (bits v 51 21))

/-- `LANDB`: a write that disables the entry waits for the requests it has admitted. -/
def writeLandb (s : State) (e v : Nat) : State :=
  let s := { s with landOff := s.landOff.filter (fun p => p.1 != e) }
  if landSize s e ≠ 0 ∧ bits v 20 0 = 0 then landSettle { s with landOff := s.landOff ++ [(e, landbKeep v)] }
  else sysPut s (0x3A01 + 2 * e) (landbKeep v)

def execLandaWrite (e : Nat) (v : Word) (s : State) : Out := .next (if e < 256 then writeLanda s e v.toNat else s)
def execLandbWrite (e : Nat) (v : Word) (s : State) : Out := .next (if e < 256 then writeLandb s e v.toNat else s)

/-! ### Host writes (R248) -/

/-- A posted write enters the host's path: it arrives after every earlier one. What becomes of one to an address that is no memory R248
does not say: it is dropped (log 20). -/
def hostWrite (s : State) (pa : Nat) : List (List Byte) → State
  | [] => s
  | d :: l =>
    hostWrite (if inMem s pa then enter s { id := 0, owner := .host, op := .store, acc := { sp := .g, va := pa, loc := .mem pa, n := d.length },
                                            x := leNat d } else s) (pa + d.length) l

def execHostPostedWrite (pa : Nat) (data : List Byte) (s : State) : Out :=
  .next (hostWrite s pa (if data.length ≤ 8 then [data] else pieces 4 data.length data))

/-! ### Member sets (R252) -/

/-- The members that a 64-byte map names. -/
def mapMembers (d : List Byte) : List Nat := (iota 0 512).filter (fun p => (((d[p / 8]?).getD 0).toNat / 2 ^ (p % 8)) % 2 == 1)

/-- `COLLSA`: err clears where 1 is written; setting en reads the map; clearing en waits for admitted collectives. R252 leaves two points
open: a map at an address that is no memory sets err without being read, and a write with en = 1 while a clear of en is pending changes
nothing (log 20). -/
def writeCollsa (s : State) (n v : Nat) : State :=
  let a := 0x0200 + 2 * n
  let s := if bit v 62 then sysSetBit s a 62 false else s
  if sysBit s a 63 then
    if bit v 63 then s else collSettle { s with collOff := if s.collOff.contains n then s.collOff else s.collOff ++ [n] }
  else
    let s := sysSetBits s a 51 6 (bits v 51 6)
    if !bit v 63 then s
    else
      let pa := bits v 51 6 * 64
      let l := mapMembers (rdBytes s (homeDie s pa) pa 0 64)
      if !inMem s pa || l.isEmpty || l.any (fun p => decide (432 ≤ p)) then sysSetBit s a 62 true
      else { sysSetBits (sysSetBit s a 63 true) (a + 1) 40 32 l.length with sets := mput s.sets [] n l }

/-- `COLLSB`: ctx is kept while en is 0. -/
def writeCollsb (s : State) (n v : Nat) : State :=
  if sysBit s (0x0200 + 2 * n) 63 then s else sysSetBits s (0x0201 + 2 * n) 7 0 (bits v 7 0)

def execCollsaEnSet (n : Nat) (v : Word) (s : State) : Out :=
  .next (if n < 64 then writeCollsa s n (setBit v.toNat 63 true) else s)
def execCollsaEnClear (n : Nat) (v : Word) (s : State) : Out :=
  .next (if n < 64 then writeCollsa s n (setBit v.toNat 63 false) else s)

end Sys2Proof.Machine
end

