-- ==== Sys2Proof/Machine/Matrix.lean ====
section
/-! DEFINITION. The matrix unit (R175 to R195): the files, the issue checks, the queue, the steps of a queued operation,
tile stamps (R192, R402). A step that is not enabled changes nothing. -/

namespace Sys2Proof.Machine

/-! ### Tile and accumulator files (R176, R178) -/

def tkey (i off : Nat) : Nat := i * 16384 + off
def zkey (i off : Nat) : Nat := i * 65536 + off

def tileGet (t : Team) (i off n : Nat) : List Byte := mgets t.tiles 0 (tkey i off) n
def tilePut (t : Team) (i off : Nat) (d : List Byte) : Team :=
  { t with tiles := mputs t.tiles 0 (tkey i off) d, pzT := pzWrite t.pzT (tkey i off) d.length false }
def accGet (t : Team) (i off n : Nat) : List Byte := mgets t.accs 0 (zkey i off) n
def accPut (t : Team) (i off : Nat) (d : List Byte) : Team :=
  { t with accs := mputs t.accs 0 (zkey i off) d, pzZ := pzWrite t.pzZ (zkey i off) d.length false }
def tilePz (t : Team) (i off n : Nat) : Bool := !t.pzT.isEmpty && (unitsTouched (tkey i off) n).any (fun u => t.pzT.contains u)
def accPz (t : Team) (i off n : Nat) : Bool := !t.pzZ.isEmpty && (unitsTouched (zkey i off) n).any (fun u => t.pzZ.contains u)

/-- Element width, columns and place of element (m, n) in the view of a type (R178). -/
def viewSize (ty : LType) : Nat := if ty = .f64 then 8 else 4
def viewCols (ty : LType) : Nat := if ty = .f64 then 64 else 128
def viewOff (ty : LType) (m n : Nat) : Nat := viewSize ty * (viewCols ty * m + n)

/-! ### Issue (R179, R180) -/

/-- What the checks of an instruction come to. -/
inductive MPlan where
  | ent (e : MEnt)
  | fault (c : FCause) (va : Nat)

/-- Does some session of context c take tile stamps (R192)? -/
def tileSessions (s : State) (c : Nat) : List Nat := (iota 0 16).filter (fun i => tsOpen s i && sysBit s (rTs i 0) 55 && takesCtx s i c)

/-- A closed tile stamp goes to the tile ring of every session that takes it (R402). -/
def writeStamp (s : State) (t : Team) (x : TStamp) (out : Nat) (holds : Nat) : State :=
  let l := launchOfT s t
  let ws := [x.issue, x.load, x.operand, x.compute, out,
    l.ctx + 2 ^ 8 * t.core + 2 ^ 16 * x.acc + 2 ^ 18 * x.part + 2 ^ 20 * x.group + 2 ^ 24 * x.opcode + 2 ^ 32 * x.steps,
    t.idx % 2 ^ 32 + 2 ^ 32 * ((x.hdr + 2 ^ 64 - lcBase l) % 2 ^ 32),
    min x.parkNs (2 ^ 32 - 1) + 2 ^ 32 * min x.heldNs (2 ^ 32 - 1)]
  (tileSessions s l.ctx).foldl (fun s i =>
    pushHeld s i ⟨.tile, t.core, ws.flatMap (leBytes 8), if sysBit s (rTs i 0) 56 then some holds else none⟩) s

def updStamp (s : State) (t : Nat) (ment : Nat) (f : TStamp → TStamp) : State :=
  updT s t (fun t => { t with stamps := t.stamps.map (fun x => if x.ment = ment then f x else x) })
def dropStamp (s : State) (t ment : Nat) : State := updT s t (fun t => { t with stamps := t.stamps.filter (fun x => x.ment != ment) })

/-- Open a stamp for the loop just queued; an open one of its accumulator closes without copy-out (R192). -/
def openStamp (s : State) (e : MEnt) (opcode steps : Nat) : State :=
  if (tileSessions s s.l.ctx).isEmpty then s
  else
    let old := s.t.stamps.filter (fun x => x.acc == e.d && !x.closing)
    let s := old.foldl (fun s x =>
      if x.done then dropStamp (writeStamp s s.t x 0 s.g.uid) s.t.uid x.ment
      else updStamp s s.t.uid x.ment (fun x => { x with closing := true, closer := s.g.uid })) s
    let p := takeStamp s s.t.core
    let x : TStamp := { acc := e.d, issue := p.1, group := s.g.idx, part := partOf s.g, opcode := opcode, steps := steps, hdr := e.hdr.toNat, ment := e.id }
    { p.2 with t := { p.2.t with stamps := p.2.t.stamps ++ [x] } }

/-- Depth of the queue. -/
def queueOps (e : MEnt) (s : State) : State :=
  let o : LOp := { id := e.op, kind := .matrix, act := e.act, uni := e.uni, ty := e.ty, d := e.d, left := 1,
                   pend := match e.kind with
                     | .zrd .. => if e.ty = .f64 then [e.d, e.d + 1] else [e.d]
                     | _ => [] }
  let s := startOp { s with nid := s.nid + 2 } o
  { s with t := { s.t with mq := s.t.mq ++ [e] } }

/-- The shape of every matrix word (R179, R180): the sibling, the checks, room in the queue, the entry. -/
def matrixWord (s : State) (w : LaneW) (plan : State → MEnt → MPlan) (k : MEnt → State → State) : State :=
  crossed s fun s =>
    if active s w = 0 then laneNext s
    else
      let base : MEnt := { id := s.nid + 1, kind := .tclr, group := s.g.uid, gidx := s.g.idx, vec := s.g.car, op := s.nid, hdr := (curF s).pc, entry := s.fi, act := active s w,
                           ty := w.ty, d := w.d.toNat, a := w.a.idx.toNat, b := w.b.idx.toNat, c := w.c.idx.toNat, uni := w.uni }
      match plan s base with
      | .fault c va => laneFault s c va
      | .ent e => if Config.matrixQueue ≤ s.t.mq.length then stall s 3 0 else laneNext (k e (queueOps e s))

/-! ### Loops (R185 to R187) -/

def uReg (s : State) (i : Nat) : Nat := (readU s.g i).toNat

/-- R122; the bring-up service refuses three formats (R436). -/
def fmtBlockOk (s : State) (x : Nat) : Bool :=
  let f := bits x 3 0
  decide (4 ≤ f ∧ f ≤ 8) && (bits x 5 4 == 0 || f == 8) && (!(bits x 5 4 == 0) || bits x 63 6 == 0) &&
  !(s.service == .bringUp && (f == 5 || f == 6 || f == 8))

/-- R187 for a loop: `sparse` is `mxs`, `blocks` is `mxb`. The rule does not order its three causes: where several hold, the model
names format block before tile shape before matrix descriptor, so that a tile of fmt 10 as A or B is a format block (log 40). -/
def loopPlan (w : LaneW) (sparse blocks : Bool) (s : State) (e : MEnt) : MPlan :=
  let x := x24n w
  let l := bits x 5 0
  let fA := uReg s (bits x 11 6)
  let fB := uReg s (bits x 17 12)
  let shA := shapeGet s.t e.a
  let shB := shapeGet s.t e.b
  let shC := shapeGet s.t e.c
  let fmt := bits fA 3 0
  let z := shSize shA
  let ds := (iota l (if sparse then 6 else 4)).map (uReg s)
  let d (i : Nat) : Nat := (ds[i]?).getD 0
  let al (n : Nat) : Bool := n % z == 0
  let bases := [d 0, d 1] ++ (if sparse then [d 4] else [])
  if !fmtBlockOk s fA || !fmtBlockOk s fB || fmt != bits fB 3 0 || fmt != shFmt shA || fmt != shFmt shB || ((w.ty == .f64) != (fmt == 5)) then
    .fault .formatBlock 0
  else if (if sparse then shRows shB != 2 * shCols shA || shCols shA % 4 != 0 || shFmt shC != 10 || shRows shC != shRows shA || shCols shC != shCols shA / 4
      else shRows shB != shCols shA)
    || (w.ty == .f64 && decide (64 < shCols shB)) || (blocks && (shRows shA % 16 != 0 || shCols shB % 16 != 0)) then
    .fault .tileShape 0
  else if bases.any (fun b => (packedOf b).isNone) || bits (d 3) 63 48 != 0 || (sparse && bits (d 5) 63 48 != 0)
    || !(al (bits (d 0) 56 0) && al (bits (d 1) 56 0) && al (bits (d 2) 31 0) && al (bits (d 2) 63 32) && al (bits (d 3) 15 0) && al (bits (d 3) 31 16)) then
    .fault .matrixDescriptor 0
  else .ent { e with kind := .loop sparse blocks (bit x 18) (bit x 19), shA := shA, shB := shB, desc := ds, fA := fA, fB := fB }

/-- An address register of R186 without its check. -/
def addrOf (x : Nat) : Space × Nat :=
  let sp := (spaceOfCode (bits x 59 57)).getD .g
  (sp, packedVa sp (bits x 56 0))

def stepsOf (e : MEnt) : Nat := bits ((e.desc[3]?).getD 0) 47 32

/-- A record of the matrix class (R393) with the accumulator. -/
def emitLoop (s : State) (t : Team) (e : MEnt) (code a : Nat) : State :=
  emit s 0x04 code (launchOfT s t).ctx t.core a (some (idB (e.gidx % 4) e.gidx e.entry t.idx e.d)) (some e.id)

def loopWord (w : LaneW) (sparse blocks : Bool) (opcode : Nat) (s : State) : State :=
  matrixWord s w (loopPlan w sparse blocks) fun e s =>
    let s := emitG s 0x04 0 0 e.d
    if bit (x24n w) 19 then openStamp s e opcode (stepsOf e) else s

def execMxl (w : LaneW) (s : State) : Out := .next (loopWord w false false 0x40 s)
def execMxb (w : LaneW) (s : State) : Out := .next (loopWord w false true 0x41 s)
def execMxs (w : LaneW) (s : State) : Out := .next (loopWord w true false 0x42 s)

/-! ### Moves (R193 to R195) -/

/-- Checks of an address register and stride for elements of size z (R193). -/
def movePlan (w : LaneW) (kind : MKind) (z : State → MEnt → Nat) (sh : State → MEnt → Nat) (s : State) (e : MEnt) : MPlan :=
  let x := uReg s (bits (x24n w) 5 0)
  let stride := bits (x24n w) 21 6
  let n := z s e
  if bits x 63 60 ≠ 0 ∨ 3 < bits x 59 57 then .fault .matrixDescriptor 0
  else if (addrOf x).2 % n ≠ 0 ∨ stride % n ≠ 0 then .fault .misaligned (addrOf x).2
  else .ent { e with kind := kind, desc := [x], stride := stride, shA := sh s e }

def noCheck (kind : MKind) (_ : State) (e : MEnt) : MPlan := .ent { e with kind := kind }

def execTld (w : LaneW) (s : State) : Out :=
  .next (matrixWord s w (movePlan w .tld (fun s e => shSize (shapeGet s.t e.d)) (fun s e => shapeGet s.t e.d)) fun _ s => s)
def execTst (w : LaneW) (s : State) : Out :=
  .next (matrixWord s w (movePlan w .tst (fun s e => shSize (shapeGet s.t e.a)) (fun s e => shapeGet s.t e.a)) fun _ s => s)
def execZld (w : LaneW) (s : State) : Out := .next (matrixWord s w (movePlan w .zld (fun _ _ => 8) (fun _ _ => 0)) fun _ s => s)
def execZst (w : LaneW) (s : State) : Out := .next (matrixWord s w (movePlan w .zst (fun _ _ => 8) (fun _ _ => 0)) fun _ s => s)
def execTclr (w : LaneW) (s : State) : Out := .next (matrixWord s w (noCheck .tclr) fun _ s => s)
def execTmov (w : LaneW) (s : State) : Out := .next (matrixWord s w (noCheck .tmov) fun _ s => s)
def execZclr (w : LaneW) (s : State) : Out := .next (matrixWord s w (noCheck .zclr) fun _ s => s)
def execZrd (w : LaneW) (s : State) : Out :=
  .next (matrixWord s w (noCheck (.zrd (bit (x24n w) 16) (bits (x24n w) 7 0) (bits (x24n w) 15 8))) fun _ s => s)

/-! ### Accesses of the sequencer (R182, R183) -/

inductive MRd where
  | wait (s : State) (away : Bool)
  | fault (s : State) (c : FCause) (va : Nat)
  | got (s : State) (x : Nat)

/-- A load of a window by the sequencer: own stores give it, or hold it; else its remote home is asked (R203, R243). -/
def mWindow (s : State) (e : MEnt) (c va : Nat) (a : Acc) (pa : Nat) : MRd :=
  let own : Owner := .group e.group
  match ownWin s e.group a with
  | .all d => .got (replayLoad s e.group e.entry a d) (leNat d)
  | .wait => .wait s false
  | .none =>
    match winRead s own e.id c pa a.n with
    | .inl (d, pz) => if pz then .fault s .poison va else .got (replayLoad s e.group e.entry a d) (leNat d)
    | .inr pas => .wait (park s c (.window own false e.id a.va pas)) false

/-- One load of n bytes: a relaxed access of the issuing group (R182). -/
def mLoad (s : State) (t : Team) (e : MEnt) (sp : Space) (va n : Nat) : MRd :=
  let c := (launchOfT s t).ctx
  match checkAcc s e.group t c 0 sp .load (va % 2 ^ 64) n n with
  | .bad f => .fault s f va
  | .away aw => .wait (park s c aw) true
  | .ok a =>
    if locked s c a false then .fault s .rangeLocked va
    else if poisonedRegion s a then .got (clusterPoison s c va e.group) 0
    else
      let window : Option Nat := match a.loc with
        | .mem pa => if isWindow s pa then some pa else none
        | _ => none
      match window with
      | some pa => mWindow s e c va a pa
      | none =>
        match performLoad s e.group t.core a false [] with
        | .wait s => .wait s false
        | .got d vec pz s =>
          if pz then .fault s .poison va
          else .got (replayLoad (mergeObs s e.group vec) e.group e.entry a d) (leNat d)

inductive MRds where
  | wait (s : State) (away : Bool)
  | fault (s : State) (c : FCause) (va : Nat)
  | got (s : State) (xs : List Nat)

def mLoads (s : State) (t : Team) (e : MEnt) (sp : Space) (n : Nat) : List Nat → MRds
  | [] => .got s []
  | va :: r =>
    match mLoad s t e sp va n with
    | .wait s a => .wait s a
    | .fault s c va => .fault s c va
    | .got s x =>
      match mLoads s t e sp n r with
      | .got s xs => .got s (x :: xs)
      | o => o

/-- The Roaster counts the accesses of a run once a step has made them (R377). -/
def mNotes (s : State) (t : Team) (e : MEnt) (sp : Space) (vas : List Nat) : State :=
  if sp = .g then vas.foldl (fun s va => roastNote s t.core (launchOfT s t).ctx e.group .load (va % 2 ^ 64)) s else s

/-- Runs of loads, one list of values each. -/
def mPanels (s : State) (t : Team) (e : MEnt) : List (Space × Nat × List Nat) → List (List Nat) → (MRds ⊕ (State × List (List Nat)))
  | [], acc => .inr (s, acc.reverse)
  | (sp, n, vas) :: r, acc =>
    match mLoads s t e sp n vas with
    | .got s xs => mPanels s t e r (xs :: acc)
    | o => .inl o

/-- Cut a list into runs of k. -/
def chunks {α : Type} (k : Nat) : Nat → List α → List (List α)
  | 0, _ => []
  | n + 1, l => l.take k :: chunks k n (l.drop k)

def mUpd (s : State) (t : Nat) (id : Nat) (f : MEnt → MEnt) : State :=
  updT s t (fun t => { t with mq := mapFirst (fun e => e.id == id) f t.mq })

/-- A fault of the sequencer, reported in the issuing clause (R183); `kind` is the access's (R370). -/
def mFault (s : State) (t : Team) (e : MEnt) (c : FCause) (va kind : Nat) : State :=
  siteFault s (e.gidx % 4, e.gidx, t.idx) 0 t.uid e.entry e.hdr.toNat c va (launchOfT s t).ctx t.core kind

/-- What the stores of a row come to: all entered, held after `k` of them, or a fault. -/
inductive MSts where
  | all (s : State)
  | away (s : State) (k : Nat)
  | fault (s : State)

/-- The element enters the issuing group's store path with C as it was at issue (R182, R199). -/
def mStore (s : State) (t : Team) (e : MEnt) (sp : Space) (va : Nat) (d : List Byte) : MSts :=
  let c := (launchOfT s t).ctx
  match checkAcc s e.group t c 0 sp .store (va % 2 ^ 64) d.length d.length with
  | .bad f => .fault (mFault s t e f va (akindNo .store))
  | .away aw => .away (park s c aw) 0
  | .ok a =>
    if locked s c a true then .fault (mFault s t e .rangeLocked va (akindNo .store))
    else
      let s := updG s e.group (fun g => opStep (replayStore g a d) e.op (fun o => { o with left := o.left + 1 }))
      let s := if sp = .g then roastNote s t.core c e.group .store (va % 2 ^ 64) else s
      .all (enter s { id := 0, owner := .group e.group, op := .store, acc := a, x := leNat d, vec := e.vec, core := t.core, ctx := c, lop := e.op,
                      hdr := e.hdr, entry := e.entry, launch := t.launch, tidx := t.idx, gidx := e.gidx })

/-- The stores of a list in turn; those entered before an away page are not entered again (R183). -/
def mStores (s : State) (t : Team) (e : MEnt) (sp : Space) (k : Nat) : List (Nat × List Byte) → MSts
  | [] => .all s
  | (va, d) :: r =>
    match mStore s t e sp va d with
    | .all s => mStores s t e sp (k + 1) r
    | .away s _ => .away s k
    | .fault s => .fault s

/-! ### Products (R188 to R191) -/

/-- Value of an element code, before any block scale (R112, R115, R131). -/
def elemVal (l : Launch) (fmt code : Nat) : FVal :=
  match fmt with
  | 4 => fread (ftzIn l) fmt32 code
  | 5 => fread (ftzIn l) fmt64 code
  | 6 => fread (ftzIn l) fmt16 code
  | 7 => fread (ftzIn l) fmtB16 code
  | _ => m8Val code

/-- Block length of a format block; 0 unscaled. -/
def blockLen (f : Nat) : Nat := if bits f 5 4 = 0 then 0 else 8 * 2 ^ bits f 5 4

/-- Blocks that elements lo to lo + n − 1 lie in. -/
def blocksOf (f lo n : Nat) : List Nat :=
  let b := blockLen f
  if b = 0 ∨ n = 0 then [] else iota (lo / b) ((lo + n - 1) / b + 1 - lo / b)

def scaleSp (f : Nat) : Space := (spaceOfCode (bits f 7 6)).getD .g
def scaleVas (f : Nat) (bs : List Nat) : List Nat :=
  bs.map (fun b => (packedVa (scaleSp f) (2 * bits f 63 8) + 2 * b) % 2 ^ 64)

/-- Values of elements lo, lo + 1, … with their scales (R120, R189). -/
def scaledVals (l : Launch) (f lo : Nat) (bs : List Nat) (scales codes : List Nat) : List FVal :=
  let b := blockLen f
  if b = 0 then codes.map (elemVal l (bits f 3 0))
  else codes.zipIdx.map (fun p => m8Elem p.1 ((scales[(lo + p.2) / b - bs.headD 0]?).getD 0))

/-- A row of `mxs` expanded (R191): stored codes and metadata bytes to codes at every position. -/
def expandRow (row tags : List Nat) : List Nat :=
  (iota 0 (row.length / 2)).flatMap (fun g =>
    let h := g % 2
    let b := (tags[g / 2]?).getD 0
    let i0 := bits b (4 * h + 1) (4 * h)
    let i1 := bits b (4 * h + 3) (4 * h + 2)
    (iota 0 4).map (fun i => if i = i1 then (row[2 * g + 1]?).getD 0 else if i = i0 then (row[2 * g]?).getD 0 else 0))

/-- One product added (R134): exact product, one rounding, with its causes. A product 0 × ∞ is recorded as invalid also where the accumulator
is already a NaN: R132 excepts that case for `mad`, no rule for a loop (log 13). -/
def macc (l : Launch) (f : Fmt) (acc : Nat × List Cause) (a b : FVal) : Nat × List Cause :=
  let z := fread (ftzIn l) f acc.1
  let r := match fmulV a b with
    | none => finishF f .rn (ftzOut l) true (some (.nan false))
    | some p => finishF f .rn (ftzOut l) (isSNaN a || isSNaN b || isSNaN z) (faddV .rn p z)
  (r.code, r.causes ++ acc.2)

def dotAcc (l : Launch) (f : Fmt) (z : Nat) (a b : List FVal) : Nat × List Cause :=
  (List.zip a b).foldl (fun acc p => macc l f acc p.1 p.2) (z, [])

/-- Products of a loop: every pair (m, n), or the sixteen diagonal blocks of `mxb`. -/
def inProduct (blocks : Bool) (M N m n : Nat) : Bool := !blocks || m / (M / 16) == n / (N / 16)

/-- Sizes of a loop: rows of A, columns of B, stored columns of A, expanded K. -/
def loopM (e : MEnt) : Nat := shRows e.shA
def loopN (e : MEnt) : Nat := shCols e.shB
def loopK (e : MEnt) : Nat := shRows e.shB

def sint32 (x : Nat) : Int := sint x 32
/-- base + s × inc + i × stride + k × z, ascending k. -/
def lineVas (base : Nat) (step : Nat) (inc : Int) (i stride z n : Nat) : List Nat :=
  (iota 0 n).map (fun k => (((base : Int) + step * inc + (i * stride + k * z : Nat)) % (2 ^ 64 : Int)).toNat)

/-- Causes of a loop not recorded before, with the sequencer's mark, at the loop's place in its group's program order (R140). -/
def logLoop (s : State) (t : Team) (e : MEnt) (cs : List Cause) : State :=
  let l := launchOfT s t
  let new := allCauses.filter (fun c => cs.contains c && !e.causes.contains (causeCode c))
  let s := new.foldl (fun s c => logG s l e.group e.id
    { time := dieNow s (dieOf t.core), pc := (e.hdr.toNat + 2 ^ 64 - lcBase l) % 2 ^ 64, team := t.idx, mask := e.act, site := 0, core := t.core, group := e.gidx,
      frag := e.entry, mx := true, count := 1, ty := tyCode e.ty, cause := causeCode c }) s
  mUpd s t.uid e.id (fun e => { e with causes := e.causes ++ new.map causeCode })

/-- Clear what `.zero` clears (R188, R190). -/
def loopZero (t : Team) (e : MEnt) (blocks : Bool) : Team :=
  (iota 0 (loopM e)).foldl (fun t m => (iota 0 (loopN e)).foldl (fun t n =>
    if inProduct blocks (loopM e) (loopN e) m n then accPut t e.d (viewOff e.ty m n) (List.replicate (viewSize e.ty) 0) else t) t) t

/-- The panels of step `i` as runs of loads: A by row, B by column, metadata, scales of A, scales of B. R188 asks only that they land
before the products: their order among themselves, which decides the fault that is reported, is the model's (log 40). -/
def loopLoads (e : MEnt) (sparse : Bool) (i : Nat) : List (Space × Nat × List Nat) :=
  let d (j : Nat) : Nat := (e.desc[j]?).getD 0
  let z := shSize e.shA
  let A := addrOf (d 0)
  let B := addrOf (d 1)
  let C := addrOf (d 4)
  let M := loopM e
  let N := loopN e
  let K := loopK e
  [(A.1, z, (iota 0 M).flatMap (fun m => lineVas A.2 i (sint32 (bits (d 2) 31 0)) m (bits (d 3) 15 0) z (shCols e.shA))),
   (B.1, z, (iota 0 N).flatMap (fun n => lineVas B.2 i (sint32 (bits (d 2) 63 32)) n (bits (d 3) 31 16) z K)),
   (C.1, 1, if sparse then (iota 0 M).flatMap (fun m => lineVas C.2 i (sint32 (bits (d 5) 31 0)) m (bits (d 5) 47 32) 1 (K / 8)) else []),
   (scaleSp e.fA, 2, scaleVas e.fA (blocksOf e.fA (i * M * K) (M * K))),
   (scaleSp e.fB, 2, scaleVas e.fB (blocksOf e.fB (i * N * K) (N * K)))]

/-- Panels in the tile files (R188, R191). -/
def putPanels (t : Team) (e : MEnt) (sparse : Bool) (a b c : List Nat) : Team :=
  let z := shSize e.shA
  let N := loopN e
  let K := loopK e
  let t := tilePut t e.a 0 (a.flatMap (leBytes z))
  let t := (iota 0 K).foldl (fun t k => (iota 0 N).foldl (fun t n => tilePut t e.b (z * (k * N + n)) (leBytes z ((b[n * K + k]?).getD 0))) t) t
  if sparse then tilePut t e.c 0 (c.flatMap (leBytes 1)) else t

/-- Element (i, j) of a tile with `cols` columns of size z (R176). -/
def tileElem (t : Team) (i cols z m n : Nat) : Nat := leNat (tileGet t i (z * (m * cols + n)) z)

/-- The products of a step, read from the tiles as its loads left them: each element of the accumulator with its causes, in row order. -/
def loopProducts (l : Launch) (t : Team) (e : MEnt) (sparse blocks : Bool) (i : Nat) (sa sb : List Nat) : Team × List Cause :=
  let M := loopM e
  let N := loopN e
  let K := loopK e
  let z := shSize e.shA
  let f := if e.ty = .f64 then fmt64 else fmt32
  let a := (iota 0 M).flatMap (fun m => (iota 0 (shCols e.shA)).map (fun k => tileElem t e.a (shCols e.shA) z m k))
  let b := (iota 0 N).flatMap (fun n => (iota 0 K).map (fun k => tileElem t e.b N z k n))
  let c := (iota 0 (M * (K / 8))).map (fun j => tileElem t e.c 1 1 j 0)
  let rows := if sparse then (List.zip (chunks (K / 2) M a) (chunks (K / 8) M c)).flatMap (fun p => expandRow p.1 p.2) else a
  let av := chunks K M (scaledVals l e.fA (i * M * K) (blocksOf e.fA (i * M * K) (M * K)) sa rows)
  let bv := chunks K N (scaledVals l e.fB (i * N * K) (blocksOf e.fB (i * N * K) (N * K)) sb b)
  av.zipIdx.foldl (fun tc p => bv.zipIdx.foldl (fun (tc : Team × List Cause) q =>
    if inProduct blocks M N p.2 q.2 then
      let off := viewOff e.ty p.2 q.2
      let r := dotAcc l f (leNat (accGet tc.1 e.d off (viewSize e.ty))) p.1 q.1
      (accPut tc.1 e.d off (leBytes (viewSize e.ty) r.1), r.2 ++ tc.2)
    else tc) tc) (t, [])

/-- Does the step read a poisoned unit of its accumulator (R433)? -/
def loopPz (t : Team) (e : MEnt) (blocks : Bool) : Bool :=
  !t.pzZ.isEmpty && (iota 0 (loopM e)).any (fun m => (iota 0 (loopN e)).any (fun n =>
    inProduct blocks (loopM e) (loopN e) m n && accPz t e.d (viewOff e.ty m n) (viewSize e.ty)))

/-! ### Stamps while a loop runs (R402) -/

def stampNote (s : State) (t : Team) (e : MEnt) (f : Nat → TStamp → TStamp) : State :=
  if t.stamps.any (fun x => x.ment == e.id) then
    let p := takeStamp s t.core
    updStamp p.2 t.uid e.id (f p.1)
  else s

/-- A step that is parked, held back or made counts the time lost outside the unit. -/
def stampPark (s : State) (t : Team) (e : MEnt) : State := updStamp s t.uid e.id (fun x => { x with parkAt := some (x.parkAt.getD s.now) })
def stampHeld (s : State) (t : Team) (e : MEnt) : State := updStamp s t.uid e.id (fun x => { x with heldAt := some (x.heldAt.getD s.now) })
def stampRun (s : State) (t : Team) (e : MEnt) : State :=
  updStamp s t.uid e.id (fun x => { x with
    parkNs := x.parkNs + (match x.parkAt with | some a => s.now - a | none => 0)
    heldNs := x.heldNs + (match x.heldAt with | some a => s.now - a | none => 0)
    parkAt := none, heldAt := none })

/-! ### Steps (R181, R184) -/

/-- Tiles (as 0 to 15) and accumulators (as 16 to 19) an operation names. -/
def mNames (e : MEnt) : List Nat :=
  match e.kind with
  | .loop sparse _ _ _ => [e.a, e.b, 16 + e.d] ++ (if sparse then [e.c] else [])
  | .tld | .tclr => [e.d]
  | .tst => [e.a]
  | .tmov => [e.d, e.a]
  | .zrd .. | .zst => [16 + e.a]
  | .zclr | .zld => [16 + e.d]

/-- May entry i make its next step: the team runs, the context too, nothing earlier names what it names? -/
def mReady (s : State) (t : Team) (i : Nat) (e : MEnt) : Bool :=
  !e.fin && t.slot == .running && ctxState s (launchOfT s t).ctx == 1 &&
  !(t.mq.take i).any (fun x => !x.fin && (mNames x).any (fun n => (mNames e).contains n))

/-- The stamp of a loop whose last step has ended may be closed; one that a later loop has superseded is written now (R192). -/
def stampEnd (s : State) (t : Team) (e : MEnt) : State :=
  let s := updStamp s t.uid e.id (fun x => { x with done := true })
  match ((getT s t.uid).getD t).stamps.find? (fun x => x.ment == e.id && x.closing) with
  | some x => dropStamp (writeStamp s t x 0 x.closer) t.uid e.id
  | none => s

/-- The first panel load of a loop starts: its stamp notes when (R192). -/
def stampLoad (s : State) (t : Team) (e : MEnt) : State :=
  if t.stamps.any (fun x => x.ment == e.id && x.load == 0) then stampNote s t e (fun n x => { x with load := n }) else s

/-- One step of a loop; the first clears what `.zero` clears. -/
def stepLoop (s : State) (t : Team) (e : MEnt) (sparse blocks zero : Bool) : State :=
  let S := stepsOf e
  let s := if zero && e.step == 0 then updT s t.uid (fun t => loopZero t e blocks) else s
  if S = 0 then
    stampEnd (stampNote (mUpd s t.uid e.id (fun e => { e with fin := true })) t e (fun n x => { x with load := n, operand := n, compute := n })) t e
  else
    let s := stampLoad s t e
    let t := (getT s t.uid).getD t
    match mPanels s t e (loopLoads e sparse e.step) [] with
    | .inl (.wait s away) => if away then stampPark s t e else s
    | .inl (.fault s c va) => mFault s t e c va (akindNo .load)
    | .inl (.got s _) => s
    | .inr (s, ls) =>
      if loopPz t e blocks then mFault s t e .poison 0 0
      else
        let s := stampRun (clearWin s (.group e.group) e.id) t e
        let s := (loopLoads e sparse e.step).foldl (fun s p => mNotes s t e p.1 p.2.2) s
        let s := stampNote s t e (fun n x => { x with operand := n })
        let g (j : Nat) : List Nat := (ls[j]?).getD []
        let t := (getT s t.uid).getD t
        let l := launchOfT s t
        let r := loopProducts l (putPanels t e sparse (g 0) (g 1) (g 2)) e sparse blocks e.step (g 3) (g 4)
        let s := updT s t.uid (fun _ => r.1)
        let s := logLoop s t e r.2
        let s := stampNote s t e (fun n x => { x with compute := n })
        let s := countCore s t.core 0x09 (some l.ctx) 1
        let s := emitLoop s t e 1 e.step
        let s := mUpd s t.uid e.id (fun e => { e with step := e.step + 1, fin := decide (e.step + 1 = S) })
        settleA (if e.step + 1 = S then stampEnd s t e else s)

/-- The next row is done. -/
def rowDone (s : State) (t : Nat) (e : MEnt) (rows : Nat) : State :=
  mUpd s t e.id (fun e => { e with step := e.step + 1, col := 0, fin := decide (rows ≤ e.step + 1) })

/-- One row of a load: `put` places the bytes read. -/
def stepLoadRow (s : State) (t : Team) (e : MEnt) (z n rows : Nat) (put : Team → List Byte → Team) : State :=
  let A := addrOf ((e.desc[0]?).getD 0)
  match mLoads s t e A.1 z (lineVas A.2 0 0 e.step e.stride z n) with
  | .wait s _ => s
  | .fault s c va => mFault s t e c va (akindNo .load)
  | .got s xs => rowDone (updT (mNotes (clearWin s (.group e.group) e.id) t e A.1 (lineVas A.2 0 0 e.step e.stride z n)) t.uid (fun t => put t (xs.flatMap (leBytes z)))) t.uid e rows

/-- One row of a store of bytes `d`, from the element it has come to. -/
def stepStoreRow (s : State) (t : Team) (e : MEnt) (z rows : Nat) (d : List Byte) (pz : Bool) : State :=
  let A := addrOf ((e.desc[0]?).getD 0)
  if pz then mFault s t e .poison 0 0
  else
    let n := d.length / z
    match mStores s t e A.1 0 ((List.zip (lineVas A.2 0 0 e.step e.stride z n) (chunks z n d)).drop e.col) with
    | .fault s => s
    | .away s k => mUpd s t.uid e.id (fun e => { e with col := e.col + k })
    | .all s => rowDone s t.uid e rows

/-- What `zrd` reads for thread `th` (R195). -/
def zrdVal (t : Team) (e : MEnt) (col : Bool) (i b th : Nat) : Nat :=
  let m := if col then b + th else i
  let n := if col then i else b + th
  if m < 128 ∧ n < viewCols e.ty then leNat (accGet t e.a (viewOff e.ty m n) (viewSize e.ty)) else 0

/-- Threads that a `zrd` reads elements for. -/
def zrdThreads (e : MEnt) : List Nat := if e.uni then (lowest e.act).toList else threads e.act

def stepZrd (s : State) (t : Team) (e : MEnt) (col : Bool) (i b : Nat) : State :=
  let bad := (zrdThreads e).any (fun th => let m := if col then b + th else i
                                           let n := if col then i else b + th
                                           decide (m < 128 ∧ n < viewCols e.ty) && accPz t e.a (viewOff e.ty m n) (viewSize e.ty))
  if bad then mFault s t e .poison 0 0
  else
    let vals := (zrdThreads e).map (fun th => (th, zrdVal t e col i b th))
    let all := if e.uni then (threads e.act).map (fun th => (th, (vals.headD (0, 0)).2)) else vals
    let res := all.flatMap (fun p => if e.ty = .f64 then [(e.d * 64 + p.1, BitVec.ofNat 32 p.2), ((e.d + 1) * 64 + p.1, BitVec.ofNat 32 (p.2 / 2 ^ 32))]
      else [(e.d * 64 + p.1, BitVec.ofNat 32 p.2)])
    let s := updG s e.group (fun g => { g with ops := mapFirst (fun o => o.id == e.op) (fun o => { o with res := res }) g.ops })
    mUpd s t.uid e.id (fun e => { e with fin := true })

def stepMatrix (s : State) (t : Team) (e : MEnt) : State :=
  let one (f : Team → Team) : State := mUpd (updT s t.uid f) t.uid e.id (fun e => { e with fin := true })
  let z := shSize e.shA
  let cols := shCols e.shA
  match e.kind with
  | .loop sparse blocks zero _ => stepLoop s t e sparse blocks zero
  | .tld => stepLoadRow s t e z cols (shRows e.shA) (fun t d => tilePut t e.d (z * cols * e.step) d)
  | .tst => stepStoreRow s t e z (shRows e.shA) (tileGet t e.a (z * cols * e.step) (z * cols)) (tilePz t e.a (z * cols * e.step) (z * cols))
  | .zld => stepLoadRow s t e 8 64 128 (fun t d => accPut t e.d (512 * e.step) d)
  | .zst => stepStoreRow s t e 8 128 (accGet t e.a (512 * e.step) 512) (accPz t e.a (512 * e.step) 512)
  | .tclr => one (fun t => { t with tiles := mclear t.tiles (tkey e.d 0) 16384, pzT := pzWrite t.pzT (tkey e.d 0) 16384 false })
  | .zclr => one (fun t => { t with accs := mclear t.accs (zkey e.d 0) 65536, pzZ := pzWrite t.pzZ (zkey e.d 0) 65536 false })
  | .tmov => if tilePz t e.a 0 16384 then mFault s t e .poison 0 0
    else one (fun t => if e.a = e.d then t else { t with tiles := mcopy t.tiles 0 (tkey e.a 0) 16384 (tkey e.d 0), pzT := pzWrite t.pzT (tkey e.d 0) 16384 false })
  | .zrd col i b => stepZrd s t e col i b

/-- One step of entry i of a team's queue (R181, R184, R188). -/
def execMatrixStep (t i : Nat) (s : State) : Out :=
  .next (match getT s t with
    | none => s
    | some x =>
      match x.mq[i]? with
      | none => s
      | some e => if !mReady s x i e then s else if heldBack s e.id then stampHeld s x e else stepMatrix s x e)

/-! ### Completion (R181) -/

/-- Has a finished entry nothing more due: its stores are all acknowledged? -/
def mDone (s : State) (e : MEnt) : Bool :=
  e.fin && (match e.kind with
    | .tst | .zst => match getG s e.group with
      | some g => match getOp g e.op with
        | some o => o.left == 1
        | none => true
      | none => true
    | _ => true)

/-- Is entry e the next `zst` of the accumulator after the loop of a stamp (R192)? -/
def nextZst (t : Team) (e : MEnt) (x : TStamp) : Bool :=
  decide (x.ment < e.id) && !t.mq.any (fun y => y.kind == .zst && y.a == x.acc && decide (x.ment < y.id ∧ y.id < e.id))

/-- The stamp that a completed `zst` closes, with the copy-out time (R192, R402). -/
def stampClose (s : State) (t : Team) (e : MEnt) : State :=
  match e.kind with
  | .zst =>
    match t.stamps.find? (fun x => x.acc == e.a && x.done && !x.closing && nextZst t e x) with
    | some x =>
      let p := takeStamp s t.core
      dropStamp (writeStamp p.2 t x p.1 e.group) t.uid x.ment
    | none => s
  | _ => s

def execMatrixOpComplete (t i : Nat) (s : State) : Out :=
  .next (match getT s t with
    | none => s
    | some x =>
      match x.mq[i]? with
      | none => s
      | some e =>
        if !mDone s e then s
        else
          let s := match e.kind with
            | .loop .. => emitLoop s x e 2 (stepsOf e)
            | _ => s
          let s := stampClose s x e
          teamEnd (updG (updT s t (fun t => { t with mq := t.mq.filter (fun y => y.id != e.id) })) e.group (fun g => opLess g e.op)) t)

end Sys2Proof.Machine
end

