-- ==== Sys2Proof/Machine/Policy.lean ====
section
/-! DEFINITION. Which move comes next when the tape of choices is empty (log 1): every part of the device that may have
something to do is visited in turn. A move that is not enabled changes nothing, so the list may hold more than can act. -/

namespace Sys2Proof.Machine

def pathMoves (s : State) : List Move :=
  (iota 0 s.path.length).flatMap (fun k =>
    match s.path[k]? with
    | none => []
    | some e =>
      if e.st ≠ .sent then [] else
      match e.op with
      | .store => [.ev (.storeArrival k)]
      | .red .. => [.ev (.atomicArrival k), .ev (.updateOnlyGrant k), .ev (.reductionMerge k)]
      | _ => [.ev (.atomicArrival k)])

def queueMoves (s : State) : List Move :=
  (dies.flatMap (fun h => dies.map (fun e => (h, e)))).filterMap (fun p =>
    if s.inq.any (fun u => u.home == p.1 && u.dst == p.2) then some (.ev (.updateApplication p.1 p.2)) else none)

def opMoves (g : Group) (o : LOp) : List Move :=
  match o.kind with
  | .load => [.ev (.loadPerform g.uid o.id 0)]
  | .special => [.ev (.specialFunctionComplete g.uid o.id)]
  | .term => [.ev (.termInstructionFinished g.uid o.id)]
  | .claim | .emit => if o.parts.isEmpty then [] else [.ev (.loadPerform g.uid o.id 0)]
  | _ => []

def fragMove (g : Group) (p : Nat × Frag) : Move :=
  match p.2.wait with
  | .mem .. => .ev (.missFragmentWake g.uid p.2.id)
  | .barrier .. => .ev (.barwWake g.uid p.2.id)
  | .monHit .. => .ev (.monitorWake g.uid p.2.id)
  | _ => .lane g.uid p.1

def bindMoves (g : Group) (b : Bind) : List Move :=
  match b.kind with
  | 0 => [.ev (.neighbourEntryTransfer g.uid b.chan)]
  | 2 => [.ev (.streamInFill g.uid b.chan)]
  | 3 => [.ev (.streamOutWrite g.uid b.chan)]
  | _ => []

def groupMoves (s : State) (g : Group) : List Move :=
  (if g.atEnd then [.ev (.groupRetire g.uid)] else [.scalar g.uid]) ++
  (if g.task.isNone && !g.taskq.isEmpty then [.lane g.uid 0] else g.frs.map (fragMove g)) ++
  g.ops.flatMap (opMoves g) ++ g.bind.flatMap (bindMoves g) ++
  (if isPers (launchOfG s g) && decide (lapNs (launchOfG s g) ≤ g.lap) then [.ev (.lapClockExpiry g.uid)] else [])

def teamMoves (t : Team) : List Move :=
  (iota 0 t.mq.length).flatMap (fun i => [.ev (.matrixStep t.uid i), .ev (.matrixOpComplete t.uid i)]) ++
  (if t.mail.isSome then [.ev (.stealTimeout t.uid)] else []) ++
  (if t.slot = .shadow then [.ev (.shadowSwitch t.core)] else []) ++
  (if t.preempt then [.ev (.switchOut t.uid)] else []) ++ [.ev (.phaseYieldSlot t.uid)]

def claimMoves (s : State) : List Move :=
  (iota 0 s.reqs.length).map (fun k => .ev (.claimHomeMove k)) ++
  (s.claims.filter (fun e => e.making && decide (e.limit * 1000 ≤ e.lease))).map (fun e => .ev (.leaseExpiry e.id)) ++
  s.purges.map (fun p => .ev (.purgeComplete p.domain))

def engineMoves (s : State) : List Move :=
  s.eops.flatMap (fun e => [.ev (.engineOpStart e.id), .ev (.engineRead ⟨e.id, (e.whole ++ e.todo.map (·.1)).headD 0⟩), .ev (.engineDelivery e.id (e.total - e.delivered)),
    .ev (.engineOpComplete e.id)] ++
    (match e.kind with
      | .coll _ _ _ _ _ slot _ => if mget s.sets [] slot = [sysBits s 0x0100 8 0] then [.ev (.collectiveCombine e.id [])] else []
      | _ => []))

/-- Some launch has a team to place, or a team is out or in a shadow slot: every core may be offered. -/
def placeable (s : State) : Bool :=
  (allL s).any (fun l => decide (l.placed < gridN l) || !l.binq.isEmpty) || (allT s).any (fun t => t.slot == .out || t.slot == .shadow)

def launchMoves (s : State) : List Move :=
  ((iota 0 64).filter (fun q => queueEn s q && sysGet s (rQ q 3) != sysGet s (rQ q 2))).map (fun q => .ev (.launchRead q)) ++
  (if placeable s then (iota 0 256).map (fun c => .ev (.coreOffer c)) else []) ++
  (allL s).flatMap (fun l => [.ev (.launchComplete l.uid), .ev (.phaseCommit l.uid)] ++ l.bins.map (fun b => .ev (.binTimerExpiry l.uid b.id)))

def deviceMoves (s : State) : List Move :=
  s.wants.map (fun l => .ev (.recall l)) ++
  ((iota 0 16).filter (tsOpen s)).map (fun i => .ev (.recordPlace i)) ++
  s.sess.filterMap (fun p => if (p.2.closing.getD 0) < 2 then none else some (.ev (.recordFlushTimeout p.1))) ++
  (if s.invals.isEmpty then [] else [.ev .tlbInvalidationComplete]) ++
  (s.walks.filter (fun w => w.failed.isNone)).map (fun w => .ev (.pageWalk w.core w.ctx (BitVec.ofNat 64 w.page))) ++
  (s.rows.map (fun p => .ev (.precharge p.1 false))) ++
  (if s.migq.isEmpty then [] else [.ev .migrationMove]) ++
  (if s.dumps.isEmpty then [] else [.ev .dumpWrite]) ++
  s.pre.flatMap (fun p => [.ev (.shadowSwitch p.core)] ++ ((allT s).filter (fun t => t.core == p.core && t.slot == .running)).map (fun t => .ev (.switchOut t.uid))) ++
  (if sysBit s 0x1307 63 && decide (s.roastEnd ≤ s.now) then [.ev .roasterEpochEnd] else []) ++
  (if s.atts then [.ev .attestationReportDone] else []) ++
  (iota 0 s.wins.length).map (fun k => .ev (.remoteTimeout k)) ++
  (if sysBit s 0x3944 62 && s.service == .bringUp then [.ev .fullServiceStart] else [])

/-- Everything that may act. -/
def candidates (s : State) : List Move :=
  pathMoves s ++ queueMoves s ++ (allG s).flatMap (groupMoves s) ++ (allT s).flatMap teamMoves ++ claimMoves s ++ engineMoves s ++
  launchMoves s ++ deviceMoves s

/-- The next move of the default policy. -/
def pick (s : State) : Option Move :=
  let l := candidates s
  if l.isEmpty then none else l[s.turn % l.length]?

/-- Moves of the device and of the outside, as opposed to words and starts of a stream. -/
def isMove (i : Instr) : Bool :=
  match i with
  | .clauseStart _ | .laneTaskStart _ | .scalarIllegalInstruction _ | .textFetchTranslationFault => false
  | _ => (encode i).isNone

end Sys2Proof.Machine
end

