-- ==== Sys2Proof/Machine/SysReg.lean ====
section
/-! DEFINITION. The numbers of the supervisor view (R3, R448, R449): which are assigned, what a read gives, what a write does.
`mtsr`, the host's writes through BAR0 and `REGISTER_WRITE` share the one write. -/

namespace Sys2Proof.Machine

/-- Assigned numbers of the supervisor view. -/
def sysAssigned (n : Nat) : Bool :=
  n == 0x0100 || decide (0x0200 ≤ n ∧ n < 0x0280) || decide (0x0400 ≤ n ∧ n < 0x0600 ∧ n % 8 < 7) || decide (0x0800 ≤ n ∧ n < 0x0A00) ||
  decide (0x0A00 ≤ n ∧ n < 0x1200 ∧ n % 8 < 6) || decide (0x1200 ≤ n ∧ n ≤ 0x130A) || decide (0x1310 ≤ n ∧ n ≤ 0x1315) ||
  decide (0x1400 ≤ n ∧ n < 0x1500 ∧ n % 16 < 6) || decide (0x1500 ≤ n ∧ n < 0x3940) || decide (0x3940 ≤ n ∧ n ≤ 0x3944) ||
  decide (0x3A00 ≤ n ∧ n < 0x4000)

/-- What a read gives: WO fields are never stored, so they read as zero (R3). -/
def sysRead (s : State) (n : Nat) : Nat := sysGet s n

/-- Keep the listed fields [hi:lo] of a value. -/
def keepF (v : Nat) : List (Nat × Nat) → Nat
  | [] => 0
  | (hi, lo) :: r => setBits (keepF v r) hi lo (bits v hi lo)

/-- Store the listed fields of a value. -/
def putF (s : State) (n v : Nat) (l : List (Nat × Nat)) : State :=
  sysPut s n (l.foldl (fun x f => setBits x f.1 f.2 (bits v f.1 f.2)) (sysGet s n))

/-- `DOMIDX` (R448). -/
def writeDomidx (s : State) (v : Nat) : State :=
  if 432 ≤ bits v 8 0 ∨ (iota 1 255).any (ctxLive s) then s else putF s 0x0100 v [(8, 0)]

/-- Does a context have a group on a core or switched out (R311)? -/
def ctxResident (s : State) (c : Nat) : Bool := (allT s).any (fun t => !(t.slot == .retired) && (launchOfT s t).ctx == c)

/-- Register i of queue q (R288, R290). -/
def writeQueue (s : State) (q i v : Nat) : State :=
  match i with
  | 0 => if queueEn s q then s else putF s (rQ q 0) v [(56, 12)]
  | 1 => writeQctl s q v
  | 2 => writeQtail s q v
  | 4 => putF s (rQ q 4) v [(31, 0)]
  | _ => s

/-- Register i of context c (R365, R366): all but `CTXPT` and `CTXST` only while en is 0. -/
def writeCtx (s : State) (c i v : Nat) : State :=
  match i with
  | 0 => writeCtxpt s c v
  | 3 => writeCtxst s c v
  | _ =>
    if ctxLive s c then s
    else match i with
    | 1 => putF s (rCtx c 1) v [(51, 12)]
    | 2 => putF s (rCtx c 2) v [(47, 32), (16, 16), (15, 8), (7, 0)]
    | 4 => putF s (rCtx c 4) v [(43, 2)]
    | 5 => if 768 < bits v 25 16 + bits v 9 0 then s else putF s (rCtx c 5) v [(25, 16), (9, 0)]
    | _ => s

/-- Numbers 0x1300 to 0x1315. -/
def writeDev (s : State) (n v : Nat) : State :=
  match n with
  | 0x1300 => putF s n v [(51, 12), (3, 0)]
  | 0x1301 => putF s n v [(31, 0)]
  | 0x1303 | 0x1305 => putF s n v [(56, 12)]
  | 0x1304 => writeMigcmdc s v
  | 0x1306 => writeTlbinvc s v
  | 0x1307 => writeRoastctl s v
  | 0x1309 => putF s n v [(11, 0)]
  | 0x130A => writeAttctl s v
  | 0x1310 => writeTbctl s v
  | 0x1311 => writeTbset s v
  | 0x1312 => writeTbadj s v
  | 0x1313 => writeTbrate s v
  | _ => s

/-- Register j of session i (R394). -/
def writeTs (s : State) (i j v : Nat) : State :=
  if j = 0 then writeTsctl s i v
  else if tsOpen s i then s
  else if j ≤ 3 then putF s (rTs i j) v [(56, 12), (3, 0)]
  else if j = 4 then putF s (rTs i 4) v [(56, 6)]
  else s

/-- RW fields of `CTRSEL` (R407): halt only for a core counter. -/
def ctrFields (n : Nat) : List (Nat × Nat) :=
  (if ctrIsCore n then [(61, 61)] else []) ++ [(63, 63), (60, 57), (15, 8), (7, 0)]

/-- `CTRSEL`: its RW fields, and ovf clears where 1 is written. -/
def writeCtrsel (s : State) (n v : Nat) : State :=
  let s := putF s n v (ctrFields n)
  if bit v 62 then sysSetBit s n 62 false else s

def writeCtr (s : State) (n v : Nat) : State := if n % 2 = 0 then writeCtrsel s n v else sysPut s n (bits v 47 0)

/-- `PRECTL` (R417): while busy a write is ignored with result 3; else a request is made, or armed on a counter. -/
def writePrectl (s : State) (core v : Nat) : State :=
  let n := rPre core
  if sysBit s n 63 then sysSetBits s n 62 61 3
  else
    let s := putF s n v [(9, 8), (7, 4), (1, 0)]
    if bit v 8 then s else preRequest s core (bits v 1 0)

/-- Recovery register i of context c (R412). -/
def writeRec (s : State) (c i v : Nat) : State :=
  if ctxLive s c then s
  else match i with
  | 0 => putF s (rRec c 0) v [(63, 63), (56, 2)]
  | 1 => putF s (rRec c 1) v [(56, 5)]
  | _ => putF s (rRec c i) v [(56, 12), (5, 0)]

/-- Numbers 0x3940 to 0x3944. -/
def writeLog (s : State) (n v : Nat) : State :=
  match n with
  | 0x3940 => putF s n v [(51, 12), (3, 0)]
  | 0x3941 => putF s n v [(31, 0)]
  | _ => s

/-- A write of an assigned number, in one move. -/
def sysWrite (s : State) (n v : Nat) : State :=
  if n = 0x0100 then writeDomidx s v
  else if n < 0x0280 then (if n % 2 = 0 then writeCollsa s ((n - 0x0200) / 2) v else writeCollsb s ((n - 0x0200) / 2) v)
  else if n < 0x0600 then writeQueue s ((n - 0x0400) / 8) (n % 8) v
  else if n < 0x0900 then writeClmdom s (n - 0x0800) v
  else if n < 0x0A00 then (if ctxResident s (n - 0x0900) then s else putF s n v [(7, 0)])
  else if n < 0x1200 then writeCtx s ((n - 0x0A00) / 8) (n % 8) v
  else if n < 0x1300 then writeKeyslot s (n - 0x1200) v
  else if n < 0x1400 then writeDev s n v
  else if n < 0x1500 then writeTs s ((n - 0x1400) / 16) (n % 16) v
  else if n < 0x1600 then writeDbgctl s (n - 0x1500) v
  else if n < 0x3700 then writeCtr s n v
  else if n < 0x3800 then putF s n v [(0, 0)]
  else if n < 0x3900 then writePrectl s (n - 0x3800) v
  else if n < 0x3940 then writeQrst s (n - 0x3900) v
  else if n < 0x3A00 then writeLog s n v
  else if n < 0x3C00 then (if n % 2 = 0 then writeLanda s ((n - 0x3A00) / 2) v else writeLandb s ((n - 0x3A00) / 2) v)
  else writeRec s ((n - 0x3C00) / 4) (n % 4) v

/-! ### BAR0 (R244, R252, R288, R365, R376, R379, R388, R394, R405, R407, R412, R448) -/

/-- Where the registers stand in BAR0: first offset, first number, how many; 8 bytes each. `CLMDOM` and `CTXCLM` have no offset. -/
def bar0Map : List (Nat × Nat × Nat) :=
  [(0x0F0000, 0x0100, 1), (0x0F1000, 0x0200, 0x80), (0x100000, 0x0400, 0x200), (0x200000, 0x0A00, 0x800), (0x300000, 0x1200, 0x100)] ++
  [(0x400000, 0x1300, 0x100), (0x500000, 0x1400, 0x100), (0x600000, 0x1500, 0x2300), (0x700000, 0x3800, 0x800)]

/-- The supervisor number at a BAR0 offset. -/
def bar0Num (off : Nat) : Option Nat :=
  if off % 8 ≠ 0 then none
  else (bar0Map.find? (fun r => decide (r.1 ≤ off ∧ off < r.1 + 8 * r.2.2))).map (fun r => r.2.1 + (off - r.1) / 8)

/-- The BAR0 offset of a supervisor number. -/
def bar0Off (n : Nat) : Option Nat :=
  (bar0Map.find? (fun r => decide (r.2.1 ≤ n ∧ n < r.2.1 + r.2.2))).map (fun r => r.1 + 8 * (n - r.2.1))

/-- A write of the host at a BAR0 offset. -/
def regWrite (s : State) (off v : Nat) : State :=
  match bar0Num off with
  | some n => if sysAssigned n then sysWrite s n v else s
  | none => s

/-! ### The program view (R105) -/

/-- Value of a program-view number for the issuing group; none is unassigned. -/
def progRead (s : State) (n : Nat) : Option Word :=
  match n with
  | 0x000 => some 64
  | 0x001 => some (BitVec.ofNat 64 (2 ^ 8 * (s.t.core % 256) + 2 ^ 4 * partOf s.g + s.g.idx))
  | 0x002 => some (BitVec.ofNat 64 (s.t.idx % 2 ^ 32))
  | 0x003 => some (BitVec.ofNat 64 (2 ^ 16 * (s.t.cluster % 2 ^ 16) + s.t.rank))
  | 0x004 => some (BitVec.ofNat 64 (bits (lw s.l 2) 31 0))
  | 0x005 => some (BitVec.ofNat 64 (lcBase s.l))
  | 0x008 => some (BitVec.ofNat 64 (fpctl s.l))
  | 0x009 => some (BitVec.ofNat 64 s.l.phaseNo)
  | 0x00A => some (BitVec.ofNat 64 (dieNow s (dieOf s.t.core)))
  | _ => none

/-! ### Counters as programs name them (R445) -/

/-- `CTRSEL` number that a selector names: none when it names no counter. -/
def ctrNamed (s : State) (x : Nat) : Option Nat :=
  let j := bits x 4 0
  if bit x 5 then some (rCtrDie (if isSuper s then bits x 9 8 else dieOf s.t.core) j)
  else if j < 16 then some (rCtrCore (if isSuper s then bits x 15 8 else s.t.core) j)
  else none

/-- The counter a word may act on: owned in the supervisor view, or counting only the issuing context. -/
def ctrOwned (s : State) (x : Nat) : Option Nat :=
  match ctrNamed s x with
  | some n => if isSuper s || (!sysBit s n 57 && sysBits s n 15 8 == s.l.ctx) then some n else none
  | none => none

end Sys2Proof.Machine
end

