-- ==== Sys2Proof/Machine/System.lean ====
section
/-! DEFINITION. System, trap and trace words (R104, R438 to R450), and the two faults of a scalar fetch (R74, R96). -/

namespace Sys2Proof.Machine

/-- A time or counter reading is an input that a replay logs (R403). -/
def logReading (s : State) (x : Nat) : State := replay s s.g.uid 4 .g 0 0 (leBytes 8 x)

/-- `mfsr` (R104, R448). -/
def execMfsr (d : Reg) (num : BitVec 14) (s : State) : Out :=
  let n := num.toNat
  .next (
    if n < 0x100 then
      match progRead s n with
      | none => trapHere s 1 (.mfsr d num)
      | some x => setA (if n = 0x00A then logReading s x.toNat else s) d x
    else if !isSuper s then trapHere s 2 (.mfsr d num)
    else if !sysAssigned n then trapHere s 1 (.mfsr d num)
    else
      let x := sysRead s n
      setA (if 0x1600 ≤ n ∧ n < 0x3700 then logReading s x else s) d (BitVec.ofNat 64 x))

/-- `mtsr` (R449): the stream has drained, then one write. -/
def execMtsr (a : Reg) (num : BitVec 14) (s : State) : Out :=
  let n := num.toNat
  .next (
    if !isSuper s then trapHere s 2 (.mtsr a num)
    else if n < 0x100 ∨ sysAssigned n = false then trapHere s 1 (.mtsr a num)
    else if uCount s s.g.uid ≠ 0 ∨ xCount s s.g.uid ≠ 0 then s
    else sysWrite (advance s) n (srcA s a).toNat)

/-! ### Traps and points (R418, R439, R440, R442) -/

def execTrap (code : BitVec 20) (s : State) : Out :=
  .next (takeTrap s (4 + 2 ^ 16 * code.toNat) (s.g.pc + 4).toNat ((encodeScalar (.trap code)).getD 0))

def execEret (s : State) : Out := .next (leaveTrap s)

/-- `safe`: a large team waits for its tasks, and the group is at a point until its next word (R418, R420). -/
def execSafe (vn : BitVec 7) (tz : Bool) (s : State) : Out :=
  .next (
    if 64 < vn.toNat then trapHere s 1 (.safe vn tz)
    else if s.t.small then advance s
    else if !laneIdle s.g then s
    else advance { s with g := { s.g with safe := some (vn.toNat + 128 * tz.toNat), nInstr := 0, nClause := 0 } })

/-- `stop` (R442). -/
def execStop (code : BitVec 20) (s : State) : Out :=
  let s1 := advance s
  .next (if !sysBit s (0x3700 + s.l.ctx) 0 || (stoppedOn s s.t.core).isSome then s1
    else stopPart (sysSetBits s1 (rDbg s.t.core) 5 4 (partOf s.g)) s.t.core (partOf s.g) 2 code.toNat)

/-! ### Records and time (R443, R444) -/

def execTrc (a b : Reg) (s : State) : Out :=
  .next (advance (emitS s 0x0C 0 ((srcA s a).toNat % 2 ^ 24) (srcA s b).toNat))

def execTnow (d : Reg) (s : State) : Out :=
  let p := takeStamp s s.t.core
  .next (setA (logReading p.2 p.1) d (BitVec.ofNat 64 p.1))

/-! ### Counters (R445) -/

def execCtrRd (d a : Reg) (s : State) : Out :=
  let x := match ctrOwned s (srcA s a).toNat with
    | some n => sysGet s (n + 1) % 2 ^ 48 + 2 ^ 63 * (sysBit s n 62).toNat
    | none => 0
  .next (setA (logReading s x) d (BitVec.ofNat 64 x))

def execCtrArm (a b : Reg) (s : State) : Out :=
  .next (advance (match ctrOwned s (srcA s a).toNat with
    | some n =>
      if isSuper s then writeCtrsel s n (srcA s b).toNat
      else putF s n (srcA s b).toNat [(63, 63), (60, 60), (7, 0)]
    | none => s))

def execCtrClr (a : Reg) (s : State) : Out :=
  .next (advance (match ctrOwned s (srcA s a).toNat with
    | some n => sysSetBit (sysPut s (n + 1) 0) n 62 false
    | none => s))

/-! ### Error logs (R139, R446, R447) -/

/-- The 256 bits of a record. -/
def arecVal (r : ARec) : Nat :=
  2 ^ 192 * (r.time % 2 ^ 64) + 2 ^ 160 * (r.pc % 2 ^ 32) + 2 ^ 128 * (r.team % 2 ^ 32) + 2 ^ 64 * r.mask.toNat + 2 ^ 56 * r.site +
  2 ^ 48 * r.core + 2 ^ 44 * r.group + 2 ^ 41 * r.frag + 2 ^ 40 * r.mx.toNat + 2 ^ 32 * r.count + 2 ^ 12 * r.ty + r.cause

def brecVal (r : BRec) : Nat :=
  2 ^ 192 * (r.time % 2 ^ 64) + 2 ^ 160 * (r.team % 2 ^ 32) + 2 ^ 128 * (r.excess % 2 ^ 32) + 2 ^ 121 * r.sp + 2 ^ 64 * (r.addr % 2 ^ 57) +
  2 ^ 12 * r.group + 2 ^ 8 * r.engine.toNat + r.core

/-- Context that a selector names. -/
def elogCtx (s : State) (x : Nat) : Nat := if isSuper s then bits x 15 8 else s.l.ctx

/-- Value of `elog.rd`: a word of the oldest record, or the status word. -/
def elogVal (s : State) (x : Nat) : Nat :=
  let c := elogCtx s x
  let l : List Nat := if bit x 3 then (mget s.blog [] c).map brecVal else (mget s.alog [] c).map arecVal
  let lost := if bit x 3 then mget s.blost 0 c else mget s.alost 0 c
  if bit x 2 then l.length + 2 ^ 32 * lost
  else bits (l.headD 0) (64 * bits x 1 0 + 63) (64 * bits x 1 0)

/-- The effect of `elog.pop`. -/
def elogDrop (s : State) (x : Nat) : State :=
  let c := elogCtx s x
  if bit x 3 then
    let s := { s with blog := mput s.blog [] c ((mget s.blog [] c).drop 1) }
    if bit x 4 then { s with blost := mput s.blost 0 c 0 } else s
  else
    let s := { s with alog := mput s.alog [] c ((mget s.alog [] c).drop 1) }
    if bit x 4 then { s with alost := mput s.alost 0 c 0 } else s

def execElogRd (d a : Reg) (s : State) : Out := .next (setA s d (BitVec.ofNat 64 (elogVal s (srcA s a).toNat)))
def execElogPop (a : Reg) (s : State) : Out := .next (advance (elogDrop s (srcA s a).toNat))

/-! ### A stopped partition (R450) -/

/-- Put a group in its place by its index. -/
def byIdx (g : Group) : List Group → List Group
  | [] => [g]
  | x :: r => if g.idx ≤ x.idx then g :: x :: r else x :: byIdx g r

/-- Groups of a partition of the team in the running slot of a core, ascending. -/
def partGroups (s : State) (core part : Nat) : List Group :=
  match running s core with
  | none => []
  | some t => ((groupsOfT s t.uid).filter (fun g => partOf g == part)).foldr byIdx []

/-- Records of a stopped partition: kind and body; with no team in the running slot the end record alone. -/
def partBodies (s : State) (core part : Nat) : List (Nat × List Byte) :=
  match running s core with
  | none => [(6, leBytes 16 0)]
  | some t =>
    let l := launchOfT s t
    (partGroups s core part).map (fun g => (2, groupBody l t g)) ++ [(3, teamBody s t), (6, leBytes 16 0)]

/-- The status word, with `DBGCTL.why` of the core. -/
def partStatus (s : State) (core part res n : Nat) : Word :=
  let code := match s.stops.find? (fun p => p.core == core && p.part == part) with
    | some p => p.code
    | none => 0
  BitVec.ofNat 64 (2 ^ 62 * res + 2 ^ 24 * (n % 2 ^ 32) + 2 ^ 20 * sysBits s (rDbg core) 62 60 + code % 2 ^ 20)

/-- A store of 16 bytes at a physical address under key slot 0: two entries of the group's store path. -/
def physStore (s : State) (pa : Nat) (d : List Byte) : State :=
  let one (s : State) (o : Nat) : State :=
    enter s { id := 0, owner := .group s.g.uid, op := .store, acc := { sp := .g, va := pa + o, loc := .mem (pa + o), n := 8 },
              x := leNat ((d.drop o).take 8), vec := s.g.car, core := s.t.core, ctx := s.l.ctx, lop := saveLop, launch := s.l.uid,
              tidx := s.t.idx, gidx := s.g.idx, sc := some s.g.pc }
  one (one s 0) 8

/-- Store bytes at physical addresses, 16 at a time, under key slot 0: the state, and the bytes written. -/
def physWrite (s : State) (pa n : Nat) : Nat → List Byte → State × Nat
  | 0, _ => (s, n)
  | k + 1, d =>
    if d.isEmpty ∨ paKind s pa = .unmapped then (s, n)
    else physWrite (physStore s pa (d.take 16)) (pa + 16) (n + 16) k (d.drop 16)

/-- The move of a save: the state is read and its writes enter the store path; the stream waits with the status. -/
def saveMove (s : State) (core part buf : Nat) : State :=
  let p := takeStamp s s.t.core
  let data := (partBodies s core part).flatMap (fun x => dumpRec x.1 p.1 x.2)
  let w := if buf % 16 = 0 then physWrite p.2 buf 0 (data.length / 16) data else (p.2, 0)
  { w.1 with g := { w.1.g with swait := .saved (partStatus s core part (if w.2 = data.length then 0 else 2) w.2) } }

/-- A save completes once its writes are acknowledged; a partition that is not stopped ends it at once. -/
def saveCtx (s : State) (d : Reg) (core part buf : Nat) : State :=
  match s.g.swait with
  | .saved st => if savesDue s s.g then s else setA { s with g := { s.g with swait := .go } } d st
  | _ => if isStopped s core part then saveMove s core part buf else setA s d (partStatus s core part 1 0)

/-- `ctx.save` (R450). -/
def execCtxSave (d a b : Reg) (s : State) : Out :=
  .next (if !isSuper s then trapHere s 2 (.ctxSave d a b)
    else saveCtx s d (bits (srcA s a).toNat 7 0) (bits (srcA s a).toNat 9 8) (srcA s b).toNat)

/-- The name under which a `ctx.rest` keeps what windows have answered: that of no fragment. -/
def restName : Nat := 2 ^ 64

/-- Bytes of a physical buffer: those before the first address that is not memory. Of a window its remote home is asked first (R243);
pieces that are not answered stand on the right. -/
def physRead (s : State) (pa : Nat) : Nat → List Byte ⊕ List (Nat × Nat)
  | 0 => .inl []
  | k + 1 =>
    if paKind s pa = .unmapped then .inl []
    else
      let here : List Byte ⊕ List (Nat × Nat) :=
        if isWindow s pa then (match winRead s (.group s.g.uid) restName s.l.ctx pa 16 with
          | .inl d => .inl d.1
          | .inr l => .inr l)
        else .inl (rdBytes s (homeDie s pa) pa 0 16)
      match here, physRead s (pa + 16) k with
      | .inl d, .inl r => .inl (d ++ r)
      | .inl _, .inr l => .inr l
      | .inr l, .inl _ => .inr l
      | .inr l, .inr m => .inr (l ++ m)

/-- Number at bytes [o, o + n) of a body. -/
def at' (l : List Byte) (o n : Nat) : Nat := leNat ((l.drop o).take n)

/-- Bytes of a group body that `ctx.rest` may not change: all but pc, a, g, k and the vector registers. -/
def fixedPart (v : Nat) (l : List Byte) : List Byte :=
  l.take 8 ++ (l.drop 16).take 16 ++ (l.drop 1184).take (l.length - 1184 - 256 * v)

/-- The edits of a group body. -/
def applyBody (v : Nat) (l : List Byte) (g : Group) : Group :=
  let g := { g with pc := BitVec.ofNat 64 (at' l 8 8) }
  let ed (old new : Nat) (f : Group → Group) (g : Group) : Group := if old = new then g else f g
  let g := (iota 0 64).foldl (fun g r => let x := at' l (32 + 8 * r) 8; ed (readA g r).toNat x (fun g => writeA g r (BitVec.ofNat 64 x)) g) g
  let g := (iota 0 64).foldl (fun g r => let x := at' l (544 + 8 * r) 8; ed (readU g r).toNat x (fun g => writeU g r (BitVec.ofNat 64 x)) g) g
  let g := (iota 0 16).foldl (fun g n => let x := at' l (1056 + 8 * n) 8
    ed (readK g n).toNat x (fun g => writeK g n (BitVec.allOnes 64) (BitVec.ofNat 64 x)) g) g
  let o := l.length - 256 * v
  (iota 0 v).foldl (fun g r => (iota 0 64).foldl (fun g t => let x := at' l (o + 256 * r + 4 * t) 4
    ed (readV g r t).toNat x (fun g => writeV g r t (BitVec.ofNat 32 x)) g) g) g

/-- Would a pending register change: a vector register or mask of an operation, or the register of a scalar load that waits? -/
def changesPending (v : Nat) (l : List Byte) (g : Group) : Bool :=
  let o := l.length - 256 * v
  (pendingRegs g).any (fun r => decide (r < v) && (iota 0 64).any (fun t => decide (at' l (o + 256 * r + 4 * t) 4 ≠ (readV g r t).toNat))) ||
  (g.ops.flatMap (fun (x : LOp) => x.pendK)).any (fun k => decide (at' l (1056 + 8 * k) 8 ≠ (readK g k).toNat)) ||
  (g.sdst != 0 && decide (at' l (32 + 8 * g.sdst) 8 ≠ (readA g g.sdst).toNat))

/-- Split a buffer along the records it must hold; none when a head differs. -/
def splitRecs : List (Nat × List Byte) → List Byte → Option (List (List Byte))
  | [], _ => some []
  | x :: r, d =>
    if d.take 8 = leBytes 8 (x.1 + 2 ^ 16 * (16 + x.2.length)) then
      match splitRecs r (d.drop (16 + x.2.length)) with
      | some l => some ((d.drop 16).take x.2.length :: l)
      | none => none
    else none

/-- May the edits of the group bodies be applied, and are the other records unchanged? -/
def restOk (v : Nat) (gs : List Group) (old : List (Nat × List Byte)) (new : List (List Byte)) : Bool :=
  (old.zip new).all (fun p => p.1.1 == 2 || p.1.2 == p.2) &&
  (gs.zip (old.zip new)).all (fun p => fixedPart v p.2.1.2 == fixedPart v p.2.2 && !changesPending v p.2.2 p.1)

/-- The buffer has been read: the edits are checked and applied. -/
def restApply (s : State) (d : Reg) (core part : Nat) (old : List (Nat × List Byte)) (n : Nat) (data : List Byte) : State :=
    let gs := partGroups s core part
    let v := match running s core with
      | some t => t.vregs
      | none => 0
    if data.length < n then setA s d (partStatus s core part 2 data.length)
    else match splitRecs old data with
    | none => setA s d (partStatus s core part 3 n)
    | some new =>
      if !restOk v gs old new then setA s d (partStatus s core part 3 n)
      else
        let s1 := (gs.zip new).foldl (fun s p => updG s p.1.uid (applyBody v p.2)) s
        setA s1 d (partStatus s core part 0 n)

def restCtx (s : State) (d : Reg) (core part buf : Nat) : State :=
  if !isStopped s core part then setA s d (partStatus s core part 1 0)
  else
    let old := partBodies s core part
    let n := old.foldl (fun n x => n + 16 + x.2.length) 0
    match (if buf % 16 = 0 then physRead s buf (n / 16) else .inl []) with
    | .inl data => restApply (clearWin s (.group s.g.uid) restName) d core part old n data
    | .inr pas => askWin s (.group s.g.uid) true restName s.l.ctx buf pas

/-- `ctx.rest` (R450). -/
def execCtxRest (d a b : Reg) (s : State) : Out :=
  .next (if !isSuper s then trapHere s 2 (.ctxRest d a b)
    else restCtx s d (bits (srcA s a).toNat 7 0) (bits (srcA s a).toNat 9 8) (srcA s b).toNat)

/-! ### Faults of a scalar fetch (R74, R96) -/

/-- A word that R74 refuses. -/
def execScalarIllegalInstruction (w : BitVec 32) (s : State) : Out := .next (takeTrap s 1 s.g.pc.toNat w.toNat)

/-- The pc does not translate as text: the fault, or a park at an away page. -/
def execTextFetchTranslationFault (s : State) : Out :=
  .next (match fetch4 s false s.t.core s.l.ctx s.g.pc.toNat with
    | .word _ => s
    | .bad c va => scalarFaultK s c va (akindNo .fetch)
    | .away aw => park s s.l.ctx aw)

end Sys2Proof.Machine
end

