-- ==== Sys2Proof/Machine/Recovery.lean ====
section
/-! DEFINITION. Recovery (R308, R365, R380, R411 to R437): hang, pre-emption and switches, dumps, resets, errors and poison,
device reset, training and full service, and the host's writes of registers. -/

namespace Sys2Proof.Machine

/-! ### Hang and stop (R308, R411, R423) -/

/-- A persistent group's count reaches its lap: a hang of its context. -/
def hang (s : State) (g : Group) : State :=
  let l := launchOfG s g
  if !isPers l || decide (g.lap < lapNs l) || decide (ctxState s l.ctx ≠ 1) then s else stopHang s g

def execLapClockExpiry (g : Nat) (s : State) : Out :=
  .next (match getG s g with
    | some x => hang s x
    | none => s)

/-- A fatal fault of a live context from outside the streams. -/
def execContextStop (c cause : Nat) (s : State) : Out :=
  .next (if c < 256 ∧ ctxState s c = 1 then contextStop s { ctx := c, cause := .other cause } else s)

def execCtxstTdn (c : Nat) (v : Word) (s : State) : Out := .next (if c < 256 then writeCtxst s c (setBit v.toNat 2 true) else s)
def execQrstGo (q : Nat) (v : Word) (s : State) : Out := .next (if q < 64 then writeQrst s q (setBit v.toNat 0 true) else s)
def execDumpWrite (s : State) : Out := .next (dumpWrite s)

/-! ### Pre-emption (R414, R415, R417, R419) -/

def execPrectlSwitchOut (core : Nat) (v : Word) (s : State) : Out :=
  .next (if core < 256 then writePrectl s core (setBits v.toNat 1 0 1) else s)
def execPrectlShadowSwitch (core : Nat) (v : Word) (s : State) : Out :=
  .next (if core < 256 then writePrectl s core (setBits v.toNat 1 0 2) else s)

def preOp (s : State) (core : Nat) : Option Nat := (s.pre.find? (fun p => p.core == core)).map (fun p => p.op)

/-- A request of a core is over, with its result. -/
def preDone (s : State) (core res : Nat) : State :=
  sysSetBits (sysSetBit { s with pre := s.pre.filter (fun p => p.core != core) } (rPre core) 63 false) (rPre core) 62 61 res

/-- Op 1 on a core: to the shadow slot, or the team is asked to reach its points on the way to memory. -/
def pushOut (s : State) (core : Nat) : State :=
  match running s core with
  | none => preDone s core 2
  | some t =>
    if ctxState s (launchOfT s t).ctx ≠ 1 then preDone (updT s t.uid (fun t => { t with preempt := false })) core 2
    else if toMemory s t then askPoint s t
    else preDone (toShadow s t) core 1

/-- The switches that the device makes by itself: a long wait, or the lowest unfinished team of a grid (R414). -/
def ownSwitch (s : State) (core : Nat) : State :=
  match running s core, shadow s core with
  | some a, some b =>
    if teamReady s b && (longWait s a || isLowest s b) then (exchange s core).getD s else s
  | _, _ => s

/-- One shadow switch of a core, or the start of a pre-emption; it waits while a partition of the core is stopped (R406). -/
def shadowMove (s : State) (core : Nat) : State :=
  if (stoppedOn s core).isSome then s
  else match preOp s core with
  | some 2 => (match exchange s core with
    | some s => preDone s core 1
    | none => preDone s core 2)
  | some 1 => pushOut s core
  | _ => ownSwitch s core

def execShadowSwitch (core : Nat) (s : State) : Out := .next (if core < 256 then shadowMove s core else s)

/-- A team that was asked goes to memory with its cluster; the requests of its cores are done. -/
def leave (s : State) (t : Team) : State :=
  let ts := switchSet s t
  if !t.preempt || t.slot ≠ .running || ts.any (fun x => (stoppedOn s x.core).isSome) then s
  else
    let s1 := switchOut s t
    match getT s1 t.uid with
    | some x => if x.slot = .out then (ts.map (·.core)).foldl (fun s c => if preOp s c = some 1 then preDone s c 1 else s) s1 else s1
    | none => s1

def execSwitchOut (t : Nat) (s : State) : Out :=
  .next (match getT s t with
    | some x => leave s x
    | none => s)

def execSwitchRestore (t core : Nat) (s : State) : Out := .next (returnTeam s t core)

/-! ### Errors (R382, R432 to R434) -/

/-- Poison the two 4-byte units of a 64-bit word. -/
def pzWord (pz : List Nat) (a : Nat) : List Nat := pz ++ ([a / 8 * 2, a / 8 * 2 + 1].filter (fun u => !pz.contains u))
def pzAdd (l : List Nat) (x : Nat) : List Nat := if l.contains x then l else l ++ [x]

/-- A record of kind 1 for state of a group. -/
def errOf (s : State) (g : Group) : State := errLog s 1 (ctxOfG s g) (teamOfG s g).core 0 0 0

/-- Poison a register of a group. -/
def pzReg (s : State) (uid : Nat) (f : Group → Group) : State :=
  match getG s uid with
  | some g => errOf (updG s uid f) g
  | none => s

/-- An uncorrectable error in an entry of the Carafe. -/
def claimError (s : State) (id : Nat) (recs : List Nat) : State :=
  match s.claims.find? (fun e => e.id == id) with
  | none => s
  | some e =>
    let x := claimX e
    if e.making then
      let s := { s with reqs := s.reqs.map (fun r => if r.parked ∧ recs.contains r.id then { r with bad := true } else r) }
      makerFail (errLog s 1 e.mctx (srcL2 e.die e.slice) 0 0 0) id 5
    else countDie (emitClaim (delC s id) 4 0 x e.domain 0 0 0 0 none) e.die 0x08 none 1

/-- State that belongs to no context: every live context is reset, and no launch is served until device reset (R433). -/
def deviceError (s : State) : State :=
  let s := errLog s 3 0 srcDev (causeNo .deviceError) 0 0
  let s := ((iota 0 256).filter (ctxLive s)).foldl (fun s c => tearDown s c 2 0) s
  { s with service := .dead }

/-- What the detection of an error does, by the store it strikes. -/
def errorIn (s : State) (e : ErrKind) : State :=
  match e with
  | .corrected pa => errLog s 0 0 (srcStack s pa) 0 pa 0
  | .correctedIn src addr => errLog s 0 0 (src % 4096) 0 addr 0
  | .sector pa =>
    let sec := pa / 32 * 32
    let us := dies.flatMap (fun d => iota (vkey d sec / 4) 8)
    errLog { s with pz := s.pz ++ us.filter (fun u => !s.pz.contains u) } 1 0 (srcStack s pa) 0 sec 0
  | .scratch t o =>
    match getT s t with
    | some x => errLog (updT s t (fun x => { x with pzS := pzWord x.pzS o })) 1 (launchOfT s x).ctx x.core 0 o 0
    | none => s
  | .dieScratch d o => errLog { s with pzD := pzWord s.pzD (dkey d o) } 1 0 (srcEng d) 0 o 0
  | .areg g r => if r = 0 ∨ 64 ≤ r then s else pzReg s g (fun x => { x with pzA := pzAdd x.pzA r })
  | .ureg g r => if 64 ≤ r then s else pzReg s g (fun x => { x with pzU := pzAdd x.pzU r })
  | .vreg g r t => pzReg s g (fun x => { x with pzV := pzAdd x.pzV (r * 64 + t % 64) })
  | .tile t u =>
    match getT s t with
    | some x => errLog (updT s t (fun x => { x with pzT := pzAdd x.pzT u })) 1 (launchOfT s x).ctx x.core 0 0 0
    | none => s
  | .acc t u =>
    match getT s t with
    | some x => errLog (updT s t (fun x => { x with pzZ := pzAdd x.pzZ u })) 1 (launchOfT s x).ctx x.core 0 0 0
    | none => s
  | .claim id recs => claimError s id recs
  | .tlb => { s with tlb := dropAt s.tlb (Config.freeChoice s.fresh % max 1 s.tlb.length), fresh := s.fresh + 1 }
  | .l1 core sec =>
    errLog { s with l1 := s.l1.map (fun x => if x.core = core ∧ x.pa = sec then { x with poison := List.replicate 32 true } else x) }
      1 0 core 0 (32 * sec) 0
  | .lane g t o => pzReg s g (fun x => { x with pzL := pzWord x.pzL (lkey (t % 64) (o % 4096)) })
  | .atomicCache core pa =>
    match s.units.find? (fun u => u.core == core && u.pa / 8 == pa / 8) with
    | some u => errLog { s with units := s.units.map (fun u => if u.core = core ∧ u.pa / 8 = pa / 8 then { u with poison := true } else u) }
        1 u.ctx core 0 (pa / 8 * 8) 0
    | none => s
  | .dumpBuffer => { s with dumps := mapFirst (fun _ => true) (fun d => { d with struck := true }) s.dumps }
  | .row r => prechargeRow s r true
  | .noContext => deviceError s

def execErrorDetected (e : ErrKind) (s : State) : Out := .next (errorIn s e)

/-! ### Reset and the services (R384, R436, R437) -/

/-- Device reset: every store as after reset, the bring-up service if boot ROM finds the image good (R384). -/
def deviceReset (s : State) (b : BootImage) : State :=
  { State.reset with
    service := if imageGood b.image b.sig b.key then .bringUp else .mailbox
    firm := some (sha384 b.image)
    agenda := s.agenda, turn := s.turn, fresh := s.fresh, nid := s.nid }

def execDeviceReset (b : BootImage) (s : State) : Out := .next (deviceReset s b)

/-- HBM training and die calibration end. -/
def execTrainingComplete (s : State) : Out := .next (if s.service = .bringUp then sysSetBit s 0x3944 62 true else s)

/-- Full service begins when training has ended and queue 0 runs no launch: nothing that the reduced service held is carried over. -/
def fullService (s : State) : State :=
  if s.service ≠ .bringUp ∨ !sysBit s 0x3944 62 ∨ (allL s).any (fun l => l.queue == 0) then s
  else
    sysSetBit { s with
      service := .full, clock := 850
      mem := [], stamps := [], pz := [], scat := [], wants := [], tags := [], inq := [], l1 := [], copies := [], units := []
      dscr := [], pzD := [], claims := [], tlb := [], walks := [], wkeeps := [], l2 := [], rows := [], act := [] } 0x3944 63 true

/-- Full service begins at the first such moment (R437): after every move of the reduced service. -/
def settleService (s : State) : State := if s.service = .bringUp then fullService s else s

def execFullServiceStart (s : State) : Out := .next (fullService s)

/-- A write of the host at a BAR0 offset; after a failed image check nothing of BAR0 is served (R384). -/
def execRegisterWrite (off : Nat) (v : Word) (s : State) : Out := .next (if s.service = .mailbox then s else regWrite s off v.toNat)

end Sys2Proof.Machine
end

