-- ==== Sys2Proof/Machine/ScalarAlu.lean ====
section
/-! DEFINITION. Scalar register arithmetic (R88 to R91): each word reads its sources, writes d and goes on at pc + 4. -/

namespace Sys2Proof.Machine

/-- write_a(d, f x y). -/
def aluRR (s : State) (d a b : Reg) (f : Word → Word → Word) : State := setA s d (f (srcA s a) (srcA s b))
/-- write_a(d, f x). -/
def aluRI (s : State) (d a : Reg) (f : Word → Word) : State := setA s d (f (srcA s a))

/-- imm14 sign-extended (R90). -/
def imm14 (i : BitVec 14) : Word := i.signExtend 64
def flagW (b : Bool) : Word := if b then 1 else 0

/-- R89. -/
def divsW (x y : Word) : Word :=
  if y = 0 then BitVec.allOnes 64 else BitVec.ofInt 64 (x.toInt.tdiv y.toInt)
def divuW (x y : Word) : Word :=
  if y = 0 then BitVec.allOnes 64 else BitVec.ofNat 64 (x.toNat / y.toNat)
def remsW (x y : Word) : Word :=
  if y = 0 then x else BitVec.ofInt 64 (x.toInt.tmod y.toInt)
def remuW (x y : Word) : Word :=
  if y = 0 then x else BitVec.ofNat 64 (x.toNat % y.toNat)

/-- Bits [127:64] of the exact product. -/
def mulhsW (x y : Word) : Word := BitVec.ofInt 64 ((x.toInt * y.toInt) / 2 ^ 64)
def mulhuW (x y : Word) : Word := BitVec.ofNat 64 (x.toNat * y.toNat / 2 ^ 64)

/-- Shift amounts are y[5:0] (R88). -/
def shAmt (y : Word) : Nat := y.toNat % 64

def execAdd (d a b : Reg) (s : State) : Out := .next (aluRR s d a b (· + ·))
def execSub (d a b : Reg) (s : State) : Out := .next (aluRR s d a b (· - ·))
def execAnd (d a b : Reg) (s : State) : Out := .next (aluRR s d a b (· &&& ·))
def execOr (d a b : Reg) (s : State) : Out := .next (aluRR s d a b (· ||| ·))
def execXor (d a b : Reg) (s : State) : Out := .next (aluRR s d a b (· ^^^ ·))
def execShl (d a b : Reg) (s : State) : Out := .next (aluRR s d a b (fun x y => x <<< shAmt y))
def execShr (d a b : Reg) (s : State) : Out := .next (aluRR s d a b (fun x y => x >>> shAmt y))
def execSar (d a b : Reg) (s : State) : Out := .next (aluRR s d a b (fun x y => x.sshiftRight (shAmt y)))
def execMul (d a b : Reg) (s : State) : Out := .next (aluRR s d a b (· * ·))
def execMulhs (d a b : Reg) (s : State) : Out := .next (aluRR s d a b mulhsW)
def execMulhu (d a b : Reg) (s : State) : Out := .next (aluRR s d a b mulhuW)
def execDivs (d a b : Reg) (s : State) : Out := .next (aluRR s d a b divsW)
def execDivu (d a b : Reg) (s : State) : Out := .next (aluRR s d a b divuW)
def execRems (d a b : Reg) (s : State) : Out := .next (aluRR s d a b remsW)
def execRemu (d a b : Reg) (s : State) : Out := .next (aluRR s d a b remuW)
def execMin (d a b : Reg) (s : State) : Out := .next (aluRR s d a b (fun x y => if x.slt y then x else y))
def execMinu (d a b : Reg) (s : State) : Out := .next (aluRR s d a b (fun x y => if x.ult y then x else y))
def execMax (d a b : Reg) (s : State) : Out := .next (aluRR s d a b (fun x y => if x.slt y then y else x))
def execMaxu (d a b : Reg) (s : State) : Out := .next (aluRR s d a b (fun x y => if x.ult y then y else x))
def execSlt (d a b : Reg) (s : State) : Out := .next (aluRR s d a b (fun x y => flagW (x.slt y)))
def execSltu (d a b : Reg) (s : State) : Out := .next (aluRR s d a b (fun x y => flagW (x.ult y)))
def execSeq (d a b : Reg) (s : State) : Out := .next (aluRR s d a b (fun x y => flagW (x == y)))

/-- x if y = 0; otherwise d is not written (R88). -/
def execMovz (d a b : Reg) (s : State) : Out :=
  .next (if srcA s b = 0 then setA s d (srcA s a) else advance s)
/-- x if y ≠ 0; otherwise d is not written (R88). -/
def execMovnz (d a b : Reg) (s : State) : Out :=
  .next (if srcA s b = 0 then advance s else setA s d (srcA s a))

def execAddi (d a : Reg) (imm : BitVec 14) (s : State) : Out := .next (aluRI s d a (· + imm14 imm))
def execAndi (d a : Reg) (imm : BitVec 14) (s : State) : Out := .next (aluRI s d a (· &&& imm14 imm))
def execOri (d a : Reg) (imm : BitVec 14) (s : State) : Out := .next (aluRI s d a (· ||| imm14 imm))
def execXori (d a : Reg) (imm : BitVec 14) (s : State) : Out := .next (aluRI s d a (· ^^^ imm14 imm))
def execShli (d a : Reg) (sh : BitVec 6) (s : State) : Out := .next (aluRI s d a (· <<< sh.toNat))
def execShri (d a : Reg) (sh : BitVec 6) (s : State) : Out := .next (aluRI s d a (· >>> sh.toNat))
def execSari (d a : Reg) (sh : BitVec 6) (s : State) : Out := .next (aluRI s d a (·.sshiftRight sh.toNat))
def execSlti (d a : Reg) (imm : BitVec 14) (s : State) : Out := .next (aluRI s d a (fun x => flagW (x.slt (imm14 imm))))
def execSltui (d a : Reg) (imm : BitVec 14) (s : State) : Out := .next (aluRI s d a (fun x => flagW (x.ult (imm14 imm))))

/-- sext(imm20, 20) << 14 (R91). -/
def upper (imm : BitVec 20) : Word := imm.signExtend 64 <<< 14

def execLui (d : Reg) (imm : BitVec 20) (s : State) : Out := .next (setA s d (upper imm))
def execAuipc (d : Reg) (imm : BitVec 20) (s : State) : Out := .next (setA s d (s.g.pc + upper imm))

end Sys2Proof.Machine
end

