-- ==== Sys2Proof/Machine/ScalarMem.lean ====
section
/-! DEFINITION. Scalar loads and stores (R92, R93). Every access is relaxed at scope grp; a fault is precise and fatal
to the context (R87), a park at an away page leaves the pc where it is (R375). -/

namespace Sys2Proof.Machine

/-- ea of R92. -/
def scalarEa (s : State) (a : Reg) (off : BitVec 11) : Nat := (srcA s a + off.signExtend 64).toNat

/-- A load of n bytes; `ext` extends the value read. -/
def scalarLoad (s : State) (d a : Reg) (sp : SSpace) (off : BitVec 11) (n : Nat) (ext : Nat → Word) : State :=
  let ea := scalarEa s a off
  match scalarRead s (sspaceSpace sp) ea n with
  | .wait s => s
  | .fault s c => scalarFaultK s c ea (akindNo .load)
  | .got s v => setA s d (ext v)

/-- A store of the low n bytes of sreg[d]. -/
def scalarStore (s : State) (d a : Reg) (sp : SSpace) (off : BitVec 11) (n : Nat) : State :=
  let ea := scalarEa s a off
  match scalarWrite s (sspaceSpace sp) ea n ((srcA s d).toNat % 256 ^ n) with
  | .wait s => s
  | .fault s c => scalarFaultK s c ea (akindNo .store)
  | .got s _ => advance s

/-- The extensions of R92. -/
def extZ (v : Nat) : Word := BitVec.ofNat 64 v
def extS (n v : Nat) : Word := sextW v n

def execLb (d a : Reg) (sp : SSpace) (off : BitVec 11) (s : State) : Out := .next (scalarLoad s d a sp off 1 (extS 8))
def execLbu (d a : Reg) (sp : SSpace) (off : BitVec 11) (s : State) : Out := .next (scalarLoad s d a sp off 1 extZ)
def execLh (d a : Reg) (sp : SSpace) (off : BitVec 11) (s : State) : Out := .next (scalarLoad s d a sp off 2 (extS 16))
def execLhu (d a : Reg) (sp : SSpace) (off : BitVec 11) (s : State) : Out := .next (scalarLoad s d a sp off 2 extZ)
def execLw (d a : Reg) (sp : SSpace) (off : BitVec 11) (s : State) : Out := .next (scalarLoad s d a sp off 4 (extS 32))
def execLwu (d a : Reg) (sp : SSpace) (off : BitVec 11) (s : State) : Out := .next (scalarLoad s d a sp off 4 extZ)
def execLd (d a : Reg) (sp : SSpace) (off : BitVec 11) (s : State) : Out := .next (scalarLoad s d a sp off 8 extZ)
def execSb (d a : Reg) (sp : SSpace) (off : BitVec 11) (s : State) : Out := .next (scalarStore s d a sp off 1)
def execSh (d a : Reg) (sp : SSpace) (off : BitVec 11) (s : State) : Out := .next (scalarStore s d a sp off 2)
def execSw (d a : Reg) (sp : SSpace) (off : BitVec 11) (s : State) : Out := .next (scalarStore s d a sp off 4)
def execSd (d a : Reg) (sp : SSpace) (off : BitVec 11) (s : State) : Out := .next (scalarStore s d a sp off 8)

end Sys2Proof.Machine
end

