-- ==== Sys2Proof/Machine/Dispatch.lean ====
section
/-! DEFINITION. One arm per instruction: each calls its meaning. -/

namespace Sys2Proof.Machine

open Sys2Proof

def exec (i : Instr) (s : State) : Host.Outcome State Fault Refusal :=
  match i with
  | .add d a b => Sys2Proof.Machine.execAdd d a b s
  | .sub d a b => Sys2Proof.Machine.execSub d a b s
  | .and d a b => Sys2Proof.Machine.execAnd d a b s
  | .or d a b => Sys2Proof.Machine.execOr d a b s
  | .xor d a b => Sys2Proof.Machine.execXor d a b s
  | .shl d a b => Sys2Proof.Machine.execShl d a b s
  | .shr d a b => Sys2Proof.Machine.execShr d a b s
  | .sar d a b => Sys2Proof.Machine.execSar d a b s
  | .mul d a b => Sys2Proof.Machine.execMul d a b s
  | .mulhs d a b => Sys2Proof.Machine.execMulhs d a b s
  | .mulhu d a b => Sys2Proof.Machine.execMulhu d a b s
  | .divs d a b => Sys2Proof.Machine.execDivs d a b s
  | .divu d a b => Sys2Proof.Machine.execDivu d a b s
  | .rems d a b => Sys2Proof.Machine.execRems d a b s
  | .remu d a b => Sys2Proof.Machine.execRemu d a b s
  | .min d a b => Sys2Proof.Machine.execMin d a b s
  | .minu d a b => Sys2Proof.Machine.execMinu d a b s
  | .max d a b => Sys2Proof.Machine.execMax d a b s
  | .maxu d a b => Sys2Proof.Machine.execMaxu d a b s
  | .slt d a b => Sys2Proof.Machine.execSlt d a b s
  | .sltu d a b => Sys2Proof.Machine.execSltu d a b s
  | .seq d a b => Sys2Proof.Machine.execSeq d a b s
  | .movz d a b => Sys2Proof.Machine.execMovz d a b s
  | .movnz d a b => Sys2Proof.Machine.execMovnz d a b s
  | .addi d a imm => Sys2Proof.Machine.execAddi d a imm s
  | .andi d a imm => Sys2Proof.Machine.execAndi d a imm s
  | .ori d a imm => Sys2Proof.Machine.execOri d a imm s
  | .xori d a imm => Sys2Proof.Machine.execXori d a imm s
  | .shli d a sh => Sys2Proof.Machine.execShli d a sh s
  | .shri d a sh => Sys2Proof.Machine.execShri d a sh s
  | .sari d a sh => Sys2Proof.Machine.execSari d a sh s
  | .slti d a imm => Sys2Proof.Machine.execSlti d a imm s
  | .sltui d a imm => Sys2Proof.Machine.execSltui d a imm s
  | .lui d imm => Sys2Proof.Machine.execLui d imm s
  | .auipc d imm => Sys2Proof.Machine.execAuipc d imm s
  | .lb d a sp off => Sys2Proof.Machine.execLb d a sp off s
  | .lbu d a sp off => Sys2Proof.Machine.execLbu d a sp off s
  | .lh d a sp off => Sys2Proof.Machine.execLh d a sp off s
  | .lhu d a sp off => Sys2Proof.Machine.execLhu d a sp off s
  | .lw d a sp off => Sys2Proof.Machine.execLw d a sp off s
  | .lwu d a sp off => Sys2Proof.Machine.execLwu d a sp off s
  | .ld d a sp off => Sys2Proof.Machine.execLd d a sp off s
  | .sb d a sp off => Sys2Proof.Machine.execSb d a sp off s
  | .sh d a sp off => Sys2Proof.Machine.execSh d a sp off s
  | .sw d a sp off => Sys2Proof.Machine.execSw d a sp off s
  | .sd d a sp off => Sys2Proof.Machine.execSd d a sp off s
  | .beq a b off => Sys2Proof.Machine.execBeq a b off s
  | .bne a b off => Sys2Proof.Machine.execBne a b off s
  | .blt a b off => Sys2Proof.Machine.execBlt a b off s
  | .bge a b off => Sys2Proof.Machine.execBge a b off s
  | .bltu a b off => Sys2Proof.Machine.execBltu a b off s
  | .bgeu a b off => Sys2Proof.Machine.execBgeu a b off s
  | .loop a off => Sys2Proof.Machine.execLoop a off s
  | .jmp off => Sys2Proof.Machine.execJmp off s
  | .call off => Sys2Proof.Machine.execCall off s
  | .jr a => Sys2Proof.Machine.execJr a s
  | .callr d a => Sys2Proof.Machine.execCallr d a s
  | .issue off => Sys2Proof.Machine.execIssue off s
  | .issuex a => Sys2Proof.Machine.execIssuex a s
  | .push c a => Sys2Proof.Machine.execPush c a s
  | .pop d c => Sys2Proof.Machine.execPop d c s
  | .peek d c => Sys2Proof.Machine.execPeek d c s
  | .cbind c a => Sys2Proof.Machine.execCbind c a s
  | .cfree c => Sys2Proof.Machine.execCfree c s
  | .mtg n a => Sys2Proof.Machine.execMtg n a s
  | .mfg d n => Sys2Proof.Machine.execMfg d n s
  | .mfk d n j => Sys2Proof.Machine.execMfk d n j s
  | .mtsh t a => Sys2Proof.Machine.execMtsh t a s
  | .mfsh d t => Sys2Proof.Machine.execMfsh d t s
  | .mfsr d num => Sys2Proof.Machine.execMfsr d num s
  | .wflag mask => Sys2Proof.Machine.execWflag mask s
  | .endGroup => Sys2Proof.Machine.execEndGroup s
  | .groupRetire g => Sys2Proof.Machine.execGroupRetire g s
  | .trap code => Sys2Proof.Machine.execTrap code s
  | .eret => Sys2Proof.Machine.execEret s
  | .safe vn tz => Sys2Proof.Machine.execSafe vn tz s
  | .stop code => Sys2Proof.Machine.execStop code s
  | .trc a b => Sys2Proof.Machine.execTrc a b s
  | .tnow d => Sys2Proof.Machine.execTnow d s
  | .ctrRd d a => Sys2Proof.Machine.execCtrRd d a s
  | .ctrArm a b => Sys2Proof.Machine.execCtrArm a b s
  | .ctrClr a => Sys2Proof.Machine.execCtrClr a s
  | .elogRd d a => Sys2Proof.Machine.execElogRd d a s
  | .elogPop a => Sys2Proof.Machine.execElogPop a s
  | .mtsr a num => Sys2Proof.Machine.execMtsr a num s
  | .ctxSave d a b => Sys2Proof.Machine.execCtxSave d a b s
  | .ctxRest d a b => Sys2Proof.Machine.execCtxRest d a b s
  | .clauseStart h => Sys2Proof.Machine.execClauseStart h s
  | .laneTaskStart g => Sys2Proof.Machine.execLaneTaskStart g s
  | .laneAdd w => Sys2Proof.Machine.execLaneAdd w s
  | .laneSub w => Sys2Proof.Machine.execLaneSub w s
  | .laneMul w => Sys2Proof.Machine.execLaneMul w s
  | .mad w => Sys2Proof.Machine.execMad w s
  | .div w => Sys2Proof.Machine.execDiv w s
  | .rem w => Sys2Proof.Machine.execRem w s
  | .abs w => Sys2Proof.Machine.execAbs w s
  | .neg w => Sys2Proof.Machine.execNeg w s
  | .laneMin w => Sys2Proof.Machine.execLaneMin w s
  | .laneMax w => Sys2Proof.Machine.execLaneMax w s
  | .laneAnd w => Sys2Proof.Machine.execLaneAnd w s
  | .laneOr w => Sys2Proof.Machine.execLaneOr w s
  | .laneXor w => Sys2Proof.Machine.execLaneXor w s
  | .not w => Sys2Proof.Machine.execNot w s
  | .laneShl w => Sys2Proof.Machine.execLaneShl w s
  | .laneShr w => Sys2Proof.Machine.execLaneShr w s
  | .rot w => Sys2Proof.Machine.execRot w s
  | .bfx w => Sys2Proof.Machine.execBfx w s
  | .bfi w => Sys2Proof.Machine.execBfi w s
  | .popc w => Sys2Proof.Machine.execPopc w s
  | .clz w => Sys2Proof.Machine.execClz w s
  | .setp w => Sys2Proof.Machine.execSetp w s
  | .sel w => Sys2Proof.Machine.execSel w s
  | .mov w => Sys2Proof.Machine.execMov w s
  | .cvt w => Sys2Proof.Machine.execCvt w s
  | .qnt w => Sys2Proof.Machine.execQnt w s
  | .dqnt w => Sys2Proof.Machine.execDqnt w s
  | .frsq w => Sys2Proof.Machine.execFrsq w s
  | .frcp w => Sys2Proof.Machine.execFrcp w s
  | .xln w => Sys2Proof.Machine.execXln w s
  | .fexp w => Sys2Proof.Machine.execFexp w s
  | .specialFunctionComplete g op => Sys2Proof.Machine.execSpecialFunctionComplete g op s
  | .xmv w => Sys2Proof.Machine.execXmv w s
  | .rdc w => Sys2Proof.Machine.execRdc w s
  | .ballot w => Sys2Proof.Machine.execBallot w s
  | .rng w => Sys2Proof.Machine.execRng w s
  | .lid w => Sys2Proof.Machine.execLid w s
  | .kop w => Sys2Proof.Machine.execKop w s
  | .fcls w => Sys2Proof.Machine.execFcls w s
  | .bra k neg target join => Sys2Proof.Machine.execBra k neg target join s
  | .lend k neg => Sys2Proof.Machine.execLend k neg s
  | .lnop k neg => Sys2Proof.Machine.execLnop k neg s
  | .mxl w => Sys2Proof.Machine.execMxl w s
  | .mxb w => Sys2Proof.Machine.execMxb w s
  | .mxs w => Sys2Proof.Machine.execMxs w s
  | .tld w => Sys2Proof.Machine.execTld w s
  | .tst w => Sys2Proof.Machine.execTst w s
  | .tclr w => Sys2Proof.Machine.execTclr w s
  | .tmov w => Sys2Proof.Machine.execTmov w s
  | .zrd w => Sys2Proof.Machine.execZrd w s
  | .zclr w => Sys2Proof.Machine.execZclr w s
  | .zld w => Sys2Proof.Machine.execZld w s
  | .zst w => Sys2Proof.Machine.execZst w s
  | .matrixStep t j => Sys2Proof.Machine.execMatrixStep t j s
  | .matrixOpComplete t j => Sys2Proof.Machine.execMatrixOpComplete t j s
  | .laneLd w => Sys2Proof.Machine.execLaneLd w s
  | .st w => Sys2Proof.Machine.execSt w s
  | .atom w => Sys2Proof.Machine.execAtom w s
  | .red w => Sys2Proof.Machine.execRed w s
  | .cas w => Sys2Proof.Machine.execCas w s
  | .fence w => Sys2Proof.Machine.execFence w s
  | .pref w => Sys2Proof.Machine.execPref w s
  | .cpy w => Sys2Proof.Machine.execCpy w s
  | .cpyt w => Sys2Proof.Machine.execCpyt w s
  | .gath w => Sys2Proof.Machine.execGath w s
  | .scat w => Sys2Proof.Machine.execScat w s
  | .coll w => Sys2Proof.Machine.execColl w s
  | .bclose w => Sys2Proof.Machine.execBclose w s
  | .bwait w => Sys2Proof.Machine.execBwait w s
  | .barx w => Sys2Proof.Machine.execBarx w s
  | .bara w => Sys2Proof.Machine.execBara w s
  | .barw w => Sys2Proof.Machine.execBarw w s
  | .barwWake g f => Sys2Proof.Machine.execBarwWake g f s
  | .nbar w => Sys2Proof.Machine.execNbar w s
  | .waitf w => Sys2Proof.Machine.execWaitf w s
  | .monitorWake g f => Sys2Proof.Machine.execMonitorWake g f s
  | .claim w => Sys2Proof.Machine.execClaim w s
  | .claimw w => Sys2Proof.Machine.execClaimw w s
  | .fulfil w => Sys2Proof.Machine.execFulfil w s
  | .abandon w => Sys2Proof.Machine.execAbandon w s
  | .claimHomeMove k => Sys2Proof.Machine.execClaimHomeMove k s
  | .leaseExpiry e => Sys2Proof.Machine.execLeaseExpiry e s
  | .deref w => Sys2Proof.Machine.execDeref w s
  | .unify w => Sys2Proof.Machine.execUnify w s
  | .bind w => Sys2Proof.Machine.execBind w s
  | .bindg w => Sys2Proof.Machine.execBindg w s
  | .chpt k neg st alt join => Sys2Proof.Machine.execChpt k neg st alt join s
  | .fail w => Sys2Proof.Machine.execFail w s
  | .tag w => Sys2Proof.Machine.execTag w s
  | .emit w => Sys2Proof.Machine.execEmit w s
  | .binTimerExpiry l b => Sys2Proof.Machine.execBinTimerExpiry l b s
  | .spawn w => Sys2Proof.Machine.execSpawn w s
  | .steal w => Sys2Proof.Machine.execSteal w s
  | .stealTimeout t => Sys2Proof.Machine.execStealTimeout t s
  | .yield w => Sys2Proof.Machine.execYield w s
  | .beat w => Sys2Proof.Machine.execBeat w s
  | .phase w => Sys2Proof.Machine.execPhase w s
  | .phaseCommit l => Sys2Proof.Machine.execPhaseCommit l s
  | .phaseYieldSlot t => Sys2Proof.Machine.execPhaseYieldSlot t s
  | .storeArrival k => Sys2Proof.Machine.execStoreArrival k s
  | .updateApplication h e => Sys2Proof.Machine.execUpdateApplication h e s
  | .loadPerform g op j => Sys2Proof.Machine.execLoadPerform g op j s
  | .l1SectorDrop j => Sys2Proof.Machine.execL1SectorDrop j s
  | .missFragmentWake g f => Sys2Proof.Machine.execMissFragmentWake g f s
  | .atomicArrival k => Sys2Proof.Machine.execAtomicArrival k s
  | .updateOnlyGrant k => Sys2Proof.Machine.execUpdateOnlyGrant k s
  | .reductionMerge k => Sys2Proof.Machine.execReductionMerge k s
  | .recall line => Sys2Proof.Machine.execRecall line s
  | .engineOpStart e => Sys2Proof.Machine.execEngineOpStart e s
  | .engineRead r => Sys2Proof.Machine.execEngineRead r s
  | .engineDelivery e n => Sys2Proof.Machine.execEngineDelivery e n s
  | .engineOpComplete e => Sys2Proof.Machine.execEngineOpComplete e s
  | .neighbourEntryTransfer g c => Sys2Proof.Machine.execNeighbourEntryTransfer g c s
  | .streamInFill g c => Sys2Proof.Machine.execStreamInFill g c s
  | .streamOutWrite g c => Sys2Proof.Machine.execStreamOutWrite g c s
  | .collectiveCombine e peers => Sys2Proof.Machine.execCollectiveCombine e peers s
  | .peerRequest r => Sys2Proof.Machine.execPeerRequest r s
  | .remoteAnswer k v poison => Sys2Proof.Machine.execRemoteAnswer k v poison s
  | .remoteTimeout k => Sys2Proof.Machine.execRemoteTimeout k s
  | .hostPostedWrite pa data => Sys2Proof.Machine.execHostPostedWrite pa data s
  | .hostReadCompletion k v poison => Sys2Proof.Machine.execHostReadCompletion k v poison s
  | .linkError k => Sys2Proof.Machine.execLinkError k s
  | .launchRead q => Sys2Proof.Machine.execLaunchRead q s
  | .launchComplete l => Sys2Proof.Machine.execLaunchComplete l s
  | .coreOffer core => Sys2Proof.Machine.execCoreOffer core s
  | .lapClockExpiry g => Sys2Proof.Machine.execLapClockExpiry g s
  | .clmdomEnClear d v => Sys2Proof.Machine.execClmdomEnClear d v s
  | .clmdomEnSet d v => Sys2Proof.Machine.execClmdomEnSet d v s
  | .purgeComplete d => Sys2Proof.Machine.execPurgeComplete d s
  | .ctxptWrite c v => Sys2Proof.Machine.execCtxptWrite c v s
  | .ctxstTdn c v => Sys2Proof.Machine.execCtxstTdn c v s
  | .keyslotWrite n v => Sys2Proof.Machine.execKeyslotWrite n v s
  | .landaWrite e v => Sys2Proof.Machine.execLandaWrite e v s
  | .landbWrite e v => Sys2Proof.Machine.execLandbWrite e v s
  | .collsaEnSet n v => Sys2Proof.Machine.execCollsaEnSet n v s
  | .collsaEnClear n v => Sys2Proof.Machine.execCollsaEnClear n v s
  | .tlbinvcWrite v => Sys2Proof.Machine.execTlbinvcWrite v s
  | .tlbInvalidationComplete => Sys2Proof.Machine.execTlbInvalidationComplete s
  | .pageWalk core c va => Sys2Proof.Machine.execPageWalk core c va s
  | .migcmdcWrite v => Sys2Proof.Machine.execMigcmdcWrite v s
  | .migrationMove => Sys2Proof.Machine.execMigrationMove s
  | .roasterEpochEnd => Sys2Proof.Machine.execRoasterEpochEnd s
  | .attestationReportDone => Sys2Proof.Machine.execAttestationReportDone s
  | .recordPlace j => Sys2Proof.Machine.execRecordPlace j s
  | .counterOverflow n => Sys2Proof.Machine.execCounterOverflow n s
  | .shadowSwitch core => Sys2Proof.Machine.execShadowSwitch core s
  | .switchOut t => Sys2Proof.Machine.execSwitchOut t s
  | .switchRestore t core => Sys2Proof.Machine.execSwitchRestore t core s
  | .dumpWrite => Sys2Proof.Machine.execDumpWrite s
  | .scalarIllegalInstruction w => Sys2Proof.Machine.execScalarIllegalInstruction w s
  | .termInstructionFinished g op => Sys2Proof.Machine.execTermInstructionFinished g op s
  | .recordFlushTimeout j => Sys2Proof.Machine.execRecordFlushTimeout j s
  | .qtailWrite q v => Sys2Proof.Machine.execQtailWrite q v s
  | .qctlWrite q v => Sys2Proof.Machine.execQctlWrite q v s
  | .clmdomPurge d v => Sys2Proof.Machine.execClmdomPurge d v s
  | .attctlWrite v => Sys2Proof.Machine.execAttctlWrite v s
  | .precharge row bad => Sys2Proof.Machine.execPrecharge row bad s
  | .tbsetWrite v => Sys2Proof.Machine.execTbsetWrite v s
  | .tbadjWrite v => Sys2Proof.Machine.execTbadjWrite v s
  | .tbrateWrite v => Sys2Proof.Machine.execTbrateWrite v s
  | .ptmDialogue dev host => Sys2Proof.Machine.execPtmDialogue dev host s
  | .clockStep up => Sys2Proof.Machine.execClockStep up s
  | .tsctlOpen j v => Sys2Proof.Machine.execTsctlOpen j v s
  | .tsctlClose j v => Sys2Proof.Machine.execTsctlClose j v s
  | .dbgctlHalt core v => Sys2Proof.Machine.execDbgctlHalt core v s
  | .dbgctlResume core v => Sys2Proof.Machine.execDbgctlResume core v s
  | .prectlSwitchOut core v => Sys2Proof.Machine.execPrectlSwitchOut core v s
  | .prectlShadowSwitch core v => Sys2Proof.Machine.execPrectlShadowSwitch core v s
  | .contextStop c cause => Sys2Proof.Machine.execContextStop c cause s
  | .qrstGo q v => Sys2Proof.Machine.execQrstGo q v s
  | .errorDetected e => Sys2Proof.Machine.execErrorDetected e s
  | .deviceReset b => Sys2Proof.Machine.execDeviceReset b s
  | .trainingComplete => Sys2Proof.Machine.execTrainingComplete s
  | .fullServiceStart => Sys2Proof.Machine.execFullServiceStart s
  | .registerWrite off v => Sys2Proof.Machine.execRegisterWrite off v s
  | .textFetchTranslationFault => Sys2Proof.Machine.execTextFetchTranslationFault s
  | .portDown port peer => Sys2Proof.Machine.execPortDown port peer s
  | .portUp port peer => Sys2Proof.Machine.execPortUp port peer s
  | .linkRetry port peer => Sys2Proof.Machine.execLinkRetry port peer s

end Sys2Proof.Machine
end

