-- ==== Sys2Proof/Machine/Arbiter.lean ====
section
/-! DEFINITION. The choice among the candidates of an issue partition (R298, R299, R301): each partition has a lane slot and a
scalar slot, and each slot issues from the candidate that the launch's policy and the age cap choose. A candidate is ready
when its next word would execute, or take its fatal fault, now; the cycles of the partition are those that issues hold the slot (log 36). -/

namespace Sys2Proof.Machine

/-- Continue after an instruction that answered a next state. -/
def andThen (o : Host.Outcome State Fault Refusal) (k : State → State) : Host.Outcome State Fault Refusal :=
  match o with
  | .next s => .next (k s)
  | .fault f => .fault f
  | .refused r => .refused r

/-- One word of the scalar stream of the issuing group. -/
def tryScalar (s : State) : Host.Outcome State Fault Refusal :=
  match scalarIssue s with
  | .idle s => .next s
  | .run i s => andThen (exec i s) (afterScalar i s.g.pc)

/-- One word of the fragment in entry `e` of the issuing group. -/
def tryLane (s : State) (e : Nat) : Host.Outcome State Fault Refusal :=
  match laneIssue s e with
  | .idle s => .next s
  | .run i s => andThen (exec i s) (afterLane i s)

/-- Has the context of group `uid` been stopped between two states? A word that takes a fatal fault has issued. -/
def stoppedBy (uid : Nat) (a b : State) : Bool :=
  ctxState b (focus a uid).l.ctx != ctxState a (focus a uid).l.ctx

/-- Has the scalar stream of group `uid` issued a word between two states? A branch may leave the pc where it was. -/
def scalarMoved (uid : Nat) (a b : State) : Bool :=
  stoppedBy uid a b || match getG a uid, getG b uid with
  | some x, some y => !(x.pc == y.pc && x.atEnd == y.atEnd) || (match scalarIssue (focus a uid) with
      | .run i _ => isJump i
      | .idle _ => false)
  | _, _ => true

/-- Is the fragment in entry `e` in the midst of a word, which it issued before (R333)? -/
def midAt (g : Group) (e : Nat) : Bool := g.ops.any (fun o => o.mid && (fget g.frs e).any (fun f => f.id == o.fid))

/-- Has the lane stream of group `uid` issued a word from entry `e`, or started a task? A wait, or an arrival at a place, is no issue. -/
def laneMoved (uid e : Nat) (a b : State) : Bool :=
  stoppedBy uid a b || match laneIssue (focus a uid) e with
  | .idle _ => false
  | .run _ a => match getG b uid with
    | some y => !(a.g.task == y.task && midAt a.g e) && (!(a.g.task == y.task) || wordDone (fget a.g.frs e) (fget y.frs e) || midAt y e)
    | none => true

/-- The candidates of group g for a slot: its live fragments, or the task that it would start, in entry 0; its scalar stream. -/
def candsOf (lane : Bool) (g : Group) : List SlotCand :=
  if lane then
    (if g.task.isSome then g.frs.map (fun p => ⟨g.uid, p.1, (g.born, p.2.born), p.2.cnt, false⟩)
    else if g.taskq.isEmpty then [] else [⟨g.uid, 0, (g.born, 0), g.tcnt, false⟩])
  else [⟨g.uid, 0, (g.born, 0), g.scnt, lowered g⟩]

/-- The candidates of a slot: those of the groups of the partition in the running slot of the core. -/
def slotCands (s : State) (core part : Nat) (lane : Bool) : List SlotCand :=
  match running s core with
  | none => []
  | some t => ((groupsOfT s t.uid).filter (fun g => partOf g == part)).flatMap (candsOf lane)

/-- Would a candidate issue now? -/
def readyNow (s : State) (lane : Bool) (c : SlotCand) : Bool :=
  let s := focus s c.uid
  match (if lane then tryLane s c.entry else tryScalar s) with
  | .next s' => if lane then laneMoved c.uid c.entry s s' else scalarMoved c.uid s s'
  | _ => false

/-- Is a older than b? -/
def older (a b : SlotCand) : Bool :=
  decide (a.age.1 < b.age.1 ∨ (a.age.1 = b.age.1 ∧ (a.age.2 < b.age.2 ∨ (a.age.2 = b.age.2 ∧ a.entry < b.entry))))

def oldest (l : List SlotCand) : Option SlotCand :=
  l.foldl (fun m c => match m with
    | none => some c
    | some x => if older c x then some c else some x) none

/-- A candidate that the age cap puts before all others. -/
def urgent (c : SlotCand) : Bool := decide ((if c.low then 4096 else 256) ≤ c.cnt)

/-- The candidate that issued last on a slot. -/
def lastOn (s : State) (core part : Nat) (lane : Bool) : Option LastIss :=
  s.lastIss.find? (fun x => x.core == core && x.part == part && x.lane == lane)

/-- The choice among the ready candidates `l` (R298): urgent ones first, lowered ones last, between them the policy `rr`. -/
def chooseCand (rr : Bool) (last : Option LastIss) (l : List SlotCand) : Option SlotCand :=
  let ur := l.filter urgent
  if !ur.isEmpty then oldest ur
  else
    let l := if l.all (·.low) then l else l.filter (fun c => !c.low)
    match last with
    | none => oldest l
    | some x =>
      if rr then
        let after := l.filter (fun c => older ⟨x.uid, x.entry, x.age, 0, false⟩ c)
        if after.isEmpty then oldest l else oldest after
      else match l.find? (fun c => c.uid == x.uid && c.entry == x.entry) with
        | some c => some c
        | none => oldest l

/-- Change the wait count of a candidate. -/
def setCount (s : State) (lane : Bool) (c : SlotCand) (k : Nat → Nat) : State :=
  updG s c.uid (fun g =>
    if !lane then { g with scnt := k g.scnt }
    else if g.task.isNone then { g with tcnt := k g.tcnt }
    else { g with frs := g.frs.map (fun p => if p.1 = c.entry then (p.1, { p.2 with cnt := k p.2.cnt }) else p) })

/-- Cycles of the partition that the next word of the issuing group holds its slot: a lane word its beats (R28, R298). -/
def slotCycles (s : State) (lane : Bool) (e : Nat) : Nat :=
  if lane then (match laneIssue s e with
    | .run i s => max 1 (beats (activeIn s i))
    | .idle _ => 1)
  else 1

/-- Candidate c has issued on a slot for n cycles while `others` were ready. -/
def noteIssue (s : State) (core part : Nat) (lane : Bool) (c : SlotCand) (n : Nat) (others : List SlotCand) : State :=
  let s := others.foldl (fun s x => setCount s lane x (· + n)) (setCount s lane c (fun _ => 0))
  let s := if lane then updG s c.uid (fun g => { g with tcnt := 0 }) else s
  { s with lastIss := { core := core, part := part, lane := lane, uid := c.uid, entry := c.entry, age := c.age } ::
      s.lastIss.filter (fun x => !(x.core == core && x.part == part && x.lane == lane)) }

/-- The other candidates of the slot on which the issuing group would issue that are ready. -/
def rivals (s : State) (lane : Bool) (e : Nat) : List SlotCand :=
  (slotCands s s.t.core (partOf s.g) lane).filter (fun c => !(c.uid == s.g.uid && c.entry == e) && readyNow s lane c)

/-- The candidate that the issuing group and entry `e` are. -/
def mover (s : State) (lane : Bool) (e : Nat) : Option SlotCand :=
  (candsOf lane s.g).find? (fun c => c.entry == e)

/-- The attempt of a candidate at s came to `o`. If its word issued, the slot must have chosen it: otherwise nothing happens. -/
def arbitrate (lane : Bool) (e : Nat) (s : State) (o : Host.Outcome State Fault Refusal) : Host.Outcome State Fault Refusal :=
  match o, mover s lane e with
  | .next s', some c =>
    if !(if lane then laneMoved s.g.uid e s s' else scalarMoved s.g.uid s s') then o
    else
      let others := rivals s lane e
      if (chooseCand (bit (lw s.l 2) 44) (lastOn s s.t.core (partOf s.g) lane) (c :: others)).any (fun x => x.uid == c.uid && x.entry == c.entry)
      then .next (noteIssue s' s.t.core (partOf s.g) lane c (slotCycles s lane e) others)
      else .next s
  | _, _ => o

end Sys2Proof.Machine
end

