-- ==== Sys2Proof/Machine/Step.lean ====
section
/-! DEFINITION. One step: time passes, the next move of the tape (or of the default policy) is made, a stream's word is
fetched, decoded and run. And the placing of one instruction where the next step fetches it. -/

namespace Sys2Proof.Machine

/-- One word of the scalar stream of the issuing group, if its slot chooses it (R298). -/
def runScalar (s : State) : Host.Outcome State Fault Refusal := arbitrate false 0 s (tryScalar s)

/-- One word of the fragment in entry `e` of the issuing group, or the start of a queued task, if its slot chooses it (R298). -/
def runLane (s : State) (e : Nat) : Host.Outcome State Fault Refusal := arbitrate true (if s.g.task.isNone then 0 else e) s (tryLane s e)

/-- After a failed image check only a device reset acts (R384). -/
def serves (s : State) (i : Instr) : Bool :=
  !(s.service == .mailbox) || (match i with
    | .deviceReset .. => true
    | _ => false)

/-- Make one move. -/
def runMove (m : Move) (s : State) : Host.Outcome State Fault Refusal :=
  match m with
  | .scalar g => if g = 0 ∨ (focus s g).g.uid ≠ g then .next s else runScalar (focus s g)
  | .lane g e => if g = 0 ∨ (focus s g).g.uid ≠ g then .next s else runLane (focus s g) e
  | .tick n => .next (passTime s n)
  | .ev i => if isMove i && serves s i then exec i s else .next s

/-- The monitors parked on what the device has stored in this step look again (R238). -/
def settleMonitors (s : State) : State :=
  if s.reached.isEmpty then s
  else s.reached.foldl (fun s p => monitorCheck s { sp := .g, va := 0, loc := .mem p.1, n := p.2 }) { s with reached := [] }

/-- What follows from a move at once: the monitors parked on what the device has stored look again (R238), a teardown whose moves have
all ended is finished (R380), full service begins at its first moment (R437). -/
def afterMove (s : State) : State := settleService (tearSettle (settleMonitors s))

/-- One step of the device. -/
def step (s : State) : Host.Outcome State Fault Refusal :=
  match s.agenda with
  | m :: r => andThen (runMove m (passTime { s with agenda := r } 1)) afterMove
  | [] =>
    match pick s with
    | none => .next (passTime s 1)
    | some m => andThen (runMove m (passTime { s with turn := s.turn + 1 } 1)) afterMove

/-! ### An instruction placed where the next step fetches it -/

/-- Bytes at the same physical address of all four views. -/
def placeBytes (s : State) (pa : Nat) (data : List Byte) : State :=
  dies.foldl (fun s d => { s with mem := mputs s.mem 0 (vkey d pa) data }) s

/-- The leaf of the first GiB: readable, writable and executable under slot 0. -/
def placeLeaf : Nat := 8 * 2 ^ 60 + 0x39

/-- Three tables that map the first GiB to itself, and the translation of it in the TLB of core 0. -/
def placeTables (s : State) : State :=
  let s := placeBytes (placeBytes (placeBytes s 0x100000 (leBytes 8 0x101003)) 0x101000 (leBytes 8 0x102003)) 0x102000 (leBytes 8 placeLeaf)
  { s with tlb := { core := 0, ctx := 0, base := 0, size := 2 ^ 30, leaf := placeLeaf, addr := 0x102000 } :: s.tlb }

/-- The header of a clause of one word. -/
def oneWordHeader : Nat := 0xC0 * 2 ^ 88

/-- A live supervisor context with one team of one group, as a launch leaves it, whose next step runs the instruction. -/
def State.withFetchWord (s : State) (nbits w : Nat) : State :=
  let s := unfocus s
  let lane := decide (32 < nbits)
  let s := placeTables s
  let s := if lane then placeBytes (placeBytes s 0x110000 (leBytes 12 oneWordHeader)) 0x11000C (leBytes 12 w)
    else placeBytes s 0x110000 (leBytes 4 w)
  let s := setCtxState (sysPut s (rCtx 0 0) (2 ^ 63 + 0x100000)) 0 1
  let n := s.nid
  let l : Launch := { uid := n + 2, w := [0x110000, 0x110000, 1, 0, 0, 0, 0, 0], placed := 1 }
  let t : Team := { uid := n + 1, launch := n + 2, vregs := 512, sliceB := 0, scrB := 65536 }
  let f : Frag := { id := n + 3, mask := BitVec.allOnes 64, pc := 0x110000, idx := 1, len := 1, code := [w] }
  let g : Group := { uid := n, team := n + 1, pc := 0x110000,
                     task := if lane then some 0x110000 else none, frs := if lane then [(0, f)] else idleTable (n + 3) 0 }
  { s with
    g := g, t := t, l := l, fi := 0, nid := n + 4
    agenda := (if lane then Move.lane n 0 else Move.scalar n) :: s.agenda }

end Sys2Proof.Machine
end

