-- ==== Sys2Proof/Safety.lean ====
section
/-! DEFINITION. What counts as a safe run, and the terms that claims are stated in: what it is that an instruction
completes, what a register or a byte holds, what differs between two states. -/

namespace Sys2Proof

open Sys2Proof.Machine

/-- The memory of the four views is in canonical form. -/
abbrev Memory.wf (s : State) : Prop := mwf (fun _ => (0 : Byte)) s.mem = true

/-- A state from which the next step neither stops nor refuses. -/
def steps (s : State) : Prop := ∃ t, step s = Host.Outcome.next t

/-- `exec i s` answers a next state for which `P` holds. -/
def completes (i : Instr) (s : State) (P : State → Prop) : Prop := ∃ t, exec i s = Host.Outcome.next t ∧ P t

/-- The byte at physical address `pa` of the view of die `d`. -/
def memByte (s : State) (d pa : Nat) : Byte := mget s.mem 0 (vkey d pa)

/-! ### The scalar stream -/

/-- The scalar registers of `t` are those of `s`, but for `d`, which holds `x`; a0 stays as it is. -/
def wroteA (s t : State) (d : Reg) (x : Word) : Prop :=
  ∀ r : Reg, readA t.g r.toNat = if r = d ∧ d ≠ 0 then x else readA s.g r.toNat

/-- Nothing differs but scalar registers and the scalar program counter of the issuing group: every byte of memory, every
flag, every other register of every group, every special register is the same. -/
def scalarOnly (s t : State) : Prop := t = { s with g := { s.g with a := t.g.a, pzA := t.g.pzA, pc := t.g.pc } }

/-- `d` receives `x`, the stream goes on at the next word, nothing else differs. -/
def scalarResult (s t : State) (d : Reg) (x : Word) : Prop :=
  wroteA s t d x ∧ t.g.pc = s.g.pc + 4 ∧ scalarOnly s t

/-! ### What reporting may touch

Records, counters, error logs and the requests that a counter's overflow makes are written beside every instruction
(R138, R386, R396, R407), and with them which sectors the L2 holds, the open segments of HBM rows and their activation
counters (R9, R10, R18), which hold no value: a statement about what else an instruction changes says so with `onlyReports`. -/

/-- A team, without the mark of a pre-emption request (R417). -/
def forgetAsk (t : Team) : Team := { t with preempt := false }

/-- A state without the records, logs, counters and names that reporting writes, without what the package keeps beside the values, and
without the place of the executing fragment. -/
def unreported (s : State) : State :=
  { s with
    t := forgetAsk s.t
    teams := s.teams.map forgetAsk
    fi := 0
    sys := []
    sess := []
    srcLast := []
    srcFloor := []
    stops := []
    pre := []
    alog := []
    alost := []
    apend := []
    l2 := []
    rows := []
    act := []
    blog := []
    blost := []
    fresh := 0
    nid := 0 }

/-- Nothing differs but what reporting writes: every register of every group, every byte of memory and of every
scratchpad, every store path, queue and table and every special register below the trace and counter registers is the same. -/
def onlyReports (s t : State) : Prop :=
  unreported t = unreported s ∧ ∀ n, n < 0x1400 → sysGet t n = sysGet s n

/-- Nothing differs but the issuing group and what reporting writes. -/
def sameButGroup (s t : State) : Prop := onlyReports { s with g := {} } { t with g := {} }

/-- A group without its split table and held stack. -/
def noFrags (g : Group) : Group := { g with frs := [], held := [] }

/-- Nothing differs but the split table and held stack of the issuing group and what reporting writes: every register,
channel, completion flag, operation and vector of the group is the same. -/
def onlyFrags (s t : State) : Prop := sameButGroup s t ∧ noFrags t.g = noFrags s.g

/-! ### Bytes and registers that stay -/

/-- The byte at a place; in the view of die `d` where the place is a physical address. -/
def byteAt (s : State) (d : Nat) (l : Loc) : Byte :=
  match l with
  | .mem pa => memByte s d pa
  | _ => (rdScratch s l 1).headD 0

/-- Every byte of every store reads as before: the four views, every scratchpad, every lane slice. -/
def bytesKept (s t : State) : Prop := ∀ d l, byteAt t d l = byteAt s d l

/-- A place within the extent of its store (R16, R9, R52). -/
def placed (d : Nat) : Loc → Prop
  | .mem pa => d < 4 ∧ pa < 2 ^ 52
  | .die _ off => off < 2 ^ 26
  | .lane _ _ off => off < 4096
  | .team _ _ => True

/-- Every byte reads as before, but those of the `n` bytes at place `l`. -/
def bytesKeptBut (l : Loc) (n : Nat) (s t : State) : Prop :=
  ∀ d m, placed d m → (∀ i, i < n → m ≠ locAdd l i) → byteAt t d m = byteAt s d m

/-- The scalar registers of the issuing group are the same, but for `d`. -/
def aKeptBut (d : Reg) (s t : State) : Prop := ∀ r : Reg, r ≠ d → readA t.g r.toNat = readA s.g r.toNat

/-- What the lane stream reads of the issuing group is the same: uniform, vector and predicate registers, completion flags,
channels. -/
def laneRegsKept (s t : State) : Prop :=
  t.g.u = s.g.u ∧ t.g.v = s.g.v ∧ t.g.k = s.g.k ∧ t.g.fl = s.g.fl ∧ t.g.ch = s.g.ch ∧ t.g.chv = s.g.chv

/-- The stop of a context by a fatal fault (R411): the context is stopped, the fault is recorded first, no queue of the
context is enabled, and no byte of any store changes (with three dumps running or waiting, R429, a record goes to a ring in
memory). -/
def stopsContext (s t : State) (c : FCause) (addr : Nat) : Prop :=
  ctxState t s.l.ctx = 2 ∧ (∃ r ∈ t.faults, r.ctx = s.l.ctx ∧ r.cause = c ∧ r.addr = addr) ∧
  (∀ q, q < 64 → queueCtx s q = s.l.ctx → queueEn t q = false) ∧ (s.dumps.length < 3 → bytesKept s t)

/-- `d` receives `x` and the stream goes on, after reports that the word makes (a logged reading, a stamp). -/
def scalarReported (s t : State) (d : Reg) (x : Word) : Prop := ∃ u, onlyReports s u ∧ scalarResult u t d x

/-- A group's store path has grown by one store of 8 bytes for each pair of an address and a word. -/
def stored (s t : State) (l : List (Nat × Nat)) : Prop :=
  ∃ es : List PEnt, t.path = s.path ++ es ∧
    es.map (fun e => (e.op, e.owner, e.acc.sp, e.acc.va, e.acc.n, e.x)) =
      l.map (fun p => (EntOp.store, Owner.group s.g.uid, Space.g, p.1 % 2 ^ 64, 8, p.2 % 2 ^ 64))

/-! ### The lane stream -/

/-- A group without what a word that writes results may change: vector registers, predicate masks, channels, the split table
and held stack, the Lap Clock that a pop restarts. -/
def noResults (g : Group) : Group := { noFrags g with v := [], pzV := [], k := [], ch := [], chv := [], lap := 0 }

/-- Nothing differs but what `noResults` names and what reporting writes. -/
def onlyResults (s t : State) : Prop := sameButGroup s t ∧ noResults t.g = noResults s.g

end Sys2Proof
end

