-- ==== Sys2Proof/Certificates/Slice0/Obligations.lean ====
section
/-! DEFINITION. The statements of this row. Each docstring names the rules of spec/ it formalises. -/

section

open Sys2Proof Sys2Proof.Machine

/-! ### Encoding (R55 to R71, R74, R75) -/

/-- R55 to R71: decoding the word of a well-formed instruction gives that instruction back, whatever its operands. -/
def Obligations.DecodeEncode : Prop :=
  ∀ (i : Instr) (n w : Nat), wellFormed i = true → encode i = some (n, w) → decodeTableWord n w = some i

/-- R74, R75: a word that decodes is the encoding of the instruction it decodes to, which is well-formed: no bit of a word
is left out, and no other word means the same. -/
def Obligations.EncodeDecode : Prop :=
  ∀ (i : Instr) (n w : Nat), (n = 32 ∧ w < 2 ^ 32) ∨ (n = 96 ∧ w < 2 ^ 96) → decodeTableWord n w = some i →
    wellFormed i = true ∧ encode i = some (n, w)

/-- R69, R84, R90 to R97, R99: words that the manual writes out stand for the instructions that it names. -/
def Obligations.WordsDecode : Prop :=
  decodeTableWord 32 0x58608008 = some (.ld 6 2 .g 8) ∧
  decodeTableWord 32 0x50608FFC = some (.lw 6 2 .s (-4)) ∧
  decodeTableWord 32 0x80108002 = some (.beq 1 2 2) ∧
  decodeTableWord 32 0x842007FD = some (.loop 2 (-3)) ∧
  decodeTableWord 32 0x8C000004 = some (.call 4) ∧
  decodeTableWord 32 0x8BFFFFFE = some (.jmp (-2)) ∧
  decodeTableWord 32 0x900FC000 = some (.jr 63) ∧
  decodeTableWord 32 0x93F24001 = some (.callr 63 9)

/-- Opcodes that R59 and R438 give to scalar words, and the lane opcodes of R71. -/
def Sys2Proof.scalarOps : List Nat :=
  iota 0x01 11 ++ [0x0D] ++ iota 0x10 11 ++ iota 0x20 5 ++ iota 0x28 18
def Sys2Proof.laneOps : List Nat :=
  iota 0x01 41 ++ iota 0x40 11 ++ iota 0x50 19 ++ iota 0x80 17 ++ [0xC0]

/-- R75: a reserved scalar or lane opcode never decodes; neither does the all-zero word. -/
def Obligations.ReservedOpcodesRefused : Prop :=
  (∀ w : BitVec 32, bits w.toNat 31 26 ∉ scalarOps → ∃ e, decodeScalar w = .error e) ∧
  (∀ w : BitVec 96, bits w.toNat 95 88 ∉ laneOps → ∃ e, decodeLane w = .error e) ∧
  (decodeTableWord 32 0 = none) ∧ (decodeTableWord 96 0 = none)

/-! ### Reset and the step -/

/-- R384, R436, R379, R381, R311, R365: right after reset the bring-up service runs at 425 MHz, no context is live, no queue is
enabled, no group, team or launch exists, no session is open, slot 0 alone is valid, the refresh rate is 1024, every Carafe
domain tag is the number of its context and every owner slot the number of its context. The manual gives no device time at reset: 0 is the
model's choice (log 3). -/
def Sys2Proof.Say.resetState : Prop :=
  State.reset.service = .bringUp ∧ State.reset.clock = 425 ∧ State.reset.now = 0 ∧
  allG State.reset = [] ∧ allT State.reset = [] ∧ allL State.reset = [] ∧ State.reset.path = [] ∧ State.reset.inq = [] ∧
  State.reset.claims = [] ∧ State.reset.locks = [] ∧
  (∀ c, c < 256 → ctxLive State.reset c = false ∧ sysGet State.reset (0x0900 + c) = c ∧ sysGet State.reset (rCtx c 2) = c) ∧
  (∀ q, q < 64 → queueEn State.reset q = false) ∧ (∀ i, i < 16 → tsOpen State.reset i = false) ∧
  sysGet State.reset (rKey 0) = 1 ∧ (∀ k, 0 < k → k < 256 → sysGet State.reset (rKey k) = 0) ∧ sysGet State.reset 0x1309 = 1024

/-- When a scalar word may issue and the word at the pc decodes to `i`, whose sources hold no poison, a step that the tape gives to
the group runs `i` after the time of a step (log 1), what a window has answered to its fetches being used up, and then makes the counts
of R407 and the Pacer's note of R300; a counter word's own issue is counted before it acts (R445). Around it stand the slot's choice
(`arbitrate`) and what follows at once (`afterMove`): monitors look again, a teardown ends, full service starts. -/
def Sys2Proof.Say.stepRunsScalarWord : Prop :=
  ∀ (s : State) (r : List Move) (g x : Nat) (i : Instr), s.agenda = .scalar g :: r →
    let u := focus (passTime { s with agenda := r } 1) g
    let v := clearWin u (.group g) 0
    g ≠ 0 → u.g.uid = g → mayIssue u u.g u.t u.l.ctx = true → u.g.atEnd = false → u.g.swait = .go →
    fetch4 u false u.t.core u.l.ctx u.g.pc.toNat = .word x → decodeScalar (BitVec.ofNat 32 x) = .ok i →
    (∀ n ∈ readsA i, n ∉ u.g.pzA) → (∀ n ∈ readsUS i, n ∉ u.g.pzU) →
    step s = andThen (arbitrate false 0 u (andThen (exec i (if countsItself i then countG v 0x02 1 else v)) (afterScalar i u.g.pc))) afterMove

/-- A word of a started clause, as its check fetched it (R72, R73): when the group may issue, the fragment is ready and no half of a
hit and miss pair before a cross-lane word (R150), nothing that the word names is pending (R37, R333), no flag is full where it starts
an operation (R36) and no operand is poisoned, the step runs it and then makes the counts of R407 and R420, with the slot's choice and
the rest as for a scalar word. A matrix word with no active thread runs at once (R179). -/
def Sys2Proof.Say.stepRunsLaneWord : Prop :=
  ∀ (s : State) (r : List Move) (g e x : Nat) (f : Frag) (i : Instr), s.agenda = .lane g e :: r →
    let u := focus (passTime { s with agenda := r } 1) g
    let v := { u with fi := e }
    let act := activeOf v (guardOf i).1 (guardOf i).2
    g ≠ 0 → u.g.uid = g → mayIssue u u.g u.t u.l.ctx = true → u.g.task.isSome = true → fget u.g.frs e = some f → f.wait = .go →
    f.idx ≠ 0 → f.code[f.idx - 1]? = some x → decodeLane (BitVec.ofNat 96 x) = .ok i → midOp v = none →
    (isCross i && isHalf f) = false →
    (isMatrix i = true ∧ act = 0) ∨
      (pendingFor u.g i = none ∧ (isLong i = true → act ≠ 0 → flagsFull u.g f = false) ∧ isPoisoned v i act = false) →
    step s = andThen (arbitrate true e u (andThen (exec i v) (afterLane i v))) afterMove

/-- The candidates that a slot chooses among while none is urgent (R298, R300): those that the Pacer has not lowered, or all where it has
lowered all. -/
def Sys2Proof.Say.contenders (l : List SlotCand) : List SlotCand := l.filter (fun c => !c.low || l.all (fun x => x.low))

/-- R298, R301: an attempt that issued no word stands as it is; one that issued and is the slot's choice among the ready candidates,
or has no rival ready, is noted with the cycles that its word holds the slot and the candidates that waited; one that the slot did not
choose changes nothing. The slot chooses an urgent candidate before all others, the oldest of them, and one that the Pacer has lowered after all others; between
the rest round-robin takes the next in age after the last that issued, or the oldest where none is younger, and greedy-then-oldest the
last itself while it is ready, and the oldest else. That a candidate is ready when its next word would issue now is the model's
choice (log 36). -/
def Sys2Proof.Say.slotChoice : Prop :=
  (∀ (lane : Bool) (e : Nat) (s t : State),
    let moved := if lane then laneMoved s.g.uid e s t else scalarMoved s.g.uid s t
    (moved = false → arbitrate lane e s (.next t) = .next t) ∧
    (∀ c, mover s lane e = some c → moved = true → rivals s lane e = [] →
      arbitrate lane e s (.next t) = .next (noteIssue t s.t.core (partOf s.g) lane c (slotCycles s lane e) [])) ∧
    (∀ c x, mover s lane e = some c → moved = true →
      chooseCand (bit (lw s.l 2) 44) (lastOn s s.t.core (partOf s.g) lane) (c :: rivals s lane e) = some x →
      x.uid = c.uid → x.entry = c.entry →
      arbitrate lane e s (.next t) = .next (noteIssue t s.t.core (partOf s.g) lane c (slotCycles s lane e) (rivals s lane e))) ∧
    (∀ c x, mover s lane e = some c → moved = true →
      chooseCand (bit (lw s.l 2) 44) (lastOn s s.t.core (partOf s.g) lane) (c :: rivals s lane e) = some x →
      x.uid ≠ c.uid ∨ x.entry ≠ c.entry → arbitrate lane e s (.next t) = .next s)) ∧
  (∀ (rr : Bool) (last : Option LastIss) (l : List SlotCand),
    (∀ x, chooseCand rr last l = some x → x ∈ l ∧
      ((∃ y ∈ l, urgent y = true) → urgent x = true ∧ ∀ y ∈ l, urgent y = true → older y x = false) ∧
      ((∀ y ∈ l, urgent y = false) → (∃ y ∈ l, y.low = false) → x.low = false)) ∧
    ((∀ y ∈ l, urgent y = false) → ∀ z, chooseCand rr last l = some z →
      (last = none → ∀ y ∈ Say.contenders l, older y z = false) ∧
      (∀ x, last = some x → rr = false →
        ((∃ y ∈ Say.contenders l, y.uid = x.uid ∧ y.entry = x.entry) → z.uid = x.uid ∧ z.entry = x.entry) ∧
        ((∀ y ∈ Say.contenders l, ¬ (y.uid = x.uid ∧ y.entry = x.entry)) → ∀ y ∈ Say.contenders l, older y z = false)) ∧
      (∀ x, last = some x → rr = true → let after (y : SlotCand) : Prop := older ⟨x.uid, x.entry, x.age, 0, false⟩ y = true
        ((∃ y ∈ Say.contenders l, after y) → after z ∧ ∀ y ∈ Say.contenders l, after y → older y z = false) ∧
        ((∀ y ∈ Say.contenders l, ¬ after y) → ∀ y ∈ Say.contenders l, older y z = false))) ∧
    (l ≠ [] → (chooseCand rr last l).isSome = true))

/-- One step that the tape gives to the device: the time of a step passes (log 1) and the move is made, but after a failed image check a
device reset alone (R384); with nothing on the tape the default policy of the model (log 1) chooses. Then follows what a move brings at
once (R238, R380, R437). -/
def Sys2Proof.Say.stepMakesMove : Prop :=
  (∀ (s : State) (r : List Move) (i : Instr), s.agenda = .ev i :: r → isMove i = true → let u := passTime { s with agenda := r } 1
    (s.service ≠ .mailbox ∨ (∃ b, i = .deviceReset b) → step s = andThen (exec i u) afterMove) ∧
    (s.service = .mailbox → (∀ b, i ≠ .deviceReset b) → step s = .next (afterMove u))) ∧
  (∀ s : State, s.agenda = [] → pick s = none → step s = .next (passTime s 1)) ∧
  (∀ (s : State) (i : Instr), s.agenda = [] → pick s = some (.ev i) → isMove i = true → s.service ≠ .mailbox →
    step s = andThen (exec i (passTime { s with turn := s.turn + 1 } 1)) afterMove)

/-- R3, R35, R55, R86, R298: one step runs the instruction that stands at the program counter, of the scalar or of the lane stream,
if the issue slot chooses it, or makes the move that the tape or the default policy of the model (log 1) gives. -/
def Obligations.StepRunsDecodedInstruction : Prop :=
  Say.stepRunsScalarWord ∧ Say.stepRunsLaneWord ∧ Say.slotChoice ∧ Say.stepMakesMove

/-- Memory holds one canonical form: from every state in which it does, a step leads to a state in which it does. -/
def Obligations.StepKeepsMemoryForm : Prop :=
  ∀ s t : State, Memory.wf s → step s = .next t → Memory.wf t

/-- Every scratchpad, tile bank, accumulator bank and lane slice is in canonical form: its keys rise strictly and no entry holds a zero. -/
def Sys2Proof.Say.storesWf (s : State) : Prop :=
  mwf (fun _ => (0 : Byte)) s.dscr = true ∧
  (∀ x ∈ s.t :: s.teams, mwf (fun _ => (0 : Byte)) x.scr = true ∧ mwf (fun _ => (0 : Byte)) x.tiles = true ∧
    mwf (fun _ => (0 : Byte)) x.accs = true) ∧
  ∀ g ∈ s.g :: s.groups, mwf (fun _ => (0 : Byte)) g.slice = true

/-- At reset the memory and the other stores have their canonical form, and no byte of memory is listed. -/
def Sys2Proof.Say.resetMemoryForm : Prop :=
  Memory.wf State.reset ∧ Say.storesWf State.reset ∧ ∀ d pa, memByte State.reset d pa = 0

/-- The machine right after reset: registers, records and memory. -/
def Obligations.Reset : Prop := Say.resetState ∧ Say.resetMemoryForm

/-! ### Scalar arithmetic (R86, R88 to R91) -/

/-- The rows of R88 and R89 with a register for b, as the manual's table gives their results. -/
def Sys2Proof.scalarAluRows : List ((Reg → Reg → Reg → Instr) × (Word → Word → Word)) :=
  [(.add, fun x y => x + y), (.sub, fun x y => x - y), (.and, fun x y => x &&& y), (.or, fun x y => x ||| y),
   (.xor, fun x y => x ^^^ y), (.shl, fun x y => x <<< (y.toNat % 64)), (.shr, fun x y => x >>> (y.toNat % 64)),
   (.sar, fun x y => x.sshiftRight (y.toNat % 64)), (.mul, fun x y => x * y),
   (.mulhs, fun x y => (x.signExtend 128 * y.signExtend 128).extractLsb' 64 64),
   (.mulhu, fun x y => (x.setWidth 128 * y.setWidth 128).extractLsb' 64 64),
   (.divs, fun x y => if y = 0 then BitVec.allOnes 64 else BitVec.ofInt 64 (x.toInt.tdiv y.toInt)),
   (.divu, fun x y => if y = 0 then BitVec.allOnes 64 else BitVec.ofNat 64 (x.toNat / y.toNat)),
   (.rems, fun x y => if y = 0 then x else BitVec.ofInt 64 (x.toInt.tmod y.toInt)),
   (.remu, fun x y => if y = 0 then x else BitVec.ofNat 64 (x.toNat % y.toNat)),
   (.min, fun x y => if x.toInt < y.toInt then x else y), (.minu, fun x y => if x.toNat < y.toNat then x else y),
   (.max, fun x y => if x.toInt < y.toInt then y else x), (.maxu, fun x y => if x.toNat < y.toNat then y else x),
   (.slt, fun x y => if x.toInt < y.toInt then 1 else 0), (.sltu, fun x y => if x.toNat < y.toNat then 1 else 0),
   (.seq, fun x y => if x = y then 1 else 0)]

/-- R86, R88, R89: a register form of scalar arithmetic reads a and b, d receives the result of the table (a0 discards
it), pc grows by 4, and nothing else differs: no flag, no memory byte, no other register. -/
def Sys2Proof.Say.scalarAluRegisterForms : Prop :=
  ∀ p ∈ scalarAluRows, ∀ (s : State) (d a b : Reg),
    completes (p.1 d a b) s fun t => scalarResult s t d (p.2 (readA s.g a.toNat) (readA s.g b.toNat))

/-- R90: the immediate forms, with imm14 sign-extended, and the shifts by a constant. -/
def Sys2Proof.Say.scalarAluImmediateForms : Prop :=
  ∀ (s : State) (d a : Reg) (i : BitVec 14) (n : BitVec 6),
    let x := readA s.g a.toNat
    let y : Word := i.signExtend 64
    (completes (.addi d a i) s fun t => scalarResult s t d (x + y)) ∧
    (completes (.andi d a i) s fun t => scalarResult s t d (x &&& y)) ∧
    (completes (.ori d a i) s fun t => scalarResult s t d (x ||| y)) ∧
    (completes (.xori d a i) s fun t => scalarResult s t d (x ^^^ y)) ∧
    (completes (.slti d a i) s fun t => scalarResult s t d (if x.toInt < y.toInt then 1 else 0)) ∧
    (completes (.sltui d a i) s fun t => scalarResult s t d (if x.toNat < y.toNat then 1 else 0)) ∧
    (completes (.shli d a n) s fun t => scalarResult s t d (x <<< n.toNat)) ∧
    (completes (.shri d a n) s fun t => scalarResult s t d (x >>> n.toNat)) ∧
    (completes (.sari d a n) s fun t => scalarResult s t d (x.sshiftRight n.toNat))

/-- R88 and R91: `movz` and `movnz` write d only when the condition on b holds; `lui` and `auipc` form sext(imm20) × 2^14,
alone or added to the pc. -/
def Sys2Proof.Say.scalarMovesAndUppers : Prop :=
  ∀ (s : State) (d a b : Reg) (i : BitVec 20),
    let x := readA s.g a.toNat
    let y := readA s.g b.toNat
    (completes (.movz d a b) s fun t => scalarResult s t d (if y = 0 then x else readA s.g d.toNat)) ∧
    (completes (.movnz d a b) s fun t => scalarResult s t d (if y = 0 then readA s.g d.toNat else x)) ∧
    (completes (.lui d i) s fun t => scalarResult s t d (BitVec.ofInt 64 (i.toInt * 2 ^ 14))) ∧
    (completes (.auipc d i) s fun t => scalarResult s t d (s.g.pc + BitVec.ofInt 64 (i.toInt * 2 ^ 14)))

/-- R88, R90: the words of the register forms, by the fn number of the table's rows, and of the immediate forms; a shift by a constant with
imm14 [13:6] nonzero does not decode. -/
def Sys2Proof.Say.scalarAluWords : Prop :=
  (∀ (k : Nat) (m : Reg → Reg → Reg → Instr), (scalarAluRows.map (fun p => p.1) ++ [.movz, .movnz])[k]? = some m →
    ∀ d a b : Reg, encode (m d a b) = some (32, 2 ^ 26 + d.toNat * 2 ^ 20 + a.toNat * 2 ^ 14 + b.toNat * 2 ^ 8 + k)) ∧
  (∀ p ∈ ([(2, .addi), (3, .andi), (4, .ori), (5, .xori), (9, .slti), (10, .sltui)] : List (Nat × (Reg → Reg → BitVec 14 → Instr))),
    ∀ (d a : Reg) (i : BitVec 14), encode (p.2 d a i) = some (32, p.1 * 2 ^ 26 + d.toNat * 2 ^ 20 + a.toNat * 2 ^ 14 + i.toNat)) ∧
  (∀ p ∈ ([(6, .shli), (7, .shri), (8, .sari)] : List (Nat × (Reg → Reg → BitVec 6 → Instr))),
    (∀ (d a : Reg) (n : BitVec 6), encode (p.2 d a n) = some (32, p.1 * 2 ^ 26 + d.toNat * 2 ^ 20 + a.toNat * 2 ^ 14 + n.toNat)) ∧
    (∀ w : BitVec 32, bits w.toNat 31 26 = p.1 → bits w.toNat 13 6 ≠ 0 → ∃ e, decodeScalar w = .error e))

/-- R86, R88, R90, R91: scalar arithmetic with an immediate, conditional moves and upper immediates. -/
def Sys2Proof.Say.scalarAluOtherForms : Prop := Say.scalarAluImmediateForms ∧ Say.scalarMovesAndUppers ∧ Say.scalarAluWords

/-- R86, R88 to R91: scalar arithmetic, with a register or an immediate for the second operand, conditional moves and upper
immediates. -/
def Obligations.ScalarArithmetic : Prop := Say.scalarAluRegisterForms ∧ Say.scalarAluOtherForms

/-! ### Scalar control flow (R94 to R98, R109, R110) -/

/-- The conditional branches with the conditions of R58. -/
def Sys2Proof.branchRows : List ((Reg → Reg → BitVec 11 → Instr) × (Word → Word → Bool)) :=
  [(.beq, fun x y => decide (x = y)), (.bne, fun x y => decide (x ≠ y)), (.blt, fun x y => decide (x.toInt < y.toInt)),
   (.bge, fun x y => decide (y.toInt ≤ x.toInt)), (.bltu, fun x y => decide (x.toNat < y.toNat)),
   (.bgeu, fun x y => decide (y.toNat ≤ x.toNat))]

/-- Nothing differs but the pc, the Pacer's note of the branch (R300) and what reporting writes. -/
def Sys2Proof.pcAndPacer (s t : State) (pc : Word) : Prop :=
  sameButGroup s t ∧ t.g = { s.g with pc := pc, pacer := t.g.pacer }

/-- R94, R96: a conditional branch or `jmp` goes to pc + 4 × its sign-extended offset when its condition holds, else to pc + 4;
no register, flag or byte differs. -/
def Sys2Proof.Say.scalarBranches : Prop :=
  (∀ p ∈ branchRows, ∀ (s : State) (a b : Reg) (off : BitVec 11),
    completes (p.1 a b off) s fun t => pcAndPacer s t
      (if p.2 (readA s.g a.toNat) (readA s.g b.toNat) then s.g.pc + 4 * off.signExtend 64 else s.g.pc + 4)) ∧
  (∀ (s : State) (off : BitVec 26), completes (.jmp off) s fun t => pcAndPacer s t (s.g.pc + 4 * off.signExtend 64))

/-- R95: the counted loop counts its register down unless it is 0 (a0 never), and branches while it was above 1. -/
def Sys2Proof.Say.scalarLoop : Prop :=
  ∀ (s : State) (a : Reg) (off : BitVec 11),
    let n := readA s.g a.toNat
    completes (.loop a off) s fun t => wroteA s t a (if n = 0 then 0 else n - 1) ∧ scalarOnly s t ∧
      t.g.pc = (if a ≠ 0 ∧ 1 < n.toNat then s.g.pc + 4 * off.signExtend 64 else s.g.pc + 4)

/-- R96: `call` and `callr` write the return address (`callr` reads its target first), `jr` writes no register; a target whose
low bits are not zero makes `jr` and `callr` take the misaligned-target trap (cause 3) at their own pc. -/
def Sys2Proof.Say.scalarCallsAndJumps : Prop :=
  ∀ (s : State) (d a : Reg) (off : BitVec 26),
    let x := readA s.g a.toNat
    (completes (.call off) s fun t =>
      wroteA s t 63 (s.g.pc + 4) ∧ t.g.pc = s.g.pc + 4 * off.signExtend 64 ∧ scalarOnly s t) ∧
    (x.toNat % 4 = 0 → completes (.jr a) s fun t => t = { s with g := { s.g with pc := x } }) ∧
    (x.toNat % 4 = 0 → completes (.callr d a) s fun t => wroteA s t d (s.g.pc + 4) ∧ t.g.pc = x ∧ scalarOnly s t) ∧
    (x.toNat % 4 ≠ 0 → exec (.jr a) s = .next (takeTrap s 3 s.g.pc.toNat (encS 0x24 0 0 a 0)) ∧
      exec (.callr d a) s = .next (takeTrap s 3 s.g.pc.toNat (encS 0x24 1 d a 0)))

/-- R94 to R96: branches, the counted loop, jumps and calls. -/
def Sys2Proof.Say.scalarControlFlow : Prop := Say.scalarBranches ∧ Say.scalarLoop ∧ Say.scalarCallsAndJumps

/-- R33, R97, R98: `issue` and `issuex` append a lane task to the queue of eight and go on; with a full queue they wait, and a
misaligned offset makes `issuex` take the misaligned-target trap. -/
def Sys2Proof.Say.scalarIssue : Prop :=
  ∀ (s : State) (a : Reg) (off : BitVec 20),
    let x := readA s.g a.toNat
    let queued (task : Word) : State := { s with g := { s.g with taskq := s.g.taskq ++ [task], pc := s.g.pc + 4 } }
    (s.g.taskq.length < 8 →
      completes (.issue off) s (fun t => t = queued (BitVec.ofNat 64 (lcBase s.l + 4 * off.toNat))) ∧
      (x.toNat % 4 = 0 → completes (.issuex a) s fun t => t = queued (BitVec.ofNat 64 (lcBase s.l) + x))) ∧
    (8 ≤ s.g.taskq.length → exec (.issue off) s = .next s ∧ (x.toNat % 4 = 0 → exec (.issuex a) s = .next s)) ∧
    (x.toNat % 4 ≠ 0 → exec (.issuex a) s = .next (takeTrap s 3 s.g.pc.toNat (encS 0x29 0 0 a 0))) ∧
    encode (.issuex a) = some (32, 0x29 * 2 ^ 26 + a.toNat * 2 ^ 14) ∧ encode (.issue off) = some (32, 0x28 * 2 ^ 26 + off.toNat)

/-- R34, R109, R110, R418: `wflag` goes on once every named completion flag is 0, and waits before; `end` marks the stream as
ended and leaves the pc; `safe` goes on, and in a large team waits for the lane stream to be idle and marks the point. -/
def Sys2Proof.Say.scalarWaitsAndEnd : Prop :=
  ∀ (s : State) (m : BitVec 12) (vn : BitVec 7) (tz : Bool),
    ((∀ n, n < 12 → bit m.toNat n = true → mget s.g.fl 0 n = 0) →
      completes (.wflag m) s fun t => t = { s with g := { s.g with pc := s.g.pc + 4 } }) ∧
    ((∃ n, n < 12 ∧ bit m.toNat n = true ∧ mget s.g.fl 0 n ≠ 0) → exec (.wflag m) s = .next s) ∧
    (completes .endGroup s fun t => t = { s with g := { s.g with atEnd := true } }) ∧
    (vn.toNat ≤ 64 → s.t.small = true → completes (.safe vn tz) s fun t => t = { s with g := { s.g with pc := s.g.pc + 4 } }) ∧
    (vn.toNat ≤ 64 → s.t.small = false → s.g.task = none → s.g.taskq = [] → completes (.safe vn tz) s fun t =>
      t = { s with g := { s.g with pc := s.g.pc + 4, safe := some (vn.toNat + 128 * tz.toNat), nInstr := 0, nClause := 0 } }) ∧
    (vn.toNat ≤ 64 → s.t.small = false → s.g.task.isSome ∨ s.g.taskq ≠ [] → exec (.safe vn tz) s = .next s)

/-- R33, R34, R97, R98, R109, R110, R418: lane tasks, waits and the end of the scalar stream. -/
def Sys2Proof.Say.scalarTasksAndWaits : Prop := Say.scalarIssue ∧ Say.scalarWaitsAndEnd

/-- R33, R34, R94 to R98, R109, R110, R418: branches, the counted loop, jumps, calls, lane tasks, waits and the end of the scalar
stream. -/
def Obligations.ScalarControl : Prop := Say.scalarControlFlow ∧ Say.scalarTasksAndWaits

/-! ### Scalar memory (R92, R93, R199, R203) -/

/-- The loads of R92: size, and the extension of the value read. -/
def Sys2Proof.loadRows : List ((Reg → Reg → SSpace → BitVec 11 → Instr) × Nat × (Nat → Word)) :=
  [(.lb, 1, fun v => (BitVec.ofNat 8 v).signExtend 64), (.lbu, 1, fun v => (BitVec.ofNat 8 v).setWidth 64),
   (.lh, 2, fun v => (BitVec.ofNat 16 v).signExtend 64), (.lhu, 2, fun v => (BitVec.ofNat 16 v).setWidth 64),
   (.lw, 4, fun v => (BitVec.ofNat 32 v).signExtend 64), (.lwu, 4, fun v => (BitVec.ofNat 32 v).setWidth 64),
   (.ld, 8, fun v => BitVec.ofNat 64 v)]
def Sys2Proof.storeRows : List ((Reg → Reg → SSpace → BitVec 11 → Instr) × Nat) :=
  [(.sb, 1), (.sh, 2), (.sw, 4), (.sd, 8)]

/-- ea of R92. -/
def Sys2Proof.ea92 (s : State) (a : Reg) (off : BitVec 11) : Nat := (readA s.g a.toNat + off.signExtend 64).toNat

/-- R92, R203: a scalar load from the team's scratchpad, aligned, inside the region, in no locked range, of clean bytes that no
store of the group is on its way to: d receives the extension of the little-endian value of the
bytes at ea (a0 discards it), pc grows by 4; every other scalar register, every register of the lane stream and every byte
stays. -/
def Sys2Proof.Say.scalarLoadsFromScratchpad : Prop :=
  ∀ p ∈ loadRows, ∀ (s : State) (d a : Reg) (off : BitVec 11),
    let ea := ea92 s a off
    s.t.uid ≠ 0 → ea % p.2.1 = 0 → ea + p.2.1 ≤ s.t.scrB → s.path = [] → s.locks = [] → s.t.pzS = [] →
    completes (p.1 d a .s off) s fun t =>
      wroteA s t d (p.2.2 (leNat (mgets s.t.scr 0 ea p.2.1))) ∧ t.g.pc = s.g.pc + 4 ∧ laneRegsKept s t ∧ bytesKept s t

/-- R92, R370: what a scalar load does in every space, by the outcome of its checks: a refused place or a locked range stops the
context with the cause the check names and the kind of the access, a page that is away parks the stream with the pc at the load, and a load that is
made gives d the extension of what was read and goes on. -/
def Sys2Proof.Say.scalarLoadsByOutcome : Prop :=
  ∀ p ∈ loadRows, ∀ (s : State) (d a : Reg) (sp : SSpace) (off : BitVec 11),
    let ea := ea92 s a off
    (∀ c, checkAcc s s.g.uid s.t s.l.ctx 0 (sspaceSpace sp) .load ea p.2.1 p.2.1 = .bad c →
      exec (p.1 d a sp off) s = .next (scalarFaultK s c ea (akindNo .load))) ∧
    (∀ aw, checkAcc s s.g.uid s.t s.l.ctx 0 (sspaceSpace sp) .load ea p.2.1 p.2.1 = .away aw →
      exec (p.1 d a sp off) s = .next (park s s.l.ctx aw)) ∧
    (∀ acc, checkAcc s s.g.uid s.t s.l.ctx 0 (sspaceSpace sp) .load ea p.2.1 p.2.1 = .ok acc →
      locked s s.l.ctx acc false = true → exec (p.1 d a sp off) s = .next (scalarFaultK s .rangeLocked ea (akindNo .load))) ∧
    (∀ u v, scalarRead s (sspaceSpace sp) ea p.2.1 = .got u v →
      completes (p.1 d a sp off) s fun t => scalarResult u t d (p.2.2 v))

/-- R92, R203: scalar loads of every size and space. -/
def Sys2Proof.Say.scalarLoads : Prop := Say.scalarLoadsFromScratchpad ∧ Say.scalarLoadsByOutcome

/-- R92, R93, R199: a scalar store in every space, by the outcome of its checks. A store that is made enters the group's store
path, at its end, with the low bytes of register d for the place of ea, the vector C of the group and the group as its owner;
no byte of any store changes before the entry arrives, and no register but the pc does. A refused place or a locked range
stops the context, a page that is away parks the stream. -/
def Sys2Proof.Say.scalarStores : Prop :=
  ∀ p ∈ storeRows, ∀ (s : State) (d a : Reg) (sp : SSpace) (off : BitVec 11),
    let ea := ea92 s a off
    let chk := checkAcc s s.g.uid s.t s.l.ctx 0 (sspaceSpace sp) .store ea p.2 p.2
    (∀ acc, chk = .ok acc → locked s s.l.ctx acc true = false → completes (p.1 d a sp off) s fun t =>
      (∃ e, t.path = s.path ++ [e] ∧ e.op = .store ∧ e.acc = acc ∧ e.x = (readA s.g d.toNat).toNat % 2 ^ (8 * p.2) ∧
        e.owner = .group s.g.uid ∧ e.vec = s.g.car ∧ e.st = .sent) ∧
      t.g.a = s.g.a ∧ t.g.pc = s.g.pc + 4 ∧ laneRegsKept s t ∧ bytesKept s t) ∧
    (∀ acc, chk = .ok acc → locked s s.l.ctx acc true = true → exec (p.1 d a sp off) s = .next (scalarFaultK s .rangeLocked ea (akindNo .store))) ∧
    (∀ c, chk = .bad c → exec (p.1 d a sp off) s = .next (scalarFaultK s c ea (akindNo .store))) ∧
    (∀ aw, chk = .away aw → exec (p.1 d a sp off) s = .next (park s s.l.ctx aw))

/-- R92, R93, R203: scalar loads and stores of every size and space. -/
def Obligations.ScalarMemory : Prop := Say.scalarLoads ∧ Say.scalarStores

/-- R411: a fatal fault of the scalar or of the lane stream of a live context stops the context, unless a group of it has reached its lap
by then, whose hang comes first (R423). -/
def Sys2Proof.Say.fatalFaultStopsContext : Prop :=
  ∀ (s : State) (c : FCause) (addr kind : Nat), s.l.ctx < 256 → ctxState s s.l.ctx = 1 → hangDue s s.l.ctx = none →
    stopsContext s (scalarFaultK s c addr kind) c addr ∧ stopsContext s (laneFaultK s c addr kind) c addr

/-! ### Channels and uniform registers of the scalar stream (R99 to R103) -/

/-- R38, R39, R42, R99: `push` appends the 64 bits of a register to c0 to c3 while fewer than 16 entries stand there; `pop` and
`peek` give the oldest entry of c4 to c7 to d, and `pop` removes it; a full or an empty channel makes them wait. -/
def Sys2Proof.Say.scalarChannels : Prop :=
  ∀ (s : State) (c d a : Reg),
    (c.toNat < 4 → (mget s.g.ch [] c.toNat).length < 16 → completes (.push c a) s fun t =>
      t = { s with g := { s.g with ch := mput s.g.ch [] c.toNat (mget s.g.ch [] c.toNat ++ [readA s.g a.toNat]), pc := s.g.pc + 4 } }) ∧
    (c.toNat < 4 → 16 ≤ (mget s.g.ch [] c.toNat).length → exec (.push c a) s = .next s) ∧
    (∀ x q, 4 ≤ c.toNat → c.toNat < 8 → mget s.g.ch [] c.toNat = x :: q →
      (completes (.pop d c) s fun t => wroteA s t d x ∧ t.g.pc = s.g.pc + 4 ∧
        scalarOnly { s with g := { s.g with ch := mput s.g.ch [] c.toNat q, lap := 0 } } t) ∧
      (completes (.peek d c) s fun t => scalarResult s t d x)) ∧
    (4 ≤ c.toNat → c.toNat < 8 → mget s.g.ch [] c.toNat = [] → exec (.pop d c) s = .next s ∧ exec (.peek d c) s = .next s)

/-- R39, R99, R239: c12 to c15 in the scalar stream: a use of an unbound channel, against its binding, or of a binding of vector width
traps; a bound one of word width behaves as a queue, with its 16 entries. -/
def Sys2Proof.Say.scalarBoundChannels : Prop :=
  ∀ (s : State) (c d a : Reg), 12 ≤ c.toNat → c.toNat < 16 →
    (bindOf s.g c.toNat = none → exec (.push c a) s = .next (scalarFault s .unboundChannel s.g.pc.toNat) ∧
      exec (.pop d c) s = .next (scalarFault s .unboundChannel s.g.pc.toNat) ∧
      exec (.peek d c) s = .next (scalarFault s .unboundChannel s.g.pc.toNat)) ∧
    (∀ b, bindOf s.g c.toNat = some b → b.kind = 1 ∨ b.kind = 2 →
      exec (.push c a) s = .next (scalarFault s .channelDirection s.g.pc.toNat)) ∧
    (∀ b, bindOf s.g c.toNat = some b → b.kind = 0 ∨ b.kind = 3 →
      exec (.pop d c) s = .next (scalarFault s .channelDirection s.g.pc.toNat)) ∧
    (∀ b, bindOf s.g c.toNat = some b → b.kind = 0 ∨ b.kind = 3 → b.vec = false → (mget s.g.ch [] c.toNat).length < 16 →
      completes (.push c a) s fun t =>
        t = { s with g := { s.g with ch := mput s.g.ch [] c.toNat (mget s.g.ch [] c.toNat ++ [readA s.g a.toNat]), pc := s.g.pc + 4 } }) ∧
    (∀ b, bindOf s.g c.toNat = some b → b.kind = 0 ∨ b.kind = 3 → b.vec = false → 16 ≤ (mget s.g.ch [] c.toNat).length →
      exec (.push c a) s = .next s) ∧
    (∀ b x q, bindOf s.g c.toNat = some b → b.kind = 1 ∨ b.kind = 2 → b.vec = false → mget s.g.ch [] c.toNat = x :: q →
      (completes (.pop d c) s fun t => wroteA s t d x ∧ t.g.pc = s.g.pc + 4 ∧ sameButGroup s t ∧
        t.g = { s.g with a := t.g.a, pzA := t.g.pzA, pc := t.g.pc, ch := mput s.g.ch [] c.toNat q, lap := 0 }) ∧
      (completes (.peek d c) s fun t => scalarResult s t d x)) ∧
    (∀ b, bindOf s.g c.toNat = some b → b.kind = 1 ∨ b.kind = 2 → b.vec = false → mget s.g.ch [] c.toNat = [] →
      exec (.pop d c) s = .next s ∧ exec (.peek d c) s = .next s) ∧
    (∀ b, bindOf s.g c.toNat = some b → b.vec = true →
      exec (.push c a) s = .next (scalarFault s .channelDirection s.g.pc.toNat) ∧
      exec (.pop d c) s = .next (scalarFault s .channelDirection s.g.pc.toNat) ∧
      exec (.peek d c) s = .next (scalarFault s .channelDirection s.g.pc.toNat))

/-- R38, R39, R42, R99, R239: channels in the scalar stream. -/
def Sys2Proof.Say.scalarChannelWords : Prop := Say.scalarChannels ∧ Say.scalarBoundChannels

/-- R100, R101, R239: `cbind` binds a free channel as its descriptor says once every lane task has ended, and refuses a bad
descriptor and a bound channel (of a bad descriptor for a bound channel the manual does not say which cause is named: bad binding
first is the model's choice, log 41); a neighbour descriptor that names a channel of the binding group is a bad one; `cfree` waits until
its channel is empty and no transfer on its binding is in flight, then frees it, and has no effect on an unbound one; both wait for the
lane tasks issued before. -/
def Sys2Proof.Say.scalarBindings : Prop :=
  (∀ (s : State) (c a : Reg), s.g.task.isSome = true ∨ s.g.taskq ≠ [] →
    exec (.cbind c a) s = .next s ∧ exec (.cfree c) s = .next s) ∧
  (∀ (s : State) (c x : Nat) (t : Team), x / 2 ^ 62 < 2 → teamOfRank s s.t (x / 2 ^ 16 % 16) = some t → t.uid = s.t.uid →
    x / 2 ^ 8 % 16 = s.g.idx → bindOfWord s c x = none) ∧
  ∀ (s : State) (c a : Reg), s.g.task = none → s.g.taskq = [] →
    (∀ b, bindOfWord s c.toNat (readA s.g a.toNat).toNat = some b → bindOf s.g c.toNat = none →
      completes (.cbind c a) s fun t => t = { s with g := { s.g with bind := s.g.bind ++ [b], pc := s.g.pc + 4 } }) ∧
    (bindOfWord s c.toNat (readA s.g a.toNat).toNat = none →
      exec (.cbind c a) s = .next (scalarFault s .badBinding s.g.pc.toNat)) ∧
    (∀ b, bindOfWord s c.toNat (readA s.g a.toNat).toNat = some b → (bindOf s.g c.toNat).isSome = true →
      exec (.cbind c a) s = .next (scalarFault s .channelBound s.g.pc.toNat)) ∧
    (bindOf s.g c.toNat = none → completes (.cfree c) s fun t => t = { s with g := { s.g with pc := s.g.pc + 4 } }) ∧
    ((bindOf s.g c.toNat).isSome = true →
      chanLen s.g c.toNat ≠ 0 ∨ (∃ e ∈ s.path, e.owner = .stream s.g.uid ∧ e.t = c.toNat) ∨
        (∃ r ∈ s.wins, r.owner = .stream s.g.uid ∧ r.t = c.toNat) ∨ (∃ b ∈ s.g.bind, b.chan = c.toNat ∧ b.buf ≠ []) →
      exec (.cfree c) s = .next s) ∧
    ((bindOf s.g c.toNat).isSome = true → chanLen s.g c.toNat = 0 → (∀ e ∈ s.path, ¬ (e.owner = .stream s.g.uid ∧ e.t = c.toNat)) →
      (∀ r ∈ s.wins, ¬ (r.owner = .stream s.g.uid ∧ r.t = c.toNat)) → (∀ b ∈ s.g.bind, b.chan = c.toNat → b.buf = []) →
      completes (.cfree c) s fun t =>
        t.g.pc = s.g.pc + 4 ∧ bindOf t.g c.toNat = none ∧ (∀ n, n ≠ c.toNat → bindOf t.g n = bindOf s.g n) ∧
        t = { s with g := { s.g with bind := t.g.bind, pc := s.g.pc + 4 } })

/-- R50, R102, R103, R177: uniform registers, predicate masks and tile shapes move to and from scalar registers, those that the
lane stream reads once every lane task has ended; a shape that the rules refuse stops the context. -/
def Sys2Proof.Say.scalarToLaneRegisters : Prop :=
  ∀ (s : State) (d a n : Reg),
    let x := readA s.g a.toNat
    (s.g.task = none → s.g.taskq = [] →
      (completes (.mtg n a) s fun t => (∀ m, readU t.g m = if m = n.toNat then x else readU s.g m) ∧ t.g.pc = s.g.pc + 4 ∧
        t = { s with g := { s.g with u := t.g.u, pzU := t.g.pzU, pc := t.g.pc } }) ∧
      (completes (.mfk d n 0) s fun t => scalarResult s t d (readK s.g n.toNat)) ∧
      (shapeOk x.toNat = true → completes (.mtsh n a) s fun t =>
        (∀ m, shapeGet t.t m = if m = n.toNat then x.toNat else shapeGet s.t m) ∧
        t = { s with t := { s.t with shapes := t.t.shapes }, g := { s.g with pc := s.g.pc + 4 } }) ∧
      (shapeOk x.toNat = false → exec (.mtsh n a) s = .next (scalarFault s .badShape s.g.pc.toNat))) ∧
    (s.g.task.isSome = true ∨ s.g.taskq ≠ [] →
      exec (.mtg n a) s = .next s ∧ exec (.mfk d n 0) s = .next s ∧ exec (.mtsh n a) s = .next s) ∧
    (completes (.mfg d n) s fun t => scalarResult s t d (readU s.g n.toNat)) ∧
    (completes (.mfsh d n) s fun t => scalarResult s t d (BitVec.ofNat 64 (shapeGet s.t n.toNat)))

/-- R38, R39, R42, R50, R99 to R103, R177, R239: channels, bindings, uniform registers, masks and shapes in the scalar stream. -/
def Obligations.ScalarChannelsAndLaneState : Prop := Say.scalarChannelWords ∧ Say.scalarBindings ∧ Say.scalarToLaneRegisters

/-! ### System words of the scalar stream (R104, R105, R418, R438 to R450) -/

/-- The program-view registers of R105 that every launch has, for the issuing group. -/
def Sys2Proof.programNumbers (s : State) : List (Nat × Word) :=
  [(0x000, 64), (0x001, BitVec.ofNat 64 (256 * (s.t.core % 256) + 16 * (s.g.idx % 4) + s.g.idx)),
   (0x002, BitVec.ofNat 64 (s.t.idx % 2 ^ 32)), (0x003, BitVec.ofNat 64 (65536 * (s.t.cluster % 65536) + s.t.rank)),
   (0x004, BitVec.ofNat 64 (bits (lw s.l 2) 31 0)), (0x005, BitVec.ofNat 64 (lw s.l 1 - lw s.l 1 % 4)),
   (0x009, BitVec.ofNat 64 s.l.phaseNo), (0x00A, BitVec.ofNat 64 (dieNow s (dieOf s.t.core)))]

/-- R104, R105, R448: `mfsr` gives d the value of a program-view register, or, in the supervisor view, of an assigned number;
an unassigned number is an illegal instruction (cause 1), and a supervisor number in the program view a privileged one (2). -/
def Sys2Proof.Say.scalarSystemReads : Prop :=
  ∀ (s : State) (d : Reg) (num : BitVec 14),
    (∀ p ∈ programNumbers s, num.toNat = p.1 → completes (.mfsr d num) s fun t => scalarReported s t d p.2) ∧
    (num.toNat = 0x008 → completes (.mfsr d num) s fun t => scalarReported s t d (BitVec.ofNat 64 (fpctl s.l))) ∧
    (0x100 ≤ num.toNat → s.l.ctx = 0 → sysAssigned num.toNat = true →
      completes (.mfsr d num) s fun t => scalarReported s t d (BitVec.ofNat 64 (sysGet s num.toNat))) ∧
    (0x100 ≤ num.toNat → s.l.ctx ≠ 0 →
      exec (.mfsr d num) s = .next (takeTrap s 2 s.g.pc.toNat (encI 0x2D d 0 num.toNat))) ∧
    ((num.toNat < 0x100 ∧ progRead s num.toNat = none) ∨ (0x100 ≤ num.toNat ∧ s.l.ctx = 0 ∧ sysAssigned num.toNat = false) →
      exec (.mfsr d num) s = .next (takeTrap s 1 s.g.pc.toNat (encI 0x2D d 0 num.toNat)))

/-- R449: `mtsr` in the supervisor view writes an assigned number in one move, with the pc already past it, once every store of
the group is acknowledged and every update of it applied; it waits before. In the program view it is privileged, and for a
number that is not assigned illegal. -/
def Sys2Proof.Say.scalarSystemWrites : Prop :=
  ∀ (s : State) (a : Reg) (num : BitVec 14),
    (s.l.ctx = 0 → 0x100 ≤ num.toNat → sysAssigned num.toNat = true →
      (∀ e ∈ s.path, e.owner ≠ .group s.g.uid ∧ e.owner ≠ .stream s.g.uid) →
      (∀ u ∈ s.inq, u.owner ≠ .group s.g.uid ∧ u.owner ≠ .stream s.g.uid) →
      completes (.mtsr a num) s fun t =>
        t = sysWrite { s with g := { s.g with pc := s.g.pc + 4 } } num.toNat (readA s.g a.toNat).toNat) ∧
    (s.l.ctx = 0 → 0x100 ≤ num.toNat → sysAssigned num.toNat = true → (∃ e ∈ s.path, e.owner = .group s.g.uid) →
      exec (.mtsr a num) s = .next s) ∧
    (s.l.ctx ≠ 0 → exec (.mtsr a num) s = .next (takeTrap s 2 s.g.pc.toNat (encI 0x38 0 a num.toNat))) ∧
    (s.l.ctx = 0 → num.toNat < 0x100 ∨ sysAssigned num.toNat = false →
      exec (.mtsr a num) s = .next (takeTrap s 1 s.g.pc.toNat (encI 0x38 0 a num.toNat)))

/-- R104, R105, R448, R449: system registers in the scalar stream. -/
def Sys2Proof.Say.scalarSystemRegisters : Prop := Say.scalarSystemReads ∧ Say.scalarSystemWrites

/-- R74: a word that R74 refuses takes the handled trap with cause 1 and its own address. -/
def Sys2Proof.Say.scalarTrapsTaken : Prop :=
  ∀ (s : State) (w : BitVec 32), exec (.scalarIllegalInstruction w) s = .next (takeTrap s 1 s.g.pc.toNat w.toNat)

/-- R410, R412, R439: taking a handled trap. With `CTXTRAP.en` 0 it is fatal (unhandled). With the busy word readable and not 1 and
the four frame stores made, the group's store path has grown by the frame words (resume, cause, word, busy) at
`CTXFRM.base` + 32 × (16 × team + group), the frame address is kept with the group, the stream continues at the handler, and
no other scalar register differs. With the busy word 1 it is fatal (double trap), and with a read or a store of the frame that
faults it is fatal (frame). `trap` takes one with cause 4, its code in bits [35:16], its own word and the address after it. -/
def Obligations.HandledTrapEntry : Prop :=
  ∀ (s : State) (cause resume word : Nat), s.t.core < 256 → s.l.ctx < 256 →
    let f := ((sextW (sysBits s (rRec s.l.ctx 1) 56 5 * 32) 57).toNat + 32 * (16 * s.t.idx + s.g.idx)) % 2 ^ 64
    (sysBit s (rRec s.l.ctx 0) 63 = false →
      takeTrap s cause resume word = trapFatal s .unhandled cause s.g.pc.toNat word) ∧
    (∀ code : BitVec 20,
      exec (.trap code) s = .next (takeTrap s (4 + 65536 * code.toNat) (s.g.pc + 4).toNat (encU 0x30 0 code.toNat)) ∧
      encode (.trap code) = some (32, 0x30 * 2 ^ 26 + code.toNat)) ∧
    (sysBit s (rRec s.l.ctx 0) 63 = true → ∀ u c, scalarRead s .g ((f + 0x18) % 2 ^ 64) 8 = .fault u c →
      takeTrap s cause resume word = trapFatal u .frame cause f word) ∧
    (sysBit s (rRec s.l.ctx 0) 63 = true → ∀ u b, scalarRead s .g ((f + 0x18) % 2 ^ 64) 8 = .got u b →
      (b = 1 → takeTrap s cause resume word = trapFatal u .doubleTrap cause f word) ∧
      (b ≠ 1 → ∀ v c, frameStores u f [(0, resume), (8, cause), (0x10, word), (0x18, 1)] = .fault v c →
        takeTrap s cause resume word = trapFatal v .frame cause f word) ∧
      (b ≠ 1 → ∀ v x, frameStores u f [(0, resume), (8, cause), (0x10, word), (0x18, 1)] = .got v x →
        let t := takeTrap s cause resume word
        stored u t [(f, resume), (f + 8, cause), (f + 0x10, word), (f + 0x18, 1)] ∧
        t.g.frame = some f ∧ t.g.pc = sextW (sysBits s (rRec s.l.ctx 0) 56 2 * 4) 57 ∧ t.g.a = s.g.a ∧ laneRegsKept s t))

/-- R410, R440: `eret` without a frame is an illegal instruction; with one it reads the resume word, clears the busy word with a
store, forgets the frame and continues at the resume address; a resume address that is not aligned is a misaligned target, and a
read or a store that faults is fatal (frame). -/
def Obligations.TrapReturn : Prop :=
  ∀ (s : State),
    encode .eret = some (32, 0xC4000000) ∧
    (s.g.frame = none → exec .eret s = .next (takeTrap s 1 s.g.pc.toNat 0xC4000000)) ∧
    (∀ f u c, s.g.frame = some f → scalarRead s .g f 8 = .fault u c → exec .eret s = .next (trapFatal u .frame 0 f 0xC4000000)) ∧
    (∀ f u r, s.g.frame = some f → scalarRead s .g f 8 = .got u r →
      (r % 4 = 0 → ∀ v c, scalarWrite u .g ((f + 0x18) % 2 ^ 64) 8 0 = .fault v c →
        exec .eret s = .next (trapFatal v .frame 0 f 0xC4000000)) ∧
      (r % 4 ≠ 0 → exec .eret s = .next (takeTrap u 3 u.g.pc.toNat 0xC4000000)) ∧
      (r % 4 = 0 → ∀ v x, scalarWrite u .g ((f + 0x18) % 2 ^ 64) 8 0 = .got v x → completes .eret s fun t =>
        stored u t [(f + 0x18, 0)] ∧ t.g.frame = none ∧ t.g.pc = BitVec.ofNat 64 r ∧ t.g.a = s.g.a ∧ laneRegsKept s t))

/-- R96, R370, R375: a scalar fetch that does not translate as text stops the context with the target as the address; at a page that
is away the stream parks. -/
def Sys2Proof.Say.scalarFetchFaults : Prop :=
  ∀ (s : State),
    (∀ c va, fetch4 s false s.t.core s.l.ctx s.g.pc.toNat = .bad c va →
      completes .textFetchTranslationFault s fun t => t = scalarFaultK s c va (akindNo .fetch)) ∧
    (∀ aw, fetch4 s false s.t.core s.l.ctx s.g.pc.toNat = .away aw →
      completes .textFetchTranslationFault s fun t => t = park s s.l.ctx aw)

/-- R74, R96, R375: the words and fetches that trap. -/
def Obligations.ScalarTrapsAndFetchFaults : Prop := Say.scalarTrapsTaken ∧ Say.scalarFetchFaults

/-- R406, R442: `stop` goes on, and with its context's stop enable set and no partition of the core stopped it stops its own with its
code; else it does no more. -/
def Sys2Proof.Say.scalarStopWord : Prop :=
  ∀ (s : State) (code : BitVec 20),
    let u : State := { s with g := { s.g with pc := s.g.pc + 4 } }
    (sysBit s (0x3700 + s.l.ctx) 0 = false → completes (.stop code) s fun t => t = u) ∧
    (sysBit s (0x3700 + s.l.ctx) 0 = true → (∀ p ∈ s.stops, p.core ≠ s.t.core) → completes (.stop code) s fun t =>
      onlyReports u t ∧ t.stops = s.stops ++ [⟨s.t.core, s.g.idx % 4, 2, code.toNat⟩]) ∧
    ((∃ p ∈ s.stops, p.core = s.t.core) → completes (.stop code) s fun t => t = u)

/-- R390 to R393, R443, R444: `trc` offers a record of class 0x0C with 24 bits of a and the 64 bits of b to every session that takes
it; `tnow` gives d a stamp of the core, later than every stamp the core has given; nothing else differs but reports. -/
def Sys2Proof.Say.scalarTraceWords : Prop :=
  ∀ (s : State) (d a b : Reg), s.t.core < 256 →
    (completes (.trc a b) s fun t => onlyReports { s with g := { s.g with pc := s.g.pc + 4 } } t ∧
      ∀ i, i < 16 → takes s i 0x0C s.l.ctx s.t.core = true → ∃ r ∈ (mget t.sess {} i).held, r.ring = .record ∧
        r.data = recBytes (stampNow s s.t.core) 0x0C 0 (decide (dieNow s (srcDie s.t.core) < stampNow s s.t.core)) s.t.core s.l.ctx
          ((readA s.g a.toNat).toNat % 2 ^ 24) (some (idS s (readA s.g b.toNat).toNat))) ∧
    (completes (.tnow d) s fun t => scalarReported s t d (BitVec.ofNat 64 (stampNow s s.t.core)) ∧
      mget t.srcLast 0 s.t.core ≥ stampNow s s.t.core) ∧
    mget s.srcLast 0 s.t.core < stampNow s s.t.core ∧ dieNow s (srcDie s.t.core) ≤ stampNow s s.t.core

/-- R390 to R393, R442 to R444: stops, trace records and stamps. -/
def Sys2Proof.Say.scalarStopsAndRecords : Prop := Say.scalarStopWord ∧ Say.scalarTraceWords

/-- R407, R445: `ctr.rd` gives the value of a counter that the word may act on, with its overflow bit, and 0 for any other;
`ctr.arm` writes its selection (in the program view enable, record and source alone), and `ctr.clr` clears its value and
overflow; the two leave every other register of the device as it is, and a counter that is not owned too. -/
def Sys2Proof.Say.scalarCounterWords : Prop :=
  ∀ (s : State) (d a b : Reg),
    let x := (readA s.g a.toNat).toNat
    let v := (readA s.g b.toNat).toNat
    let u : State := { s with g := { s.g with pc := s.g.pc + 4 } }
    (ctrOwned s x = none → (completes (.ctrRd d a) s fun t => scalarReported s t d 0) ∧
      (completes (.ctrArm a b) s fun t => t = u) ∧ (completes (.ctrClr a) s fun t => t = u)) ∧
    (∀ n, ctrOwned s x = some n →
      (completes (.ctrRd d a) s fun t =>
        scalarReported s t d (BitVec.ofNat 64 (sysGet s (n + 1) % 2 ^ 48 + if sysBit s n 62 then 2 ^ 63 else 0))) ∧
      (s.l.ctx ≠ 0 → completes (.ctrArm a b) s fun t => t = { u with sys := t.sys } ∧ (∀ m, m ≠ n → sysGet t m = sysGet s m) ∧
        ∀ i, i < 64 → sysBit t n i = if i = 63 ∨ i = 60 ∨ i < 8 then bit v i else sysBit s n i) ∧
      (s.l.ctx = 0 → completes (.ctrArm a b) s fun t => t = { u with sys := t.sys } ∧ (∀ m, m ≠ n → sysGet t m = sysGet s m) ∧
        ∀ i, i < 64 → sysBit t n i =
          if i = 63 ∨ (57 ≤ i ∧ i ≤ 60) ∨ i < 16 ∨ (i = 61 ∧ n < 0x3600) then bit v i
          else if i = 62 then sysBit s n 62 && !bit v 62 else sysBit s n i) ∧
      (completes (.ctrClr a) s fun t => t = { u with sys := t.sys } ∧ sysGet t (n + 1) = 0 ∧ sysBit t n 62 = false ∧
        (∀ m, m ≠ n → m ≠ n + 1 → sysGet t m = sysGet s m) ∧ ∀ i, i < 64 → i ≠ 62 → sysBit t n i = sysBit s n i))

/-- R139, R446, R447: `elog.rd` reads a word of the oldest record of the arithmetic-error or barrier log of a context, or the count of
records and lost ones; `elog.pop` removes that record, and clears the lost count when bit 4 asks. A program reads only the
logs of its own context. -/
def Sys2Proof.Say.scalarErrorLogs : Prop :=
  ∀ (s : State) (d a : Reg),
    let x := (readA s.g a.toNat).toNat
    let c := if s.l.ctx = 0 then bits x 15 8 else s.l.ctx
    let u : State := { s with g := { s.g with pc := s.g.pc + 4 } }
    (bit x 3 = false →
      (bit x 2 = true → completes (.elogRd d a) s fun t =>
        scalarResult s t d (BitVec.ofNat 64 ((mget s.alog [] c).length + 2 ^ 32 * mget s.alost 0 c))) ∧
      (∀ r q, bit x 2 = false → mget s.alog [] c = r :: q → completes (.elogRd d a) s fun t =>
        scalarResult s t d (BitVec.ofNat 64 (bits (arecVal r) (64 * bits x 1 0 + 63) (64 * bits x 1 0)))) ∧
      (completes (.elogPop a) s fun t => t = { u with alog := t.alog, alost := t.alost } ∧
        (∀ e, mget t.alog [] e = if e = c then (mget s.alog [] c).drop 1 else mget s.alog [] e) ∧
        (∀ e, mget t.alost 0 e = if e = c ∧ bit x 4 = true then 0 else mget s.alost 0 e))) ∧
    (bit x 3 = true →
      (bit x 2 = true → completes (.elogRd d a) s fun t =>
        scalarResult s t d (BitVec.ofNat 64 ((mget s.blog [] c).length + 2 ^ 32 * mget s.blost 0 c))) ∧
      (∀ r q, bit x 2 = false → mget s.blog [] c = r :: q → completes (.elogRd d a) s fun t =>
        scalarResult s t d (BitVec.ofNat 64 (bits (brecVal r) (64 * bits x 1 0 + 63) (64 * bits x 1 0)))) ∧
      (completes (.elogPop a) s fun t => t = { u with blog := t.blog, blost := t.blost } ∧
        (∀ e, mget t.blog [] e = if e = c then (mget s.blog [] c).drop 1 else mget s.blog [] e) ∧
        (∀ e, mget t.blost 0 e = if e = c ∧ bit x 4 = true then 0 else mget s.blost 0 e)))

/-- R139, R407, R445 to R447: counters and error logs in the scalar stream. -/
def Sys2Proof.Say.scalarCountersAndLogs : Prop := Say.scalarCounterWords ∧ Say.scalarErrorLogs

/-- R450: `ctx.save` and `ctx.rest` are privileged; of a partition not stopped they change nothing but d, which reports 1.
`ctx.save` of a stopped one stores its records to an aligned buffer in memory or windows, under key slot 0, and waits: once the stores
are acknowledged, d reports 0 and their length. `ctx.rest` of a buffer with those records and permitted edits gives every group of the
partition the program counter and registers of its record, and reports 0; bytes in a window are asked for at their remote home
first. -/
def Sys2Proof.Say.scalarPartitionWords : Prop :=
  ∀ (s : State) (d a b : Reg),
    let core := bits (readA s.g a.toNat).toNat 7 0
    let part := bits (readA s.g a.toNat).toNat 9 8
    let buf := (readA s.g b.toNat).toNat
    let recs := partBodies s core part
    let n := recs.foldl (fun n x => n + 16 + x.2.length) 0
    (s.l.ctx ≠ 0 → exec (.ctxSave d a b) s = .next (takeTrap s 2 s.g.pc.toNat (encS 0x39 0 d a b)) ∧
      exec (.ctxRest d a b) s = .next (takeTrap s 2 s.g.pc.toNat (encS 0x39 1 d a b))) ∧
    (s.l.ctx = 0 → isStopped s core part = false →
      ((∀ x, s.g.swait ≠ .saved x) → completes (.ctxSave d a b) s fun t => scalarResult s t d (partStatus s core part 1 0)) ∧
      (completes (.ctxRest d a b) s fun t => scalarResult s t d (partStatus s core part 1 0))) ∧
    (s.l.ctx = 0 → isStopped s core part = true → (∀ x, s.g.swait ≠ .saved x) → buf % 16 = 0 → n % 16 = 0 →
      (∀ k, k < n → paKind s (buf + k) ≠ .unmapped) →
      completes (.ctxSave d a b) s fun t => t.g.swait = .saved (partStatus s core part 0 n) ∧ t.g.a = s.g.a ∧ t.g.pc = s.g.pc ∧
        laneRegsKept s t ∧ bytesKept s t ∧
        ∃ es : List PEnt, t.path = s.path ++ es ∧ es.length = n / 8 ∧ ∀ k e, es[k]? = some e → e.op = .store ∧ e.owner = .group s.g.uid ∧
          e.lop = saveLop ∧ e.acc = { sp := .g, va := buf + 8 * k, loc := .mem (buf + 8 * k), n := 8 } ∧
          leBytes 8 e.x = ((recs.flatMap (fun x => dumpRec x.1 (stampNow s s.t.core) x.2)).drop (8 * k)).take 8) ∧
    (∀ x, s.l.ctx = 0 → s.g.swait = .saved x →
      ((∀ e ∈ s.path, ¬ (e.owner = .group s.g.uid ∧ e.lop = saveLop)) → completes (.ctxSave d a b) s fun t =>
        scalarResult { s with g := { s.g with swait := .go } } t d x) ∧
      ((∃ e ∈ s.path, e.owner = .group s.g.uid ∧ e.lop = saveLop) → exec (.ctxSave d a b) s = .next s)) ∧
    (∀ pas, s.l.ctx = 0 → isStopped s core part = true → buf % 16 = 0 → physRead s buf (n / 16) = .inr pas →
      exec (.ctxRest d a b) s = .next (askWin s (.group s.g.uid) true restName 0 buf pas)) ∧
    (∀ l data, s.l.ctx = 0 → isStopped s core part = true → buf % 16 = 0 → s.winVals = [] → physRead s buf (n / 16) = .inl data →
      n ≤ data.length → splitRecs recs data = some l →
      let v := match running s core with
        | some t => t.vregs
        | none => 0
      let gs := partGroups s core part
      restOk v gs recs l = true → completes (.ctxRest d a b) s fun t =>
        t = setA ((gs.zip l).foldl (fun s p => updG s p.1.uid (applyBody v p.2)) s) d (partStatus s core part 0 n)) ∧
    (∀ v l g, (applyBody v l g).pc = BitVec.ofNat 64 (at' l 8 8) ∧
      ∀ r, 0 < r → r < 64 → readA (applyBody v l g) r = BitVec.ofNat 64 (at' l (32 + 8 * r) 8))

/-- R104, R105, R139, R390 to R393, R407, R421, R442 to R449: the system, trace, counter and partition words. -/
def Obligations.ScalarSystemWords : Prop := Say.scalarSystemRegisters ∧ Say.scalarStopsAndRecords ∧ Say.scalarCountersAndLogs ∧ Say.scalarPartitionWords

/-! ### The lane stream: clauses and control (R33, R35, R46, R47, R70, R72, R173, R174) -/

/-- The executing fragment has gone on to the next word of its clause. -/
def Sys2Proof.Say.goesOn (s t : State) : Prop :=
  ∀ f, fget s.g.frs s.fi = some f → f.idx < f.len → fget t.g.frs s.fi = some { f with idx := f.idx + 1, blk := none }

/-- A fragment stands at no address where another part of its task joins it. -/
def Sys2Proof.Say.noJoin (s : State) (f : Frag) (pc : Word) : Prop := f.rcv ≠ some pc ∧ s.g.held = [] ∧ f.back = []

/-- R33, R35, R72: an idle lane stream takes the oldest queued task as one fragment of every thread at its address; a fragment
whose clause passes its check, with every waited flag clear, starts at the first instruction, with the flags its header names and
the words that the check fetched, which are those that execute; with a waited flag up it waits, and a bad word of the clause stops the
context before any word of it executes. Bytes that are no legal header are checked after the wait that they name too. -/
def Sys2Proof.Say.laneTasksAndClauses : Prop :=
  (∀ (s : State) (g : Nat) (a : Word) (q : List Word), (focus s g).g.task = none → (focus s g).g.taskq = a :: q →
    completes (.laneTaskStart g) s fun t => t.g.task = some a ∧ t.g.taskq = q ∧ t.g.held = [] ∧
      (∃ id, t.g.frs = [(0, { id := id, mask := BitVec.allOnes 64, pc := a, born := id })]) ∧
      laneRegsKept (focus s g) t ∧ t.g.a = (focus s g).g.a ∧ bytesKept (focus s g) t) ∧
  (∀ (s : State) (h : Header) (f : Frag), fget s.g.frs s.fi = some f → Say.noJoin s f f.pc →
    let n := h.len.toNat + 1
    ((∀ i, i < 12 → bit h.wait.toNat i = true → mget s.g.fl 0 i = 0) →
      (∀ code, checkWords s f.pc n 1 n = .ok code → (s.t.small = true ∨ s.g.nClause < 512) → completes (.clauseStart h) s fun t =>
        fget t.g.frs s.fi = some { f with idx := 1, len := n, flags := headerFlags h, code := code, blk := none } ∧
        t.g.nClause = s.g.nClause + 1 ∧ laneRegsKept s t ∧ t.g.a = s.g.a ∧ bytesKept s t) ∧
      (∀ i, checkWords s f.pc n 1 n = .illegal i →
        exec (.clauseStart h) s = .next (clauseFault s .illegal f.pc.toNat i))) ∧
    ((∃ i, i < 12 ∧ bit h.wait.toNat i = true ∧ mget s.g.fl 0 i ≠ 0) → ∃ t, exec (.clauseStart h) s = .next t ∧ onlyFrags s t ∧
      fget t.g.frs s.fi = some { f with blk := some 0 }) ∧
    (∀ x, (∀ i, i < 12 → bit (rawWait x) i = true → mget s.g.fl 0 i = 0) → badHeader s x = clauseFault s .illegal f.pc.toNat 0))

/-- R46, R47, R173: a branch taken by no thread falls through to the next clause, one taken by every thread goes to its target, and
one that divides its threads splits the fragment between its own entry and the lowest free one, both with the branch's
reconvergence address; with no free entry the threads not taken become a level of the held stack, and with that full too the
context stops. Registers, flags, channels and bytes stay. -/
def Sys2Proof.Say.laneBranch : Prop :=
  ∀ (s : State) (k : BitVec 4) (neg : Bool) (target join : BitVec 24) (f : Frag), fget s.g.frs s.fi = some f → f.idx = f.len →
    s.g.held = [] → f.back = [] →
    let taken := f.mask &&& (if neg then ~~~(readK s.g k.toNat) else readK s.g k.toNat)
    let tgt := BitVec.ofNat 64 (lcBase s.l + 4 * target.toNat)
    let follow := BitVec.ofNat 64 ((f.pc.toNat + 12 * (f.len + 1)) % 2 ^ 64)
    let rcv : Option Word := if join.toNat = 0xFFFFFF then none else some (BitVec.ofNat 64 (lcBase s.l + 4 * join.toNat))
    (taken = 0 → f.rcv ≠ some follow → completes (.bra k neg target join) s fun t => onlyFrags s t ∧
      fget t.g.frs s.fi = some { f with pc := follow, idx := 0, blk := none }) ∧
    (taken ≠ 0 → taken = f.mask → f.rcv ≠ some tgt → completes (.bra k neg target join) s fun t => onlyFrags s t ∧
      fget t.g.frs s.fi = some { f with pc := tgt, idx := 0, blk := none }) ∧
    (taken ≠ 0 → taken ≠ f.mask → rcv ≠ some tgt → rcv ≠ some follow →
      (∀ e, freeEntry s.g.frs = some e → completes (.bra k neg target join) s fun t => onlyFrags s t ∧
        (∃ x y, fget t.g.frs s.fi = some x ∧ fget t.g.frs e = some y ∧ x.mask = taken ∧ x.pc = tgt ∧ x.idx = 0 ∧ x.rcv = rcv ∧
          y.mask = f.mask &&& ~~~taken ∧ y.pc = follow ∧ y.idx = 0 ∧ y.rcv = rcv) ∧
        ∀ i, i ≠ s.fi → i ≠ e → fget t.g.frs i = fget s.g.frs i) ∧
      (freeEntry s.g.frs = none → f.rcv ≠ some tgt → completes (.bra k neg target join) s fun t => onlyFrags s t ∧
        fget t.g.frs s.fi = some { f with mask := taken, pc := tgt, idx := 0, blk := none } ∧
        t.g.held = [{ mask := f.mask &&& ~~~taken, pc := follow, rejoin := rcv }])) ∧
    (∀ u : State, fget u.g.frs u.fi = some f → freeEntry u.g.frs = none → 16 ≤ u.g.held.length →
      let taken := activeOf u k neg
      taken ≠ 0 → taken ≠ f.mask → exec (.bra k neg target join) u = .next (laneFault (unstall u) .divergenceOverflow 0))

/-- R27, R33, R70, R174: `lnop` goes on, to the next word or past its clause; `lend` of a fragment that holds every thread ends the
task, and one fragment of every thread remains; of one that does not it waits for the others. The guard of neither takes part. -/
def Sys2Proof.Say.laneEndAndNop : Prop :=
  ∀ (s : State) (k : BitVec 4) (neg : Bool) (f : Frag), fget s.g.frs s.fi = some f → s.g.held = [] → f.back = [] →
    let follow := BitVec.ofNat 64 ((f.pc.toNat + 12 * (f.len + 1)) % 2 ^ 64)
    (f.idx < f.len → completes (.lnop k neg) s fun t => onlyFrags s t ∧ Say.goesOn s t) ∧
    (f.len ≤ f.idx → f.rcv ≠ some follow → completes (.lnop k neg) s fun t => onlyFrags s t ∧
      fget t.g.frs s.fi = some { f with pc := follow, idx := 0, blk := none }) ∧
    (f.mask = BitVec.allOnes 64 → completes (.lend k neg) s fun t =>
      t.g.task = none ∧ (∃ id, t.g.frs = [(0, { id := id, mask := BitVec.allOnes 64, pc := f.pc, born := id })]) ∧ t.g.held = [] ∧
      t.g.taskq = s.g.taskq ∧ laneRegsKept s t ∧ t.g.a = s.g.a ∧ bytesKept s t) ∧
    (f.mask ≠ BitVec.allOnes 64 → s.g.frs = [(s.fi, f)] → completes (.lend k neg) s fun t => onlyFrags s t ∧
      fget t.g.frs s.fi = some { f with wait := .gather, blk := none })

/-- R33, R35, R70, R72, R73, R174: tasks, clauses, branches and the end of the lane stream. -/
def Obligations.LaneControl : Prop := Say.laneTasksAndClauses ∧ Say.laneBranch ∧ Say.laneEndAndNop

/-! ### Lane operands and results (R31, R38 to R41, R50, R63, R67, R111, R148) -/

/-- Operands of a word that pop channel c. -/
def Sys2Proof.Say.popN (w : LaneW) (c : Nat) : Nat :=
  ([w.a, w.b, w.c].filter (fun o => o.chan && o.pop && o.idx.toNat == c)).length

/-- What the source operands have popped, and `x` and `v` appended to channel d of a word whose destination is a channel. -/
def Sys2Proof.Say.channelsMoved (s t : State) (w : LaneW) (x : Word) (v : List VWord) : Prop :=
  (∀ c, wordQ t.g c = (if chanVec s.g c then wordQ s.g c else (wordQ s.g c).drop (Say.popN w c)) ++
    (if w.dchan = true ∧ c = w.d.toNat ∧ chanVec s.g c = false then [x] else [])) ∧
  (∀ c, vecQ t.g c = (if chanVec s.g c then (vecQ s.g c).drop (Say.popN w c) else vecQ s.g c) ++
    (if w.dchan = true ∧ c = w.d.toNat ∧ chanVec s.g c = true then [v] else []))

/-- The value that thread th of a word receives: its own, or in a uniform word that of the lowest active thread (R31). -/
def Sys2Proof.Say.valueFor (s : State) (w : LaneW) (val : Nat → Nat) (th : Nat) : Nat :=
  if w.uni then val ((lowest (active s w)).getD 0) else val th

/-- A register destination: each active thread of the executing fragment holds its value of type ty in register d, or in the pair
d, d + 1; every other register of every thread is as before. -/
def Sys2Proof.Say.registersGiven (s t : State) (w : LaneW) (ty : LType) (val : Nat → Nat) : Prop :=
  ∀ r th, th < 64 → readV t.g r th =
    if w.dchan = false ∧ (active s w).getLsbD th = true ∧ r = w.d.toNat then
      (if tyWide ty then BitVec.ofNat 32 (Say.valueFor s w val th) else regOf ty (Say.valueFor s w val th))
    else if w.dchan = false ∧ (active s w).getLsbD th = true ∧ tyWide ty = true ∧ r = w.d.toNat + 1 then
      BitVec.ofNat 32 (Say.valueFor s w val th / 2 ^ 32)
    else readV s.g r th

/-- A lane word is done with results `val` of type ty: registers or one channel entry, the channels it pops, the next word; nothing
else of the group or of the device differs but what reporting writes. -/
def Sys2Proof.Say.laneOut (s t : State) (w : LaneW) (ty : LType) (val : Nat → Nat) : Prop :=
  onlyResults s t ∧ t.g.k = s.g.k ∧ Say.goesOn s t ∧ Say.registersGiven s t w ty val ∧
  Say.channelsMoved s t w
    (match lowest (active s w) with
      | some th => BitVec.ofNat 64 (val th % 2 ^ tyWidth ty)
      | none => 0)
    ((iota 0 64).map (fun th => if (active s w).getLsbD th then regOf ty (Say.valueFor s w val th) else 0))

/-- The same for a predicate destination: only the bits of active threads of mask d differ; k0 stays. -/
def Sys2Proof.Say.laneOutK (s t : State) (w : LaneW) (b : Nat → Bool) : Prop :=
  onlyResults s t ∧ t.g.v = s.g.v ∧ Say.goesOn s t ∧ Say.channelsMoved s t { w with dchan := false } 0 [] ∧
  ∀ n th, th < 64 → (readK t.g n).getLsbD th =
    if n = w.d.toNat ∧ n ≠ 0 ∧ (active s w).getLsbD th = true then (if w.uni then b ((lowest (active s w)).getD 0) else b th)
    else (readK s.g n).getLsbD th

/-- R40, R50, R63, R67, R111: what an operand gives a thread: the low bits of a register, a pair with its low half in the even
register, the head entry of a word channel, the value for the thread in the head entry of a vector channel; a second pop of
one channel the entry after it, a peek the head; an immediate as its type reads it. -/
def Sys2Proof.Say.laneOperands : Prop :=
  ∀ (s : State) (ty : LType) (o : Opnd) (th : Nat),
    (o.chan = false → tyWide ty = false → opndVal s ty o 0 th = (readV s.g o.idx.toNat th).toNat % 2 ^ tyWidth ty) ∧
    (o.chan = false → tyWide ty = true →
      opndVal s ty o 0 th = (readV s.g o.idx.toNat th).toNat + 2 ^ 32 * (readV s.g (o.idx.toNat + 1) th).toNat) ∧
    (∀ x q, o.chan = true → o.idx.toNat < 8 → wordQ s.g o.idx.toNat = x :: q →
      opndVal s ty o 0 th = x.toNat % 2 ^ tyWidth ty ∧ opndVal s ty o 1 th = ((q.head?).getD 0).toNat % 2 ^ tyWidth ty) ∧
    (∀ v q, o.chan = true → 8 ≤ o.idx.toNat → o.idx.toNat < 12 → tyWide ty = false → vecQ s.g o.idx.toNat = v :: q →
      opndVal s ty o 0 th = ((v[th]?).getD 0).toNat % 2 ^ tyWidth ty) ∧
    (∀ w : LaneW, w.a.chan = true → w.a.pop = true → w.b.chan = true → w.b.idx = w.a.idx → w.imm = false →
      vB s ty w th = opndVal s ty w.b (if w.b.pop then 1 else 0) th) ∧
    (∀ x : BitVec 24, immVal .i32 x.toNat = (x.signExtend 32).toNat ∧ immVal .i64 x.toNat = (x.signExtend 64).toNat ∧
      immVal .n32 x.toNat = x.toNat ∧ immVal .n64 x.toNat = x.toNat ∧ immVal .f32 x.toNat = x.toNat * 256 ∧
      immVal .f64 x.toNat = x.toNat * 2 ^ 40 ∧ immVal .m8 x.toNat = (x.toNat % 256) * 0x01010101 ∧
      immVal .term x.toNat = (x.toNat / 2 ^ 20) * 2 ^ 60 + x.toNat % 2 ^ 20)

/-- int() of R151: the two's complement or unsigned value of the low bits. -/
def Sys2Proof.Say.intVal (ty : LType) (x : Nat) : Int :=
  if tySigned ty then (BitVec.ofNat (tyWidth ty) x).toInt else ((x % 2 ^ tyWidth ty : Nat) : Int)

/-- R151: an exact integer wrapped into a type, or with sat clamped to its range. -/
def Sys2Proof.Say.fit (sat : Bool) (ty : LType) (z : Int) : Nat :=
  let n := tyWidth ty
  let lo : Int := if tySigned ty then -(2 ^ (n - 1)) else 0
  let hi : Int := if tySigned ty then 2 ^ (n - 1) - 1 else 2 ^ n - 1
  ((if sat then max lo (min hi z) else z) % (2 ^ n)).toNat

/-- The integer rows of R151 to R159: what thread th receives. -/
def Sys2Proof.Say.integerRows : List ((LaneW → Instr) × (State → LaneW → Nat → Nat)) :=
  let a (s : State) (w : LaneW) (th : Nat) : Int := Say.intVal w.ty (vA s w.ty w th)
  let b (s : State) (w : LaneW) (th : Nat) : Int := Say.intVal w.ty (vB s w.ty w th)
  let c (s : State) (w : LaneW) (th : Nat) : Int := Say.intVal w.ty (vC s w.ty w th)
  let o (s : State) (w : LaneW) (th : Nat) : Int := Say.intVal w.ty (v1 s w.ty w th)
  [(.laneAdd, fun s w th => Say.fit w.sat w.ty (a s w th + b s w th)),
   (.laneSub, fun s w th => Say.fit w.sat w.ty (a s w th - b s w th)),
   (.laneMul, fun s w th => Say.fit w.sat w.ty (a s w th * b s w th)),
   (.mad, fun s w th => Say.fit w.sat w.ty (a s w th * b s w th + c s w th)),
   (.div, fun s w th => if b s w th = 0 then 2 ^ tyWidth w.ty - 1 else Say.fit w.sat w.ty ((a s w th).tdiv (b s w th))),
   (.rem, fun s w th => if b s w th = 0 then vA s w.ty w th % 2 ^ tyWidth w.ty else Say.fit false w.ty ((a s w th).tmod (b s w th))),
   (.abs, fun s w th => Say.fit w.sat w.ty (if o s w th < 0 then -(o s w th) else o s w th)),
   (.neg, fun s w th => Say.fit w.sat w.ty (-(o s w th))),
   (.laneMin, fun s w th => if a s w th < b s w th then vA s w.ty w th else vB s w.ty w th),
   (.laneMax, fun s w th => if a s w th < b s w th then vB s w.ty w th else vA s w.ty w th),
   (.laneAnd, fun s w th => (vA s w.ty w th &&& vB s w.ty w th) % 2 ^ tyWidth w.ty),
   (.laneOr, fun s w th => (vA s w.ty w th ||| vB s w.ty w th) % 2 ^ tyWidth w.ty),
   (.laneXor, fun s w th => (vA s w.ty w th ^^^ vB s w.ty w th) % 2 ^ tyWidth w.ty),
   (.not, fun s w th => (2 ^ tyWidth w.ty - 1 - v1 s w.ty w th) % 2 ^ tyWidth w.ty),
   (.laneShl, fun s w th => (vA s w.ty w th * 2 ^ (vB s w.ty w th % tyWidth w.ty)) % 2 ^ tyWidth w.ty),
   (.laneShr, fun s w th => Say.fit false w.ty (a s w th / 2 ^ (vB s w.ty w th % tyWidth w.ty))),
   (.rot, fun s w th => ((BitVec.ofNat (tyWidth w.ty) (vA s w.ty w th)).rotateLeft (vB s w.ty w th)).toNat)]

/-- R151 to R157: the integer lane words, of every integer type, with register, immediate or channel operands and a register or
channel destination. -/
def Sys2Proof.Say.laneIntegerResults : Prop :=
  ∀ p ∈ Say.integerRows, ∀ (s : State) (w : LaneW), tyInt w.ty = true → chansReady s w = .ok →
    completes (p.1 w) s fun t => Say.laneOut s t w w.ty (p.2 s w)

/-- A field of R158: its length, cut at the width of the type. -/
def Sys2Proof.Say.fieldOf (n ctl : Nat) : Nat × Nat :=
  (bits ctl 5 0, if n ≤ bits ctl 5 0 then 0 else min (bits ctl 14 8) (n - bits ctl 5 0))

/-- R158, R159, R161, R169, R170: fields, bit counts, selects, moves, generated and identity values. A select takes A where the mask in
C has the thread's bit; a move copies the bits of its source. -/
def Sys2Proof.Say.laneBitAndMoveResults : Prop :=
  ∀ (s : State) (w : LaneW), chansReady s w = .ok →
    let n := tyWidth w.ty
    let pl (th : Nat) : Nat × Nat := Say.fieldOf n (vB s w.ty w th)
    let fld (th : Nat) : Nat := vA s w.ty w th / 2 ^ (pl th).1 % 2 ^ (pl th).2
    (tyI4 w.ty = true →
      (completes (.bfx w) s fun t => Say.laneOut s t w w.ty fun th =>
        if tySigned w.ty then ((BitVec.ofNat (pl th).2 (fld th)).signExtend n).toNat else fld th) ∧
      (completes (.bfi w) s fun t => Say.laneOut s t w w.ty fun th =>
        let c := vC s w.ty w th
        let lo := 2 ^ (pl th).1
        let hi := 2 ^ ((pl th).1 + (pl th).2)
        if (pl th).2 = 0 then c else c / hi * hi + vA s w.ty w th % 2 ^ (pl th).2 * lo + c % lo) ∧
      (completes (.popc w) s fun t => Say.laneOut s t w w.ty fun th =>
        ((iota 0 n).filter (fun i => (v1 s w.ty w th).testBit i)).length) ∧
      (completes (.clz w) s fun t => Say.laneOut s t w w.ty fun th =>
        if v1 s w.ty w th = 0 then n else n - 1 - Nat.log2 (v1 s w.ty w th)) ∧
      (completes (.lid w) s fun t => Say.laneOut s t w w.ty fun th =>
        match w.x24.toNat with
        | 0 => th
        | 1 => th % 16
        | 2 => th / 16
        | _ => s.fi)) ∧
    (completes (.sel w) s fun t => Say.laneOut s t w w.ty fun th =>
      if (readK s.g w.c.idx.toNat).getLsbD th then vA s w.ty w th else vB s w.ty w th) ∧
    (completes (.mov w) s fun t => Say.laneOut s t w w.ty fun th => v1 s w.ty w th) ∧
    (w.ty = .n32 → completes (.rng w) s fun t => Say.laneOut s t w .n32 fun th =>
      rngMix (vA s .n32 w th) (readU s.g (bits w.x24.toNat 5 0)).toNat)

/-- R113, R128: the code of an exact result: none (an invalid operation) and every NaN give the canonical NaN. -/
def Sys2Proof.Say.rounded (s : State) (w : LaneW) (v : Option FVal) : Nat :=
  match v with
  | none => canonNaN (fmtOf w.ty)
  | some v => (froundV (fmtOf w.ty) (rndOf s.l w.rnd) (ftzOut s.l) v).code

/-- Operand values of a floating word after ftzin (R131). -/
def Sys2Proof.Say.fA (s : State) (w : LaneW) (th : Nat) : FVal := fread (ftzIn s.l) (fmtOf w.ty) (vA s w.ty w th)
def Sys2Proof.Say.fB (s : State) (w : LaneW) (th : Nat) : FVal := fread (ftzIn s.l) (fmtOf w.ty) (vB s w.ty w th)
def Sys2Proof.Say.fC (s : State) (w : LaneW) (th : Nat) : FVal := fread (ftzIn s.l) (fmtOf w.ty) (vC s w.ty w th)

/-- The exact quotient of R152: none where the operation is invalid. -/
def Sys2Proof.Say.quotient : FVal → FVal → Option FVal
  | .nan _, _ => some (.nan false)
  | _, .nan _ => some (.nan false)
  | .inf _, .inf _ => none
  | .inf a, .num s _ _ => some (.inf (a != s))
  | .num s _ _, .inf b => some (.num (s != b) 0 1)
  | .num s1 n1 d1, .num s2 n2 d2 =>
    if n2 = 0 then (if n1 = 0 then none else some (.inf (s1 != s2))) else some (.num (s1 != s2) (n1 * d2) (d1 * n2))

/-- R128, R131, R132, R151, R152, R154: floating add, sub, mul, mad and div of every floating type give the exact result rounded once
in the word's mode; abs and neg act on the sign bit alone, with the canonical NaN for a NaN; min and max give an operand, which `ftzout` does
not flush (log 13: R131 does not name them). -/
def Sys2Proof.Say.laneFloatResults : Prop :=
  ∀ (s : State) (w : LaneW), tyFloat w.ty = true → chansReady s w = .ok →
    let m := rndOf s.l w.rnd
    let f := fmtOf w.ty
    (completes (.laneAdd w) s fun t => Say.laneOut s t w w.ty fun th => Say.rounded s w (faddV m (Say.fA s w th) (Say.fB s w th))) ∧
    (completes (.laneSub w) s fun t => Say.laneOut s t w w.ty fun th =>
      Say.rounded s w (faddV m (Say.fA s w th) (fnegV (Say.fB s w th)))) ∧
    (completes (.laneMul w) s fun t => Say.laneOut s t w w.ty fun th => Say.rounded s w (fmulV (Say.fA s w th) (Say.fB s w th))) ∧
    (completes (.mad w) s fun t => Say.laneOut s t w w.ty fun th => Say.rounded s w
      (if isNaN (Say.fA s w th) || isNaN (Say.fB s w th) || isNaN (Say.fC s w th) then some (.nan false)
        else match fmulV (Say.fA s w th) (Say.fB s w th) with
          | none => none
          | some p => faddV m p (Say.fC s w th))) ∧
    (completes (.div w) s fun t => Say.laneOut s t w w.ty fun th => Say.rounded s w (Say.quotient (Say.fA s w th) (Say.fB s w th))) ∧
    (completes (.abs w) s fun t => Say.laneOut s t w w.ty fun th =>
      if isNaN (fval f (v1 s w.ty w th)) then canonNaN f else v1 s w.ty w th % 2 ^ (tyWidth w.ty - 1)) ∧
    (completes (.neg w) s fun t => Say.laneOut s t w w.ty fun th =>
      if isNaN (fval f (v1 s w.ty w th)) then canonNaN f
      else (v1 s w.ty w th + 2 ^ (tyWidth w.ty - 1)) % 2 ^ tyWidth w.ty) ∧
    (completes (.laneMin w) s fun t => Say.laneOut s t w w.ty fun th =>
      (fminmax f (ftzIn s.l) false (vA s w.ty w th) (vB s w.ty w th)).code) ∧
    (completes (.laneMax w) s fun t => Say.laneOut s t w w.ty fun th =>
      (fminmax f (ftzIn s.l) true (vA s w.ty w th) (vB s w.ty w th)).code)

/-- The decades of R116: first payload, number of payloads, value of the first and step, both in millionths. -/
def Sys2Proof.m8Decades : List (Nat × Nat × Nat × Nat) :=
  [(0x01, 1, 1, 0), (0x02, 2, 10, 45), (0x04, 4, 100, 225), (0x08, 8, 1000, 1125), (0x10, 16, 10000, 5625),
   (0x20, 32, 100000, 28125), (0x40, 32, 1000000, 281250), (0x60, 16, 10000000, 5625000),
   (0x70, 8, 100000000, 112500000), (0x78, 4, 1000000000, 2250000000), (0x7C, 2, 10000000000, 45000000000),
   (0x7E, 1, 100000000000, 0)]

/-- R115 to R117, R119: a payload of M8 has the value of its decade, under the sign of its code; 0x00 is zero and 0x80 the NaN; 0x7F and 0xFF read
as the codes below them, and no value rounds to either; a NaN and nothing else rounds to 0x80; the value of every other code rounds to that code. -/
def Obligations.M8ValuesAndRounding : Prop :=
  (∀ r ∈ m8Decades, ∀ i < r.2.1, ∀ neg : Bool, ∃ n d, m8Val (r.1 + i + if neg then 128 else 0) = .num neg n d ∧ 0 < d ∧
    n * 1000000 = d * (r.2.2.1 + i * r.2.2.2)) ∧
  m8Val 0 = .num false 0 1 ∧ (∃ q, m8Val 0x80 = .nan q) ∧ m8Val 0x7F = m8Val 0x7E ∧ m8Val 0xFF = m8Val 0xFE ∧
  (∀ v : FVal, roundM8 v < 256 ∧ roundM8 v ≠ 0x7F ∧ roundM8 v ≠ 0xFF ∧ (roundM8 v = 0x80 ↔ ∃ q, v = .nan q)) ∧
  (∀ c < 256, c ≠ 0x7F → c ≠ 0xFF → roundM8 (m8Val c) = c)

/-- R112, R128: the value of an encoding that is no NaN and no infinity rounds to that encoding in every mode, without overflow and
without underflow, in every floating format. -/
def Obligations.RoundingKeepsRepresentable : Prop :=
  ∀ f ∈ [fmt16, fmtB16, fmt32, fmt64], ∀ (m : Rnd) (x n d : Nat) (neg : Bool), x < 2 ^ fmtWidth f → fval f x = .num neg n d →
    roundNum f m false neg n d = { code := x, ovf := false, under := false }

/-! ### Predicate, cross-lane and converting words (R119, R123, R135, R150, R160 to R164, R166 to R168, R171, R172) -/

/-- A condition of R160 on equality and order: eq, ne, lt, le, gt, ge. -/
def Sys2Proof.Say.cond (cc : Nat) (eq lt : Prop) : Prop :=
  match cc with
  | 0 => eq
  | 1 => ¬eq
  | 2 => lt
  | 3 => lt ∨ eq
  | 4 => ¬lt ∧ ¬eq
  | _ => ¬lt

/-- R160, R171, R172: predicate results. Integers compare by value, floating operands by value with −0 equal to +0 and with every
condition but ne and the unordered one false on a NaN; `kop` combines predicate bits; `fcls` asks for the class of an encoding. -/
def Sys2Proof.Say.lanePredicateResults : Prop :=
  ∀ (s : State) (w : LaneW), chansReady s w = .ok →
    (tyFloat w.ty = false → w.c.idx.toNat < 6 → ∃ b : Nat → Bool, (completes (.setp w) s fun t => Say.laneOutK s t w b) ∧ ∀ th,
      b th = true ↔ Say.cond w.c.idx.toNat (vA s w.ty w th = vB s w.ty w th)
        (Say.intVal w.ty (vA s w.ty w th) < Say.intVal w.ty (vB s w.ty w th))) ∧
    (tyFloat w.ty = true → w.c.idx.toNat < 8 → ∃ b : Nat → Bool, (completes (.setp w) s fun t => Say.laneOutK s t w b) ∧ ∀ th,
      let nan := isNaN (Say.fA s w th) = true ∨ isNaN (Say.fB s w th) = true
      (nan → (b th = true ↔ w.c.idx.toNat = 1 ∨ w.c.idx.toNat = 6)) ∧
      (¬nan → (b th = true ↔ w.c.idx.toNat = 7 ∨ (w.c.idx.toNat < 6 ∧ Say.cond w.c.idx.toNat
        (fcmp (Say.fA s w th) (Say.fB s w th) = 0) (fcmp (Say.fA s w th) (Say.fB s w th) < 0))))) ∧
    (completes (.kop w) s fun t => Say.laneOutK s t w fun th =>
      let a := (readK s.g w.a.idx.toNat).getLsbD th
      let b := (readK s.g w.b.idx.toNat).getLsbD th
      match w.x24.toNat with
      | 0 => a && b
      | 1 => a || b
      | 2 => a != b
      | 3 => a && !b
      | 4 => !a
      | 5 => a
      | 6 => true
      | _ => false) ∧
    (completes (.fcls w) s fun t => Say.laneOutK s t w fun th =>
      let x := vA s w.ty w th
      let f := fmtOf w.ty
      w.x24.toNat.testBit (match fclass f x with
        | .infinity => if fsign f x then 0 else 7
        | .normal => if fsign f x then 1 else 6
        | .subnormal => if fsign f x then 2 else 5
        | .zero => if fsign f x then 3 else 4
        | .quiet => 8
        | .signalling => 9))

/-- R151 to R161, R169 to R172: integer, bit, move and predicate words of the lane stream. -/
def Obligations.LaneIntegerAndPredicateResults : Prop := Say.laneIntegerResults ∧ Say.laneBitAndMoveResults ∧ Say.lanePredicateResults

/-- The executing fragment is no half of a hit and miss split (R48, R150). -/
def Sys2Proof.Say.noSibling (s : State) : Prop := ∀ h r, (curF s).lin = h :: r → h.hm = false

/-- Combination of 2^n contributions in the log-step order of R135: at each step entry i with entry i + half; a missing contribution
leaves the other one as it is. -/
def Sys2Proof.Say.logStep (f : Nat → Nat → Nat) : Nat → List (Option Nat) → Option Nat
  | 0, l => l.headD none
  | n + 1, l => Say.logStep f n (List.zipWith (fun a b => match a, b with
    | some x, some y => some (f x y)
    | none, y => y
    | x, none => x) (l.take (2 ^ n)) (l.drop (2 ^ n)))

/-- The combination of an operation code of `rdc` (R167). -/
def Sys2Proof.Say.rdcRow (s : State) (w : LaneW) (x y : Nat) : Nat :=
  let less := Say.intVal w.ty x < Say.intVal w.ty y
  match w.x24.toNat with
  | 0 => if tyFloat w.ty then Say.rounded s w (faddV (rndOf s.l w.rnd) (fread (ftzIn s.l) (fmtOf w.ty) x) (fread (ftzIn s.l) (fmtOf w.ty) y))
    else Say.fit w.sat w.ty (Say.intVal w.ty x + Say.intVal w.ty y)
  | 1 => if tyFloat w.ty then (fminmax (fmtOf w.ty) (ftzIn s.l) false x y).code else if less then x else y
  | 2 => if tyFloat w.ty then (fminmax (fmtOf w.ty) (ftzIn s.l) true x y).code else if less then y else x
  | 3 => x &&& y
  | 4 => x ||| y
  | _ => x ^^^ y

/-- The cross-lane words that R150 makes wait for a sibling. -/
def Sys2Proof.Say.crossWords : List (LaneW → Instr) := [.xmv, .rdc, .ballot, .qnt]

/-- R135, R150, R163, R166 to R168: cross-lane words of a fragment without a sibling. `xmv` takes the value of another thread of the
fragment, or its own where that thread is none; `rdc` gives every thread the combination over the active ones in log-step order;
`ballot` the mask of active threads whose bit is set; `qnt` the codes of each block and its scale. A half of a hit and miss split
waits for the other half. That `xmv.idx` reads its source B at the width of the word's type is the model's reading (log 11), that a minimum
or maximum of floats is not flushed its choice (log 13). -/
def Obligations.LaneCrossLane : Prop :=
  (∀ (s : State) (w : LaneW), chansReady s w = .ok → Say.noSibling s →
    let m := if w.x24.toNat.testBit 7 then 64 / 2 ^ (w.x24.toNat % 8) else w.x24.toNat % 128
    let other (th : Nat) : Option Nat := match w.c.idx.toNat with
      | 0 => some (th ^^^ m)
      | 1 => if m ≤ th then some (th - m) else none
      | 2 => some (th + m)
      | _ => some (vB s w.ty w th % 2 ^ 32)
    (completes (.xmv w) s fun t => Say.laneOut s t w w.ty fun th => vA s w.ty w (match other th with
      | some u => if u < 64 ∧ (curF s).mask.getLsbD u = true then u else th
      | none => th)) ∧
    (completes (.rdc w) s fun t => Say.laneOut s t w w.ty fun _ =>
      (Say.logStep (Say.rdcRow s w) 6 ((iota 0 64).map (fun th => if (active s w).getLsbD th then some (vA s w.ty w th) else none))).getD 0) ∧
    (completes (.ballot w) s fun t => Say.laneOut s t w w.ty fun _ => (active s w &&& readK s.g w.a.idx.toNat).toNat) ∧
    (1 ≤ w.x24.toNat → w.x24.toNat ≤ 3 → completes (.qnt w) s fun t =>
      let n := 8 * 2 ^ w.x24.toNat
      let block (th : Nat) : List Nat := (threads (active s w)).filter (fun u => u / n == th / n)
      let q (th : Nat) := quantiseBlock ((block th).map (Say.fA s w))
      onlyResults s t ∧ t.g.k = s.g.k ∧ Say.goesOn s t ∧ Say.channelsMoved s t { w with dchan := false } 0 [] ∧
      ∀ r th, th < 64 → readV t.g r th =
        if (active s w).getLsbD th = true ∧ r = w.d.toNat then
          BitVec.ofNat 32 (((((block th).zip (q th).1).find? (fun p => p.1 == th)).map (·.2)).getD 0)
        else if (active s w).getLsbD th = true ∧ r = w.d.toNat + 1 then BitVec.ofNat 32 (q th).2.1
        else readV s.g r th)) ∧
  (∀ i ∈ Say.crossWords, ∀ (s : State) (w : LaneW) (f : Frag) (h : Split) (r : List Split), fget s.g.frs s.fi = some f →
    f.lin = h :: r → h.hm = true → (∀ p ∈ s.g.frs, p.1 ≠ s.fi → p.2.wait ≠ .cross) →
    ∃ t, exec (i w) s = .next t ∧ onlyFrags s t ∧ fget t.g.frs s.fi = some { f with wait := .cross })

/-- R119, R120, R128, R162, R164: conversions between integer, floating and M8 types, and `dqnt`. An integer result of a float is the
float rounded to an integer in the word's mode and clamped, 0 for a NaN; with sat a finite float that overflows its target gives
the largest finite number. -/
def Sys2Proof.Say.laneConversions : Prop :=
  ∀ (s : State) (w : LaneW) (src : LType), chansReady s w = .ok → tyOfCode w.x24.toNat = some src → w.x24.toNat < 12 →
    let x (th : Nat) : Nat := opndVal s src w.a 0 th
    let val (th : Nat) : FVal := if src = .m8 then m8Val (x th % 256) else if tyFloat src then fread (ftzIn s.l) (fmtOf src) (x th)
      else .num (decide (Say.intVal src (x th) < 0)) (Say.intVal src (x th)).natAbs 1
    (tyInt w.ty = true → tyInt src = true → completes (.cvt w) s fun t => Say.laneOut s t w w.ty fun th =>
      Say.fit w.sat w.ty (Say.intVal src (x th))) ∧
    (tyInt w.ty = true → tyInt src = false → completes (.cvt w) s fun t => Say.laneOut s t w w.ty fun th =>
      match val th with
      | .nan _ => 0
      | .inf neg => Say.fit true w.ty (if neg then -(2 ^ 64) else 2 ^ 64)
      | .num neg n d => Say.fit true w.ty (fToInt (rndOf s.l w.rnd) neg n d)) ∧
    (w.ty = .m8 → completes (.cvt w) s fun t => Say.laneOut s t w .m8 fun th => roundM8 (val th)) ∧
    (tyFloat w.ty = true → completes (.cvt w) s fun t => Say.laneOut s t w w.ty fun th =>
      match val th with
      | .num neg n d =>
        if w.sat = true ∧ (roundNum (fmtOf w.ty) (rndOf s.l w.rnd) (ftzOut s.l) neg n d).ovf = true then maxBits (fmtOf w.ty) neg
        else Say.rounded s w (some (.num neg n d))
      | v => Say.rounded s w (some v)) ∧
    (tyFloat w.ty = true → w.x24.toNat < 4 → completes (.dqnt w) s fun t => Say.laneOut s t w w.ty fun th =>
      Say.rounded s w (some (m8Elem (opndVal s .n32 w.a 0 th / 2 ^ (8 * w.x24.toNat) % 256) (opndVal s .n32 w.b (skipB w) th % 65536))))

/-- R119, R120, R128, R131, R132, R151 to R154, R162, R164: floating arithmetic and conversions. That a minimum or maximum is not flushed
is the model's choice (log 13). -/
def Obligations.LaneFloatAndConversionResults : Prop := Say.laneFloatResults ∧ Say.laneConversions

/-! ### Waits for channels (R39, R42, R239) -/

/-- The lane words that execute once their channels are ready. -/
def Sys2Proof.Say.channelWords : List (LaneW → Instr) :=
  [.laneAdd, .laneSub, .laneMul, .mad, .div, .rem, .abs, .neg, .laneMin, .laneMax, .laneAnd, .laneOr, .laneXor, .not, .laneShl, .laneShr,
   .rot, .bfx, .bfi, .popc, .clz, .setp, .sel, .mov, .cvt, .dqnt, .frsq, .frcp, .xln, .fexp, .rng, .lid, .kop, .fcls]

/-- R39, R40, R42, R239: a word of the lane stream with an empty source channel, or a full destination channel (16 entries of a word
channel, 4 of a vector channel), waits with nothing changed; with a channel of c12 to c15 that is not bound, or bound the other
way, it stops the context. -/
def Sys2Proof.Say.laneChannelWaits : Prop :=
  ∀ i ∈ Say.channelWords, ∀ (s : State) (w : LaneW) (f : Frag), fget s.g.frs s.fi = some f → w.b.chan = false → w.c.chan = false →
    (w.a.chan = true → w.a.idx.toNat < 12 → w.dchan = false →
      (if w.a.idx.toNat < 8 then wordQ s.g w.a.idx.toNat = [] else vecQ s.g w.a.idx.toNat = []) →
      ∃ t, exec (i w) s = .next t ∧ onlyFrags s t ∧ fget t.g.frs s.fi = some { f with blk := some 2 }) ∧
    (w.a.chan = false → w.dchan = true → w.d.toNat < 12 →
      (if w.d.toNat < 8 then 16 ≤ (wordQ s.g w.d.toNat).length else 4 ≤ (vecQ s.g w.d.toNat).length) →
      ∃ t, exec (i w) s = .next t ∧ onlyFrags s t ∧ fget t.g.frs s.fi = some { f with blk := some 2 }) ∧
    (w.a.chan = true → 12 ≤ w.a.idx.toNat → bindOf s.g w.a.idx.toNat = none → exec (i w) s = .next (laneFault s .unboundChannel 0)) ∧
    (∀ b, w.a.chan = true → 12 ≤ w.a.idx.toNat → bindOf s.g w.a.idx.toNat = some b → b.kind = 0 ∨ b.kind = 3 →
      exec (i w) s = .next (laneFault s .channelDirection 0)) ∧
    (∀ b, w.a.chan = false → w.dchan = true → 12 ≤ w.d.toNat → bindOf s.g w.d.toNat = some b → b.kind = 1 ∨ b.kind = 2 →
      exec (i w) s = .next (laneFault s .channelDirection 0))

/-- R39, R40, R42, R50, R63, R67, R111, R239: the operands of a lane word, and the waits on its channels. -/
def Obligations.LaneOperandsAndChannels : Prop := Say.laneOperands ∧ Say.laneChannelWaits

/-! ### Long-latency operations (R36, R37) -/

/-- A group without what a word that starts a long-latency operation may change: its operations and completion flags, the
copy that a replay session compares with (R403), and what a word that writes results may change. -/
def Sys2Proof.Say.noOps (g : Group) : Group := { noResults g with ops := [], fl := [], rpl := [], rplNo := 0 }

/-- Operation `o` has started for the executing fragment: it stands last among the operations of the group, and each flag that the
clause header names has risen by one (R36). No vector or predicate register has changed. -/
def Sys2Proof.Say.begun (s t : State) (o : LOp) : Prop :=
  t.g.ops = s.g.ops ++ [o] ∧ o.entry = s.fi ∧ o.hdr = (curF s).pc ∧ o.flags = (curF s).flags ∧ o.fid = (curF s).id ∧
  (∀ i, mget t.g.fl 0 i = mget s.g.fl 0 i + (o.flags.filter (fun j => j == i)).length) ∧
  t.g.v = s.g.v ∧ t.g.k = s.g.k ∧ Say.noOps t.g = Say.noOps s.g

/-- Operation `o` of group `u` has ended: it is gone, its held register results have landed, each of its flags has fallen by one. -/
def Sys2Proof.Say.ended (s t : State) (u : Nat) (o : LOp) : Prop :=
  ∃ x y, getG s u = some x ∧ getG t u = some y ∧ (∀ p ∈ y.ops, p.id ≠ o.id) ∧
  (∀ i, mget y.fl 0 i = mget x.fl 0 i - (o.flags.filter (fun j => j == i)).length) ∧
  ∀ r th, th < 64 → readV y r th = ((o.res.reverse.find? (fun p => p.1 == r * 64 + th)).map (·.2)).getD (readV x r th)

/-- R36, R37, R133, R165: a special function takes its operand at issue, makes its destination pending and raises its flags; the move that
completes it writes each active thread's seed and lowers the flags. -/
def Obligations.LaneSpecialFunctions : Prop :=
  (∀ p ∈ ([(.frsq, frsqR), (.frcp, frcpR), (.xln, xlnR), (.fexp, fexpR)] : List ((LaneW → Instr) × (Fmt → Bool → Bool → Nat → Res))),
    ∀ (s : State) (w : LaneW), chansReady s w = .ok → active s w ≠ 0 → completes (p.1 w) s fun t =>
      let x (th : Nat) : Nat := Say.valueFor s w (fun u => (p.2 (fmtOf w.ty) (ftzIn s.l) (ftzOut s.l) (v1 s w.ty w u)).code) th
      let d := w.d.toNat
      sameButGroup s t ∧ Say.goesOn s t ∧ Say.channelsMoved s t { w with dchan := false } 0 [] ∧
      ∃ o, Say.begun s t o ∧ o.kind = .special ∧ o.act = active s w ∧ o.left = 1 ∧ o.parts = [] ∧
        o.pend = (if tyWide w.ty then [d, d + 1] else [d]) ∧
        o.res = (threads (active s w)).flatMap (fun th => if tyWide w.ty
          then [(d * 64 + th, BitVec.ofNat 32 (x th)), ((d + 1) * 64 + th, BitVec.ofNat 32 (x th / 2 ^ 32))]
          else [(d * 64 + th, regOf w.ty (x th))])) ∧
  (∀ (s : State) (g op : Nat) (x : Group) (o : LOp), g ≠ 0 → getG s g = some x → getOp x op = some o → o.kind = .special → o.left = 1 →
    o.parts = [] → completes (.specialFunctionComplete g op) s fun t => Say.ended s t g o ∧ bytesKept s t)

/-! ### The matrix unit (R175 to R195) -/

/-- A state without the matrix queue and tile stamps of the issuing team. -/
def Sys2Proof.Say.noQueue (s : State) : State := { s with g := {}, t := { s.t with mq := [], stamps := [] } }

/-- The entry that a matrix word puts into the queue of its team, before the fields that its kind adds (R180). -/
def Sys2Proof.Say.matrixEntry (s : State) (w : LaneW) : MEnt :=
  { id := s.nid + 1, kind := .tclr, group := s.g.uid, gidx := s.g.idx, vec := s.g.car, op := s.nid, hdr := (curF s).pc, entry := s.fi, act := active s w,
    ty := w.ty, d := w.d.toNat, a := w.a.idx.toNat, b := w.b.idx.toNat, c := w.c.idx.toNat, uni := w.uni }

/-- A matrix word has put entry `e` at the end of its team's queue: a long-latency operation has started that the entry names, the
fragment goes on, and no tile, accumulator, shape, register, channel or byte differs. -/
def Sys2Proof.Say.enqueued (s t : State) (e : MEnt) : Prop :=
  t.t.mq = s.t.mq ++ [e] ∧ (∃ o, Say.begun s t o ∧ o.kind = .matrix ∧ o.id = e.op ∧ o.left = 1 ∧ o.act = e.act) ∧
  onlyReports (Say.noQueue s) (Say.noQueue t) ∧ t.g.ch = s.g.ch ∧ t.g.chv = s.g.chv ∧ Say.goesOn s t ∧ bytesKept s t

/-- The eleven matrix words. -/
def Sys2Proof.Say.matrixWords : List (LaneW → Instr) :=
  [.mxl, .mxb, .mxs, .tld, .tst, .tclr, .tmov, .zrd, .zclr, .zld, .zst]

/-- R179, R180, R193 to R195: a matrix word with room in the queue captures its operands and is queued; a move takes the address register
that X24 [5:0] names and the stride of X24 [21:6]. With 16 entries queued it waits; with no active thread it does nothing. -/
def Sys2Proof.Say.matrixWordsQueue : Prop :=
  (∀ (s : State) (w : LaneW), Say.noSibling s → active s w ≠ 0 → s.t.mq.length < 16 →
    let e := Say.matrixEntry s w
    let x := (readU s.g (w.x24.toNat % 64)).toNat
    let stride := w.x24.toNat / 64 % 65536
    let aligned (n : Nat) : Prop := x / 2 ^ 60 = 0 ∧ bits x 59 57 ≤ 3 ∧ (addrOf x).2 % n = 0 ∧ stride % n = 0
    (completes (.tclr w) s fun t => Say.enqueued s t { e with kind := .tclr }) ∧
    (completes (.tmov w) s fun t => Say.enqueued s t { e with kind := .tmov }) ∧
    (completes (.zclr w) s fun t => Say.enqueued s t { e with kind := .zclr }) ∧
    (completes (.zrd w) s fun t => Say.enqueued s t
      { e with kind := .zrd (w.x24.toNat.testBit 16) (w.x24.toNat % 256) (w.x24.toNat / 256 % 256) }) ∧
    (aligned (shSize (shapeGet s.t e.d)) → completes (.tld w) s fun t => Say.enqueued s t
      { e with kind := .tld, desc := [x], stride := stride, shA := shapeGet s.t e.d }) ∧
    (aligned (shSize (shapeGet s.t e.a)) → completes (.tst w) s fun t => Say.enqueued s t
      { e with kind := .tst, desc := [x], stride := stride, shA := shapeGet s.t e.a }) ∧
    (aligned 8 → completes (.zld w) s fun t => Say.enqueued s t { e with kind := .zld, desc := [x], stride := stride }) ∧
    (aligned 8 → completes (.zst w) s fun t => Say.enqueued s t { e with kind := .zst, desc := [x], stride := stride }) ∧
    (∀ e', loopPlan w false false s e = .ent e' → completes (.mxl w) s fun t => Say.enqueued s t e') ∧
    (∀ e', loopPlan w false true s e = .ent e' → completes (.mxb w) s fun t => Say.enqueued s t e') ∧
    (∀ e', loopPlan w true false s e = .ent e' → completes (.mxs w) s fun t => Say.enqueued s t e') ∧
    (x / 2 ^ 60 ≠ 0 → ∀ i ∈ ([.tld, .tst, .zld, .zst] : List (LaneW → Instr)),
      exec (i w) s = .next (laneFault s .matrixDescriptor 0))) ∧
  (∀ i ∈ Say.matrixWords, ∀ (s : State) (w : LaneW), Say.noSibling s → active s w = 0 → ∃ t, exec (i w) s = .next t ∧ onlyFrags s t) ∧
  (∀ i ∈ ([.tclr, .tmov, .zclr, .zrd] : List (LaneW → Instr)), ∀ (s : State) (w : LaneW) (f : Frag), fget s.g.frs s.fi = some f →
    Say.noSibling s → active s w ≠ 0 → 16 ≤ s.t.mq.length →
    ∃ t, exec (i w) s = .next t ∧ onlyFrags s t ∧ fget t.g.frs s.fi = some { f with blk := some 3 })

/-- R122, R187: the checks of a loop. A format block of another code than 4 to 8, and shapes that do not fit, are refused, each with its
cause (that the format block is named before the shapes and these before the descriptors is the model's choice: log 40); a plan that passes has captured the shapes of A and B, the descriptor words and both format blocks. -/
def Sys2Proof.Say.matrixLoopChecks : Prop :=
  ∀ (s : State) (w : LaneW) (sparse blocks : Bool) (e : MEnt),
    let u (i : Nat) : Nat := (readU s.g i).toNat
    let fA := u (w.x24.toNat / 64 % 64)
    let fB := u (w.x24.toNat / 4096 % 64)
    let shA := shapeGet s.t e.a
    let shB := shapeGet s.t e.b
    let fits : Prop := fmtBlockOk s fA = true ∧ fmtBlockOk s fB = true ∧ fA % 16 = fB % 16 ∧ fA % 16 = shFmt shA ∧ fA % 16 = shFmt shB ∧
      (w.ty = .f64 ↔ fA % 16 = 5)
    (fA % 16 < 4 ∨ 8 < fA % 16 → loopPlan w sparse blocks s e = .fault .formatBlock 0) ∧
    (fits → sparse = false → shRows shB ≠ shCols shA → loopPlan w sparse blocks s e = .fault .tileShape 0) ∧
    (fits → blocks = true → shRows shA % 16 ≠ 0 → loopPlan w sparse blocks s e = .fault .tileShape 0) ∧
    (∀ e', loopPlan w sparse blocks s e = .ent e' →
      e' = { e with kind := .loop sparse blocks (w.x24.toNat.testBit 18) (w.x24.toNat.testBit 19), shA := shA, shB := shB, fA := fA, fB := fB,
                    desc := (iota (w.x24.toNat % 64) (if sparse then 6 else 4)).map u } ∧
      fits ∧ (sparse = false → shRows shB = shCols shA) ∧ (blocks = true → shRows shA % 16 = 0 ∧ shCols shB % 16 = 0) ∧
      (w.ty = .f64 → shCols shB ≤ 64))

/-- R122, R179, R180, R187, R193 to R195: matrix words enter their queue, and loops are checked. -/
def Obligations.MatrixIssueAndChecks : Prop := Say.matrixWordsQueue ∧ Say.matrixLoopChecks

/-- Byte `off` of tile i, of accumulator i (R176, R178). -/
def Sys2Proof.Say.tileByte (t : Team) (i off : Nat) : Byte := mget t.tiles 0 (i * 16384 + off)
def Sys2Proof.Say.accByte (t : Team) (i off : Nat) : Byte := mget t.accs 0 (i * 65536 + off)

/-- Entry `e` of team `u` has finished its last step; what it did is `P` of the team before and after. -/
def Sys2Proof.Say.stepped (s t : State) (u : Nat) (e : MEnt) (P : Team → Team → Prop) : Prop :=
  ∃ x y, getT s u = some x ∧ getT t u = some y ∧ (∃ e' ∈ y.mq, e'.id = e.id ∧ e'.fin = true) ∧ P x y ∧ bytesKept s t

/-- R181, R184, R188, R194, R195: a step of the entry at the head of a queue: `tclr` and `zclr` write zeros, `tmov` copies a tile, `zrd`
reads the row or column for its operation, a loop of no steps ends; a step that may not be made changes nothing. -/
def Sys2Proof.Say.matrixSteps : Prop :=
  ∀ (s : State) (u : Nat) (x : Team) (e : MEnt) (q : List MEnt), u ≠ 0 → getT s u = some x → x.mq = e :: q →
    mwf (fun _ => (0 : Byte)) x.tiles = true → mwf (fun _ => (0 : Byte)) x.accs = true →
    (e.fin = true ∨ x.slot ≠ .running ∨ ctxState s (launchOfT s x).ctx ≠ 1 → exec (.matrixStep u 0) s = .next s) ∧
    (e.fin = false → x.slot = .running → ctxState s (launchOfT s x).ctx = 1 → heldBack s e.id = false →
      (e.kind = .tclr → completes (.matrixStep u 0) s fun t => Say.stepped s t u e fun x y =>
        y.accs = x.accs ∧ ∀ i off, off < 16384 → Say.tileByte y i off = if i = e.d then 0 else Say.tileByte x i off) ∧
      (e.kind = .zclr → completes (.matrixStep u 0) s fun t => Say.stepped s t u e fun x y =>
        y.tiles = x.tiles ∧ ∀ i off, off < 65536 → Say.accByte y i off = if i = e.d then 0 else Say.accByte x i off) ∧
      (e.kind = .tmov → x.pzT = [] → completes (.matrixStep u 0) s fun t => Say.stepped s t u e fun x y =>
        y.accs = x.accs ∧ ∀ i off, off < 16384 → Say.tileByte y i off = if i = e.d then Say.tileByte x e.a off else Say.tileByte x i off) ∧
      (∀ sparse blocks stamped, e.kind = .loop sparse blocks false stamped → stepsOf e = 0 →
        completes (.matrixStep u 0) s fun t => Say.stepped s t u e fun x y => y.tiles = x.tiles ∧ y.accs = x.accs) ∧
      (∀ col i b g o, e.kind = .zrd col i b → x.pzZ = [] → e.group ≠ 0 → e.uni = false → getG s e.group = some g → getOp g e.op = some o →
        completes (.matrixStep u 0) s fun t => Say.stepped s t u e (fun x y => y.tiles = x.tiles ∧ y.accs = x.accs) ∧
          ∃ g' o', getG t e.group = some g' ∧ getOp g' e.op = some o' ∧ ∀ th, e.act.getLsbD th = true →
            let m := if col then b + th else i
            let n := if col then i else b + th
            let z := if m < 128 ∧ n < viewCols e.ty then leNat (accGet x e.a (viewOff e.ty m n) (viewSize e.ty)) else 0
            (e.d * 64 + th, BitVec.ofNat 32 z) ∈ o'.res ∧
            (e.ty = .f64 → ((e.d + 1) * 64 + th, BitVec.ofNat 32 (z / 2 ^ 32)) ∈ o'.res)))

/-- R176, R188: the loads of a step leave A in its tile by row and B in its own, element (k, n) of it being the k-th of column n; where both
name one tile it is B that stands there. -/
def Sys2Proof.Say.panelsPlaced : Prop :=
  ∀ (t : Team) (e : MEnt) (a b c : List Nat), mwf (fun _ => (0 : Byte)) t.tiles = true → e.a < 16 → e.b < 16 →
    let z := shSize e.shA
    let p := putPanels t e false a b c
    0 < z → a.length = loopM e * shCols e.shA → b.length = loopN e * loopK e → z * a.length ≤ 16384 → z * b.length ≤ 16384 →
    (∀ k n, k < loopK e → n < loopN e → tileElem p e.b (loopN e) z k n = ((b[n * loopK e + k]?).getD 0) % 256 ^ z) ∧
    (e.a ≠ e.b → ∀ m k, m < loopM e → k < shCols e.shA →
      tileElem p e.a (shCols e.shA) z m k = ((a[m * shCols e.shA + k]?).getD 0) % 256 ^ z)

/-- R134, R181, R188, R190: a step of a loop, once the panels of A and B (and of metadata and scales) have been read as `ls` and stand in their tiles,
adds to each element of the accumulator that the loop names its row of A times its column of B, both read from the tiles: one exact
product and one rounding for each k, in ascending order; `.zero` starts from zero on the first step. The row of A of a sparse loop is
expanded by its metadata (R191). Elements outside the blocks of `mxb` and every other accumulator keep their bytes, and the entry goes on to
its next step. -/
def Sys2Proof.Say.loopStep : Prop :=
  ∀ (s : State) (u : Nat) (x : Team) (e : MEnt) (q : List MEnt) (sparse blocks zero : Bool) (v : State) (ls : List (List Nat)),
    let first : Bool := zero && e.step == 0
    let s0 : State := if first then updT s u (fun t => loopZero t e blocks) else s
    u ≠ 0 → getT s u = some x → x.mq = e :: q → mwf (fun _ => (0 : Byte)) x.accs = true → x.pzZ = [] → e.fin = false → x.slot = .running →
    ctxState s (launchOfT s x).ctx = 1 → heldBack s e.id = false → e.kind = .loop sparse blocks zero false → x.stamps = [] →
    (∀ y ∈ q, y.id ≠ e.id) → stepsOf e ≠ 0 → e.d < 4 → loopN e ≤ viewCols e.ty → loopM e ≤ 128 →
    mPanels s0 ((getT s0 u).getD x) e (loopLoads e sparse e.step) [] = .inr (v, ls) →
    completes (.matrixStep u 0) s fun t => ∃ y, getT t u = some y ∧
      (∃ e' ∈ y.mq, e'.id = e.id ∧ e'.step = e.step + 1 ∧ e'.fin = decide (e.step + 1 = stepsOf e)) ∧
      let g (j : Nat) : List Nat := (ls[j]?).getD []
      let l := launchOfT v ((getT v u).getD x)
      let p := putPanels ((getT v u).getD x) e sparse (g 0) (g 1) (g 2)
      let z := shSize e.shA
      let stored := (iota 0 (loopM e)).flatMap (fun m => (iota 0 (shCols e.shA)).map (fun k => tileElem p e.a (shCols e.shA) z m k))
      let tags := (iota 0 (loopM e * (loopK e / 8))).map (fun j => tileElem p e.c 1 1 j 0)
      let codes := if sparse then (List.zip (chunks (loopK e / 2) (loopM e) stored) (chunks (loopK e / 8) (loopM e) tags)).flatMap
        (fun r => expandRow r.1 r.2) else stored
      let rows := chunks (loopK e) (loopM e)
        (scaledVals l e.fA (e.step * loopM e * loopK e) (blocksOf e.fA (e.step * loopM e * loopK e) (loopM e * loopK e)) (g 3) codes)
      let cols := chunks (loopK e) (loopN e)
        (scaledVals l e.fB (e.step * loopN e * loopK e) (blocksOf e.fB (e.step * loopN e * loopK e) (loopN e * loopK e)) (g 4)
          ((iota 0 (loopN e)).flatMap (fun n => (iota 0 (loopK e)).map (fun k => tileElem p e.b (loopN e) z k n))))
      let size := viewSize e.ty
      (∀ m n, m < loopM e → n < loopN e → inProduct blocks (loopM e) (loopN e) m n = true →
        leNat (accGet y e.d (viewOff e.ty m n) size) =
          (dotAcc l (if e.ty = .f64 then fmt64 else fmt32) (if first then 0 else leNat (accGet x e.d (viewOff e.ty m n) size))
            ((rows[m]?).getD []) ((cols[n]?).getD [])).1 % 2 ^ (8 * size)) ∧
      (∀ m n, m < loopM e → n < loopN e → inProduct blocks (loopM e) (loopN e) m n = false →
        accGet y e.d (viewOff e.ty m n) size = accGet x e.d (viewOff e.ty m n) size) ∧
      (∀ i off, off < 65536 → i ≠ e.d → Say.accByte y i off = Say.accByte x i off)

/-- R191: of each four elements of an expanded row, those that its metadata byte names are the two stored ones, the second of them where it
names one element twice, and the others are zero. -/
def Sys2Proof.Say.sparseRows : Prop :=
  ∀ (row tags : List Nat) (g i : Nat), g < row.length / 2 → i < 4 →
    let b := (tags[g / 2]?).getD 0
    let i0 := b / 16 ^ (g % 2) % 4
    let i1 := b / 16 ^ (g % 2) / 4 % 4
    (expandRow row tags)[4 * g + i]? = some (if i = i1 then (row[2 * g + 1]?).getD 0 else if i = i0 then (row[2 * g]?).getD 0 else 0)

/-- R134, R176, R181, R188, R190, R191: the panels of a loop's step and its products. -/
def Obligations.MatrixProducts : Prop := Say.panelsPlaced ∧ Say.sparseRows ∧ Say.loopStep

/-- Entry `e` has made one row of `rows`. -/
def Sys2Proof.Say.rowMade (y : Team) (e : MEnt) (rows : Nat) : Prop :=
  ∃ e' ∈ y.mq, e'.id = e.id ∧ e'.step = e.step + 1 ∧ e'.col = 0 ∧ e'.fin = decide (rows ≤ e.step + 1)

/-- R176, R181, R183, R193: a step of a tile or accumulator move takes one row, at the address register plus the stride times the row. `tld` and `zld`
place the values that its loads bring, `tst` and `zst` enter its elements as stores of the group, in order and each once: where one
of them meets an away page, the entry keeps its place behind those entered. A step whose loads wait leaves the row to do. -/
def Sys2Proof.Say.matrixTransferSteps : Prop :=
  ∀ (s : State) (u : Nat) (x : Team) (e : MEnt) (q : List MEnt), u ≠ 0 → getT s u = some x → x.mq = e :: q → (∀ y ∈ q, y.id ≠ e.id) →
    e.fin = false → x.slot = .running → ctxState s (launchOfT s x).ctx = 1 → heldBack s e.id = false →
    let A := addrOf ((e.desc[0]?).getD 0)
    let vas (z n : Nat) : List Nat := (iota 0 n).map (fun k => (A.2 + e.step * e.stride + k * z) % 2 ^ 64)
    let z := shSize e.shA
    let c := shCols e.shA
    let stores (n : Nat) (data : List Byte) (z : Nat) : MSts := mStores s x e A.1 0 ((List.zip (vas z n) (chunks z n data)).drop e.col)
    (∀ v xs w, e.kind = .tld → mLoads s x e A.1 z (vas z c) = .got v xs → getT v u = some w → w.mq = x.mq →
      mwf (fun _ => (0 : Byte)) w.tiles = true → e.d < 16 → z * c * (e.step + 1) ≤ 16384 → completes (.matrixStep u 0) s fun t =>
        ∃ y, getT t u = some y ∧ Say.rowMade y e (shRows e.shA) ∧ y.accs = w.accs ∧ bytesKept v t ∧ ∀ i off, off < 16384 →
          Say.tileByte y i off = if i = e.d ∧ z * c * e.step ≤ off ∧ off < z * c * (e.step + 1)
            then ((xs.flatMap (leBytes z))[off - z * c * e.step]?).getD 0 else Say.tileByte w i off) ∧
    (∀ v xs w, e.kind = .zld → mLoads s x e A.1 8 (vas 8 64) = .got v xs → getT v u = some w → w.mq = x.mq →
      mwf (fun _ => (0 : Byte)) w.accs = true → e.d < 4 → e.step < 128 → completes (.matrixStep u 0) s fun t =>
        ∃ y, getT t u = some y ∧ Say.rowMade y e 128 ∧ y.tiles = w.tiles ∧ bytesKept v t ∧ ∀ i off, off < 65536 →
          Say.accByte y i off = if i = e.d ∧ 512 * e.step ≤ off ∧ off < 512 * (e.step + 1)
            then ((xs.flatMap (leBytes 8))[off - 512 * e.step]?).getD 0 else Say.accByte w i off) ∧
    (∀ v away, e.kind = .tld ∧ mLoads s x e A.1 z (vas z c) = .wait v away ∨ e.kind = .zld ∧ mLoads s x e A.1 8 (vas 8 64) = .wait v away →
      exec (.matrixStep u 0) s = .next v) ∧
    (∀ r, (∃ data, e.kind = .tst ∧ x.pzT = [] ∧ 0 < z ∧ data = tileGet x e.a (z * c * e.step) (z * c) ∧ r = stores c data z) ∨
        (∃ data, e.kind = .zst ∧ x.pzZ = [] ∧ data = accGet x e.a (512 * e.step) 512 ∧ r = stores 64 data 8) →
      (∀ v, r = .all v → completes (.matrixStep u 0) s fun t => t.path = v.path ∧ bytesKept v t ∧ ∃ y, getT t u = some y ∧
        y.tiles = x.tiles ∧ y.accs = x.accs ∧ Say.rowMade y e (if e.kind = .tst then shRows e.shA else 128)) ∧
      (∀ v k, r = .away v k → completes (.matrixStep u 0) s fun t => t.path = v.path ∧ ∃ y, getT t u = some y ∧
        ∃ e' ∈ y.mq, e'.id = e.id ∧ e'.step = e.step ∧ e'.col = e.col + k ∧ e'.fin = false))

/-- R176, R182, R199: an access of the sequencer is a relaxed one of the issuing group: a store enters its path as one entry with the vector that C
had at the issue; a load of a scratchpad, or of memory that no sector of the L1 holds, reads the bytes that stand there. -/
def Sys2Proof.Say.matrixAccesses : Prop :=
  (∀ (s : State) (t : Team) (e : MEnt) (sp : Space) (va : Nat) (d : List Byte) (a : Acc),
    checkAcc s e.group t (launchOfT s t).ctx 0 sp .store (va % 2 ^ 64) d.length d.length = .ok a → locked s (launchOfT s t).ctx a true = false →
    ∃ v n, mStore s t e sp va d = .all v ∧ bytesKept s v ∧ v.path = s.path ++ [n] ∧ n.op = .store ∧ n.acc = a ∧ n.x = leNat d ∧
      n.owner = .group e.group ∧ n.vec = e.vec ∧ n.lop = e.op) ∧
  (∀ (s : State) (t : Team) (e : MEnt) (sp : Space) (va n : Nat) (a : Acc), checkAcc s e.group t (launchOfT s t).ctx 0 sp .load (va % 2 ^ 64) n n = .ok a →
    locked s (launchOfT s t).ctx a false = false → poisonedRegion s a = false → (∀ p ∈ s.path, p.owner = .group e.group → overlap p.acc a = false) →
    ((∀ pa, a.loc ≠ .mem pa) → pzScratch s a.loc a.n = false →
      ∃ v, mLoad s t e sp va n = .got v (leNat (rdScratch s a.loc a.n)) ∧ bytesKept s v) ∧
    (∀ pa, a.loc = .mem pa → isWindow s pa = false → s.pz = [] → (∀ i, i < a.n → isScat s (dieOf t.core) (pa + i) = false) → 0 < a.n →
      a.cached = false ∨ (∀ i, i < a.n → l1Find s t.core (pa + i) a.key = none) →
      ∃ v, mLoad s t e sp va n = .got v (leNat (rdBytes s (dieOf t.core) pa a.key a.n)) ∧ bytesKept s v))

/-- R36, R181: a finished entry with no store of its own outstanding leaves the queue and its operation ends. -/
def Sys2Proof.Say.matrixCompletion : Prop :=
  ∀ (s : State) (u : Nat) (x : Team) (e : MEnt) (q : List MEnt) (g : Group) (o : LOp), u ≠ 0 → getT s u = some x → x.mq = e :: q →
    (∀ y ∈ q, y.id ≠ e.id) → e.group ≠ 0 → getG s e.group = some g → g.team = u → getOp g e.op = some o → o.left = 1 → o.parts = [] →
    (e.fin = true → completes (.matrixOpComplete u 0) s fun t => Say.ended s t e.group o ∧
      (∃ y, getT t u = some y ∧ y.mq = q ∧ y.tiles = x.tiles ∧ y.accs = x.accs) ∧ bytesKept s t) ∧
    (e.fin = false → exec (.matrixOpComplete u 0) s = .next s)

/-- R36, R176, R181 to R184, R188, R193 to R195: steps and completion of matrix words. -/
def Obligations.MatrixMovesAndCompletion : Prop :=
  Say.matrixSteps ∧ Say.matrixTransferSteps ∧ Say.matrixAccesses ∧ Say.matrixCompletion

/-! ### Lane memory accesses (R48, R203, R204, R256 to R267) -/

/-- The accesses of a memory word: its checks on every thread that it accesses memory for (R257). -/
def Sys2Proof.Say.checks (s : State) (w : LaneW) (kind : AKind) : Checks :=
  checkAll s (memSpace w) kind (tySize w.ty) (tySize w.ty) (laneEa s w) (doers w (active s w))

/-- R256, R257, R370: the address of a memory word for a thread, and its first failing check: a load asks for R, a store and a reduction
for W, another atomic for both. A misaligned address, one outside its space, one that
does not translate or is not permitted stops the context with the lowest failing thread's address; a page that is away parks it. -/
def Obligations.LaneMemoryChecks : Prop :=
  (∀ (s : State) (w : LaneW) (th : Nat),
    laneEa s w th = (readV s.g w.a.idx.toNat th).toNat + 2 ^ 32 * (readV s.g (w.a.idx.toNat + 1) th).toNat
      + ((w.x24.setWidth 21).signExtend 64).toNat ∨
    laneEa s w th + 2 ^ 64 = (readV s.g w.a.idx.toNat th).toNat + 2 ^ 32 * (readV s.g (w.a.idx.toNat + 1) th).toNat
      + ((w.x24.setWidth 21).signExtend 64).toNat) ∧
  (∀ p ∈ ([(.laneLd, .load), (.st, .store), (.atom, .atom), (.red, .red), (.cas, .atom)] : List ((LaneW → Instr) × AKind)),
    ∀ (s : State) (w : LaneW), chansReady s w = .ok → isDet s.l = false →
    (∀ c va, Say.checks s w p.2 = .bad c va → exec (p.1 w) s = .next (laneFaultK s c va (akindNo p.2))) ∧
    (∀ aw, Say.checks s w p.2 = .away aw → exec (p.1 w) s = .next (stall (park s s.l.ctx aw) 3 0))) ∧
  (∀ (s : State) (w : LaneW) (kind : AKind) (th : Nat) (ts : List Nat), doers w (active s w) = th :: ts →
    (laneEa s w th % tySize w.ty ≠ 0 → Say.checks s w kind = .bad .misaligned (laneEa s w th)) ∧
    (laneEa s w th % tySize w.ty = 0 → memSpace w = .s → s.t.scrB < laneEa s w th + tySize w.ty →
      Say.checks s w kind = .bad .bounds (laneEa s w th)) ∧
    (laneEa s w th % tySize w.ty = 0 → memSpace w = .l → s.t.sliceB < laneEa s w th + tySize w.ty →
      Say.checks s w kind = .bad .bounds (laneEa s w th))) ∧
  (∀ e : Nat, (permOk e .load = true ↔ bit e 3 = true) ∧ (permOk e .store = true ↔ bit e 4 = true) ∧ (permOk e .red = true ↔ bit e 4 = true) ∧
    (permOk e .atom = true ↔ bit e 3 = true ∧ bit e 4 = true) ∧ (permOk e .fetch = true ↔ bit e 5 = true))

/-- R48, R204, R260: a relaxed lane load. In the lane slice it reads at once, each thread its own slice; in every other space it starts a
long-latency operation with one access for each thread; with some of its sectors in the L1 and a free entry, its fragment splits and
the missing threads wait for the operation, of a load with an acquire of scope grp or team too, whose hit threads then wait for that
acquire. That inactive threads go with the hit threads, and that a load with no sector present does not make its fragment wait, is the
model's choice (log 15). -/
def Sys2Proof.Say.laneLoadIssue : Prop :=
  ∀ (s : State) (w : LaneW) (accs : List (Nat × Acc)), chansReady s w = .ok → sysBit s 0x1307 63 = false →
    w.dchan = false → Say.checks s w .load = .ok accs → accs ≠ [] →
    (w.ord = .rlx → memSpace w = .l → w.uni = false → s.g.uid ≠ 0 → s.g.pzL = [] → completes (.laneLd w) s fun t =>
      onlyResults s t ∧ t.g.k = s.g.k ∧ t.g.ch = s.g.ch ∧ t.g.chv = s.g.chv ∧ Say.goesOn s t ∧
      Say.registersGiven s t w w.ty fun th => leNat (mgets s.g.slice 0 (th * 4096 + laneEa s w th) (tySize w.ty))) ∧
    (w.ord = .rlx → memSpace w ≠ .l → (∀ p ∈ accs, inL1 s p.2 = false) ∨ (∀ p ∈ accs, inL1 s p.2 = true) → completes (.laneLd w) s fun t =>
      sameButGroup s t ∧ t.g.ch = s.g.ch ∧ t.g.chv = s.g.chv ∧ Say.goesOn s t ∧ bytesKept s t ∧
      ∃ o, Say.begun s t o ∧ o.kind = .load ∧ o.parts = accs.map (fun p => ⟨p.1, p.2⟩) ∧ o.d = w.d.toNat ∧ o.ty = w.ty ∧
        o.uni = w.uni ∧ o.act = active s w ∧ o.left = 0 ∧
        o.pend = (if tyWide w.ty then [w.d.toNat, w.d.toNat + 1] else [w.d.toNat])) ∧
    (∀ f e2, w.ord = .rlx ∨ (w.ord = .acq ∧ (w.scp = .grp ∨ w.scp = .team)) → memSpace w = .g → (∃ p ∈ accs, inL1 s p.2 = true) →
      (∃ p ∈ accs, inL1 s p.2 = false) → fget s.g.frs s.fi = some f → f.idx < f.len → freeEntry s.g.frs = some e2 → completes (.laneLd w) s fun t =>
      let miss := maskOf ((accs.filter (fun p => !inL1 s p.2)).map (·.1))
      sameButGroup s t ∧ bytesKept s t ∧ ∃ o x y, Say.begun s t o ∧ o.kind = .load ∧
        fget t.g.frs s.fi = some x ∧ fget t.g.frs e2 = some y ∧ x.mask = f.mask &&& ~~~miss ∧ x.idx = f.idx + 1 ∧
        x.wait = (if w.ord = .rlx then f.wait else .acqOp o.id w.scp) ∧ y.mask = f.mask &&& miss ∧
        y.wait = .mem o.id (if w.ord = .rlx then none else some w.scp) ∧ y.idx = f.idx + 1)

/-- The value `z` that thread `th0` of operation `o` receives: it stands in register o.d, or in the pair, of that thread (of every active
thread of a uniform access); no other register differs between the group before and after. -/
def Sys2Proof.Say.gave (x y : Group) (o : LOp) (th0 z : Nat) : Prop :=
  ∀ r th, th < 64 → readV y r th =
    if (if o.uni then o.act.getLsbD th else decide (th = th0)) = true ∧ r = o.d then
      (if tyWide o.ty then BitVec.ofNat 32 z else regOf o.ty z)
    else if (if o.uni then o.act.getLsbD th else decide (th = th0)) = true ∧ tyWide o.ty = true ∧ r = o.d + 1 then BitVec.ofNat 32 (z / 2 ^ 32)
    else readV x r th

/-- The load of part `p` of operation `o` has been performed with value `z`; an operation with nothing left has ended. -/
def Sys2Proof.Say.landed (s t : State) (g : Nat) (o : LOp) (p : Part) (z : Nat) : Prop :=
  ∃ x y, getG s g = some x ∧ getG t g = some y ∧ Say.gave x y o p.t z ∧
    (o.parts.length = 1 → o.left = 0 → (∀ q ∈ y.ops, q.id ≠ o.id) ∧
      ∀ i, mget y.fl 0 i = mget x.fl 0 i - (o.flags.filter (fun j => j == i)).length) ∧
    (2 ≤ o.parts.length → y.fl = x.fl) ∧ bytesKept s t

/-- R198, R203, R205: a load that is performed reads the newest byte: of a scratchpad or of the die view of its core where it is not held
by the L1, of the sector that the L1 holds, of the group's own newest store that stands in its path. The value lands in its thread. -/
def Sys2Proof.Say.loadsPerformed : Prop :=
  ∀ (s : State) (g op j : Nat) (x : Group) (o : LOp) (p : Part), g ≠ 0 → getG s g = some x → getOp x op = some o → o.kind = .load →
    o.res = [] → o.kres = [] → o.parts[j]? = some p → p.t < 64 →
    let t0 := teamOfG s x
    let die := dieOf t0.core
    t0.slot ≠ .out → locked s (ctxOfG s x) p.acc false = false → poisonedRegion s p.acc = false →
    ((∀ e ∈ s.path, e.owner = .group g → overlap e.acc p.acc = false) →
      ((∀ pa, p.acc.loc ≠ .mem pa) → pzScratch s p.acc.loc p.acc.n = false →
        completes (.loadPerform g op j) s fun t => Say.landed s t g o p (leNat (rdScratch s p.acc.loc p.acc.n))) ∧
      (∀ pa, p.acc.loc = .mem pa → isWindow s pa = false → s.pz = [] → (∀ i, i < p.acc.n → isScat s die (pa + i) = false) → 0 < p.acc.n →
        p.acc.cached = false ∨ o.past = true ∨ (∀ i, i < p.acc.n → l1Find s t0.core (pa + i) p.acc.key = none) →
        completes (.loadPerform g op j) s fun t => Say.landed s t g o p (leNat (rdBytes s die pa p.acc.key p.acc.n))) ∧
      (∀ pa sec, p.acc.loc = .mem pa → isWindow s pa = false → 0 < p.acc.n → p.acc.cached = true → o.past = false →
        l1Find s t0.core pa p.acc.key = some sec → ((sec.poison.drop (pa - sec.pa * 32)).take p.acc.n).any id = false →
        sec.data.length = 32 → pa % 32 + p.acc.n ≤ 32 →
        completes (.loadPerform g op j) s fun t => Say.landed s t g o p (leNat ((sec.data.drop (pa % 32)).take p.acc.n)))) ∧
    (∀ pa e l, s.path = l ++ [e] → e.owner = .group g → e.op = .store → e.acc.loc = .mem pa → p.acc.loc = .mem pa → e.acc.n = p.acc.n →
      isWindow s pa = false → completes (.loadPerform g op j) s fun t => Say.landed s t g o p (e.x % 2 ^ (8 * p.acc.n)))

/-- R48, R198, R203 to R205, R260: lane loads, from issue to the value in the thread. -/
def Obligations.LaneLoads : Prop := Say.laneLoadIssue ∧ Say.loadsPerformed

/-- R199, R204, R261: a relaxed lane store. In the lane slice it writes at once; in every other space one entry for each thread enters the
group's store path, in ascending thread order, with the low bytes of the thread's value, and no byte changes before an entry
arrives. A range held against the first access stops the context. -/
def Sys2Proof.Say.laneStores : Prop :=
  ∀ (s : State) (w : LaneW) (accs : List (Nat × Acc)), chansReady s w = .ok → w.ord = .rlx → sysBit s 0x1307 63 = false →
    Say.checks s w .store = .ok accs → accs ≠ [] →
    (memSpace w ≠ .l → (∀ p ∈ accs, locked s s.l.ctx p.2 true = false) → completes (.st w) s fun t =>
      sameButGroup { s with path := [] } { t with path := [] } ∧ Say.goesOn s t ∧ bytesKept s t ∧
      Say.channelsMoved s t { w with dchan := false } 0 [] ∧
      ∃ o es, Say.begun s t o ∧ o.kind = .store ∧ o.left = accs.length ∧ o.pend = [] ∧ t.path = s.path ++ es ∧
        es.map (fun e => (e.op, e.owner, e.acc, e.x, e.st, e.lop)) =
          accs.map (fun p => (EntOp.store, Owner.group s.g.uid, p.2, vB s w.ty w p.1 % 2 ^ (8 * tySize w.ty), EntSt.sent, o.id))) ∧
    (memSpace w = .l → w.uni = false → s.g.uid ≠ 0 → s.t.sliceB ≤ 4096 → mwf (fun _ => (0 : Byte)) s.g.slice = true →
      s.g.pzL = [] → completes (.st w) s fun t =>
      sameButGroup s t ∧ Say.noOps { t.g with slice := [] } = Say.noOps { s.g with slice := [] } ∧ t.g.v = s.g.v ∧ t.g.k = s.g.k ∧
      t.g.fl = s.g.fl ∧ t.g.ops = s.g.ops ∧ Say.goesOn s t ∧ ∀ th off, th < 64 → off < 4096 →
        mget t.g.slice 0 (th * 4096 + off) =
          if (active s w).getLsbD th = true ∧ laneEa s w th ≤ off ∧ off < laneEa s w th + tySize w.ty then
            BitVec.ofNat 8 (vB s w.ty w th / 256 ^ (off - laneEa s w th))
          else mget s.g.slice 0 (th * 4096 + off)) ∧
    (∀ p r, accs = p :: r → locked s s.l.ctx p.2 true = true → ∃ u, exec (.st w) s = .next (laneFaultK u .rangeLocked p.2.va (akindNo .store)) ∧
      u.path = s.path ∧ bytesKept s u)

/-- R141, R251, R262 to R265: relaxed atomics, compare-and-swaps and reductions enter the store path, one entry for each thread; an atomic
and a compare-and-swap make their destination pending. Under determinism mode a floating atomic stops the context; a reduction to a host
window that is no integer add, and a floating atomic there, stop it too. -/
def Sys2Proof.Say.laneAtomics : Prop :=
  ∀ (s : State) (w : LaneW) (accs : List (Nat × Acc)), chansReady s w = .ok → sysBit s 0x1307 63 = false → accs ≠ [] → w.ord = .rlx →
    let det : Prop := isDet s.l = true ∧ tyFloat w.ty = true ∧ w.c.idx.toNat < 3
    let kindOf (op : EntOp) : AKind := match op with
      | .red .. => .red
      | _ => .atom
    let rows : List ((LaneW → Instr) × EntOp × Bool) := [(.atom, .atom w.c.idx.toNat w.ty (rndOf s.l w.rnd), true),
      (.red, .red w.c.idx.toNat w.ty (rndOf s.l w.rnd), false), (.cas, .cas, true)]
    (∀ r ∈ rows, Say.checks s w (kindOf r.2.1) = .ok accs → (r.2.1 = .cas ∨ ¬det) → (∀ p ∈ accs, locked s s.l.ctx p.2 true = false ∧ remoteRefusal s r.2.1 p.2 = none) →
      completes (r.1 w) s fun t => sameButGroup { s with path := [] } { t with path := [] } ∧ Say.goesOn s t ∧ bytesKept s t ∧
        ∃ o es, Say.begun s t o ∧ o.kind = .atomic ∧ o.left = accs.length ∧ o.d = w.d.toNat ∧ o.ty = w.ty ∧ o.uni = w.uni ∧
          o.pend = (if r.2.2 then (if tyWide w.ty then [w.d.toNat, w.d.toNat + 1] else [w.d.toNat]) else []) ∧ t.path = s.path ++ es ∧
          es.map (fun e => (e.op, e.owner, e.acc, e.x, e.y, e.t, e.lop)) = accs.map (fun p => (r.2.1, Owner.group s.g.uid, p.2,
            vB s w.ty w p.1, if r.2.1 = .cas then vC s w.ty w p.1 else 0, p.1, o.id))) ∧
    (det → exec (.atom w) s = .next (laneFault s .nondetAtomic 0)) ∧
    (∀ p r pa, accs = p :: r → p.2.loc = .mem pa → paKind s pa = .host → ¬det →
      (Say.checks s w .atom = .ok accs → tyFloat w.ty = true → exec (.atom w) s = .next (laneFault s .remoteAtomic p.2.va)) ∧
      (Say.checks s w .red = .ok accs → isDet s.l = false → tyFloat w.ty = true ∨ w.c.idx.toNat ≠ 0 → exec (.red w) s = .next (laneFault s .remoteAtomic p.2.va)))

/-- R141, R199, R204, R251, R261 to R265: lane stores, atomics and reductions enter the store path. -/
def Obligations.LaneStoresAndAtomics : Prop := Say.laneStores ∧ Say.laneAtomics

/-- The fragment goes on and is ready; what differs beside is only what is named. -/
def Sys2Proof.Say.orderFrame (s t : State) : Prop :=
  sameButGroup { s with l1 := [], fenceNo := 0 } { t with l1 := [], fenceNo := 0 } ∧
  Say.noOps { t.g with car := {} } = Say.noOps { s.g with car := {} } ∧ t.g.v = s.g.v ∧ t.g.k = s.g.k ∧ t.g.fl = s.g.fl ∧ t.g.ops = s.g.ops ∧
  t.g.ch = s.g.ch ∧ t.g.chv = s.g.chv ∧ Say.goesOn s t ∧ bytesKept s t

/-- R140, R208 to R212, R266, R267: fences and the prefetch hint. A hint changes nothing but what the L1 of its core holds: a sector that it fills
has the bytes of the die view (whether it fills one is the model's free choice: log 39). A release waits while an earlier load of the fragment is
not performed, a record of the group is not in its log or, beyond the group, a store of the group is not acknowledged, and then the vector C becomes O; an acquire of scope clu or wider drops the L1 of its
core; a `.sc` fence of scope dev also counts in the order of such fences, and its L1 is dropped. -/
def Obligations.LaneFences : Prop :=
  ∀ (s : State) (w : LaneW), (curF s).wait = .go → (curF s).flushed = false →
    (completes (.pref w) s fun t => sameButGroup { s with l1 := [] } { t with l1 := [] } ∧ noFrags t.g = noFrags s.g ∧ Say.goesOn s t ∧
      bytesKept s t ∧ ∀ x ∈ t.l1, x ∈ s.l1 ∨ (x.core = s.t.core ∧ x.data = rdBytes s (dieOf s.t.core) (32 * x.pa) x.key 32)) ∧
    (w.ord = .acq → w.scp = .grp ∨ w.scp = .team → completes (.fence w) s fun t => onlyFrags s t ∧ Say.goesOn s t) ∧
    (w.ord = .acq → w.scp = .clu ∨ w.scp = .die ∨ (s.inq = [] ∧ (w.scp = .dev ∨ w.scp = .sys)) → completes (.fence w) s fun t =>
      Say.orderFrame s t ∧ t.g.car = s.g.car ∧ t.fenceNo = s.fenceNo ∧ t.l1 = s.l1.filter (fun x => x.core != s.t.core)) ∧
    (w.ord = .rel → loadsDue s.t s.g (curF s) = false → recordsDue s s.g = false → w.scp = .grp ∨ (uCount s s.g.uid = 0 ∧ (w.scp = .sys → s.g.hostSt = false)) →
      completes (.fence w) s fun t => Say.orderFrame s t ∧ t.g.car = s.g.obs ∧ t.l1 = s.l1 ∧ t.fenceNo = s.fenceNo) ∧
    (w.ord = .rel ∨ w.ord = .ar → loadsDue s.t s.g (curF s) = true ∨ recordsDue s s.g = true ∨ (w.scp ≠ .grp ∧ uCount s s.g.uid ≠ 0) →
      exec (.fence w) s = .next (stall s 3 0)) ∧
    (w.ord = .sc → w.scp = .dev → loadsDue s.t s.g (curF s) = false → recordsDue s s.g = false → uCount s s.g.uid = 0 → s.inq = [] → completes (.fence w) s fun t =>
      Say.orderFrame s t ∧ t.g.car = s.g.obs ∧ t.fenceNo = s.fenceNo + 1 ∧ t.l1 = s.l1.filter (fun x => x.core != s.t.core))

/-! ### The ordering machine (R197 to R220, R262) -/

/-- No fragment is parked on a word by a monitor (R238). -/
def Sys2Proof.Say.calm (s : State) : Prop :=
  ∀ x ∈ allG s, ∀ p ∈ x.frs, ∀ m cc b ord scp, p.2.wait ≠ .monitor m cc b ord scp

/-- Entry `e` stands at place k of the store paths, on its way, and nothing of its owner that it must follow stands before it (R200). -/
def Sys2Proof.Say.mayArrive (s : State) (k : Nat) (e : PEnt) : Prop :=
  s.path[k]? = some e ∧ e.st = .sent ∧ (∀ x ∈ s.path.take k, x.id ≠ e.id) ∧
  ∀ x ∈ s.path.take k, x.owner = e.owner → x.st = .sent → x.owner ≠ .host ∧ overlap x.acc e.acc = false

/-- The sectors that [pa, pa + n) touches were written under key slot `key` as it is now, or never (R378, R380). -/
def Sys2Proof.Say.keyed (s : State) (pa n key : Nat) : Prop :=
  ∀ sec ∈ sectorsOf pa n, mget s.tags 0 sec = 0 ∨ mget s.tags 0 sec = genOf s key

/-- The view of die d holds `x`, low byte first, at [pa, pa + n); every other byte of every view is as before. -/
def Sys2Proof.Say.wrote (s t : State) (d pa n x : Nat) : Prop :=
  ∀ d' a, d' < 4 → a < 2 ^ 52 → memByte t d' a =
    if d' = d ∧ pa ≤ a ∧ a < pa + n then BitVec.ofNat 8 (x / 256 ^ (a - pa)) else memByte s d' a

/-- The home has taken its next number, has sent one update of kind `k` to each other die (none in the bring-up service, R436), and the
entry is acknowledged where its core stands at the home, and marked arrived elsewhere (R200, R201). -/
def Sys2Proof.Say.numbered (s t : State) (h : Nat) (owner : Owner) (vec : V4) (ent : Nat) (k : UpdK) : Prop :=
  t.seqn = v4set s.seqn h (v4get s.seqn h + 1) ∧
  ∃ us, t.inq = s.inq ++ us ∧ us.map (fun u => (u.home, u.dst, u.num, u.owner, u.ent, u.vec, u.k)) =
    (if s.service = .bringUp then [] else (dies.filter (· != h)).map (fun d => (h, d, v4get s.seqn h + 1, owner, ent, vec, k)))

/-- R197 to R201, R204, R220, R247: the arrival of a store. At its home the bytes are written under the home's next number and updates go to the
other dies; at a scratchpad they are written at once; at a host window they leave; a scattered line is asked for first. -/
def Sys2Proof.Say.storeArrivals : Prop :=
  ∀ (s : State) (k : Nat) (e : PEnt), Say.mayArrive s k e → e.op = .store → e.be = 0 → Say.calm s →
    (∀ pa, e.acc.loc = .mem pa → inMem s pa = true → pa + e.acc.n ≤ 2 ^ 52 → Memory.wf s → Say.keyed s pa e.acc.n e.acc.key →
      (isScat s (homeDie s pa) pa = false → completes (.storeArrival k) s fun t =>
        Say.wrote s t (homeDie s pa) pa e.acc.n e.x ∧ Memory.wf t ∧
        Say.numbered s t (homeDie s pa) e.owner e.vec e.id (.bytes pa (leBytes e.acc.n e.x) e.poison) ∧
        t.path = (if dieOf e.core = homeDie s pa then s.path.filter (fun x => x.id != e.id)
          else s.path.set k { e with st := .arrived (v4get s.seqn (homeDie s pa) + 1) }) ∧
        (∀ u x, e.owner = .group u → u ≠ 0 → e.acc.sp = .g → getG s u = some x → ∃ y, getG t u = some y ∧
          v4get y.obs (homeDie s pa) = if dieOf e.core = homeDie s pa then max (v4get x.obs (homeDie s pa)) (v4get s.seqn (homeDie s pa) + 1)
            else v4get x.obs (homeDie s pa))) ∧
      (isScat s (homeDie s pa) pa = true → exec (.storeArrival k) s = .next (want s (lineOf pa)))) ∧
    (∀ u off x, e.acc.loc = .team u off → u ≠ 0 → getT s u = some x → poisonedRegion s e.acc = false →
      mwf (fun _ => (0 : Byte)) x.scr = true → completes (.storeArrival k) s fun t => ∃ y, getT t u = some y ∧
        (∀ a, mget y.scr 0 a = if off ≤ a ∧ a < off + e.acc.n then BitVec.ofNat 8 (e.x / 256 ^ (a - off)) else mget x.scr 0 a) ∧
        t.path = s.path.filter (fun x => x.id != e.id) ∧ t.mem = s.mem) ∧
    (∀ pa, e.acc.loc = .mem pa → paKind s pa = .host → completes (.storeArrival k) s fun t =>
      t.path = s.path.filter (fun x => x.id != e.id) ∧ bytesKept s t)

/-- R201, R219, R220, R380: the oldest update of a queue is applied at its die: its bytes are written there, or the line's mark stands there,
or the line's words are written and the mark is gone; the update leaves the queue. The bytes written are those of the update where their
sectors still have the key they were sent under. With no update queued nothing changes. -/
def Sys2Proof.Say.updatesApplied : Prop :=
  (∀ (s : State) (gen pa : Nat) (data : List Byte), (∀ sec ∈ sectorsOf pa data.length, mget s.tags 0 sec = gen) →
    updBytes s gen pa data = data) ∧
  ∀ (s : State) (h d : Nat), d < 4 →
    (∀ u, s.inq.find? (fun u => u.home == h && u.dst == d) = some u →
      (∀ pa data pz, u.k = .bytes pa data pz → pa + data.length ≤ 2 ^ 52 → Memory.wf s → completes (.updateApplication h d) s fun t =>
        Memory.wf t ∧ Say.wrote s t d pa data.length (leNat (updBytes s u.gen pa data)) ∧ t.seqn = s.seqn ∧
        t.inq = s.inq.filter (fun x => !(x.ser == u.ser && x.dst == d))) ∧
      (∀ pa data sts pz, u.k = .same pa data sts pz → pa + data.length ≤ 2 ^ 52 → Memory.wf s → completes (.updateApplication h d) s fun t =>
        Memory.wf t ∧ Say.wrote s t d pa data.length (leNat (updBytes s u.gen pa data)) ∧
        t.inq = s.inq.filter (fun x => !(x.ser == u.ser && x.dst == d))) ∧
      (∀ pa data pz, u.k = .runs [(pa, data)] pz → pa + data.length ≤ 2 ^ 52 → Memory.wf s → completes (.updateApplication h d) s fun t =>
        Memory.wf t ∧ Say.wrote s t d pa data.length (leNat (updBytes s u.gen pa data)) ∧
        t.inq = s.inq.filter (fun x => !(x.ser == u.ser && x.dst == d))) ∧
      (∀ line, u.k = .mark line → completes (.updateApplication h d) s fun t => isScat t d (128 * line) = true ∧ t.mem = s.mem ∧
        t.inq = s.inq.filter (fun x => !(x.ser == u.ser && x.dst == d))) ∧
      (∀ line pa data pz, u.k = .clear line [(pa, data, pz)] → pa + data.length ≤ 2 ^ 52 → Memory.wf s →
        completes (.updateApplication h d) s fun t => isScat t d (128 * line) = false ∧
          Say.wrote s t d pa data.length (leNat (updBytes s u.gen pa data)))) ∧
    (s.inq.find? (fun u => u.home == h && u.dst == d) = none → exec (.updateApplication h d) s = .next s)

/-- R197 to R201, R204, R219, R220, R247: stores arrive at their homes and updates at the other dies. -/
def Obligations.StoreArrivalsAndUpdates : Prop := Say.storeArrivals ∧ Say.updatesApplied

/-- R262, R264, R265, R335, R347: the new value at a location: of an integer atomic its sum, minimum, maximum, and, or, exclusive or, operand; of
`cas` the second operand where the first equals the old value; of `bindg` the operand over an unbound cell. -/
def Sys2Proof.Say.atomicValues : Prop :=
  ∀ (s : State) (e : PEnt) (z : Nat),
    (∀ code ty rnd, e.op = .atom code ty rnd ∨ e.op = .red code ty rnd → tyInt ty = true → z < 2 ^ tyWidth ty → e.x < 2 ^ tyWidth ty →
      let less : Prop := Say.intVal ty z < Say.intVal ty e.x
      (code = 0 → (entNew s e z).code = (z + e.x) % 2 ^ tyWidth ty) ∧
      (code = 1 → (less → (entNew s e z).code = z) ∧ (¬less → (entNew s e z).code = e.x)) ∧
      (code = 2 → (less → (entNew s e z).code = e.x) ∧ (¬less → (entNew s e z).code = z)) ∧
      (code = 3 → (entNew s e z).code = z &&& e.x) ∧ (code = 4 → (entNew s e z).code = z ||| e.x) ∧
      (code = 5 → (entNew s e z).code = z ^^^ e.x) ∧ (code = 6 → (entNew s e z).code = e.x)) ∧
    (e.op = .cas → (entNew s e z).code = if z = e.x then e.y else z) ∧
    (e.op = .bindg → (entNew s e z).code = if z / 2 ^ 60 % 16 = 0 then e.x else z)

/-- R218, R262, R335: the arrival of an atomic at its home is one move: the old value lands in its thread (of a `bindg` its status, which its
operation keeps), the new one is written under the home's next number, and updates go to the other dies. A `cas` that fails, and a `bindg` of a bound
cell, write nothing: they take a number, and the updates carry the value and the stamps that stand there. -/
def Sys2Proof.Say.atomicArrivals : Prop :=
  ∀ (s : State) (k : Nat) (e : PEnt) (pa g : Nat) (x : Group) (o : LOp), Say.mayArrive s k e → Say.calm s → e.be = 0 →
    ((∃ code ty rnd, e.op = .atom code ty rnd) ∨ e.op = .cas) ∧ o.kind = .atomic ∨ e.op = .bindg ∧ o.kind = .term ∧ 2 ≤ o.left →
    e.owner = .group g → g ≠ 0 → getG s g = some x →
    getOp x e.lop = some o → o.res = [] → o.kres = [] → e.t < 64 → e.acc.loc = .mem pa → inMem s pa = true → pa + e.acc.n ≤ 2 ^ 52 →
    Memory.wf s → Say.keyed s pa e.acc.n e.acc.key → s.pz = [] →
    let h := homeDie s pa
    let z := leNat (rdBytes s h pa e.acc.key e.acc.n)
    let new := (entNew s e z).code
    let fails : Prop := e.op = .cas ∧ z ≠ e.x ∨ e.op = .bindg ∧ z / 2 ^ 60 % 16 ≠ 0
    (isScat s h pa = false → completes (.atomicArrival k) s fun t =>
      (o.kind = .atomic → ∃ y, getG t g = some y ∧ Say.gave x y o e.t z) ∧
      (o.kind = .term → ∃ y o', getG t g = some y ∧ getOp y e.lop = some o' ∧
        o'.vals = o.vals ++ [(e.t, if z / 2 ^ 60 % 16 = 0 then 0 else 1)]) ∧
      (fails → t.mem = s.mem ∧ t.stamps = s.stamps ∧
        Say.numbered s t h e.owner e.vec e.id (.same pa (leBytes e.acc.n z) (rdStamps s h pa e.acc.n) false)) ∧
      (¬fails → Say.wrote s t h pa e.acc.n new ∧ Say.numbered s t h e.owner e.vec e.id (.bytes pa (leBytes e.acc.n new) e.poison)) ∧
      t.path = (if dieOf e.core = h then s.path.filter (fun x => x.id != e.id)
        else s.path.set k { e with st := .arrived (v4get s.seqn h + 1) })) ∧
    (isScat s h pa = true → exec (.atomicArrival k) s = .next (want s (lineOf pa)))

/-- R218, R262, R264, R265, R335, R347: atomics at their home. -/
def Obligations.AtomicEffects : Prop := Say.atomicValues ∧ Say.atomicArrivals

/-- R219, R220: reductions. A grant gives the entry's core an update-only copy of the line under the home's next number, marks the line
scattered and sends the mark; a merge keeps the operand as a pending unit of the copy, combined with a unit of the same operation, and is
acknowledged at once where the mark of that grant has been applied at its die; a
recall of a line that is asked for applies the units at the home, takes the copies back and clears the mark. That a recall takes the home's
next number is the model's reading (log 14: R198 numbers stores, atomics and grants), as is that a grant comes after an access that its home
could make at the line. -/
def Sys2Proof.Say.reductionMoves : Prop :=
  (∀ (s : State) (k : Nat) (e : PEnt) (pa code : Nat) (ty : LType) (rnd : Rnd), Say.mayArrive s k e → e.op = .red code ty rnd →
    e.acc.loc = .mem pa → inMem s pa = true →
    let h := homeDie s pa
    (hasCopy s e.core (lineOf pa) = none → lineOf pa ∉ s.wants → owing s (lineOf pa) = false →
      (s.copies.filter (fun c => c.core == e.core)).length < 512 → completes (.updateOnlyGrant k) s fun t => t.copies = s.copies ++ [{ core := e.core, line := lineOf pa, num := v4get s.seqn h + 1, marked := decide (dieOf e.core = h), secs := 0 }] ∧
        isScat t h pa = true ∧ t.path = s.path ∧ t.units = s.units ∧ Say.numbered s t h .device {} 0 (.mark (lineOf pa)) ∧ bytesKept s t) ∧
    (∀ c, hasCopy s e.core (lineOf pa) = some c →
      (∀ u ∈ s.units, u.core = e.core → u.pa ≠ pa ∧ (pa + e.acc.n ≤ u.pa ∨ u.pa + u.n ≤ pa)) → completes (.reductionMerge k) s fun t =>
        (∃ u, t.units = s.units ++ [u] ∧ u.core = e.core ∧ u.pa = pa ∧ u.val = e.x ∧ u.n = e.acc.n ∧ u.code = code ∧ u.ty = ty) ∧ bytesKept s t ∧
        t.path = if c.marked then s.path.filter (fun x => x.id != e.id) else s.path.set k { e with st := .arrived c.num }) ∧
    (∀ c u, hasCopy s e.core (lineOf pa) = some c → s.units = [u] → u.core = e.core → u.pa = pa → u.n = e.acc.n → u.code = code → u.ty = ty →
      u.rnd = rnd → completes (.reductionMerge k) s fun t => (∃ u', t.units = [u'] ∧
        u'.val = (atomNew (fpctl ((getL s e.launch).getD {})) code ty rnd u.val e.x).code ∧ u'.pa = pa ∧ u'.core = e.core) ∧ bytesKept s t)) ∧
  (∀ (s : State) (line core : Nat), line ∈ s.wants → Say.calm s → isScat s (homeDie s (128 * line)) (128 * line) = true →
    (s.copies.filter (fun c => c.line == line)).map (·.core) = [core] →
    let h := homeDie s (128 * line)
    (∀ u, s.units.filter (fun u => u.core == core && lineOf u.pa == line) = [u] → Memory.wf s → u.pa + u.n ≤ 2 ^ 52 →
      Say.keyed s u.pa u.n u.key → completes (.recall line) s fun t =>
      Say.wrote s t h u.pa u.n
        (atomNew u.fp u.code u.ty u.rnd (leNat (rdBytes s (homeDie s u.pa) u.pa u.key u.n)) u.val).code ∧
      t.copies = s.copies.filter (fun c => c.line != line) ∧ isScat t h (128 * line) = false ∧ line ∉ t.wants) ∧
    (s.units.filter (fun u => u.core == core && lineOf u.pa == line) = [] → completes (.recall line) s fun t =>
      bytesKept s t ∧ Say.numbered s t h .device {} 0 (.clear line []) ∧
      t.copies = s.copies.filter (fun c => c.line != line) ∧ isScat t h (128 * line) = false ∧ line ∉ t.wants)) ∧
  (∀ (s : State) (line : Nat), line ∉ s.wants → exec (.recall line) s = .next s)

/-- R21, R202: a sector may leave the L1 at any time and nothing else changes; a fragment that waits for the sectors of an operation is ready
once the operation has ended or every sector that it asked for has been delivered; of a load with an acquire (R209), it then waits for that
acquire. -/
def Sys2Proof.Say.cacheAndMissMoves : Prop :=
  (∀ (s : State) (i : Nat), i < s.l1.length → completes (.l1SectorDrop i) s fun t =>
    t.l1 = s.l1.take i ++ s.l1.drop (i + 1) ∧ t = { s with l1 := t.l1 }) ∧
  (∀ (s : State) (g f e op : Nat) (x : Group) (fr : Frag), g ≠ 0 → getG s g = some x → entryOfFrag x f = some (e, fr) →
    fget x.frs e = some fr → fr.wait = .mem op none →
    (getOp x op = none ∨ (∃ o, getOp x op = some o ∧ secsDue o = 0 ∧ o.reqs ≠ []) → fr.idx ≠ 0 → completes (.missFragmentWake g f) s fun t =>
      onlyFrags (focus s g) t ∧ fget t.g.frs e = some { fr with wait := .go, blk := none } ∧ ∀ i, i ≠ e → fget t.g.frs i = fget x.frs i) ∧
    (∀ o, getOp x op = some o → secsDue o ≠ 0 ∨ o.reqs = [] → exec (.missFragmentWake g f) s = .next s)) ∧
  (∀ (s : State) (g f e op : Nat) (scp : Scope) (x : Group) (fr : Frag), g ≠ 0 → getG s g = some x → entryOfFrag x f = some (e, fr) →
    fget x.frs e = some fr → fr.wait = .mem op (some scp) → getOp x op = none → fr.idx ≠ 0 → completes (.missFragmentWake g f) s fun t =>
      ∃ y b, getG t g = some y ∧ fget y.frs e = some { fr with wait := .acqDue scp b, blk := none } ∧ bytesKept s t)

/-- R21, R202, R219, R220: reductions in copies, and the L1; the number of a recall is the model's reading (log 14). -/
def Obligations.ReductionAndCacheMoves : Prop := Say.reductionMoves ∧ Say.cacheAndMissMoves

/-! ### Engines (R221 to R234, R252 to R254, R268 to R274) -/

/-- A group without its batches. -/
def Sys2Proof.Say.noBatches (s : State) : State := { s with g := { s.g with batches := [] } }

/-- An engine operation with plan `p` has been issued by the executing fragment: it stands last among the operations, carries C, and
has not started; its source ranges and then its destination ranges are registered; the open batch has one operation more. -/
def Sys2Proof.Say.engIssued (s t : State) (p : EPlan) : Prop :=
  ∃ e o, t.eops = s.eops ++ [e] ∧ e.kind = p.kind ∧ e.total = p.total ∧ e.esize = p.esize ∧ e.bar = p.bar ∧ e.group = s.g.uid ∧
    e.ctx = s.l.ctx ∧ e.core = s.t.core ∧ e.vec = s.g.car ∧ e.batch = s.g.batchNo + 1 ∧ e.started = false ∧ e.rd = 0 ∧ e.ackd = 0 ∧
    e.todo = [(0, p.total)] ∧ e.act = o.act ∧ e.gidx = s.g.idx ∧ e.team = s.t.uid ∧ e.launch = s.l.uid ∧
    e.lop = o.id ∧ o.kind = .engine ∧ Say.begun (Say.noBatches s) (Say.noBatches t) o ∧
    (∃ ks, t.locks = s.locks ++ ks ∧ ks.map (fun k => (k.op, k.ctx, k.sp, k.holder, k.lo, k.hi, k.dst)) =
      p.src.map (fun r => (e.id, s.l.ctx, r.sp, r.holder, r.lo, r.hi, false)) ++
      p.dst.map (fun r => (e.id, s.l.ctx, r.sp, r.holder, r.lo, r.hi, true))) ∧
    (∃ b ∈ t.g.batches, b.no = s.g.batchNo + 1 ∧
      b.left = ((s.g.batches.find? (fun b => b.no == s.g.batchNo + 1)).map (fun b => b.left)).getD 0 + 1) ∧
    sameButGroup { s with eops := [], locks := [], collSeq := [] } { t with eops := [], locks := [], collSeq := [] } ∧
    (∀ i, mget t.collSeq 0 i = match p.kind with
      | .coll _ _ _ _ _ slot q => if i = slot then q else mget s.collSeq 0 i
      | _ => mget s.collSeq 0 i) ∧ bytesKept s t ∧ Say.goesOn s t

/-- The engine words with what checks their descriptors. -/
def Sys2Proof.Say.engineRows (w : LaneW) : List ((LaneW → Instr) × (State → Planned)) :=
  [(.cpy, planCpy w), (.cpyt, planCpyt w), (.gath, planGs w false), (.scat, planGs w true), (.coll, planColl w)]

/-- R222, R223, R228, R232, R268: an engine word whose descriptor passes is issued while fewer than 64 operations of its group are in flight and
every die has room for its ranges; without room it waits, and while its layout record is not there; a refused descriptor stops the context. What
a window answered to the read of a record is used up with the issue (`clearWin`). -/
def Sys2Proof.Say.engineWordsIssue : Prop :=
  ∀ (s : State) (w : LaneW), Say.noSibling s → active s w ≠ 0 → w.ord = .rlx → ∀ r ∈ Say.engineRows w,
    (∀ s' p, r.2 s = .plan s' p → eopsOf s' s'.g.uid < 64 → lockRoom s' s'.l.ctx (p.src ++ p.dst) = true →
      completes (r.1 w) s fun t => Say.engIssued (clearWin s' (.group s'.g.uid) (curF s').id) t p) ∧
    (∀ s' p, r.2 s = .plan s' p → 64 ≤ eopsOf s' s'.g.uid ∨ lockRoom s' s'.l.ctx (p.src ++ p.dst) = false →
      exec (r.1 w) s = .next (stall s' 3 0)) ∧
    (∀ s', r.2 s = .wait s' → exec (r.1 w) s = .next s') ∧
    (∀ c va, r.2 s = .fault c va → exec (r.1 w) s = .next (laneFault s c va))

/-- R223, R226, R227, R252, R269 to R272: the plans of a copy, a layout copy, a gather, a scatter and a collective: lengths of 1 to
4 194 304 bytes, ranges that do not meet; a layout copy moves the box of its record of 64 bytes; element t of a gather lies at the
thread's address and at its place of the contiguous range; a collective takes the next number of a slot that holds a set (log 16). -/
def Sys2Proof.Say.enginePlans : Prop :=
  ∀ (s : State) (w : LaneW) (sa sb : Space) (va vb : Nat) (bar : Option Acc),
    let u (i : Nat) : Nat := (readU s.g (w.x24.toNat % 64 + i)).toNat
    (packedOf (u 0) = some (sa, va) → packedOf (u 1) = some (sb, vb) → barOf s (u 2) = some bar →
      let n := u 2 % 2 ^ 24
      (n = 0 ∨ 4194304 < n → planCpy w s = .fault .engineDescriptor 0) ∧
      (1 ≤ n → n ≤ 4194304 → rngsMeet (rangesOf s sa va n) (rangesOf s sb vb n) = true → planCpy w s = .fault .rangeOverlap va) ∧
      (1 ≤ n → n ≤ 4194304 → rngsMeet (rangesOf s sa va n) (rangesOf s sb vb n) = false →
        planCpy w s = .plan s { kind := .cpy (rawAcc sa va n) (rawAcc sb vb n), total := n, bar := bar,
                                src := rangesOf s sa va n, dst := rangesOf s sb vb n })) ∧
    (packedOf (u 0) = some (sb, vb) → barOf s (u 1) = some bar → u 1 % 2 ^ 24 = 0 →
      let z := 2 ^ (w.x24.toNat / 2 ^ 15 % 4)
      let ts := threads (active s w)
      let at' (th : Nat) : Nat := readV64 s.g w.a.idx.toNat th
      let els := ts.map (fun th => (th, at' th))
      let sp := (spaceOfCode (w.x24.toNat / 2 ^ 12 % 8)).getD .g
      let lo := (ts.map at').foldl min ((ts.map at').headD 0)
      let hi := (ts.map at').foldl max ((ts.map at').headD 0) + z
      let per := rangesOf s sp lo (hi - lo)
      let con := rangesOf s sb (vb + z * ts.headD 0) (z * (ts.foldl max 0 + 1 - ts.headD 0))
      ((∀ th ∈ ts, at' th % z = 0) → vb % z = 0 →
        (rngsMeet per con = true → planGs w false s = .fault .rangeOverlap lo ∧ planGs w true s = .fault .rangeOverlap lo) ∧
        (rngsMeet per con = false →
          planGs w false s = .plan s { kind := .gath els sp (rawAcc sb vb 0), total := z * ts.length, esize := z, bar := bar,
                                       src := per, dst := con } ∧
          planGs w true s = .plan s { kind := .scat els sp (rawAcc sb vb 0), total := z * ts.length, esize := z, bar := bar,
                                      src := con, dst := per })) ∧
      (∀ th q, ts = th :: q → at' th % z ≠ 0 → planGs w false s = .fault .misaligned (at' th) ∧ planGs w true s = .fault .misaligned (at' th)) ∧
      ((∀ th ∈ ts, at' th % z = 0) → vb % z ≠ 0 → planGs w false s = .fault .misaligned vb) ∧
      (∀ p, planGs w false s = .plan s p → p.kind = .gath els ((spaceOfCode (w.x24.toNat / 2 ^ 12 % 8)).getD .g) (rawAcc sb vb 0) ∧
        p.total = z * ts.length ∧ p.esize = z ∧ p.bar = bar) ∧
      (∀ p, planGs w true s = .plan s p → p.kind = .scat els ((spaceOfCode (w.x24.toNat / 2 ^ 12 % 8)).getD .g) (rawAcc sb vb 0) ∧
        p.total = z * ts.length ∧ p.esize = z ∧ p.bar = bar)) ∧
    (packedOf (u 0) = none ∨ barOf s (u 2) = none → planCpy w s = .fault .engineDescriptor 0) ∧
    (packedOf (u 0) = some (sa, va) → packedOf (u 1) = some (sb, vb) → barOf s (u 2) = some bar → u 2 % 2 ^ 24 = 0 →
      (va % 64 ≠ 0 → planCpyt w s = .fault .layoutRecord va) ∧
      (∀ s' l so vo, va % 64 = 0 → readRecord s sa va = .inr (s', l) → packedOf ((l[0]?).getD 0) = some (so, vo) →
        (layoutOk l vo vb = false → planCpyt w s = .fault .layoutRecord va) ∧
        (∀ lo hi, layoutOk l vo vb = true → boxRange l = some (lo, hi) →
          let n := lEsize l * boxCount l
          (rngsMeet (rangesOf s' so (vo + lo) (hi - lo)) (rangesOf s' sb vb n) = true → planCpyt w s = .fault .rangeOverlap vo) ∧
          (rngsMeet (rangesOf s' so (vo + lo) (hi - lo)) (rangesOf s' sb vb n) = false →
            planCpyt w s = .plan s' { kind := .cpyt l (rawAcc sb vb n), total := n, esize := lEsize l, bar := bar,
                                      src := rangesOf s' so (vo + lo) (hi - lo), dst := rangesOf s' sb vb n })))) ∧
    (∀ vr, vr % 64 = 0 → vr + 64 ≤ s.t.scrB → s.path = [] → s.locks = [] → vr + 64 ≤ 2 ^ 57 →
      pzScratch s (.team s.t.uid vr) 64 = false →
      ∃ s', readRecord s .s vr = .inr (s', (iota 0 8).map (fun i => leNat (rdScratch s (.team s.t.uid (vr + 8 * i)) 8)))) ∧
    (packedOf (u 0) = some (sa, va) → packedOf (u 1) = some (sb, vb) → barOf s (u 2) = some bar →
      let n := u 2 % 2 ^ 24
      let slot := w.x24.toNat / 2 ^ 6 % 64
      let z := tySize w.ty
      (slotReady s slot = false ∨ n % z ≠ 0 ∨ n < 8 ∨ 4194304 < n → planColl w s = .fault .engineDescriptor 0) ∧
      (slotReady s slot = true → n % z = 0 → 8 ≤ n → n ≤ 4194304 → rngsMeet (rangesOf s sa va n) (rangesOf s sb vb n) = false →
        planColl w s = .plan s { kind := .coll (rawAcc sa va n) (rawAcc sb vb n) (w.x24.toNat % 64) w.ty (rndOf s.l w.rnd) slot (mget s.collSeq 0 slot + 1),
                                 total := n, esize := z, bar := bar, src := rangesOf s sa va n, dst := rangesOf s sb vb n }))

/-- R224 to R226: the element of a layout record at a box position. Inside the tensor it lies at the sum of coordinate times step, with
dimension 0 contiguous; outside, an edge of 1 gives zero bits, another edge the reflected coordinate; a convolution adds stride and offset. -/
def Sys2Proof.Say.layoutElements : Prop :=
  ∀ (l : List Nat) (d i : Nat), lEdge l < 2 →
    (lConv l = false → coordRaw l d i = lOrg l d + i) ∧
    (lConv l = true → coordRaw l 1 i = lOrg l 1 + (lbits l 427 424 + 1) * i + lsint l 399 392 - lbits l 415 408) ∧
    (lConv l = false → 0 ≤ coordRaw l d i → coordRaw l d i < lExt l d → coord l d i = .at (coordRaw l d i).toNat false) ∧
    (lConv l = false → coordRaw l d i < 0 ∨ (lExt l d : Int) ≤ coordRaw l d i →
      (lEdge l = 1 → coord l d i = .zero) ∧ (lEdge l = 0 → ∃ c, coord l d i = .at c true ∧ c < lExt l d)) ∧
    (∀ k c0 c1 c2 c3, (∀ j c, (j, c) ∈ [(0, c0), (1, c1), (2, c2), (3, c3)] → coord l j (boxIdx l k j) = .at c false) →
      boxElem l k = (some (c0 * lEsize l + c1 * lStep l 1 + c2 * lStep l 2 + c3 * lStep l 3), 0))

/-- R222 to R228, R232, R252, R268 to R272: engine words, their plans and the elements of a layout. That a collective takes its number when it
is issued is the model's reading (log 16: R272 numbers it where it enters the collective engine). -/
def Obligations.EngineIssue : Prop := Say.engineWordsIssue ∧ Say.enginePlans ∧ Say.layoutElements

/-- R229 to R231, R273, R274: `bclose` closes the open batch and gives its number modulo 65 536, and waits while 32 closed batches are not
complete; `bwait` waits until every batch up to its number is complete, then takes their vectors into O and, with X24 1, gives the
combined status of those not yet returned; a number ahead of the last closed one stops the context. -/
def Sys2Proof.Say.engineBatches : Prop :=
  ∀ (s : State) (w : LaneW) (f : Frag), chansReady s w = .ok → fget s.g.frs s.fi = some f → active s w ≠ 0 → s.g.uid ≠ 0 →
    (openClosed s.g < 32 → completes (.bclose w) s fun t => t.g.batchNo = s.g.batchNo + 1 ∧ (∃ b ∈ t.g.batches, b.no = s.g.batchNo + 1) ∧
      Say.registersGiven s t w .n32 (fun _ => (s.g.batchNo + 1) % 65536) ∧ t.g.k = s.g.k ∧
      (∀ c, w.dchan = true → c = w.d.toNat → c < 8 → wordQ t.g c = wordQ s.g c ++ [BitVec.ofNat 64 ((s.g.batchNo + 1) % 65536)]) ∧
      sameButGroup s t ∧ noResults { t.g with batches := [], batchNo := 0 } = noResults { s.g with batches := [], batchNo := 0 } ∧ Say.goesOn s t) ∧
    (32 ≤ openClosed s.g → ∃ t, exec (.bclose w) s = .next t ∧ onlyFrags s t ∧ fget t.g.frs s.fi = some { f with blk := some 3 }) ∧
    (∀ th d, lowest (active s w) = some th → (s.g.batchNo + 2 ^ 16 - opndVal s .n32 w.a 0 th % 2 ^ 16) % 2 ^ 16 = d →
      let n := s.g.batchNo - d
      let upTo := s.g.batches.filter (fun b => decide (b.no ≤ n))
      (2 ^ 15 ≤ d → exec (.bwait w) s = .next (laneFault s .batchNumber 0)) ∧
      (d < 2 ^ 15 → (∃ b ∈ upTo, b.done = false) → ∃ t, exec (.bwait w) s = .next t ∧ onlyFrags s t ∧
        fget t.g.frs s.fi = some { f with blk := some 4 }) ∧
      (d < 2 ^ 15 → (∀ b ∈ upTo, b.done = true) → w.ord = .rlx → completes (.bwait w) s fun t =>
        t.g.obs = upTo.foldl (fun v b => v4max v b.vec) s.g.obs ∧ sameButGroup s t ∧ t.g.k = s.g.k ∧ Say.goesOn s t ∧
        Say.channelsMoved s t { w with dchan := false } 0 [] ∧
        (w.x24.toNat ≠ 1 → t.g.v = s.g.v) ∧
        (w.x24.toNat = 1 → ∀ r th, th < 64 → readV t.g r th =
          if (active s w).getLsbD th = true ∧ r = w.d.toNat then
            BitVec.ofNat 32 ((upTo.filter (fun b => !b.returned)).foldl (fun x b => x ||| b.status) 0)
          else readV s.g r th)))

/-- R221, R228, R230, R233, R234, R237: the moves of an engine operation: it starts once no earlier one holds a range in its way; each of its
reads may be made at any time, in any order, and brings bytes of one aligned 4-byte unit; the bytes that go to one such unit of the
destination enter its path as one store once all are there. That a read brings at most four bytes of one aligned unit is the model's reading
(log 16: R221 gives the unit to stores). An operation that has moved and delivered everything leaves, with its ranges, and counts in its batch. -/
def Sys2Proof.Say.engineMoves : Prop :=
  ∀ (s : State) (id : Nat) (e : EngOp), getE s id = some e → e.stopped = false → e.suspended = false → heldBack s e.id = false →
    let of (dst : Bool) : List Rng := (s.locks.filter (fun k => k.op == e.id && k.dst == dst)).map lockRng
    (e.started = false → conflicts s e.ctx e.id (of false) (of true) = false → completes (.engineOpStart id) s fun t =>
      (∃ e', getE t id = some e' ∧ e' = { e with started := true }) ∧ bytesKept s t ∧ t.path = s.path ∧ t.locks = s.locks) ∧
    (conflicts s e.ctx e.id (of false) (of true) = true → exec (.engineOpStart id) s = .next s) ∧
    (∀ j s1 data vec pz, e.started = true → e.result = none → j < e.total → 0 < e.esize → inRuns e.todo j = true →
      e.whole.contains ((engUnit e j).headD 0) = false →
      let team := (getT s e.team).getD {}
      let p := engPiece e j
      let e1 := engTake e p.1 data vec pz
      (p.1 ≤ j ∧ j < p.1 + p.2 ∧ p.2 ≤ 4) ∧
      (engLoad s e team (engSrc e p.1).1 p.2 = .got s1 data vec pz → data.length = p.2 →
        (isColl e = true ∨ (∀ i, p.1 ≤ i → i < p.1 + p.2 → unitRead s e1 (engUnit e1 i) = false) →
          exec (.engineRead { e := id, j := j }) s = .next (updE s1 e.id (fun _ => e1))) ∧
        (∀ a b acc, e.kind = .cpy a b → a.va % 4 = b.va % 4 → mwf (fun _ => (0 : Byte)) e.bytes = true →
          (∀ r ∈ s.wins, r.owner ≠ .engine e.id) → (∀ i ∈ e.pzs, i < p.1 ∨ p.1 + p.2 ≤ i) →
          checkAcc s e.group team e.ctx 0 b.sp .store (b.va + p.1) p.2 1 = .ok acc → completes (.engineRead { e := id, j := j }) s fun t =>
          (∃ e', getE t id = some e' ∧ e'.rd = e.rd + p.2 ∧ e'.vec = v4max e.vec vec ∧
            ∀ i, inRuns e'.todo i = (inRuns e.todo i && !decide (p.1 ≤ i ∧ i < p.1 + p.2))) ∧ bytesKept s t ∧
          ∃ x, t.path = s.path ++ [x] ∧ x.op = .store ∧ x.owner = .engine e.id ∧ x.acc = acc ∧ x.x = leNat data ∧ x.st = .sent ∧
            x.vec = v4max e.vec vec ∧ x.poison = pz ∧ x.be = 0 ∧ x.credit = p.2)) ∧
      (∀ pa, engLoad s e team (engSrc e p.1).1 p.2 = .window pa → completes (.engineRead { e := id, j := j }) s fun t =>
        bytesKept s t ∧ t.path = s.path ∧ ∃ r, t.wins = s.wins ++ [r] ∧ r.kind = .load ∧ r.owner = .engine e.id ∧ r.pa = pa ∧ r.n = p.2 ∧ r.t = p.1) ∧
      (∀ c va, engLoad s e team (engSrc e p.1).1 p.2 = .fault c va →
        exec (.engineRead { e := id, j := j }) s = .next (engFault s e c va (akindNo .load)))) ∧
    (∀ a n w u, e.bar = some a → 0 < n → e.delivered + n ≤ e.ackd →
      barMove s a false 0 n e.vec { team := e.teamIdx, core := e.core, ctx := e.ctx, engine := true } = .ok w u →
      ∀ e1, getE u id = some e1 → completes (.engineDelivery id n) s fun t =>
        getE t id = some { e1 with delivered := e1.delivered + n } ∧ t.t = u.t ∧ t.teams = u.teams ∧ bytesKept u t) ∧
    (∀ x o, e.group ≠ 0 → getG s e.group = some x → getOp x e.lop = some o → o.left = 1 → o.parts = [] → engMoved e = true →
      (∀ u, getT s e.team = some u → u.slot ≠ .retired) → e.bar = none ∨ e.delivered = e.total → completes (.engineOpComplete id) s fun t =>
        (∀ k ∈ t.eops, k.id ≠ id) ∧ (∀ k ∈ t.locks, k.op ≠ e.id) ∧ Say.ended s t e.group o ∧ t.mem = s.mem) ∧
    (engMoved e = false → exec (.engineOpComplete id) s = .next s)

/-- R253, R254, R272: once every member's contribution has been read, each element of a collective's result combines those of the members in
log-step order; contributions of another length end it with a remote error. The causes that the combine raises go to the log (log 13). -/
def Sys2Proof.Say.collectiveResults : Prop :=
  ∀ (s : State) (id : Nat) (e : EngOp) (src dst : Acc) (code slot seq : Nat) (ty : LType) (rnd : Rnd) (peers : List (Nat × List Word)),
    getE s id = some e → e.kind = .coll src dst code ty rnd slot seq → e.stopped = false → e.suspended = false → heldBack s e.id = false →
    e.started = true → e.result = none → e.total ≤ e.rd →
    let me := sysBits s 0x0100 8 0
    let n := e.total / e.esize
    let members := mget s.sets [] slot
    let own := (iota 0 n).map (collElem e.esize (mgets e.bytes 0 0 e.total))
    let given (m : Nat) : List Nat := if m = me then own
      else ((peers.find? (fun p => p.1 == m)).map (fun p => p.2.map (fun x => x.toNat % 256 ^ e.esize))).getD []
    let l := (getL s e.launch).getD {}
    ((∀ p ∈ peers, p.1 ∈ members ∧ p.1 ≠ me ∧ p.2.length = n) → (∀ m ∈ members, m ≠ me → ∃ p ∈ peers, p.1 = m) → members.length ≤ 512 →
      completes (.collectiveCombine id peers) s fun t => bytesKept s t ∧ t.path = s.path ∧ ∃ e', getE t id = some e' ∧
        e' = { e with result := some ((iota 0 n).flatMap (fun i => leBytes e.esize
          ((Say.logStep (fun x y => (atomNew (fpctl l) code ty rnd x y).code) 9
            ((members.map (fun m => some (((given m)[i]?).getD 0))) ++ List.replicate (512 - members.length) none)).getD 0))), todo := [(0, e.total)], bytes := [] }) ∧
    (∀ p ∈ peers, p.1 ∉ members ∨ p.1 = me → exec (.collectiveCombine id peers) s = .next (engFault s e .remoteError 0 0)) ∧
    (∀ p ∈ peers, p.1 ∈ members → p.1 ≠ me → (peers.find? (fun q => q.1 == p.1)) = some p → p.2.length ≠ n →
      exec (.collectiveCombine id peers) s = .next (engFault s e .remoteError 0 0))

/-- R221, R228 to R234, R237, R253, R254, R272 to R274: batches, moves and results of the engines. That a read brings at most four bytes of one
aligned unit is the model's reading (log 16). -/
def Obligations.EngineEffects : Prop := Say.engineBatches ∧ Say.engineMoves ∧ Say.collectiveResults

/-! ### Channels between groups and streams (R240, R241) -/

/-- R38, R239 to R241: the oldest entry of a joined neighbour-out channel moves to the end of its neighbour-in channel while that has room; a stream-in
channel of word width gains the eight bytes at its position; a stream-out channel sends its oldest entry as two stores of four bytes. -/
def Obligations.ChannelTransfers : Prop :=
  (∀ (s : State) (g c : Nat) (x y : Group) (b i : Bind), g ≠ 0 → getG s g = some x → getBind x c 0 = some b → joined s x b = some (y, i) →
    y.uid ≠ 0 → y.uid ≠ g → getG s y.uid = some y → b.vec = false → chanVec x c = false → chanVec y i.chan = false →
    chanRuns s x = true → chanRuns s y = true →
    (∀ z q, wordQ x c = z :: q → (wordQ y i.chan).length < 16 → completes (.neighbourEntryTransfer g c) s fun t =>
      (∃ x' y', getG t g = some x' ∧ getG t y.uid = some y' ∧ wordQ x' c = q ∧ wordQ y' i.chan = wordQ y i.chan ++ [z]) ∧ bytesKept s t) ∧
    (wordQ x c = [] ∨ 16 ≤ (wordQ y i.chan).length → exec (.neighbourEntryTransfer g c) s = .next s)) ∧
  (∀ (s : State) (g c : Nat) (x : Group) (b : Bind), g ≠ 0 → getG s g = some x → getBind x c 2 = some b → b.vec = false → b.buf = [] →
    chanVec x c = false → chanRuns s x = true → b.sp = .s → (b.addr + 8 * b.pos) % 8 = 0 →
    b.addr + 8 * b.pos + 8 ≤ (teamOfG s x).scrB → b.addr + 8 * b.pos + 8 ≤ 2 ^ 57 →
    pzScratch s (.team (teamOfG s x).uid (b.addr + 8 * b.pos)) 8 = false → (∀ w ∈ s.wins, w.owner ≠ .stream g) →
    (wordQ x c).length < 16 → completes (.streamInFill g c) s fun t => bytesKept s t ∧ ∃ y, getG t g = some y ∧
      wordQ y c = wordQ x c ++ [BitVec.ofNat 64 (leNat (rdScratch s (.team (teamOfG s x).uid (b.addr + 8 * b.pos)) 8))] ∧
      ∃ b', getBind y c 2 = some b' ∧ b'.pos = b.pos + 1) ∧
  (∀ (s : State) (g c : Nat) (x : Group) (b : Bind) (z : Word) (q : List Word), g ≠ 0 → getG s g = some x → getBind x c 3 = some b →
    b.vec = false → chanVec x c = false → chanRuns s x = true → wordQ x c = z :: q → b.sp = .s → (b.addr + 8 * b.pos) % 8 = 0 →
    b.addr + 8 * b.pos + 8 ≤ (teamOfG s x).scrB → b.addr + 8 * b.pos + 8 ≤ 2 ^ 57 →
    completes (.streamOutWrite g c) s fun t => bytesKept s t ∧
      (∃ y, getG t g = some y ∧ wordQ y c = q ∧ ∃ b', getBind y c 3 = some b' ∧ b'.pos = b.pos + 1) ∧
      ∃ e1 e2, t.path = s.path ++ [e1, e2] ∧ e1.x = z.toNat % 2 ^ 32 ∧ e2.x = z.toNat / 2 ^ 32 ∧ e1.owner = .stream g ∧ e2.owner = .stream g ∧
        e1.acc.loc = .team (teamOfG s x).uid (b.addr + 8 * b.pos) ∧ e2.acc.loc = .team (teamOfG s x).uid (b.addr + 8 * b.pos + 4) ∧
        e1.acc.n = 4 ∧ e2.acc.n = 4)

/-! ### Barriers and flag waits (R235 to R238, R275 to R281) -/

/-- A group without its vector O. -/
def Sys2Proof.Say.noObs (g : Group) : Group := { noResults g with obs := {} }

/-- R235, R236: one move on a barrier word in a team's scratchpad: posted bytes add, delivered bytes subtract, an arrival counts down. With no
arrival and no byte outstanding the phase flips, the count reloads and an overrun is marked. An illegal word or an arrival too many is a bad
barrier, a byte count outside 24 bits a range fault, and nothing is written. -/
def Sys2Proof.Say.barrierMove : Prop :=
  ∀ (s : State) (a : Acc) (u off : Nat) (x : Team) (arrive : Bool) (posted delivered : Nat) (vec : V4) (who : BarBy),
    a.loc = .team u off → u ≠ 0 → getT s u = some x → pzScratch s a.loc 8 = false → mwf (fun _ => (0 : Byte)) x.scr = true → Say.calm s →
    let w := leNat (mgets x.scr 0 off 8)
    let arr := w / 2 ^ 48 % 2 ^ 15
    let rld := w / 2 ^ 24 % 2 ^ 15
    let tx : Int := (BitVec.ofNat 24 w).toInt + posted - delivered
    let legal : Prop := off % 8 = 0 ∧ rld ≠ 0 ∧ w / 2 ^ 39 % 2 ^ 8 = 0 ∧ (arrive = true → arr ≠ 0)
    (¬legal → barMove s a arrive posted delivered vec who = .bad .badBarrier) ∧
    (legal → tx < -(2 ^ 23) ∨ 2 ^ 23 ≤ tx → barMove s a arrive posted delivered vec who = .bad .barrierRange) ∧
    (legal → -(2 ^ 23) ≤ tx → tx < 2 ^ 23 → ∃ t y, barMove s a arrive posted delivered vec who = .ok w t ∧ getT t u = some y ∧
      let n := arr - arrive.toNat
      let phase := w / 2 ^ 63 % 2
      leNat (mgets y.scr 0 off 8) = (if n = 0 ∧ tx ≤ 0 then
          (1 - phase) * 2 ^ 63 + rld * 2 ^ 48 + (if tx < 0 then 2 ^ 47 else 0) + rld * 2 ^ 24
        else phase * 2 ^ 63 + n * 2 ^ 48 + (w / 2 ^ 47 % 2) * 2 ^ 47 + rld * 2 ^ 24 + (tx % 2 ^ 24).toNat) ∧
      (∀ i, i < off ∨ off + 8 ≤ i → mget y.scr 0 i = mget x.scr 0 i) ∧ t.mem = s.mem)

/-- Nothing differs but results, and every completion flag counts what it did. -/
def Sys2Proof.Say.onlyFlagsMoved (s t : State) : Prop :=
  sameButGroup s t ∧ noResults { t.g with fl := [] } = noResults { s.g with fl := [] } ∧ ∀ i, mget t.g.fl 0 i = mget s.g.fl 0 i

/-- R275 to R278: `barx` posts bytes, `bara` also arrives and gives each active thread the phase that the word had, `barw` goes on once the phase
differs from its parity, with the overrun mark in its predicate and the published vector in O, and parks before; a parked `barw` reads its word
again. A word that is not aligned to eight bytes or lies in another space stops the context. That the operation of a `barx` or `bara` begins and
completes within its move, so that its flags count as before, is the model's choice (log 18). -/
def Sys2Proof.Say.barrierWords : Prop :=
  (∀ (s : State) (w : LaneW) (th : Nat) (a : Acc), chansReady s w = .ok → lowest (active s w) = some th → w.ord = .rlx →
    checkAll s (memSpace w) .load 8 4 (laneEa s w) [th] = .ok [(th, a)] → checkAll s (memSpace w) .atom 8 4 (laneEa s w) [th] = .ok [(th, a)] →
    (locked s s.l.ctx a true = false → a.va % 8 ≠ 0 ∨ memSpace w = .g ∨ memSpace w = .d ∨ memSpace w = .l →
      exec (.barx w) s = .next (laneFault s .badBarrier a.va) ∧ exec (.bara w) s = .next (laneFault s .badBarrier a.va)) ∧
    (a.va % 8 = 0 → memSpace w = .s ∨ memSpace w = .k → ownPending s a = false →
      (∀ v u, locked s s.l.ctx a true = false → barMove s a false (vB s .n32 w th) 0 {} (barBy s) = .ok v u →
        completes (.barx w) s fun t => Say.onlyFlagsMoved u t ∧ t.g.v = u.g.v ∧ t.g.k = u.g.k ∧ Say.goesOn u t) ∧
      (∀ v u, locked s s.l.ctx a true = false → barMove s a true (vB s .n32 w th) 0 {} (barBy s) = .ok v u →
        completes (.bara w) s fun t => Say.onlyFlagsMoved u t ∧ t.g.k = u.g.k ∧ Say.goesOn u t ∧
          Say.registersGiven u t w .n32 (fun _ => v / 2 ^ 63 % 2)) ∧
      (∀ c, locked s s.l.ctx a true = false → barMove s a false (vB s .n32 w th) 0 {} (barBy s) = .bad c →
        exec (.barx w) s = .next (laneFault s c a.va)) ∧
      (locked s s.l.ctx a false = false → (rdPoint s a).2.2 = false → barLegal (rdPoint s a).1 = true →
        let x := (rdPoint s a).1
        (x / 2 ^ 63 % 2 ≠ vB s .n32 w th % 2 → completes (.barw w) s fun t => sameButGroup s t ∧ Say.noObs t.g = Say.noObs s.g ∧
          t.g.v = s.g.v ∧ Say.goesOn s t ∧
          (∀ u off y, a.loc = .team u off → getT s u = some y → t.g.obs = v4max s.g.obs (mget y.barPub {} off)) ∧
          ∀ n i, i < 64 → (readK t.g n).getLsbD i = if n = w.d.toNat ∧ n ≠ 0 ∧ (active s w).getLsbD i = true then x.testBit 47
            else (readK s.g n).getLsbD i) ∧
        (∀ f, fget s.g.frs s.fi = some f → x / 2 ^ 63 % 2 = vB s .n32 w th % 2 → completes (.barw w) s fun t =>
          bytesKept s t ∧ t.g.v = s.g.v ∧ t.g.k = s.g.k ∧ fget t.g.frs s.fi =
            some { f with blk := some 4, wait := .barrier a (vB s .n32 w th % 2 == 1) w.d.toNat (active s w) .rlx w.scp }))) ∧
    (a.va % 8 = 0 → memSpace w = .s → locked s s.l.ctx a true = false → ownPending s a = true → exec (.barx w) s = .next s)) ∧
  (∀ (s : State) (g f e : Nat) (x : Group) (fr : Frag) (a : Acc) (p : Bool) (kd : Nat) (act : Mask) (scp : Scope), g ≠ 0 → getG s g = some x →
    entryOfFrag x f = some (e, fr) → fget x.frs e = some fr → fr.wait = .barrier a p kd act .rlx scp → (teamOfG s x).slot ≠ .out →
    locked s (focus s g).l.ctx a false = false → (rdPoint s a).2.2 = false → fr.idx < fr.len →
    ((rdPoint s a).1.testBit 63 = p → completes (.barwWake g f) s fun t => t = focus s g) ∧
    ((rdPoint s a).1.testBit 63 ≠ p → completes (.barwWake g f) s fun t => bytesKept (focus s g) t ∧
      fget t.g.frs e = some { fr with wait := .go, blk := none, idx := fr.idx + 1 } ∧
      ∀ n i, i < 64 → (readK t.g n).getLsbD i = if n = kd ∧ n ≠ 0 ∧ act.getLsbD i = true then (rdPoint s a).1.testBit 47
        else (readK x n).getLsbD i))

/-- R235, R236, R275 to R278: the barrier word and the words of the lane stream upon it. -/
def Obligations.MemoryBarriers : Prop := Say.barrierMove ∧ Say.barrierWords

/-- R279, R280: a named barrier of a whole group. An arrival that is not the last is counted, and waits when its code is 0; the last one flips the
phase, and no group of the team stays parked at it; another count than the phase's is a bad barrier; a fragment waits for the rest of its
group first. -/
def Sys2Proof.Say.namedBarriers : Prop :=
  ∀ (s : State) (w : LaneW) (f : Frag), fget s.g.frs s.fi = some f → w.ord = .rlx →
    let n := w.x24.toNat % 16
    let b := mget s.t.nb {} n
    let e := if w.x24.toNat / 16 % 32 = 0 then s.t.ngrp else w.x24.toNat / 16 % 32
    (f.mask = BitVec.allOnes 64 → active s w ≠ 0 → f.wait = .go → f.idx < f.len → s.g.uid ≠ 0 →
      (b.arrived ≠ 0 → e ≠ b.expected → exec (.nbar w) s = .next (laneFault s .badBarrier 0)) ∧
      (b.arrived = 0 ∨ e = b.expected → b.arrived + 1 ≠ e → completes (.nbar w) s fun t => bytesKept s t ∧ laneRegsKept s t ∧
        (mget t.t.nb {} n).arrived = b.arrived + 1 ∧ (mget t.t.nb {} n).phase = b.phase ∧ (mget t.t.nb {} n).expected = e ∧
        fget t.g.frs s.fi = some (if w.c.idx.toNat = 0 then { f with idx := f.idx + 1, blk := some 4, wait := .named n b.phase .rlx w.scp }
          else { f with idx := f.idx + 1, blk := none })) ∧
      (b.arrived = 0 ∨ e = b.expected → b.arrived + 1 = e → completes (.nbar w) s fun t => bytesKept s t ∧ laneRegsKept s t ∧
        mget t.t.nb {} n = { phase := !b.phase, expected := e } ∧ Say.goesOn s t ∧
        (w.c.idx.toNat = 0 → t.g.obs = v4max s.g.obs b.vec) ∧
        ∀ u x, u ≠ 0 → u ≠ s.g.uid → getG s u = some x → x.team = s.t.uid → ∃ y, getG t u = some y ∧
          ∀ p ∈ y.frs, ∀ ph ord scp, p.2.wait ≠ .named n ph ord scp)) ∧
    (f.mask ≠ BitVec.allOnes 64 → s.g.frs = [(s.fi, f)] → ∃ t, exec (.nbar w) s = .next t ∧ onlyFrags s t ∧
      fget t.g.frs s.fi = some { f with wait := .gather, blk := some 4 })

/-- Comparisons of R281. -/
def Sys2Proof.Say.satisfied (cc x b : Nat) : Prop :=
  match cc with
  | 0 => x = b
  | 1 => x ≠ b
  | 2 => x < b
  | 3 => x ≤ b
  | 4 => b < x
  | 5 => b ≤ x
  | 6 => x &&& b ≠ 0
  | _ => x &&& b = 0

/-- R238, R281: `waitf` reads its word at the order point: satisfied, it goes on with the word's vector in O; else it parks with a monitor. With
64 monitors of its core in use it waits; a word in a window stops the context; a monitor that has read a satisfying value wakes it. -/
def Sys2Proof.Say.flagWaits : Prop :=
  (∀ (s : State) (w : LaneW) (th : Nat) (a : Acc) (f : Frag), chansReady s w = .ok → lowest (active s w) = some th → w.ord = .rlx →
    fget s.g.frs s.fi = some f → checkAll s (memSpace w) .load 8 8 (laneEa s w) [th] = .ok [(th, a)] →
    (remoteWord s a = true → exec (.waitf w) s = .next (laneFault s .remoteMonitor a.va)) ∧
    (remoteWord s a = false → locked s s.l.ctx a false = false →
      let r := rdPoint s a
      let b := opndVal s .n64 w.b (skipB w) th
      (64 ≤ monitorsUsed s s.t.core → ∃ t, exec (.waitf w) s = .next t ∧ onlyFrags s t ∧ fget t.g.frs s.fi = some { f with blk := some 4 }) ∧
      (monitorsUsed s s.t.core < 64 → scattered s a = none → r.2.2 = false →
        (Say.satisfied w.c.idx.toNat r.1 b → completes (.waitf w) s fun t => sameButGroup s t ∧ Say.noObs t.g = Say.noObs s.g ∧
          t.g.obs = v4max s.g.obs r.2.1 ∧ t.g.v = s.g.v ∧ t.g.k = s.g.k ∧ Say.goesOn s t ∧ Say.channelsMoved s t { w with dchan := false } 0 []) ∧
        (¬Say.satisfied w.c.idx.toNat r.1 b → completes (.waitf w) s fun t => sameButGroup s t ∧ noResults t.g = noResults s.g ∧ t.g.v = s.g.v ∧
          t.g.k = s.g.k ∧ fget t.g.frs s.fi = some { f with blk := some 4, wait := .monitor a w.c.idx.toNat b .rlx w.scp })))) ∧
  (∀ (s : State) (g f e : Nat) (x : Group) (fr : Frag) (vec : V4) (scp : Scope), g ≠ 0 → getG s g = some x → entryOfFrag x f = some (e, fr) →
    fget x.frs e = some fr → fr.wait = .monHit vec .rlx scp → (teamOfG s x).slot ≠ .out → fr.idx < fr.len →
    completes (.monitorWake g f) s fun t => sameButGroup (focus s g) t ∧ t.g.obs = v4max x.obs vec ∧ t.g.v = x.v ∧ t.g.k = x.k ∧
      fget t.g.frs e = some { fr with wait := .go, blk := none, idx := fr.idx + 1 })

/-- R238, R279 to R281: named barriers and waits on a flag. -/
def Obligations.NamedBarriersAndFlagWaits : Prop := Say.namedBarriers ∧ Say.flagWaits

/-! ### The Carafe (R309 to R323, R340 to R342) -/

/-- A claim word has begun with the name at `a`: its operation is in flight, holds its registers pending and loads the four words of the
name; the fragment stands at its word and waits. -/
def Sys2Proof.Say.nameBegun (s t : State) (w : LaneW) (regs handle : Nat) (a : Acc) (f : Frag) : Prop :=
  sameButGroup s t ∧ bytesKept s t ∧ fget t.g.frs s.fi = some { f with blk := some 3 } ∧
  ∃ o, Say.begun s t o ∧ o.kind = .claim ∧ o.pend = iota w.d.toNat regs ∧ o.left = 1 ∧ o.mid = true ∧ o.act = active s w ∧ o.d = w.d.toNat ∧
    o.parts = (iota 0 4).map (fun j => ⟨j, { a with va := a.va + 8 * j, loc := locAdd a.loc (8 * j), n := 8 }⟩) ∧ o.vals = [] ∧ o.opnds = [(0, handle, 0)]

/-- The request of a claim word has left with the name and the handle that its operation `o` holds; the operation waits for the answer. -/
def Sys2Proof.Say.requestSent (s t : State) (kind : ReqK) (o : LOp) : Prop :=
  sameButGroup { s with reqs := [] } { t with reqs := [] } ∧ bytesKept s t ∧ t.g.v = s.g.v ∧ t.g.k = s.g.k ∧
  getOp t.g o.id = some { o with mid := false, vals := [], opnds := [] } ∧
  ∃ r, t.reqs = s.reqs ++ [r] ∧ r.kind = kind ∧ r.group = s.g.uid ∧ r.ctx = s.l.ctx ∧ r.domain = domainOf s s.l.ctx ∧
    r.name = (iota 0 4).map (fun j => BitVec.ofNat 64 (valOf o.vals j)) ∧ r.handle = BitVec.ofNat 64 ((o.opnds.map (·.2.1)).headD 0) ∧
    r.vec = s.g.car ∧ r.lop = o.id ∧ r.fid = (curF s).id ∧ r.parked = false

/-- R310, R316, R340 to R342: a word of the claim table loads its name as four words, with its destination pending from there until the answer; once
they are there it sends a request with them to its home. A `claim` or `claimw` waits for the answer, a `claimw` takes a monitor; a `fulfil`
makes its release after the name is there and sends the handle in its operand. Without active threads none of them has an effect but the
order it names. -/
def Obligations.ClaimWords : Prop :=
  (∀ (s : State) (w : LaneW) (th : Nat) (a : Acc) (f : Frag), Say.noSibling s → midOp s = none → lowest (active s w) = some th →
    fget s.g.frs s.fi = some f → checkAll s (memSpace w) .load 32 32 (laneEa s w) [th] = .ok [(th, a)] →
    let loads := (iota 0 4).map (fun j => (j, { a with va := a.va + 8 * j, loc := locAdd a.loc (8 * j), n := 8 }))
    (∀ c ∈ ([.claim, .claimw] : List (LaneW → Instr)), completes (c w) s fun t => Say.nameBegun (roastAll s .load loads) t w 4 0 a f) ∧
    (chansReady s w = .ok → let u := popAll s w
      (completes (.fulfil w) s fun t => Say.nameBegun (roastAll u .load loads) t w 1 (opndVal s .n64 w.b 0 th) a f) ∧
      (completes (.abandon w) s fun t => Say.nameBegun (roastAll u .load loads) t w 1 0 a f))) ∧
  (∀ (s : State) (w : LaneW) (o : LOp) (f : Frag), midOp s = some o → getOp s.g o.id = some o → o.left = 1 → fget s.g.frs s.fi = some f →
    (o.parts ≠ [] ∨ o.vals.length < 4 → ∀ c ∈ ([.claim, .claimw, .fulfil, .abandon] : List (LaneW → Instr)),
      ∃ t, exec (c w) s = .next t ∧ onlyFrags s t ∧ fget t.g.frs s.fi = some { f with blk := some 3 }) ∧
    (o.parts = [] → 4 ≤ o.vals.length →
      (∀ p ∈ ([(.claim, .claim), (.claimw, .claimw)] : List ((LaneW → Instr) × ReqK)), (p.2 = .claimw → monitorsUsed s s.t.core < 64) →
        f.idx < f.len → completes (p.1 w) s fun t => Say.requestSent s t p.2 o ∧
          ∃ c, fget t.g.frs s.fi = some { f with idx := f.idx + 1, blk := some c, wait := .answer o.id }) ∧
      (64 ≤ monitorsUsed s s.t.core → ∃ t, exec (.claimw w) s = .next t ∧ onlyFrags s t ∧ fget t.g.frs s.fi = some { f with blk := some 4 }) ∧
      (∀ v, endRelease s w .fulfil = .pass v → (active s w ≠ 0 → v.g.car = s.g.obs ∧ uCount s s.g.uid = 0) ∧
        completes (.fulfil w) s fun t => Say.requestSent v t .fulfil o ∧ Say.goesOn v t) ∧
      (∀ v, endRelease s w .abandon = .pass v → completes (.abandon w) s fun t => Say.requestSent v t .abandon o ∧ Say.goesOn v t) ∧
      (∀ v, (endRelease s w .fulfil = .hold v → exec (.fulfil w) s = .next v) ∧ (endRelease s w .abandon = .hold v → exec (.abandon w) s = .next v)))) ∧
  (∀ (s : State) (w : LaneW), Say.noSibling s → midOp s = none → active s w = 0 → w.ord = .rlx →
    (∀ c ∈ ([.claim, .claimw] : List (LaneW → Instr)), completes (c w) s fun t => onlyFrags s t ∧ Say.goesOn s t) ∧
    (chansReady s w = .ok → ∀ c ∈ ([.fulfil, .abandon] : List (LaneW → Instr)), completes (c w) s fun t =>
      onlyResults s t ∧ t.g.v = s.g.v ∧ t.g.k = s.g.k ∧ Say.goesOn s t))

/-- Request `r` has been answered with a code and a handle: it is gone, and its group, unless switched out, holds the code in the
operation's register (with a result block the handle two registers on), the operation being over. -/
def Sys2Proof.Say.answered (s t : State) (r : CReq) (code : Nat) (handle : Word) : Prop :=
  (∀ q ∈ t.reqs, q.id ≠ r.id) ∧ ∀ x o, r.group ≠ 0 → getG s r.group = some x → getOp x r.lop = some o → (teamOfG s x).slot ≠ .out →
    (r.kind = .claimw → r.monitor = true) → o.left = 1 → o.parts = [] → o.res = [] → o.kres = [] →
    ∃ y, getG t r.group = some y ∧ getOp y o.id = none ∧ ∀ th, o.act.getLsbD th = true →
      readV y o.d th = BitVec.ofNat 32 code ∧ (isClaim r.kind = true → readV64 y (o.d + 2) th = handle.toNat)

/-- No session is open (R395): nothing is recorded. -/
def Sys2Proof.Say.quiet (s : State) : Prop := ∀ i, i < 16 → tsOpen s i = false

/-- R311, R313 to R319, R322: a request is decided at its home in one move. An absent name becomes the requester's to make; a name in the making is busy
for another and the maker's again for its maker, and a `claimw` is parked at it; a made name gives its handle and vector; a fulfilment by
the maker makes the name; an abandonment with nobody parked removes it; a domain that does not serve refuses. A lease that has run out is a
failure of the maker. -/
def Sys2Proof.Say.claimHomeMoves : Prop :=
  (∀ (s : State) (k : Nat) (r : CReq), s.reqs[k]? = some r → r.parked = false → Say.quiet s → heldBack s r.lop = false →
    (domainServes s r.domain = false → completes (.claimHomeMove k) s fun t =>
      Say.answered s t r (if isClaim r.kind then 3 else 1) 0 ∧ bytesKept s t) ∧
    (domainServes s r.domain = true →
      let x := nameX s r.domain r.name
      (findC s r.domain r.name = none →
        (isClaim r.kind = true → 16 ≤ makerCount s r.group → completes (.claimHomeMove k) s fun t => Say.answered s t r 3 0 ∧ t.claims = s.claims) ∧
        (∀ way, isClaim r.kind = true → makerCount s r.group < 16 → usableWay s r.domain x = some (way, none) →
          completes (.claimHomeMove k) s fun t => Say.answered s t r 0 0 ∧ bytesKept s t ∧ ∃ e, t.claims = s.claims ++ [e] ∧ e.making = true ∧
            e.maker = r.group ∧ e.domain = r.domain ∧ e.name = r.name ∧ e.way = way ∧ e.lease = 0 ∧ e.waiters = []) ∧
        (isClaim r.kind = false → completes (.claimHomeMove k) s fun t => Say.answered s t r 1 0 ∧ t.claims = s.claims)) ∧
      (∀ e, findC s r.domain r.name = some e → e.making = false →
        (isClaim r.kind = true → completes (.claimHomeMove k) s fun t => Say.answered s t r 2 e.handle ∧ bytesKept s t) ∧
        (isClaim r.kind = false → completes (.claimHomeMove k) s fun t => Say.answered s t r 1 0 ∧ t.claims = s.claims)) ∧
      (∀ e, findC s r.domain r.name = some e → e.making = true →
        (isClaim r.kind = true → e.maker = r.group → completes (.claimHomeMove k) s fun t => Say.answered s t r 0 0) ∧
        (r.kind = .claim → e.maker ≠ r.group → completes (.claimHomeMove k) s fun t => Say.answered s t r 1 0 ∧ t.claims = s.claims) ∧
        (r.kind = .claimw → e.maker ≠ r.group → parkedAt s x < 4096 → completes (.claimHomeMove k) s fun t =>
          (∃ q ∈ t.reqs, q.id = r.id ∧ q.parked = true) ∧ (∃ e' ∈ t.claims, e'.id = e.id ∧ r.id ∈ e'.waiters) ∧ bytesKept s t) ∧
        (r.kind = .fulfil → e.maker = r.group → e.waiters = [] → completes (.claimHomeMove k) s fun t => Say.answered s t r 0 0 ∧
          ∃ e' ∈ t.claims, e'.id = e.id ∧ e'.making = false ∧ e'.handle = r.handle ∧ e'.vec = r.vec) ∧
        (r.kind = .abandon → e.maker = r.group → e.waiters = [] → s.claims.find? (fun q => q.id == e.id) = some e → completes (.claimHomeMove k) s fun t => Say.answered s t r 0 0 ∧
          ∀ e' ∈ t.claims, e'.id ≠ e.id) ∧
        (isClaim r.kind = false → e.maker ≠ r.group → completes (.claimHomeMove k) s fun t => Say.answered s t r 1 0 ∧ t.claims = s.claims)))) ∧
  (∀ (s : State) (id : Nat) (e : CEnt), s.claims.find? (fun x => x.id == id) = some e →
    (e.making = true → e.limit * 1000 ≤ e.lease → e.waiters = [] → completes (.leaseExpiry id) s fun t =>
      (∀ e' ∈ t.claims, e'.id ≠ id) ∧ bytesKept s t) ∧
    (e.making = false ∨ e.lease < e.limit * 1000 → exec (.leaseExpiry id) s = .next s))

/-- R311, R322: claim domains. A write keeps the lease; clearing en starts a sweep and a purge bit a purge, and either makes the domain busy; when
the last sweep of a domain ends nothing in the making is left of it, after a purge nothing at all, and busy clears. -/
def Sys2Proof.Say.claimDomains : Prop :=
  ∀ (s : State) (d : Nat) (v : Word), d < 256 → Say.quiet s →
    (completes (.clmdomEnSet d v) s fun t => sysBit t (0x800 + d) 63 = true ∧ sysBits t (0x800 + d) 19 0 = v.toNat % 2 ^ 20 ∧ bytesKept s t) ∧
    (sysBit s (0x800 + d) 63 = true → completes (.clmdomEnClear d v) s fun t => sysBit t (0x800 + d) 63 = false ∧ sysBit t (0x800 + d) 61 = true ∧
      (∃ p ∈ t.purges, p.domain = d ∧ p.full = false) ∧ t.claims = s.claims) ∧
    (completes (.clmdomPurge d v) s fun t => sysBit t (0x800 + d) 61 = true ∧ (∃ p ∈ t.purges, p.domain = d ∧ p.full = true) ∧ t.claims = s.claims) ∧
    (∀ full, s.purges = [⟨d, full⟩] → (∀ e ∈ s.claims, e.waiters = []) → completes (.purgeComplete d) s fun t => t.purges = [] ∧
      sysBit t (0x800 + d) 61 = false ∧ bytesKept s t ∧
      (∀ e ∈ t.claims, e.domain = d → e.making = false ∧ full = false) ∧ ∀ e ∈ s.claims, e.domain ≠ d →
        (∀ e' ∈ s.claims, e'.domain = d → e'.id ≠ e.id) → e ∈ t.claims) ∧
    ((∀ p ∈ s.purges, p.domain ≠ d) → exec (.purgeComplete d) s = .next s)

/-- R311 to R322: the claim table at its homes, and its domains. -/
def Obligations.ClaimTable : Prop := Say.claimHomeMoves ∧ Say.claimDomains

/-! ### Logic terms (R124 to R126, R324 to R337, R343 to R350, R360) -/

/-- A state without the lane slices of the issuing group. -/
def Sys2Proof.Say.noSlice (s : State) : State := { s with g := { s.g with slice := [] } }

/-- A term word is done with one operation: its results wait for the move that finishes it, its destinations pending till then (R333); beside, only the lane slices may differ. -/
def Sys2Proof.Say.termOut (s t : State) (pend : List Nat) (res : List (Nat × VWord)) (kres : List (Nat × Mask × Mask)) : Prop :=
  sameButGroup s t ∧ ∃ o, Say.begun (Say.noSlice s) (Say.noSlice t) o ∧ o.kind = .term ∧ o.left = 1 ∧ o.pend = pend ∧ o.res = res ∧
    o.kres = kres ∧ o.pendK = kres.map (·.1)

/-- The executing fragment may begin a term word for the one thread `th`: its area stands and is not poisoned (R433), and no execution of it is open (R326, R333, R343);
the next name is free. -/
def Sys2Proof.Say.termReady (s : State) (th : Nat) : Prop :=
  midOp s = none ∧ (curF s).wait = .go ∧ (∀ o ∈ s.g.ops, o.id ≠ s.nid) ∧ 2048 ≤ s.t.sliceB ∧ headerOk s th = true ∧ th < 64 ∧
  mwf (fun _ => (0 : Byte)) s.g.slice = true ∧ s.g.pzL = []

/-- R326, R329, R343 to R350: the term words of a thread whose operands are bound: `deref` gives the word with its done bit; `unify` of two
constants succeeds exactly where they are equal; `bind` and `bindg` of a bound first operand fail with status 1 (a `bindg` acts as its order names all the same, R212); `chpt` pushes a choice point with the
alternative, the join address and the trail's height, or reports a full area; `fail` without a choice point exhausts the thread; `tag`
takes a word apart. An execution without room for a term area, or with a malformed header, stops the context. -/
def Sys2Proof.Say.termWords : Prop :=
  (∀ (s : State) (w : LaneW) (th : Nat), chansReady s w = .ok → threads (active s w) = [th] → Say.termReady s th →
    let a := opndVal s .n64 w.a 0 th
    let b := opndVal s .n64 w.b (skipB w) th
    let atom (x : Nat) : Prop := x / 2 ^ 60 % 16 = 2 ∨ x / 2 ^ 60 % 16 = 3
    let value (x : Nat) : Prop := atom x ∨ x / 2 ^ 60 % 16 = 4
    let d := w.d.toNat
    let status (n : Nat) : List (Nat × VWord) := [(d * 64 + th, BitVec.ofNat 32 n)]
    (value a → completes (.deref w) s fun t => Say.goesOn s t ∧ Say.termOut s t [d, d + 1]
      [(d * 64 + th, BitVec.ofNat 32 a), ((d + 1) * 64 + th, BitVec.ofNat 32 (a / 2 ^ 32))] [(w.c.idx.toNat, active s w, active s w)]) ∧
    (atom a → value b → wact s th = false → slotsUsed s th 2 ≤ 46 → completes (.unify w) s fun t => Say.goesOn s t ∧
      Say.termOut s t [d] (status (if a = b then 0 else 1)) []) ∧
    (wact s th = false → 46 < slotsUsed s th 2 → completes (.unify w) s fun t => Say.goesOn s t ∧ Say.termOut s t [d] (status 3) []) ∧
    (value a → value b → completes (.bind w) s fun t => Say.goesOn s t ∧ Say.termOut s t [d] (status 1) []) ∧
    (∀ f, value a → value b → fget s.g.frs s.fi = some f → f.idx < f.len → loadsDue s.t s.g f = false → recordsDue s s.g = false →
      uCount s s.g.uid = 0 → w.scp = .grp ∨ w.scp = .team → completes (.bindg w) s fun t =>
        Say.termOut { s with g := { s.g with car := s.g.obs } } t [d] (status 1) [] ∧
          fget t.g.frs s.fi = some { f with idx := f.idx + 1, blk := none, flushed := false }) ∧
    (∀ k neg (st : BitVec 9) (alt join : BitVec 24), activeOf s k neg = active s w → slotsUsed s th 2 ≤ 46 →
      completes (.chpt k neg st alt join) s fun t => Say.goesOn s t ∧
        Say.termOut s t [st.toNat] [(st.toNat * 64 + th, 0)] [] ∧ cpn t th = cpn s th + 1 ∧
        tGet t th (0x800 - 16 * (2 * cpn s th + 2)) 8 = tGet s th 8 8 ∧
        tGet t th (0x800 - 16 * (2 * cpn s th + 2) + 8) 8 = tcnt s th + 2 ^ 8 * alt.toNat + 2 ^ 32 * join.toNat) ∧
    (∀ k neg (st : BitVec 9) (alt join : BitVec 24), activeOf s k neg = active s w → 46 < slotsUsed s th 2 →
      completes (.chpt k neg st alt join) s fun t => Say.goesOn s t ∧
        Say.termOut s t [st.toNat] [(st.toNat * 64 + th, 3)] []) ∧
    (cpn s th = 0 → tcnt s th = 0 → completes (.fail w) s fun t => Say.goesOn s t ∧
      Say.termOut { s with g := { s.g with k := [] } } { t with g := { t.g with k := [] } } [] [] [] ∧
      ∀ n i, i < 64 → (readK t.g n).getLsbD i = if n = d ∧ n ≠ 0 ∧ i = th then true else (readK s.g n).getLsbD i)) ∧
  (∀ (s : State) (w : LaneW), chansReady s w = .ok → w.uni = false → completes (.tag w) s fun t =>
    Say.laneOut s t w (if w.c.idx.toNat = 1 ∨ w.c.idx.toNat = 2 ∨ w.c.idx.toNat = 5 then .n64 else .n32) fun th =>
      let a := opndVal s .n64 w.a 0 th
      match w.c.idx.toNat with
      | 0 => a / 2 ^ 60 % 16
      | 1 => w.x24.toNat % 16 * 2 ^ 60 + a % 2 ^ 60
      | 2 => ((BitVec.ofNat 60 a).signExtend 64).toNat
      | 3 => a / 2 ^ 52 % 256
      | 4 => a / 2 ^ 57 % 8
      | _ => if a / 2 ^ 57 % 8 = 0 then ((BitVec.ofNat 57 a).signExtend 64).toNat else a % 2 ^ 57) ∧
  (∀ (s : State) (w : LaneW) (th : Nat) (ts : List Nat), chansReady s w = .ok → threads (active s w) = th :: ts → midOp s = none →
    (curF s).wait = .go → (∀ o ∈ s.g.ops, o.id ≠ s.nid) → s.t.sliceB < 2048 → ∃ u, exec (.unify w) s = .next (laneFault u .bounds 0)) ∧
  (∀ (s : State) (g op : Nat) (x : Group) (o : LOp), g ≠ 0 → getG s g = some x → getOp x op = some o → o.kind = .term → o.left = 1 →
    o.mid = false → o.parts = [] → completes (.termInstructionFinished g op) s fun t => Say.ended s t g o ∧ bytesKept s t)

/-- R126, R324, R329 to R332, R335: dereferencing, binding, the choice of a variable and the meeting of a pair, for one thread. A reference to a bound
cell is followed, a step for each load; a local variable is bound by a store of the value and a trail entry of its reference and old word; of
two unbound variables a local one is bound before a shared one, and of two local ones the one at the higher address; constants agree where
they are equal, and structures go on to their functors; the move of a `bindg` binds the cell whose word is unbound. A malformed reference
and a reserved tag stop the context. That an execution makes one load, and leaves the next to its next turn, is the model's choice (log 42). -/
def Sys2Proof.Say.termRules : Prop :=
  (∀ (s u : State) (th n w c : Nat) (ovf : Bool), w / 2 ^ 60 % 16 = 1 → malformed w = false → cellLoad s th w = .ok c u →
    (c / 2 ^ 60 % 16 = 1 → derefTurn true s th ovf w (n + 1) = .on c n u) ∧
    (c / 2 ^ 60 % 16 = 2 ∨ c / 2 ^ 60 % 16 = 3 ∨ c / 2 ^ 60 % 16 = 4 → derefTurn true s th ovf w (n + 1) = .stop (.val c) n true u) ∧
    (c / 2 ^ 60 % 16 = 0 → c % 2 = 0 ∨ ovf = false → derefTurn true s th ovf w (n + 1) = .stop (.unb w c) n true u) ∧
    (∀ k i, c / 2 ^ 60 % 16 = 0 → c % 2 = 1 → cellKey u th w = some k → lookup u th k = some (i, true) → u.g.pzL = [] →
      derefTurn true s th true w (n + 1) = .on (oval u th i) n u) ∧
    (5 < c / 2 ^ 60 % 16 → ∃ va, derefTurn true s th ovf w (n + 1) = .none (.fault u .reservedTag va))) ∧
  (∀ (s : State) (th w : Nat) (ovf may : Bool), w / 2 ^ 60 % 16 = 1 → malformed w = false → derefTurn may s th ovf w 0 = .stop (.more w) 0 false s) ∧
  (∀ (s : State) (th n w : Nat) (ovf may : Bool),
    (5 < w / 2 ^ 60 % 16 → derefTurn may s th ovf w n = .none (.fault s .reservedTag 0)) ∧
    (w / 2 ^ 60 % 16 = 1 → malformed w = true → ∃ va, derefTurn may s th ovf w n = .none (.fault s .badTerm va)) ∧
    (2 ≤ w / 2 ^ 60 % 16 → w / 2 ^ 60 % 16 ≤ 4 → derefTurn may s th ovf w n = .stop (.val w) n false s)) ∧
  (∀ (s u : State) (th walk r old v : Nat), old / 2 ^ 60 % 16 ≠ 0 ∨ old % 2 = 0 →
    (46 ≤ slotsUsed s th walk → bindVar s th walk r old v = .ok 2 s) ∧
    (slotsUsed s th walk < 46 → bindVar s th walk r old v = .ok 0 u → ∃ a, cellAcc s th .store r = .ok a s ∧
      u = pushTrail (storeEnt (roastAll s .store [(th, a)]) a v 0 none) th (2 ^ 60 + r % 2 ^ 60) old)) ∧
  (∀ (s : State) (th n v x : Nat) (st : List WEnt),
    (v / 2 ^ 60 % 16 = 4 → x / 2 ^ 60 % 16 = 4 → walkMeet s th n st (.val v) (.val x) = .go false ⟨th, n, st, .funs v x⟩ s) ∧
    (v / 2 ^ 60 % 16 ≠ x / 2 ^ 60 % 16 → walkMeet s th n st (.val v) (.val x) = .done false 1 (endWalk s th)) ∧
    (v / 2 ^ 60 % 16 ≠ 4 → walkMeet s th n st (.val v) (.val v) = .go false ⟨th, n, st, .take⟩ s) ∧
    walkTake s th n [] = .done false 0 (endWalk s th)) ∧
  (∀ (s : State) (op : Nat) (p : TProg) (r v : Nat) (a : Acc) (o : LOp), getOp s.g op = some o → o.vals = [] → cellAcc s p.th .atom r = .ok a s →
    locked s s.l.ctx a true = false → pzScratch s a.loc 8 = false →
    (∀ g th off, a.loc = .lane g th off → ∃ t o', bindgMove s op p r v = .go false { p with ph := .sent } t ∧ getOp t.g op = some o' ∧
      (leNat (rdScratch s a.loc 8) / 2 ^ 60 % 16 = 0 → o'.vals = [(p.th, 0)]) ∧
      (leNat (rdScratch s a.loc 8) / 2 ^ 60 % 16 ≠ 0 → o'.vals = [(p.th, 1)] ∧ bytesKept s t)) ∧
    (∀ pa, a.loc = .mem pa → ∃ t e o', bindgMove s op p r v = .go false { p with ph := .sent } t ∧ t.path = s.path ++ [e] ∧ e.op = .bindg ∧ e.acc = a ∧
      e.x = v ∧ e.lop = op ∧ e.t = p.th ∧ getOp t.g op = some o' ∧ o'.left = o.left + 1 ∧ bytesKept s t)) ∧
  (∀ (s : State) (th r1 o1 r2 o2 : Nat),
    (r1 % 2 ^ 60 = r2 % 2 ^ 60 → pickVar s th r1 o1 r2 o2 = .same) ∧
    (r1 % 2 ^ 60 ≠ r2 % 2 ^ 60 → sharedVar o1 = false → sharedVar o2 = true → pickVar s th r1 o1 r2 o2 = .first) ∧
    (r1 % 2 ^ 60 ≠ r2 % 2 ^ 60 → sharedVar o1 = true → sharedVar o2 = false → pickVar s th r1 o1 r2 o2 = .second) ∧
    (sharedVar o1 = false → sharedVar o2 = false → r2 % 2 ^ 60 < r1 % 2 ^ 60 → pickVar s th r1 o1 r2 o2 = .first) ∧
    (sharedVar o1 = false → sharedVar o2 = false → r1 % 2 ^ 60 < r2 % 2 ^ 60 → pickVar s th r1 o1 r2 o2 = .second))

/-- R324 to R350: the term words and the rules of terms. -/
def Obligations.LogicTerms : Prop := Say.termWords ∧ Say.termRules

/-! ### Work graphs, work stealing, phases (R144, R145, R302 to R306, R339, R351 to R357) -/

/-- Nothing of the group differs but the place of its fragments, and nothing outside it but its launch and what reporting writes; the
fragment has gone on. -/
def Sys2Proof.Say.recordGiven (s t : State) : Prop :=
  sameButGroup { s with l := {} } { t with l := {} } ∧ noFrags t.g = noFrags s.g ∧ Say.goesOn s t

/-- R303, R304, R351: `emit` makes its release, captures the addresses of its threads and loads every 8-byte word of their records; once the
words are there, the record of a thread joins the oldest bin of its node, or a new one; a bin that reaches the node's count launches a
team with the next index after the grid; with sixteen bins in use the word waits. In a launch that is no work graph, or with a number
past the node table, it stops the context. A bin whose timer has run out launches too. The model's choices: a launched bin counts among the
sixteen until its team is placed (log 22), and a record is read by loads of 8-byte words of their own (log 23). -/
def Obligations.WorkGraphs : Prop :=
  (∀ (s : State) (w : LaneW), let v := w.x24.toNat % 256
    (midOp s = none → isGraph s.l = false ∨ nodeN s.l ≤ v → exec (.emit w) s = .next (laneFault s .badNode 0)) ∧
    (∀ (u : State) (f : Frag) (accs : List (Nat × Acc)), midOp s = none → isGraph s.l = true → v < nodeN s.l → active s w ≠ 0 →
      releaseGate s .dev = .pass u → (∀ o ∈ u.g.ops, o.id ≠ u.nid) → fget u.g.frs u.fi = some f →
      checkRecs u (memSpace w) ((threads (active s w)).flatMap (fun th => (iota 0 (nodeSize s.l v / 8)).map
        (fun j => (th, j, (readV64 s.g w.a.idx.toNat th + 8 * j) % 2 ^ 64)))) = .ok accs →
      u.g.car = s.g.obs ∧ completes (.emit w) s fun t => bytesKept u t ∧ sameButGroup (roastAll u .load accs) t ∧
        noFrags { t.g with ops := [] } = noFrags { u.g with ops := [] } ∧ fget t.g.frs u.fi = some { f with blk := some 3 } ∧
        ∃ o, t.g.ops = u.g.ops ++ [o] ∧ o.kind = .emit ∧ o.mid = true ∧ o.act = active s w ∧ o.left = 1 ∧ o.vec = u.g.car ∧ o.vals = [] ∧
          o.opnds = [] ∧ o.parts = accs.map (fun p => ⟨p.1, p.2⟩)) ∧
    (∀ (o : LOp) (f : Frag), midOp s = some o → o.opnds = [] → o.parts ≠ [] ∨ 1 < o.left → fget s.g.frs s.fi = some f →
      ∃ t, exec (.emit w) s = .next t ∧ onlyFrags s t ∧ fget t.g.frs s.fi = some { f with blk := some 3 }) ∧
    (∀ (o : LOp) (th : Nat), midOp s = some o → o.opnds = [] → o.parts = [] → o.left ≤ 1 → s.l.uid ≠ 0 → threads o.act = [th] →
      let d := (iota 0 (nodeSize s.l v / 8)).flatMap (fun j => leBytes 8 (valOf o.vals (th + 64 * j)))
      let u := { s with g := { s.g with ops := s.g.ops.filter (fun x => x.id != o.id) } }
      let grown (b : Bin) : Bin := { b with recs := b.recs ++ [d], vec := v4max b.vec o.vec }
      (∀ b, s.l.bins.find? (fun b => b.node == v) = some b → b.recs.length + 1 < nodeCount s.l v → completes (.emit w) s fun t =>
        Say.recordGiven u t ∧ t.l = { s.l with bins := mapFirst (fun x => x.id == b.id) grown s.l.bins }) ∧
      (∀ b, s.l.bins.find? (fun b => b.node == v) = some b → nodeCount s.l v ≤ b.recs.length + 1 → completes (.emit w) s fun t =>
        Say.recordGiven u t ∧ (∀ x ∈ t.l.bins, x.id ≠ b.id) ∧ t.l.binIdx = s.l.binIdx + 1 ∧
        t.l.binq = s.l.binq ++ [{ idx := gridN s.l + s.l.binIdx, node := b.node, recs := b.recs ++ [d], vec := v4max b.vec o.vec }]) ∧
      (s.l.bins.find? (fun b => b.node == v) = none → binsUsed s.l v < 16 → 1 < nodeCount s.l v → completes (.emit w) s fun t =>
        Say.recordGiven u t ∧ ∃ id, t.l = { s.l with
          bins := s.l.bins ++ [{ id := id, node := v, start := s.now, recs := [d], vec := v4max {} o.vec }] }) ∧
      (s.l.bins.find? (fun b => b.node == v) = none → 16 ≤ binsUsed s.l v → ∃ t, exec (.emit w) s = .next t ∧ t.l = s.l ∧
        t.g.v = s.g.v ∧ ∀ f, fget s.g.frs s.fi = some f → fget t.g.frs s.fi = some { f with blk := some 3 }))) ∧
  (∀ (s : State) (l b : Nat) (x : Launch) (y : Bin), l ≠ 0 → getL s l = some x → x.bins.find? (fun y => y.id == b) = some y →
    ctxState s x.ctx = 1 →
    (1000 * bits (nodeW x y.node 1) 31 16 ≤ s.now - y.start → completes (.binTimerExpiry l b) s fun t => bytesKept s t ∧
      ∃ z, getL t l = some z ∧ z.bins = x.bins.filter (fun q => q.id != y.id) ∧ z.binIdx = x.binIdx + 1 ∧
        z.binq = x.binq ++ [{ idx := gridN x + x.binIdx, node := y.node, recs := y.recs, vec := y.vec }]) ∧
    (s.now - y.start < 1000 * bits (nodeW x y.node 1) 31 16 → exec (.binTimerExpiry l b) s = .next s))

/-- A result block of R339 in every active thread: the code, a zero, a handle of zero. -/
def Sys2Proof.Say.blockGiven (s t : State) (w : LaneW) (code : Nat) : Prop :=
  ∀ r th, th < 64 → readV t.g r th =
    if (active s w).getLsbD th = true ∧ r = w.d.toNat then BitVec.ofNat 32 code
    else if (active s w).getLsbD th = true ∧ (r = w.d.toNat + 1 ∨ r = w.d.toNat + 2 ∨ r = w.d.toNat + 3) then 0
    else readV s.g r th

/-- The thief of a mailbox has been answered (R353): its block holds the code and the value, and its operation is over, unless its team
is switched out. -/
def Sys2Proof.Say.thiefTold (s t : State) (m : StealReq) (code : Nat) (val : Nat) : Prop :=
  ∀ x o, m.thief ≠ 0 → getG s m.thief = some x → getOp x m.req = some o → (teamOfG s x).slot ≠ .out → o.left = 1 → o.parts = [] →
    o.res = [] → o.kres = [] → ∃ y, getG t m.thief = some y ∧ getOp y o.id = none ∧ ∀ th, o.act.getLsbD th = true →
      readV y o.d th = BitVec.ofNat 32 code ∧ readV64 y (o.d + 2) th = val % 2 ^ 64

/-- R306, R352 to R355: work stealing in a persistent launch. `steal` finds its victim empty, busy, or posts a request to its mailbox and waits;
`spawn` after a release gives its task to a waiting thief, `yield` answers one empty, and so does the end of 64 µs; `beat` restarts the Lap
Clock. In another launch `steal`, `spawn` and `yield` stop the context, and `beat` does nothing. -/
def Obligations.WorkStealing : Prop :=
  (∀ (s : State) (w : LaneW), isPers s.l = false → exec (.steal w) s = .next (laneFault s .workStealing 0) ∧
    exec (.spawn w) s = .next (laneFault s .workStealing 0) ∧ exec (.yield w) s = .next (laneFault s .workStealing 0) ∧
    (Say.noSibling s → completes (.beat w) s fun t => onlyFrags s t ∧ Say.goesOn s t)) ∧
  (∀ (s : State) (w : LaneW) (th : Nat), isPers s.l = true → Say.noSibling s → lowest (active s w) = some th → s.t.uid ≠ 0 →
    (chansReady s w = .ok → let v := if w.imm then w.x24.toNat else opndVal s .n32 w.b 0 th
      (gridN s.l ≤ v → exec (.steal w) s = .next (laneFault s .workStealing 0)) ∧
      (v < gridN s.l → victim s v = none → completes (.steal w) s fun t =>
        onlyResults s t ∧ t.g.k = s.g.k ∧ Say.goesOn s t ∧ Say.blockGiven s t w 2) ∧
      (∀ x m, v < gridN s.l → victim s v = some x → x.mail = some m → completes (.steal w) s fun t =>
        onlyResults s t ∧ t.g.k = s.g.k ∧ Say.goesOn s t ∧ Say.blockGiven s t w 1) ∧
      (∀ x f, v < gridN s.l → victim s v = some x → x.mail = none → x.uid ≠ 0 → fget s.g.frs s.fi = some f → f.idx < f.len →
        completes (.steal w) s fun t => bytesKept s t ∧ t.g.v = s.g.v ∧ t.g.k = s.g.k ∧ ∃ o y, t.g.ops = s.g.ops ++ [o] ∧ o.kind = .claim ∧
          o.pend = iota w.d.toNat 4 ∧ getT t x.uid = some y ∧ y.mail = some { thief := s.g.uid, req := o.id } ∧
          fget t.g.frs s.fi = some { f with idx := f.idx + 1, blk := some 4, wait := .answer o.id })) ∧
    (∀ u, chansReady s w = .ok → releaseGate s .dev = .pass u → u.g.car = s.g.obs ∧
      (u.t.mail = none → completes (.spawn w) s fun t => onlyResults u t ∧ t.g.k = u.g.k ∧ Say.goesOn u t ∧
        Say.registersGiven u t { w with dchan := false } .n32 (fun _ => 0)) ∧
      (∀ m, u.t.mail = some m → m.thief ≠ s.g.uid → completes (.spawn w) s fun t => bytesKept u t ∧ t.t.mail = none ∧ t.g.k = u.g.k ∧
        Say.goesOn u t ∧ Say.registersGiven u t { w with dchan := false } .n32 (fun _ => 1) ∧
        Say.thiefTold u t m 0 (opndVal u .n64 w.b 0 th))) ∧
    (s.t.mail = none → completes (.yield w) s fun t => onlyFrags s t ∧ Say.goesOn s t) ∧
    (∀ m, s.t.mail = some m → m.thief ≠ s.g.uid → completes (.yield w) s fun t => bytesKept s t ∧ laneRegsKept s t ∧ t.t.mail = none ∧
      Say.goesOn s t ∧ Say.thiefTold s t m 2 0) ∧
    (completes (.beat w) s fun t => sameButGroup s t ∧ Say.goesOn s t ∧ t.g.lap = 0 ∧
      noFrags { t.g with lap := 0 } = noFrags { s.g with lap := 0 })) ∧
  (∀ (s : State) (u : Nat) (x : Team) (m : StealReq), u ≠ 0 → getT s u = some x → x.mail = some m →
    (64000 ≤ m.ns → completes (.stealTimeout u) s fun t => (∃ y, getT t u = some y ∧ y.mail = none) ∧ Say.thiefTold s t m 2 0 ∧ bytesKept s t) ∧
    (m.ns < 64000 → exec (.stealTimeout u) s = .next s))

/-- R144, R145, R356: a group ends its part of a phase after a release and waits. Once every group of the grid has, the Baton applies the held
reductions, here one of them, as an atomic move at its home; `PHASENO` rises and every group that waits goes on with the launch's
vector. Before that nothing happens. -/
def Obligations.Phases : Prop :=
  (∀ (s u : State) (w : LaneW) (f : Frag), (curF s).mask = BitVec.allOnes 64 → releaseGate s .dev = .pass u → fget u.g.frs u.fi = some f →
    f.idx = f.len → completes (.phase w) s fun t => u.g.car = s.g.obs ∧ bytesKept u t ∧ laneRegsKept u t ∧
      t.l.ended = u.l.ended ++ [u.g.uid] ∧ t.l.cvec = v4max u.l.cvec u.g.car ∧
      fget t.g.frs u.fi = some { f with pc := BitVec.ofNat 64 ((f.pc.toNat + 12 * (f.len + 1)) % 2 ^ 64), idx := 0, blk := some 4,
                                        wait := .phase }) ∧
  (∀ (s : State) (l : Nat) (x : Launch), l ≠ 0 → getL s l = some x →
    let ovf (t : State) (vec : V4) : Prop := (∃ y, getL t l = some y ∧ y.phaseNo = (x.phaseNo + 1) % 2 ^ 32 ∧ y.ended = [] ∧ y.det = []) ∧
      ∀ u g tm, u ≠ 0 → getG s u = some g → tm ∈ allT s → tm.launch = l → g.team = tm.uid →
        ∃ y, getG t u = some y ∧ y.obs = v4max g.obs vec ∧ ∀ p ∈ y.frs, p.2.wait ≠ .phase
    (phaseDue s x = false → exec (.phaseCommit l) s = .next s) ∧
    (phaseDue s x = true → x.det = [] → x.uid = l → completes (.phaseCommit l) s fun t => ovf t x.cvec ∧ bytesKept s t) ∧
    (∀ e a pa, phaseDue s x = true → x.det = [e] → x.uid = l → detPlace s x.ctx e = .ok a → a.loc = .mem pa → inMem s pa = true →
      isScat s (homeDie s pa) pa = false → s.pz = [] → Memory.wf s → Say.keyed s pa a.n a.key → pa + a.n ≤ 2 ^ 52 → Say.calm s →
      completes (.phaseCommit l) s fun t =>
        Say.wrote s t (homeDie s pa) pa a.n
          (atomNew (fpctl x) e.op e.ty e.rnd (leNat (rdBytes s (homeDie s pa) pa a.key a.n)) e.value).code ∧
        ovf t (v4raise x.cvec (homeDie s pa) (v4get s.seqn (homeDie s pa) + 1))))

/-! ### Sessions of the Finish Line, counters, stops (R392 to R407) -/

/-- The translation of an address for a write of the device gives `pa` in a page that is not migratable (R371, R398). -/
def Sys2Proof.Say.fixedPage (s : State) (c va pa key : Nat) : Prop :=
  ∃ unc la leaf page, walk s c .store va = .ok pa key unc la leaf page ∧ bit leaf 8 = false

/-- A session has entered stores: `l` lists address, bytes and value of each, in order. -/
def Sys2Proof.Say.sessionStored (s t : State) (i : Nat) (l : List (Nat × Nat × Nat)) : Prop :=
  ∃ es, t.path = s.path ++ es ∧ es.map (fun e => (e.acc.va, e.acc.n, e.x)) = l ∧ ∀ e ∈ es, e.owner = .session i ∧ e.op = .store

/-- No die counter counts records, made or dropped (sources 0x0E and 0x0C, R407). -/
def Sys2Proof.Say.noRecordCounter (s : State) : Prop :=
  ∀ d j, d < 4 → j < 32 → sysBits s (0x3600 + 64 * d + 2 * j) 7 0 ≠ 0x0E ∧ sysBits s (0x3600 + 64 * d + 2 * j) 7 0 ≠ 0x0C

/-- The queue that die `d` keeps of records which hold nothing back has room, or session i is lossy (R399). -/
def Sys2Proof.Say.queueRoom (s : State) (i d : Nat) : Prop := sysBit s (rTs i 0) 56 = false ∨ (dieQueue s d).length < 256

/-- R394, R395, R398, R401: a write of `TSCTL` with en opens a closed session: its count of lost records and seven words of its control block become
zero and its first record is held; with a control block in an away page it fails with error 3. A write without en starts the close of an
open one. An open session keeps its other fields, err among them; a closed one has it cleared where 1 is written. -/
def Sys2Proof.Say.sessionControl : Prop :=
  ∀ (s : State) (i : Nat) (v : Word), i < 16 → bit v.toNat 62 = false →
    let c := v.toNat % 256
    (∀ pa key, tsOpen s i = false → Say.noRecordCounter s → bit v.toNat 56 = false ∨ (dieQueue s 0).length < 256 →
      Say.fixedPage s c (blkVa s i 0) pa key → completes (.tsctlOpen i v) s fun t =>
      tsOpen t i = true ∧ sysGet t (rTs i 5) = 0 ∧ sysBits t (rTs i 0) 7 0 = c ∧ sysBits t (rTs i 0) 57 50 = bits v.toNat 57 50 ∧
      (∃ r, (mget t.sess {} i).held = [r] ∧ r.ring = .record ∧ r.src = 0x600) ∧ bytesKept s t ∧
      Say.sessionStored s t i ((iota 0 7).map (fun j => (blkVa s i 0 + 8 * j, 8, 0)))) ∧
    (∀ aw, tsOpen s i = false → s.heldAns = [] → s.tears = [] → walk s c .store (blkVa s i 0) = .away aw →
      completes (.tsctlOpen i v) s fun t => tsOpen t i = false ∧ sysBit t (rTs i 0) 62 = true ∧ sysBits t (rTs i 0) 61 58 = 3 ∧ bytesKept s t) ∧
    (tsOpen s i = true → ∀ y : Word, exec (.tsctlOpen i y) s = .next s) ∧
    (tsOpen s i = false → ∀ y : Word, bit y.toNat 62 = true → completes (.tsctlClose i y) s fun t => sysBit t (rTs i 0) 62 = false ∧
      tsOpen t i = false ∧ bytesKept s t) ∧
    (tsOpen s i = true → (mget s.sess {} i).closing = none → completes (.tsctlClose i v) s fun t =>
      tsOpen t i = true ∧ (mget t.sess {} i).closing = some 1 ∧ (mget t.sess {} i).held = (mget s.sess {} i).held ∧ bytesKept s t)

/-- R249, R397 to R399, R401: what a session does in one move once its own stores have come back: a tail that has moved is published, behind the
read that makes earlier slots in a host window visible; a short record at
the head of its queue is written to the next slot of its ring, before a reserve of two slots; without room it is dropped and counted in
lossy mode, and waits in lossless mode; a closing session with its end record placed closes. A flush that has made no progress for
10 ms drops what it holds. -/
def Sys2Proof.Say.recordPlacement : Prop :=
  ∀ (s : State) (i : Nat) (x : Session), i < 16 → x = mget s.sess {} i →
    let lost := sysGet s (rTs i 5)
    (tsOpen s i = false → exec (.recordPlace i) s = .next s ∧ exec (.recordFlushTimeout i) s = .next s) ∧
    (tsOpen s i = true → (∀ e ∈ s.path, e.owner ≠ .session i) → x.tailT = x.pubT → x.tailP = x.pubP → lost = x.pubL →
      (∀ pa key, x.tailR ≠ x.pubR → x.hostSt = false → x.flush = 0 → Say.fixedPage s (sysBits s (rTs i 0) 7 0) (blkVa s i 0) pa key → completes (.recordPlace i) s fun t =>
        Say.sessionStored s t i [(blkVa s i 0, 8, x.tailR % 2 ^ 64)] ∧ mget t.sess {} i = { x with pubR := x.tailR } ∧ bytesKept s t) ∧
      (x.tailR ≠ x.pubR → x.hostSt = true → x.flush = 0 → completes (.recordPlace i) s fun t => t.path = s.path ∧ bytesKept s t ∧
        (mget t.sess {} i).flush = 1 ∧ (mget t.sess {} i).pubR = x.pubR ∧
        ∃ r, t.wins = s.wins ++ [r] ∧ r.kind = .flush ∧ r.owner = .session i ∧ r.n = 0) ∧
      (x.tailR ≠ x.pubR → x.hostSt = true → x.flush = 1 → exec (.recordPlace i) s = .next s) ∧
      (∀ r q, x.tailR = x.pubR → x.held = r :: q → r.ring = .record → r.data.length = 16 → s.heldAns = [] →
        (∀ pa key, x.tailR + 3 ≤ x.headR + 2 ^ (sysBits s (rTs i 1) 3 0 + 8) → x.loss = false →
          Say.fixedPage s (sysBits s (rTs i 0) 7 0) (ringVa s i .record x.tailR) pa key → completes (.recordPlace i) s fun t =>
            Say.sessionStored s t i ((iota 0 4).map (fun j => (ringVa s i .record x.tailR + 4 * j, 4, leNat ((r.data.drop (4 * j)).take 4)))) ∧
            mget t.sess {} i = { x with tailR := x.tailR + 1, held := q } ∧ bytesKept s t) ∧
        (∀ c, x.headR + 2 ^ (sysBits s (rTs i 1) 3 0 + 8) < x.tailR + 3 → s.winVals = [] →
          devReadBy s (.session i) 1 (sysBits s (rTs i 0) 7 0) (blkVa s i 8) 8 = .bad c →
          (sysBit s (rTs i 0) 56 = false → Say.noRecordCounter s → completes (.recordPlace i) s fun t => mget t.sess {} i = { x with held := q, loss := true } ∧
            sysGet t (rTs i 5) = min (2 ^ 64 - 1) (lost + 1) ∧ t.path = s.path ∧ bytesKept s t) ∧
          (sysBit s (rTs i 0) 56 = true → x.closing = none → (∀ r ∈ q, r.ring = .record) → exec (.recordPlace i) s = .next s))) ∧
      (x.tailR = x.pubR → x.held = [] → x.ended = true → x.closing ≠ none → s.tears = [] → completes (.recordPlace i) s fun t =>
        tsOpen t i = false ∧ mget t.sess {} i = {} ∧ bytesKept s t)) ∧
    (∀ u, tsOpen s i = true → u = readHead (readHead (readHead s i .record) i .tile) i .replay → u.heldAns = [] → Say.noRecordCounter u →
      (∀ k, (mget u.sess {} i).closing = some k → 2 ≤ k → (mget u.sess {} i).since + 10000000 ≤ s.now → completes (.recordFlushTimeout i) s fun t =>
        (mget t.sess {} i).held = [] ∧ bytesKept s t ∧
        sysGet t (rTs i 5) = min (2 ^ 64 - 1) (sysGet s (rTs i 5) + (mget u.sess {} i).held.length)) ∧
      (s.now < (mget u.sess {} i).since + 10000000 → exec (.recordFlushTimeout i) s = .next u))

/-- R249, R394 to R401: sessions and the placement of their records. -/
def Obligations.TraceSessions : Prop := Say.sessionControl ∧ Say.recordPlacement

/-- R393, R396: an event of a link is one record of class 0x0A in every session that takes it, with the port and the far end; a device that is not
in full service has no such event, and no session sees one it does not take. -/
def Sys2Proof.Say.linkRecords : Prop :=
  ∀ p ∈ ([(.portUp, 0), (.portDown, 1), (.linkRetry, 2)] : List ((Nat → Nat → Instr) × Nat)), ∀ (s : State) (port peer : Nat),
    (completes (p.1 port peer) s fun t => onlyReports s t) ∧
    (36 ≤ port ∨ s.service ≠ .full → exec (p.1 port peer) s = .next s) ∧
    (∀ i, i < 16 → port < 36 → s.service = .full → Say.noRecordCounter s →
      (takes s i 0x0A 0 (0x400 + port) = true → Say.queueRoom s i (srcDie (0x400 + port)) → completes (p.1 port peer) s fun t =>
        ∃ stamp carry, s.now ≤ stamp ∧ (mget t.sess {} i).held = (mget s.sess {} i).held ++
          [⟨.record, 0x400 + port, recBytes stamp 0x0A p.2 carry (0x400 + port) 0 port (some (peer % 2 ^ 64)), none⟩]) ∧
      (takes s i 0x0A 0 (0x400 + port) = false → completes (p.1 port peer) s fun t => mget t.sess {} i = mget s.sess {} i))

/-- R405 to R407: the event after 2^48 − 1 sets a counter to zero and marks it, and with halt set stops the partition that it names; any
other count is no overflow. A write of `DBGCTL` stops and resumes a partition; a second stop of a core is ignored. -/
def Sys2Proof.Say.countersAndStops : Prop :=
  (∀ (s : State) (n : Nat), 0x1600 ≤ n → n < 0x3700 → n % 2 = 0 →
    (sysBit s n 63 = true → sysGet s (n + 1) = 2 ^ 48 - 1 → sysBits s n 7 0 ≠ 0x0E → sysBits s n 7 0 ≠ 0x0C → completes (.counterOverflow n) s fun t =>
      sysGet t (n + 1) = 0 ∧ sysBit t n 62 = true ∧ onlyReports s t ∧
      (n < 0x3600 → sysBit s n 61 = true → stoppedOn s ((n - 0x1600) / 32) = none →
        isStopped t ((n - 0x1600) / 32) (sysBits s n 59 58) = true)) ∧
    (sysBit s n 63 = false ∨ sysGet s (n + 1) ≠ 2 ^ 48 - 1 → exec (.counterOverflow n) s = .next s)) ∧
  (∀ (s : State) (core : Nat) (v : Word), core < 256 →
    (stoppedOn s core = none → completes (.dbgctlHalt core v) s fun t => isStopped t core (bits v.toNat 5 4) = true ∧
      sysBit t (0x1500 + core) 63 = true ∧ sysBits t (0x1500 + core) 62 60 = 1 ∧ sysBits t (0x1500 + core) 5 4 = bits v.toNat 5 4 ∧
      onlyReports s t) ∧
    (∀ p, stoppedOn s core = some p → completes (.dbgctlHalt core v) s fun t => t.stops = s.stops) ∧
    (completes (.dbgctlResume core v) s fun t => (∀ part, isStopped t core part = false) ∧ sysBit t (0x1500 + core) 63 = false ∧
      sysBits t (0x1500 + core) 62 60 = 0 ∧ ∀ c part, c ≠ core → isStopped t c part = isStopped s c part))

/-- R393, R396, R405 to R407: link records, counters and stops of partitions. -/
def Obligations.LinkRecordsAndCounters : Prop := Say.linkRecords ∧ Say.countersAndStops

/-- R298, R399, R406, R411, R413, R414, R419: no word of a group issues while its context is not live, its team is not in a running slot, its partition
is stopped, a record of it waits for room, or its small team is asked to leave: a turn given to its scalar stream is time that passes and no
more, and one given to a fragment at most begins the wait that the record of a held group names. Time changes no register of the group, no
flag or channel, no byte of a view or a die scratchpad and no store path, and nothing follows from it where no store of the device, teardown or
bring-up is on its way. -/
def Obligations.HeldGroupsDoNotIssue : Prop :=
  ∀ (s : State) (g e : Nat) (r : List Move), g ≠ 0 → let f := focus (passTime { s with agenda := r } 1) g
    f.g.uid = g →
    ctxState f f.l.ctx ≠ 1 ∨ f.t.slot ≠ .running ∨ isStopped f f.t.core (f.g.idx % 4) = true ∨ heldBack f g = true ∨
      f.t.preempt = true ∧ f.t.small = true →
    (s.agenda = .scalar g :: r → step s = .next (afterMove f)) ∧
    (s.agenda = .lane g e :: r → step s = .next (afterMove (heldWait f e))) ∧ onlyFrags f (heldWait f e) ∧
    (heldBack f g = false → heldWait f e = f) ∧
    (∀ x, getG s g = some x → f.g.a = x.a ∧ f.g.u = x.u ∧ f.g.v = x.v ∧ f.g.k = x.k ∧ f.g.pc = x.pc ∧ f.g.frs = x.frs ∧ f.g.fl = x.fl ∧
      f.g.ch = x.ch ∧ f.g.ops = x.ops) ∧
    f.mem = s.mem ∧ f.dscr = s.dscr ∧ f.path = s.path ∧ f.inq = s.inq ∧
    ∀ x : State, x.reached = [] → x.tears = [] → x.service ≠ .bringUp → afterMove x = x

/-! ### The host and the domain (R243 to R251) -/

/-- R244, R247, R248, R251: what comes from outside. A posted write of the host enters the store paths; a request of a peer is admitted by the first
enabled landing entry that covers it with its tag and right, under the entry's key slot, and one that none admits has no effect. The model's
choices: a posted write to no memory is dropped (log 20), a read of a peer changes nothing here, for its value leaves with the answer (log 19),
and a misaligned atomic of a peer has no effect (log 38). -/
def Sys2Proof.Say.outsideWrites : Prop :=
  (∀ (s : State) (pa : Nat) (data : List Byte), data.length ≤ 8 →
    (inMem s pa = true → completes (.hostPostedWrite pa data) s fun t => bytesKept s t ∧ ∃ e, t.path = s.path ++ [e] ∧ e.owner = .host ∧
      e.op = .store ∧ e.acc.loc = .mem pa ∧ e.acc.n = data.length ∧ e.acc.key = 0 ∧ e.x = leNat data ∧ e.st = .sent) ∧
    (inMem s pa = false → exec (.hostPostedWrite pa data) s = .next s)) ∧
  (∀ (s : State) (r : PeerReq),
    (s.service ≠ .full ∨ (∀ e, e < 256 → landServes s r e = false) ∨ inMem s r.pa = false → exec (.peerRequest r) s = .next s) ∧
    (∀ e, s.service = .full → (iota 0 256).find? (landServes s r) = some e → inMem s r.pa = true →
      let entered (t : State) (op : EntOp) (n x y : Nat) : Prop := bytesKept s t ∧ ∃ p, t.path = s.path ++ [p] ∧ p.owner = .peer r.who ∧ p.op = op ∧
        p.acc.loc = .mem r.pa ∧ p.acc.n = n ∧ p.acc.key = sysBits s (0x3A01 + 2 * e) 47 40 ∧ p.x = x ∧ p.y = y ∧ t.landed = s.landed ++ [⟨e, p.id⟩]
      (∀ n, r.op = .read n → isScat s (homeDie s r.pa) r.pa = false → exec (.peerRequest r) s = .next s) ∧
      (∀ d, r.op = .write d → d.length ≤ 8 → completes (.peerRequest r) s fun t => entered t .store d.length (leNat d) 0) ∧
      (∀ code ty rnd v ftz, r.op = .atom code ty rnd v ftz →
        (r.pa % tySize ty = 0 → completes (.peerRequest r) s fun t => entered t (.atom code ty rnd) (tySize ty) (v.toNat % 256 ^ tySize ty) 0) ∧
        (r.pa % tySize ty ≠ 0 → exec (.peerRequest r) s = .next s)) ∧
      (∀ wide c v, r.op = .cas wide c v → r.pa % (if wide then 8 else 4) = 0 → completes (.peerRequest r) s fun t =>
        entered t .cas (if wide then 8 else 4) (c.toNat % 256 ^ (if wide then 8 else 4)) (v.toNat % 256 ^ (if wide then 8 else 4)))))

/-- R203, R243, R245, R247, R249: an answer of a window. The value of a load lands in its thread, or goes to the scalar stream that waits for it, as does
its poison; that of a read made piece by piece is kept for the party that asked (log 19); the flush read of a release lets its fragment, its
session or its launch go on; a store is acknowledged. An answer of the other side's window, and one to no request, changes nothing. A request
that fails, or has had no answer for 2 ms, stops its context with a remote error; the load that a scalar stream waits for leaves it to the
word itself. -/
def Sys2Proof.Say.windowAnswers : Prop :=
  (∀ p ∈ ([(.remoteAnswer, true), (.hostReadCompletion, false)] : List ((Nat → Word → Bool → Instr) × Bool)),
    ∀ (s : State) (k : Nat) (v : Word) (poison : Bool),
    (s.wins[k]? = none → exec (p.1 k v poison) s = .next s) ∧
    (∀ q, s.wins[k]? = some q → q.peer ≠ p.2 → exec (p.1 k v poison) s = .next s) ∧
    (∀ q, s.wins[k]? = some q → q.peer = p.2 → q.keep = true → completes (p.1 k v poison) s fun t => bytesKept s t ∧
      onlyReports { s with wins := s.wins.filter (fun r => r.id != q.id), winVals := s.winVals ++
        [{ owner := q.owner, frag := q.frag, ctx := q.ctx, pa := q.pa, n := q.n, x := v.toNat % 256 ^ q.n, poison := poison }] } t) ∧
    (∀ q, s.wins[k]? = some q → q.peer = p.2 → q.keep = false → q.kind = .flush →
      (∀ i, q.owner = .session i → completes (p.1 k v poison) s fun t => bytesKept s t ∧ (mget t.sess {} i).flush = 2) ∧
      (∀ l, q.owner = .device → q.lop ≠ 0 → getL s q.lop = some l → completes (p.1 k v poison) s fun t => bytesKept s t ∧
        getL t q.lop = some { l with flush := 2 })) ∧
    (∀ q u x, s.wins[k]? = some q → q.peer = p.2 → q.keep = false → q.owner = .group u → u ≠ 0 → getG s u = some x →
      let gone (t : State) : Prop := t.wins = s.wins.filter (fun r => r.id != q.id) ∧ bytesKept s t
      (∀ o, poison = false → q.kind = .load → q.scalar = false → getOp x q.lop = some o → o.kind = .load → o.left = 1 → o.parts = [] → o.res = [] → o.kres = [] →
        q.t < 64 → completes (p.1 k v poison) s fun t => gone t ∧ ∃ y, getG t u = some y ∧ getOp y o.id = none ∧
          Say.gave x y o q.t (v.toNat % 256 ^ q.n)) ∧
      (poison = false → q.kind = .load → q.scalar = true → x.swait = .remote q.id → completes (p.1 k v poison) s fun t => gone t ∧
        getG t u = some { x with swait := .got (BitVec.ofNat 64 (v.toNat % 256 ^ q.n)) }) ∧
      (poison = true → q.kind = .load → q.scalar = true → x.swait = .remote q.id → completes (p.1 k v poison) s fun t => gone t ∧
        getG t u = some { x with swait := .poisoned }) ∧
      (∀ e f, q.kind = .flush → fget x.frs e = some f → f.id = q.frag → f.wait = .remote q.id → completes (p.1 k v poison) s fun t => gone t ∧
        ∃ y, getG t u = some y ∧ fget y.frs e = some { f with wait := .go, flushed := true } ∧ noFrags y = noFrags x) ∧
      (∀ e, q.kind = .store → s.path.find? (fun e => e.id == q.ent) = some e → completes (p.1 k v poison) s fun t => gone t ∧
        t.path = s.path.filter (fun r => r.id != e.id)))) ∧
  (∀ (s : State) (k u : Nat) (q : WinReq) (x : Group), s.wins[k]? = some q → q.owner = .group u → u ≠ 0 → getG s u = some x → q.scalar = false →
    q.ent = 0 → (∀ e ∈ s.path, e.id ≠ 0) → q.ctx < 256 → ctxState s q.ctx = 1 → hangDue s q.ctx = none → s.dumps.length < 3 →
    let failed (t : State) : Prop := ctxState t q.ctx = 2 ∧ (∃ r ∈ t.faults, r.ctx = q.ctx ∧ r.cause = .remoteError ∧ r.addr = q.va) ∧
      (∀ r ∈ t.wins, r.id ≠ q.id) ∧ bytesKept s t
    (completes (.linkError k) s fun t => failed t) ∧
    (q.born + 2000000 ≤ s.now → completes (.remoteTimeout k) s fun t => failed t) ∧
    (s.now < q.born + 2000000 → exec (.remoteTimeout k) s = .next s)) ∧
  (∀ (s : State) (k u : Nat) (q : WinReq) (x : Group), s.wins[k]? = some q → q.owner = .group u → u ≠ 0 → getG s u = some x → q.scalar = true →
    q.ent = 0 → q.kind = .load → q.keep = false → x.swait = .remote q.id → completes (.linkError k) s fun t =>
      getG t u = some { x with swait := .failed } ∧ (∀ r ∈ t.wins, r.id ≠ q.id) ∧ bytesKept s t)

/-- R243 to R251: writes and reads from outside, and the answers of windows. -/
def Obligations.HostWindowsBothWays : Prop := Say.outsideWrites ∧ Say.windowAnswers

/-! ### Launch queues and scheduling (R27, R34, R288 to R297) -/

/-- R288, R290: writes of `QTAIL` and `QCTL`. A tail that moves past the slots of the ring, or backward, is ignored with err; a write of an enabled
queue keeps its context and size; rerr and err clear where 1 is written. -/
def Sys2Proof.Say.queueRegisters : Prop :=
  ∀ (s : State) (q : Nat) (v : Word), q < 64 →
    let head := sysGet s (rQ q 3)
    let d := (v.toNat % 2 ^ 32 + 2 ^ 32 - head) % 2 ^ 32
    let ok : Prop := d ≤ 2 ^ (min (sysBits s (rQ q 1) 3 0) 12 + 4) ∧ (sysGet s (rQ q 2) + 2 ^ 32 - head) % 2 ^ 32 ≤ d
    (ok → completes (.qtailWrite q v) s fun t => sysGet t (rQ q 2) = v.toNat % 2 ^ 32 ∧ bytesKept s t ∧
      ∀ n, n ≠ rQ q 2 → sysGet t n = sysGet s n) ∧
    (¬ok → completes (.qtailWrite q v) s fun t => sysBit t (rQ q 1) 14 = true ∧ bytesKept s t ∧ ∀ n, n ≠ rQ q 1 → sysGet t n = sysGet s n) ∧
    (completes (.qctlWrite q v) s fun t => bytesKept s t ∧ (∀ n, n ≠ rQ q 1 → sysGet t n = sysGet s n) ∧ queueEn t q = v.toNat.testBit 13 ∧
      sysBits t (rQ q 1) 40 32 = bits v.toNat 40 32 ∧
      (∀ b, b = 14 ∨ b = 15 → sysBit t (rQ q 1) b = (sysBit s (rQ q 1) b && !v.toNat.testBit b)) ∧
      (queueEn s q = true → queueCtx t q = queueCtx s q ∧ sysBits t (rQ q 1) 3 0 = sysBits s (rQ q 1) 3 0) ∧
      (queueEn s q = false → queueCtx t q = bits v.toNat 11 4 ∧ sysBits t (rQ q 1) 3 0 = bits v.toNat 3 0))

/-- The completion word of slot `n` with a status has been written in the queue's context, or there is none to write (R292). -/
def Sys2Proof.Say.completionAt (s t : State) (c va n status : Nat) : Prop :=
  (va = 0 → t.mem = s.mem) ∧
  ∀ pa key unc la leaf page, va ≠ 0 → va % 8 = 0 → walk s c .store va = .ok pa key unc la leaf page → inMem s pa = true → Memory.wf s →
    pa + 8 ≤ 2 ^ 52 → scatLines s pa 8 = [] → Say.keyed s pa 8 key → Say.wrote s t (homeDie s pa) pa 8 (n % 2 ^ 32 + 2 ^ 32 * status)

/-- R290 to R292, R303, R456: a launch is read from two slots of its ring: an accepted one becomes the youngest launch with the words and arguments
that were read, a refused one completes at once with status 1, and either moves the head by two. A node table that cannot be read refuses the
launch (log 21). A read that fails disables the queue with rerr. A queue that is not served, or holds less than two words, is not read. -/
def Sys2Proof.Say.launchReads : Prop :=
  ∀ (s : State) (q : Nat), q < 64 →
    let h := qHead s q
    let c := queueCtx s q
    let due : Prop := servesQueue s q = true ∧ 2 ≤ (qTail s q + 2 ^ 32 - h) % 2 ^ 32
    (¬due → exec (.launchRead q) s = .next s) ∧
    (∀ f, due → readWords s c (slotVa s q h) 8 = .bad f → completes (.launchRead q) s fun t => sysBit t (rQ q 1) 15 = true ∧ queueEn t q = false ∧
      qHead t q = h ∧ t.launches = s.launches ∧ bytesKept s t) ∧
    (∀ dw da v1 v2, due → readWords s c (slotVa s q h) 8 = .ok dw v1 → readWords s c (slotVa s q (h + 1)) 8 = .ok da v2 →
      let w := wordsOf dw
      let accepted (t : State) (nodes : List (List Word)) : Prop := qHead t q = (h + 2) % 2 ^ 32 ∧ bytesKept s t ∧
        ∃ l, t.launches = s.launches ++ [l] ∧ l.queue = q ∧ l.slotNo = h ∧ l.ctx = c ∧ l.w = w ∧ l.args = wordsOf da ∧ l.nodes = nodes ∧ l.placed = 0 ∧
          l.status = none ∧ l.after = if bit (wordAt w 2) 46 = true ∧ mget s.qlast 0 q ≠ 0 ∧ (getL s (mget s.qlast 0 q)).isSome = true
            then some (mget s.qlast 0 q) else none
      let refused (t : State) : Prop := qHead t q = (h + 2) % 2 ^ 32 ∧ sysGet t (rQ q 6) = (sysGet s (rQ q 6) + 1) % 2 ^ 32 ∧
        t.launches = s.launches ∧ Say.completionAt s t c (wordAt w 7) h 1
      let settles : Prop := ∀ aw, walk s c .store (wordAt w 7) ≠ .away aw
      (recordOk w = false → settles → completes (.launchRead q) s refused) ∧
      (recordOk w = true → bit (wordAt w 2) 47 = false → completes (.launchRead q) s fun t => accepted t []) ∧
      (∀ nodes whole, recordOk w = true → bit (wordAt w 2) 47 = true → readNodes s c (wordAt w 6) (bits (wordAt w 5) 23 16 + 1) = .got nodes whole →
        (whole = true → nodes.all nodeOk = true → completes (.launchRead q) s fun t => accepted t nodes) ∧
        (whole = false ∨ nodes.all nodeOk = false → settles → completes (.launchRead q) s refused)))

/-- R288, R290 to R292, R303, R456: queue registers and reads of launches; the refusal of a launch whose node table cannot be read is log 21. -/
def Obligations.QueuesAndLaunchReads : Prop := Say.queueRegisters ∧ Say.launchReads

/-- R27, R294, R296, R297: an offer of a core that a queue answers with the next team of a grid starts that team there, every group at the launch's
entry with the arguments in a1 to a8, every other scalar register zero and one fragment of all its threads; one that it answers with a switched-out team restores that team
on its core. A core that runs a team is not offered. A scratchpad that is empty at the start of a team is the model's choice (log 3). -/
def Obligations.CoreOffers : Prop :=
  (∀ (s : State) (core : Nat), (running s core).isSome = true ∨ 256 ≤ core → exec (.coreOffer core) s = .next s) ∧
  (∀ (s u : State) (core q l c0 : Nat) (x : Launch), offerable s core = true → offer s core = (u, .place q (.grid l) [c0]) → l ≠ 0 →
    getL u l = some x → isAfter x = false → u.g.uid < u.nid → (∀ g ∈ u.groups, g.uid < u.nid) → completes (.coreOffer core) s fun t =>
      bytesKept u t ∧ (∃ y, getL t l = some y ∧ y.placed = x.placed + 1) ∧
      ∃ m gs, t.teams.map forgetAsk = u.teams.map forgetAsk ++ [m] ∧ m.launch = l ∧ m.idx = x.placed ∧ m.core = c0 ∧ m.slot = .running ∧ m.ngrp = grpN x ∧
        m.vregs = resRegs (lw x 3) ∧ m.scrB = resScratch (lw x 3) ∧ m.sliceB = resSlice (lw x 3) ∧ m.scr = [] ∧
        t.groups = u.groups ++ gs ∧ gs.length = grpN x ∧ ∀ i, i < grpN x → ∃ g, gs[i]? = some g ∧ g.idx = i ∧ g.team = m.uid ∧
          g.pc = BitVec.ofNat 64 (lw x 0) ∧ (∀ r, readA g r = if r = 0 then 0 else ((x.args[r - 1]?).getD 0)) ∧
          g.v = [] ∧ g.u = [] ∧ g.k = [] ∧ g.ops = [] ∧ g.bind = [] ∧ g.task = none ∧ g.taskq = [] ∧ g.obs = x.ovec ∧
          ∃ id, g.frs = [(0, { id := id, mask := BitVec.allOnes 64, pc := 0, born := id })]) ∧
  (∀ (s u : State) (core q c0 m : Nat) (x : Team), offerable s core = true → offer s core = (u, .place q (.back m) [c0]) → m ≠ 0 →
    getT u m = some x → clusterOf u x = [x] → x.slot = .out → x.rank = 0 →
    let back (t : State) : Prop := ∃ y, getT t m = some y ∧ y.slot = .running ∧ y.core = c0 ∧ y.idx = x.idx ∧ y.scr = x.scr
    (completes (.coreOffer core) s back) ∧ (completes (.switchRestore m core) s back)) ∧
  (∀ (s : State) (core m : Nat), (running s core).isSome = true → exec (.switchRestore m core) s = .next s)

/-- R34, R249, R292, R294, R411: the end of a group and of a launch. A group retires once its streams are idle and its flags clear: it is gone, its
launch counts it and keeps what it observed; with the last group, once nothing stands in its matrix queue (log 35), its team leaves the core and its
queue is charged, down to −2^47. A launch whose teams have all retired, with nothing of it on its way, completes with status 0, or with the status
that a stop gave it once its dump is written; one that leaves host stores first makes a host read, and waits for its completion. -/
def Obligations.Completion : Prop :=
  (∀ (s : State) (g : Nat) (x : Group), getG s g = some x → g ≠ 0 →
    (mayRetire s x = false → exec (.groupRetire g) s = .next s) ∧
    (∀ m l, mayRetire s x = true → getT s x.team = some m → x.team ≠ 0 → getL s m.launch = some l → m.launch ≠ 0 → m.uid = x.team →
      l.uid = m.launch → (∀ e ∈ s.claims, e.maker ≠ g) →
      ((∃ y ∈ allG s, y.uid ≠ g ∧ y.team = x.team) ∨ m.mq ≠ [] → completes (.groupRetire g) s fun t => getG t g = none ∧
        (getT t x.team).map forgetAsk = some (forgetAsk m) ∧ t.mem = s.mem ∧
        ∃ z, getL t m.launch = some z ∧ z.retired = l.retired + (if m.node = none then 1 else 0) ∧ z.cvec = v4max l.cvec x.obs ∧
          z.obsv = v4max l.obsv x.obs ∧ z.hostSt = (l.hostSt || x.hostSt)) ∧
      ((∀ y ∈ allG s, y.uid ≠ g → y.team ≠ x.team) → m.mq = [] → m.clusterN ≤ 1 → m.mail = none → (∀ e ∈ s.eops, e.team ≠ x.team) → l.queue < 64 →
        completes (.groupRetire g) s fun t => getG t g = none ∧ getT t x.team = none ∧ t.mem = s.mem ∧
          getDef t l.queue = max (getDef s l.queue - m.charge / 1000) (-(2 ^ 47))))) ∧
  (∀ (s : State) (l : Nat) (x : Launch), getL s l = some x → l ≠ 0 → x.uid = l → x.queue < 64 →
    let ends : Prop := launchDrained s x = true ∧ (x.status = none ∧ launchOver s x = true ∨ x.status ≠ none ∧ x.dumping = false)
    let settles : Prop := ∀ aw, walk s x.ctx .store (lw x 7) ≠ .away aw
    (¬ends → exec (.launchComplete l) s = .next s) ∧
    (ends → x.flush = 1 → exec (.launchComplete l) s = .next s) ∧
    (ends → x.hostSt = true → x.flush = 0 → completes (.launchComplete l) s fun t =>
      bytesKept s t ∧ (∃ q, t.wins = s.wins ++ [q] ∧ q.kind = .flush ∧ q.n = 0 ∧ q.peer = false ∧ q.pa = sysGet s (rCtx x.ctx 4) ∧ q.lop = l) ∧
      ∃ y, getL t l = some y ∧ y.flush = 1) ∧
    (ends → x.flush ≠ 1 → x.hostSt = false ∨ x.flush ≠ 0 → settles → completes (.launchComplete l) s fun t =>
      getL t l = none ∧ sysGet t (rQ x.queue 6) = (sysGet s (rQ x.queue 6) + 1) % 2 ^ 32 ∧
      Say.completionAt s t x.ctx (lw x 7) x.slotNo (x.status.getD 0) ∧ ∀ m ∈ allT t, m.launch ≠ l))

/-! ### The end of a context (R308, R380, R401, R411, R423, R425, R428 to R431) -/

/-- R307, R308, R411, R423: a persistent group whose Lap Clock has reached its lap is a hang of its context, and a fatal fault of a live context stops
it: the fault is recorded, its state is stopped, none of its queues is enabled, its running launches get status 2, the launch that hangs 3, to
complete with; no byte changes. A fault that finds a group at its lap is that hang. Without either nothing happens. -/
def Sys2Proof.Say.contextStops : Prop :=
  (∀ (s : State) (c cause : Nat), c < 256 → s.dumps.length < 3 →
    (∀ g, ctxState s c = 1 → hangDue s c = some g → completes (.contextStop c cause) s fun t => ctxState t c = 2 ∧ bytesKept s t ∧
      ∃ r ∈ t.faults, r.ctx = c ∧ r.cause = .hang ∧ r.pc = g.pc.toNat ∧ r.group = g.idx) ∧
    (ctxState s c = 1 → hangDue s c = none → completes (.contextStop c cause) s fun t => ctxState t c = 2 ∧ bytesKept s t ∧
      (∃ r ∈ t.faults, r.ctx = c ∧ r.cause = .other cause) ∧ (∀ q, q < 64 → queueCtx s q = c → queueEn t q = false) ∧
      (∀ u x, u ≠ 0 → getL s u = some x → x.ctx = c → x.status = none → ∃ y, getL t u = some y ∧ y.status = some 2) ∧
      ∀ e ∈ t.eops, e.ctx = c → e.stopped = true) ∧
    (ctxState s c ≠ 1 → exec (.contextStop c cause) s = .next s)) ∧
  (∀ (s : State) (g : Nat) (x : Group), g ≠ 0 → getG s g = some x → let l := launchOfG s x
    (isPers l = false ∨ x.lap < lapNs l ∨ ctxState s l.ctx ≠ 1 → exec (.lapClockExpiry g) s = .next s) ∧
    (isPers l = true → lapNs l ≤ x.lap → ctxState s l.ctx = 1 → l.ctx < 256 → s.dumps.length < 3 → completes (.lapClockExpiry g) s fun t =>
      ctxState t l.ctx = 2 ∧ bytesKept s t ∧ (∃ r ∈ t.faults, r.ctx = l.ctx ∧ r.cause = .hang ∧ r.pc = x.pc.toNat ∧ r.group = x.idx) ∧
      ∀ u z, u ≠ 0 → getL s u = some z → z.ctx = l.ctx → z.status = none → ∃ y, getL t u = some y ∧
        y.status = some (if u = l.uid then 3 else 2)))

/-- R307, R308, R411, R423: fatal faults and hangs stop the context. -/
def Obligations.FatalStops : Prop := Say.fatalFaultStopsContext ∧ Say.contextStops

/-- R425, R428, R429: the dump engine writes the next record of the running dump at its place in the area, or ends the dump after the last one, and the
launches of its context may complete. A dump whose own buffers an error has struck ends at once. With no dump nothing happens. -/
def Sys2Proof.Say.dumpMoves : Prop :=
  ∀ (s : State),
    (s.dumps = [] → exec .dumpWrite s = .next s) ∧
    (∀ d r, s.dumps = d :: r → d.struck = true → completes .dumpWrite s fun t => t.dumps = r ∧
      ∀ u x, u ≠ 0 → getL s u = some x → x.ctx = d.ctx → ∃ y, getL t u = some y ∧ y.dumping = false) ∧
    (∀ d r, s.dumps = d :: r → d.struck = false → (dumpRecs s d)[d.k]? = none → completes .dumpWrite s fun t => t.dumps = r ∧ bytesKept s t ∧
      sysBit t 0x3943 63 = !r.isEmpty ∧ sysBits t 0x3943 62 61 = (r.length - 1) % 4 ∧
      ∀ u x, u ≠ 0 → getL s u = some x → x.ctx = d.ctx → ∃ y, getL t u = some y ∧ y.dumping = false) ∧
    (∀ d r x, s.dumps = d :: r → d.struck = false → (dumpRecs s d)[d.k]? = some x → let p := takeStamp s d.first.core
      let data := drecBytes p.2 p.1 x
      (dumpSize s d.ctx < d.pos + data.length → completes .dumpWrite s fun t => t.dumps = r ∧ bytesKept s t ∧
        sysBits t 0x3943 31 0 = min (2 ^ 32 - 1) (sysBits s 0x3943 31 0 + 1)) ∧
      (∀ u, d.pos + data.length ≤ dumpSize s d.ctx → devWriteRun p.2 d.ctx ((dumpVa s d.ctx + d.pos) % 2 ^ 64) (data.length / 4096 + 2) data = .ok u →
        completes .dumpWrite s fun t => t.dumps = { d with k := d.k + 1, pos := d.pos + data.length } :: r ∧ t.mem = u.mem))

/-- A teardown of context `c` has begun, with entry `e` in the list of those that wait: the context is being torn down and its queues are closed;
nothing of it parks in the claim table, runs on an engine, locks a range or is dumped; each of its launches completes with status 4 by a move of its
own, and each of its sessions flushes, to end with `code`. -/
def Sys2Proof.Say.tearingDown (s t : State) (c code : Nat) (e : Nat × Nat) : Prop :=
  ctxState t c = 3 ∧ e ∈ t.tears ∧ (∀ q, q < 64 → queueCtx s q = c → queueEn t q = false) ∧ (∀ r ∈ t.reqs, r.ctx ≠ c) ∧ (∀ e ∈ t.eops, e.ctx ≠ c) ∧
  (∀ k ∈ t.locks, k.ctx ≠ c) ∧ (∀ d ∈ t.dumps, d.ctx ≠ c) ∧ (∀ m ∈ s.migq, m ∈ t.migq) ∧
  (∀ u x, u ≠ 0 → getL s u = some x → x.ctx = c → ∃ y, getL t u = some y ∧ y.status = some 4 ∧ y.dumping = false) ∧
  ∀ i, i < 16 → ownSession s c i = true → (mget t.sess {} i).closing = some code

/-- Context `c` is gone: absent, its translations, walks and parked accesses with it, its window of the die scratchpads zero where it shares it with
no live context, its key slot destroyed where no live context names it, and the resets of its queues over (R380). -/
def Sys2Proof.Say.tornDown (s t : State) (c : Nat) : Prop :=
  let others (P : Nat → Prop) : Prop := ∀ x, x < 256 → x ≠ c → ctxLive s x = true → ¬P x
  let o := sysBits s (rCtx c 2) 7 0
  ctxState t c = 0 ∧ ctxLive t c = false ∧ (∀ p ∈ t.tears, p.1 ≠ c) ∧ (∀ e ∈ t.tlb, e.ctx ≠ c) ∧ (∀ w ∈ t.walks, w.ctx ≠ c) ∧
  (∀ p ∈ t.parks, p.ctx ≠ c) ∧ (∀ v ∈ t.winVals, v.ctx ≠ c) ∧ (∀ q, (c, q + 1) ∈ s.tears → sysBit t (0x3900 + q) 63 = false) ∧
  (∀ d off, d < 4 → off < 2 ^ 26 → inWindow s c off = true → others (fun x => inWindow s x off = true) → mget t.dscr 0 (d * 2 ^ 26 + off) = 0) ∧
  (o ≠ 0 → others (fun x => sysBits s (rCtx x 2) 7 0 = o ∨ sysBit s (rCtx x 2) 16 = true ∧ sysBits s (rCtx x 2) 15 8 = o) →
    sysBit t (rKey o) 0 = false)

/-- R365, R380, R401, R430: teardown of a live or stopped context, and a queue-level reset of the context of a queue, which shows busy, begin at once. After a
move, a teardown waits while a session of the context flushes, or a launch, a store, a reduction, a request to a window, a walk or a move of a page of it
goes on (log 26); else nothing is left of it. A context in no such state is not torn down. -/
def Sys2Proof.Say.teardown : Prop :=
  (∀ (s : State) (c : Nat) (v : Word), c < 256 →
    (ctxState s c = 1 ∨ ctxState s c = 2 → completes (.ctxstTdn c v) s fun t => Say.tearingDown s t c 3 (c, 0)) ∧
    (ctxState s c = 0 ∨ ctxState s c = 3 → exec (.ctxstTdn c v) s = .next s)) ∧
  (∀ (s : State) (q : Nat) (v : Word), q < 64 → let c := queueCtx s q
    (ctxState s c ≠ 3 → completes (.qrstGo q v) s fun t => Say.tearingDown s t c 2 (c, q + 1) ∧ sysBit t (0x3900 + q) 63 = true) ∧
    (ctxState s c = 3 → completes (.qrstGo q v) s fun t => t.tears = s.tears ++ [(c, q + 1)] ∧ sysBit t (0x3900 + q) 63 = true ∧
      ctxState t c = 3 ∧ bytesKept s t)) ∧
  (∀ (s : State) (c : Nat), c < 256 → (∀ p ∈ s.tears, p.1 = c ∧ p.2 ≤ 64) → s.tears ≠ [] → s.reached = [] → s.service ≠ .bringUp →
    (flushing s c = true ∨ Machine.goesOn s c = true → afterMove s = s) ∧
    (flushing s c = false → Machine.goesOn s c = false → Say.tornDown s (afterMove s) c ∧ (afterMove s).mem = s.mem))

/-- R365, R380, R401, R425, R428 to R430: the dump engine and teardown; what a teardown waits for, and when its launches complete, is log 26. -/
def Obligations.DumpsAndTeardown : Prop := Say.dumpMoves ∧ Say.teardown

/-! ### Registers of the device (R3, R14, R244, R252, R365, R379, R381, R385, R388, R448) -/

/-- Nothing differs but supervisor register n. -/
def Sys2Proof.Say.onlySys (s t : State) (n : Nat) : Prop := (∀ m, m ≠ n → sysGet t m = sysGet s m) ∧ t = { s with sys := t.sys }

/-- R365, R379: `CTXPT` takes its root and en while the context is not live, and setting en makes it live; `KEYSLOT` makes a fresh key or destroys
one, after which nothing written under it reads as written (log 25); a write that changes neither is ignored. -/
def Sys2Proof.Say.contextAndKeyWrites : Prop :=
  (∀ (s : State) (c : Nat) (v : Word), c < 256 →
    (ctxLive s c = true → exec (.ctxptWrite c v) s = .next s) ∧
    (ctxLive s c = false → completes (.ctxptWrite c v) s fun t => ctxLive t c = v.toNat.testBit 63 ∧ sysBits t (rCtx c 0) 51 12 = bits v.toNat 51 12 ∧
      ctxState t c = (if v.toNat.testBit 63 then 1 else ctxState s c) ∧ t = { s with sys := t.sys } ∧
      ∀ n, n ≠ rCtx c 0 → n ≠ rCtx c 3 → sysGet t n = sysGet s n)) ∧
  (∀ (s : State) (n : Nat) (v : Word), n < 256 →
    (n = 0 ∨ sysBit s (rKey n) 0 = v.toNat.testBit 0 → exec (.keyslotWrite n v) s = .next s) ∧
    (n ≠ 0 → sysBit s (rKey n) 0 = false → v.toNat.testBit 0 = true → completes (.keyslotWrite n v) s fun t =>
      sysBit t (rKey n) 0 = true ∧ genOf t n = s.nid + 1 ∧ (∀ k, k ≠ n → genOf t k = genOf s k) ∧ t.mem = s.mem) ∧
    (n ≠ 0 → sysBit s (rKey n) 0 = true → v.toNat.testBit 0 = false → completes (.keyslotWrite n v) s fun t =>
      sysBit t (rKey n) 0 = false ∧ genOf t n = s.nid + 1 ∧ (∀ k, k ≠ n → genOf t k = genOf s k) ∧ t.mem = s.mem))

/-- R244, R252: landing entries and member sets. An enabled landing entry keeps its base, and one that is being disabled waits for the
requests it has admitted; a member set takes the devices of its map, and refuses with err a map that is empty or names a device
past 431; one with no collective on its way is emptied at once. The model's choices, all of log 20: an entry that is being disabled serves nothing,
a map outside memory is refused with err, and a write of en to a set that has it changes nothing, while its clearing waits too. -/
def Sys2Proof.Say.domainTables : Prop :=
  (∀ (s : State) (e : Nat) (v : Word), e < 256 →
    (landSize s e ≠ 0 → exec (.landaWrite e v) s = .next s) ∧
    (landSize s e = 0 → completes (.landaWrite e v) s fun t => landBase t e = bits v.toNat 51 21 * 2 ^ 21 ∧ Say.onlySys s t (0x3A00 + 2 * e)) ∧
    (s.landOff = [] → (landSize s e = 0 ∨ bits v.toNat 20 0 ≠ 0 ∨ ∀ l ∈ s.landed, l.entry ≠ e) → completes (.landbWrite e v) s fun t =>
      Say.onlySys s t (0x3A01 + 2 * e) ∧ landSize t e = bits v.toNat 20 0 * 2 ^ 21 ∧
      (∀ hi lo, (hi, lo) ∈ [(63, 40), (34, 32)] → sysBits t (0x3A01 + 2 * e) hi lo = bits v.toNat hi lo)) ∧
    (s.landOff = [] → landSize s e ≠ 0 → bits v.toNat 20 0 = 0 → (∃ l ∈ s.landed, l.entry = e) → completes (.landbWrite e v) s fun t =>
      landSize t e = landSize s e ∧ (∀ r, landServes t r e = false) ∧ t.sys = s.sys)) ∧
  (∀ (s : State) (n : Nat) (v : Word), n < 64 →
    let a := 0x0200 + 2 * n
    let pa := bits v.toNat 51 6 * 64
    let l := mapMembers (rdBytes s (homeDie s pa) pa 0 64)
    let legal : Prop := inMem s pa = true ∧ l ≠ [] ∧ ∀ p ∈ l, p < 432
    (sysBit s a 63 = false → legal → completes (.collsaEnSet n v) s fun t => sysBit t a 63 = true ∧ mget t.sets [] n = l ∧
      sysBits t (a + 1) 40 32 = l.length % 512 ∧ t.mem = s.mem) ∧
    (sysBit s a 63 = false → ¬legal → completes (.collsaEnSet n v) s fun t => sysBit t a 63 = false ∧ sysBit t a 62 = true ∧ t.sets = s.sets) ∧
    (sysBit s a 63 = true → v.toNat.testBit 62 = false → exec (.collsaEnSet n v) s = .next s) ∧
    (sysBit s a 63 = true → s.collOff = [] → s.eops = [] → completes (.collsaEnClear n v) s fun t => sysBit t a 63 = false ∧ mget t.sets [] n = [] ∧
      t.mem = s.mem) ∧
    (∀ e r op dt b c d, sysBit s a 63 = true → s.collOff = [] → e ∈ s.eops → e.stopped = false → e.kind = .coll r op dt b c n d →
      completes (.collsaEnClear n v) s fun t => sysBit t a 63 = true ∧ t.collOff = [n] ∧ mget t.sets [] n = mget s.sets [] n))

/-- R14, R381, R382, R388, R393: the clock moves in steps of 25 MHz between 425 MHz and its full rate; device time is set only while nothing runs; its
offset adds up, its rate is clamped to 2^30; a dialogue leaves both times; the precharge of an open row closes it, and starts its counter again when
it has reached the threshold or its parity fails. -/
def Obligations.ClockAndTime : Prop :=
  (∀ (s : State) (up : Bool), completes (.clockStep up) s fun t => onlyReports { s with clock := t.clock } t ∧
    t.clock = if up then max s.clock (min (if s.service = .full then 850 else 425) (s.clock + 25)) else max 425 (s.clock - 25)) ∧
  (∀ (s : State) (v : Word),
    ((∀ i, i < 16 → tsOpen s i = false) → allL s = [] → completes (.tbsetWrite v) s fun t => t.now = v.toNat ∧ sysBit t 0x1310 63 = true ∧
      t = { s with now := t.now, sys := t.sys } ∧ ∀ n, n ≠ 0x1310 → sysGet t n = sysGet s n) ∧
    ((∃ i, i < 16 ∧ tsOpen s i = true) ∨ allL s ≠ [] → completes (.tbsetWrite v) s fun t => sysBit t 0x1310 61 = true ∧ Say.onlySys s t 0x1310) ∧
    (completes (.tbadjWrite v) s fun t => sysGet t 0x1312 = (sysGet s 0x1312 + v.toNat) % 2 ^ 48 ∧ t.mem = s.mem ∧ t.now = s.now) ∧
    (completes (.tbrateWrite v) s fun t => t.mem = s.mem ∧ t.now = s.now ∧
      (BitVec.ofNat 32 (sysGet t 0x1313)).toInt = max (-(2 ^ 30)) (min (2 ^ 30) (v.setWidth 32).toInt)) ∧
    (∀ dev, (sysBit s 0x1310 62 = true → completes (.ptmDialogue dev v) s fun t => sysGet t 0x1314 = dieNow s 0 % 2 ^ 64 ∧ sysGet t 0x1315 = v.toNat ∧
        t = { s with sys := t.sys }) ∧
      (sysBit s 0x1310 62 = false → exec (.ptmDialogue dev v) s = .next s))) ∧
  (∀ (s : State) (row : Nat) (bad : Bool), let n := mget s.act 0 row
    (mget s.rows 0 row = 0 → exec (.precharge row bad) s = .next s) ∧
    (mget s.rows 0 row ≠ 0 → completes (.precharge row bad) s fun t => mget t.rows 0 row = 0 ∧ t.service = s.service ∧
      (bad = false → onlyReports s t ∧ ∀ r, r ≠ row → mget t.rows 0 r = mget s.rows 0 r ∧ mget t.act 0 r = mget s.act 0 r) ∧
      mget t.act 0 row = if bad = true ∨ max 64 (sysBits s 0x1309 11 0) ≤ n then 0 else n))

/-- R3, R365, R366, R379, R381, R384, R412, R448, R449: a write of the host at a BAR0 offset. It writes the register that stands there: a plain field is
stored, fields of a context are kept while it is live; an offset where none stands, and every one after a failed image check, changes nothing. R311:
a context's claim domain is kept while a group of the context is resident. -/
def Sys2Proof.Say.outsideRegisterWrites : Prop :=
  ∀ (s : State) (v : Word),
    (∀ off, s.service = .mailbox ∨ bar0Num off = none → exec (.registerWrite off v) s = .next s) ∧
    (∀ off n, bar0Num off = some n → sysAssigned n = false → exec (.registerWrite off v) s = .next s) ∧
    (∀ off, off % 8 ≠ 0 ∨ off < 0x0F0000 ∨ 0x704000 ≤ off → bar0Num off = none) ∧
    (s.service ≠ .mailbox →
      (∀ q, q < 64 → completes (.registerWrite (0x100000 + 64 * q + 8 * 4) v) s fun t => sysBits t (rQ q 4) 31 0 = v.toNat % 2 ^ 32 ∧
        Say.onlySys s t (rQ q 4)) ∧
      (completes (.registerWrite 0x400048 v) s fun t => sysBits t 0x1309 11 0 = v.toNat % 2 ^ 12 ∧ Say.onlySys s t 0x1309) ∧
      (∀ k, k < 256 → exec (.registerWrite (0x300000 + 8 * k) v) s = exec (.keyslotWrite k v) s) ∧
      (∀ c, c < 256 →
        exec (.registerWrite (0x200000 + 64 * c) v) s = exec (.ctxptWrite c v) s ∧
        exec (.registerWrite (0x701000 + 16 * c) v) s = exec (.landaWrite c v) s ∧
        (ctxLive s c = true → ∀ i, i = 1 ∨ i = 2 ∨ i = 4 ∨ i = 5 → exec (.registerWrite (0x200000 + 64 * c + 8 * i) v) s = .next s) ∧
        (ctxLive s c = true → ∀ i, i < 4 → exec (.registerWrite (0x702000 + 32 * c + 8 * i) v) s = .next s) ∧
        (ctxLive s c = false → completes (.registerWrite (0x200000 + 64 * c + 8 * 2) v) s fun t => Say.onlySys s t (rCtx c 2) ∧
          ∀ hi lo, (hi, lo) ∈ [(47, 32), (16, 16), (15, 8), (7, 0)] → sysBits t (rCtx c 2) hi lo = bits v.toNat hi lo) ∧
        (ctxLive s c = false → completes (.registerWrite (0x702000 + 32 * c) v) s fun t => Say.onlySys s t (rRec c 0) ∧
          sysBits t (rRec c 0) 56 2 = bits v.toNat 56 2 ∧ sysBit t (rRec c 0) 63 = v.toNat.testBit 63))) ∧
    (∀ c, c < 256 → (ctxResident s c = true → sysWrite s (0x0900 + c) v.toNat = s) ∧
      (ctxResident s c = false → sysBits (sysWrite s (0x0900 + c) v.toNat) (0x0900 + c) 7 0 = v.toNat % 2 ^ 8 ∧
        Say.onlySys s (sysWrite s (0x0900 + c) v.toNat) (0x0900 + c)))

/-- R3, R244, R252, R311, R365, R366, R379, R381, R412, R448, R449: writes of registers from outside the streams; landing entries that are being disabled,
and member maps outside memory, are log 20. -/
def Obligations.RegisterWritesFromOutside : Prop := Say.contextAndKeyWrites ∧ Say.domainTables ∧ Say.outsideRegisterWrites

/-! ### Translation and migration (R371 to R377, R385) -/

/-- Walk `w` has ended without a leaf, and its walker is free; one that an invalidation has passed is gone. -/
def Sys2Proof.Say.walkFailed (t : State) (w : PWalk) (c : FCause) : Prop :=
  (w.stale = false → ∃ y ∈ t.walks, y = { w with going := false, failed := some c }) ∧ (w.stale = true → ∀ y ∈ t.walks, y.id ≠ w.id)

/-- R367 to R371: a page walk goes on only where a group has started one. It waits while the 64 walkers of its die are busy, starts at the
context's root, and reads one entry a move, from its home or as the die's walkers keep it: an invalid entry ends it as unmapped, a bad one as bad, a
table leads one level down, and a leaf enters the core's TLB. A walk that an invalidation has passed reads every entry from its home and enters
nothing anywhere (R372). -/
def Sys2Proof.Say.pageWalks : Prop :=
  ∀ (s : State) (core c : Nat) (va : Word), let page := va.toNat - va.toNat % 4096
    ((∀ w ∈ s.walks, w.core = core → w.ctx = c → w.page = page → w.failed ≠ none) → exec (.pageWalk core c va) s = .next s) ∧
    (∀ w, s.walks.find? (fun x => x.core == core && x.ctx == c && x.page == page && x.failed.isNone) = some w → (∀ x ∈ s.walks, x.id = w.id → x = w) →
      let busy := (s.walks.filter (fun x => x.going && dieOf x.core == dieOf core)).length
      let root := ptePa (sysGet s (rCtx c 0))
      let only (t : State) : Prop := onlyReports { s with walks := t.walks, wkeeps := t.wkeeps, tlb := t.tlb } t
      (w.going = false → 64 ≤ busy → exec (.pageWalk core c va) s = .next s) ∧
      (w.going = false → busy < 64 → inMem s root = false → completes (.pageWalk core c va) s fun t => only t ∧ t.tlb = s.tlb ∧
        Say.walkFailed t w .badEntry) ∧
      (w.going = false → busy < 64 → inMem s root = true → completes (.pageWalk core c va) s fun t => only t ∧ t.tlb = s.tlb ∧
        ∃ y ∈ t.walks, y = { w with going := true, level := 0, base := root }) ∧
      (w.going = true → ∃ e, (e = rdPhys s (w.base + 8 * pteIndex w.level page) 8 ∨
          w.stale = false ∧ ∃ k ∈ s.wkeeps, k.die = dieOf core ∧ k.ctx = c ∧ k.level = w.level ∧ k.pre = page % 2 ^ 57 / levelSpan w.level ∧ k.entry = e) ∧
        let none' : Prop := bit e 0 = false ∨ bit e 1 = false ∧ paKind s (ptePa e) = .unmapped
        (none' → completes (.pageWalk core c va) s fun t => only t ∧ t.tlb = s.tlb ∧ Say.walkFailed t w .unmapped) ∧
        (¬none' → badEntry s w.level e = true → completes (.pageWalk core c va) s fun t => only t ∧ t.tlb = s.tlb ∧ Say.walkFailed t w .badEntry) ∧
        (¬none' → badEntry s w.level e = false → bit e 1 = true → completes (.pageWalk core c va) s fun t => only t ∧ t.tlb = s.tlb ∧
          ∃ y ∈ t.walks, y = { w with level := w.level + 1, base := ptePa e }) ∧
        (¬none' → badEntry s w.level e = false → bit e 1 = false →
          (w.stale = false → completes (.pageWalk core c va) s fun t => only t ∧ (∀ y ∈ t.walks, y.id ≠ w.id) ∧
            t.tlb = s.tlb ++ [{ core := core, ctx := c, base := page - page % 2 ^ pageLog (bits e 63 60), size := 2 ^ pageLog (bits e 63 60), leaf := e,
                                addr := w.base + 8 * pteIndex w.level page }]) ∧
          (w.stale = true → completes (.pageWalk core c va) s fun t => only t ∧ t.tlb = s.tlb ∧ t.wkeeps = s.wkeeps ∧
            ∀ y ∈ t.walks, y.id ≠ w.id))))

/-- R372: an invalidation drops what the TLBs and walkers hold of its range at once, and a walk of the context that is under way then enters nothing
any more; it is over, not busy, when every such walk has ended and no access that was translated before is on its way. While one is being made another write is ignored with err. -/
def Sys2Proof.Say.invalidations : Prop :=
  (∀ (s : State) (v : Word),
    (sysBit s 0x1306 63 = true → completes (.tlbinvcWrite v) s fun t => sysBit t 0x1306 62 = true ∧ Say.onlySys s t 0x1306) ∧
    (sysBit s 0x1306 63 = false → completes (.tlbinvcWrite v) s fun t => sysBit t 0x1306 63 = true ∧
      t.invals = s.invals ++ [{ ctx := v.toNat % 256, va := (sextW (sysBits s 0x1305 56 12 * 4096) 57).toNat, len := bits v.toNat 39 8,
                                walks := (s.walks.filter (fun w => w.ctx == v.toNat % 256 && w.failed.isNone)).map (·.id) }] ∧
      (∀ n, n ≠ 0x1306 → sysGet t n = sysGet s n) ∧ bytesKept s t)) ∧
  (∀ (s : State), s.invals = [] → exec .tlbInvalidationComplete s = .next s) ∧
  (∀ (s : State) (i : Inval) (r : List Inval), s.invals = i :: r →
    (i.bound = none → completes .tlbInvalidationComplete s fun t =>
      (∀ e ∈ t.tlb, e.ctx = i.ctx → inRange i.va (4096 * i.len) e.base e.size = false) ∧ (∀ e ∈ t.tlb, e ∈ s.tlb) ∧
      t.invals = { i with bound := some s.nid, walks := (s.walks.filter (fun w => w.ctx == i.ctx && w.failed.isNone)).map (·.id) } :: r ∧
      (∀ w ∈ t.walks, w.ctx = i.ctx → w.failed = none → w.stale = true) ∧ t.sys = s.sys ∧ bytesKept s t) ∧
    (∀ b, i.bound = some b →
      let due : Prop := (∃ w ∈ s.walks, w.id ∈ i.walks ∧ w.failed = none) ∨ accessDue s i.ctx i.va (4096 * i.len) b = true
      (due → exec .tlbInvalidationComplete s = .next s) ∧
      (¬due → completes .tlbInvalidationComplete s fun t => t.invals = r ∧ sysBit t 0x1306 63 = false ∧ t.tlb = s.tlb ∧
        t.walks = s.walks ∧ bytesKept s t)))

/-- R367 to R372: page walks and invalidations. -/
def Obligations.TranslationMoves : Prop := Say.pageWalks ∧ Say.invalidations

/-- R373 to R376: migration. A command is queued, or ignored with err while 64 wait; nothing moves while the ring is full. The oldest move is refused where
its page has no migratable leaf, no usable shadow, or lies in a landing entry; else the page is marked moving, so that its accesses park; the move
waits for walks, accesses and bytes on their way with no TLB holding the page; it recalls the copies of its lines; it takes the page, whose bytes
under its key slot then stand in the new frame of every view; and once both its stores are acknowledged the parked accesses go on. -/
def Sys2Proof.Say.migrationMoves : Prop :=
  (∀ (s : State) (v : Word), let n := (s.migq.filter (fun m => !m.byFault)).length
    (64 ≤ n → completes (.migcmdcWrite v) s fun t => sysBit t 0x1304 63 = true ∧ Say.onlySys s t 0x1304) ∧
    (n < 64 → completes (.migcmdcWrite v) s fun t => bytesKept s t ∧ (∀ n, n ≠ 0x1304 → sysGet t n = sysGet s n) ∧
      t.migq = s.migq ++ [{ ctx := v.toNat % 256, va := (sextW (sysBits s 0x1303 56 12 * 4096) 57).toNat, away := v.toNat.testBit 8, byFault := false }])) ∧
  (∀ (s : State), s.migq = [] ∨ ringFull s 0x1300 = true ∨ heldBack s 0 = true → exec .migrationMove s = .next s) ∧
  (∀ (s : State) (m : MigMove) (r : List MigMove), s.migq = m :: r → ringFull s 0x1300 = false → heldBack s 0 = false →
    let ended (t : State) : Prop := t.migq = r ∧ t.parks = s.parks ∧ t.tlb = s.tlb ∧ t.l1 = s.l1
    (m.stored = true → (∃ u ∈ s.inq, u.ser ∈ m.stores) ∨ (∃ e ∈ s.path, e.id ∈ m.stores) → exec .migrationMove s = .next s) ∧
    (m.stored = true → (∀ u ∈ s.inq, u.ser ∉ m.stores) → (∀ e ∈ s.path, e.id ∉ m.stores) → completes .migrationMove s fun t => t.migq = r ∧ t.tlb = s.tlb ∧
      ∀ p, p ∈ t.parks ↔ p ∈ s.parks ∧ ¬(p.ctx = m.ctx ∧ p.page = m.va)) ∧
    (m.stored = false → leafOf s m.ctx m.va = none → completes .migrationMove s ended) ∧
    (∀ ea e, m.stored = false → leafOf s m.ctx m.va = some (ea, e) →
      let n := 2 ^ pageLog (bits e 63 60)
      let page := m.va - m.va % n
      (bit e 8 = false ∨ usableShadow s m.ctx ea e = none ∨ pinned s (ptePa e) n = true → completes .migrationMove s ended) ∧
      (∀ new, usableShadow s m.ctx ea e = some new → bit e 8 = true → pinned s (ptePa e) n = false →
        let due : Prop := (∃ w ∈ s.walks, w.failed = none ∧ walkIn m.ctx m.va n w = true) ∨ accessDue s m.ctx m.va n s.nid = true ∨
          frameBusy s (ptePa e) n = true ∨ frameBusy s new n = true
        let gone (t : State) : Prop := ∀ x ∈ t.tlb, x.ctx = m.ctx → inRange m.va n x.base x.size = false
        (m.moving = false → completes .migrationMove s fun t => onlyReports { s with migq := t.migq } t ∧ isMoving t m.ctx page = true ∧
          t.migq = { m with va := page, moving := true, sz := bits e 63 60 } :: r) ∧
        (m.moving = true → due → completes .migrationMove s fun t => gone t ∧ t.migq = s.migq ∧ t.sys = s.sys ∧ bytesKept s t) ∧
        (m.moving = true → ¬due → copiedLines s (ptePa e) n ≠ [] → completes .migrationMove s fun t => t = { s with wants := t.wants } ∧
          ∀ l ∈ copiedLines s (ptePa e) n, l ∈ t.wants) ∧
        (m.moving = true → ¬due → copiedLines s (ptePa e) n = [] → completes .migrationMove s fun t => gone t ∧ t.parks = s.parks ∧
          (∃ y, t.migq = y :: r ∧ y.stored = true ∧ y.ctx = m.ctx ∧ y.va = m.va) ∧
          ∀ x ∈ t.l1, ∀ f, f = new ∨ f = ptePa e → x.pa * 32 + 32 ≤ f ∨ f + n ≤ x.pa * 32)))) ∧
  (∀ (s : State) (old new n key : Nat), new % 32 = 0 → n % 32 = 0 → old + n ≤ 2 ^ 52 → new + n ≤ 2 ^ 52 → Memory.wf s → Say.keyed s new n key →
    (∀ d i, d < 4 → i < n → memByte (moveBytes s old new n key) d (new + i) = rdByte s (homeDie s (old + i)) (old + i) key) ∧
    (∀ d a, d < 4 → a < 2 ^ 52 → a < new ∨ new + n ≤ a → memByte (moveBytes s old new n key) d a = memByte s d a))

/-- R377, R383, R385: an epoch of the Roaster ends with new counts, and not before its time; an attestation report stands in its buffer under busy: version
1, the serial number, the nonce kept, the firmware digest, the SHA-384 of the registers of its context, and the signature over all of these, whose
bytes are laid out by log 43 (PRESUMED). A second request while one is made is ignored (log 26). -/
def Sys2Proof.Say.roasterAndAttestation : Prop :=
  (∀ (s : State),
    (sysBit s 0x1307 63 = false ∨ s.now < s.roastEnd → exec .roasterEpochEnd s = .next s) ∧
    (sysBit s 0x1307 63 = true → s.roastEnd ≤ s.now → completes .roasterEpochEnd s fun t => t.roast = [] ∧
      t.roastEnd = s.now + 1000 * (if sysBits s 0x1307 31 0 = 0 then 1000 else sysBits s 0x1307 31 0) ∧ t.migq = s.migq ∧ t.tlb = s.tlb)) ∧
  (∀ (s : State) (v : Word),
    (sysBit s 0x130A 63 = true → exec (.attctlWrite v) s = .next s) ∧
    (sysBit s 0x130A 63 = false → completes (.attctlWrite v) s fun t => sysBit t 0x130A 63 = true ∧ t.atts = true ∧
      sysBits t 0x130A 51 0 = bits v.toNat 51 0 ∧ bytesKept s t)) ∧
  (∀ (s : State), let buf := sysBits s 0x130A 51 8 * 256
    let c := sysBits s 0x130A 7 0
    (s.atts = false → exec .attestationReportDone s = .next s) ∧
    (s.atts = true → inMem s buf = true → scatLines s buf 256 = [] → Memory.wf s → Say.keyed s buf 256 0 → (∀ d, s.firm = some d → d.length = 48) →
      completes .attestationReportDone s fun t => let at' (o n : Nat) : List Byte := (iota 0 n).map (fun i => memByte t (homeDie s buf) (buf + o + i))
      t.atts = false ∧ sysBit t 0x130A 63 = false ∧
      leNat (at' 0 8) = 1 ∧ at' 8 8 = (iota 0 8).map Config.serialByte ∧ at' 64 48 = s.firm.getD ((iota 0 48).map Config.imageDigest) ∧
      at' 160 96 = signMsg (reportBody s buf c) s.fresh ∧ at' 0 160 = reportBody s buf c ∧
      (∀ i, 16 ≤ i → i < 64 → memByte t (homeDie s buf) (buf + i) = memByte s (homeDie s buf) (buf + i)) ∧
      at' 112 48 =
        sha384 ([rCtx c 0, rCtx c 1, rCtx c 2, rCtx c 3, 0x0900 + c].flatMap (fun n => leBytes 8 (sysGet s n)))))

/-- R373, R374, R376, R377, R385: migration, the Roaster and attestation; the bytes of the signature are log 43, the second request log 26. -/
def Obligations.MigrationRoasterAttestation : Prop := Say.migrationMoves ∧ Say.roasterAndAttestation

/-! ### Switching teams (R357, R413 to R419) -/

/-- R334, R357, R414, R415, R417, R419: a request of `PRECTL` is taken, and refused with result 3 while another is being made; a shadow switch that is asked
for exchanges the running and the shadow team of its core; a team whose image has been written leaves its core, and stops issuing; one that has not
been asked to, or whose operations are not settled, stays. A team wholly at `phase` that waits on others goes to a free shadow slot or to memory. -/
def Obligations.TeamSwitches : Prop :=
  (∀ p ∈ ([(.prectlSwitchOut, 1), (.prectlShadowSwitch, 2)] : List ((Nat → Word → Instr) × Nat)), ∀ (s : State) (core : Nat) (v : Word), core < 256 →
    (sysBit s (0x3800 + core) 63 = true → completes (p.1 core v) s fun t => sysBits t (0x3800 + core) 62 61 = 3 ∧ Say.onlySys s t (0x3800 + core)) ∧
    (sysBit s (0x3800 + core) 63 = false → v.toNat.testBit 8 = false → completes (p.1 core v) s fun t => sysBit t (0x3800 + core) 63 = true ∧
      t.pre = s.pre ++ [⟨core, p.2⟩] ∧ onlyReports s t)) ∧
  (∀ (s : State) (core : Nat), core < 256 →
    (∀ q, stoppedOn s core = some q → exec (.shadowSwitch core) s = .next s) ∧
    (∀ a b, stoppedOn s core = none → preOp s core = some 2 → running s core = some a → shadow s core = some b → a.clusterN ≤ 1 → a.uid ≠ b.uid →
      a.uid ≠ 0 → b.uid ≠ 0 → getT s a.uid = some a → getT s b.uid = some b → completes (.shadowSwitch core) s fun t =>
        preOp t core = none ∧ sysBits t (0x3800 + core) 62 61 = 1 ∧
        ((∀ g ∈ allG s, ∀ o ∈ g.ops, o.kind = .term → o.mid = false) → bytesKept s t) ∧ (∃ x, getT t a.uid = some x ∧ x.slot = .shadow) ∧ ∃ y, getT t b.uid = some y ∧ y.slot = .running) ∧
    (stoppedOn s core = none → preOp s core = none → running s core = none ∨ shadow s core = none → exec (.shadowSwitch core) s = .next s)) ∧
  (∀ (s : State) (m : Nat) (x : Team), m ≠ 0 → getT s m = some x → x.uid = m → x.clusterN ≤ 1 → x.slot = .running →
    let out (t : State) : Prop := ∃ y, getT t m = some y ∧ y.slot = .out ∧ y.idx = x.idx ∧ y.scr = x.scr
    (x.preempt = false → exec (.switchOut m) s = .next s) ∧
    let waits : Prop := allAtPhase s x = true ∧ othersToPlace s (launchOfT s x) = true ∧ ctxState s (launchOfT s x).ctx = 1
    (settled s x = false → exec (.switchOut m) s = .next s ∧ (toMemory s x = true → exec (.phaseYieldSlot m) s = .next s)) ∧
    (¬waits → exec (.phaseYieldSlot m) s = .next s) ∧
    (waits → toMemory s x = false → completes (.phaseYieldSlot m) s fun t => ∃ y, getT t m = some y ∧ y.slot = .shadow ∧ y.idx = x.idx ∧ y.scr = x.scr) ∧
    (∀ u y, (∀ z ∈ allT s, z.uid = m → z = x) → settled s x = true → saveTeam s x = (u, true) → getT u m = some y →
      (x.preempt = true → stoppedOn s x.core = none → completes (.switchOut m) s out) ∧
      (waits → toMemory s x = true → completes (.phaseYieldSlot m) s out)))

/-! ### Errors, reset and the two services (R382, R384, R432 to R437) -/

/-- R318, R319, R323, R371, R382, R428, R432, R433: an error that is found strikes what it names: a register, a unit of a scratchpad, of a lane slice or of a tile is
poisoned until it is written, an entry of the claim table that is done is lost and one that is being made fails, a sector of an L1 and a pending
reduction of an atomic cache are poisoned, the dump that the dump engine's buffers hold is struck, a row is refreshed at once, an entry of a TLB
is dropped, and one of no context leaves the device serving nothing. A correction changes nothing but the error log. -/
def Sys2Proof.Say.errorsStrike : Prop :=
  ∀ (s : State),
    (∀ g r x, g ≠ 0 → getG s g = some x →
      (0 < r → r < 64 → completes (.errorDetected (.areg g r)) s fun t => ∃ y, getG t g = some y ∧ r ∈ y.pzA ∧ y.a = x.a) ∧
      (r < 64 → completes (.errorDetected (.ureg g r)) s fun t => ∃ y, getG t g = some y ∧ r ∈ y.pzU ∧ y.u = x.u) ∧
      (∀ th, th < 64 → completes (.errorDetected (.vreg g r th)) s fun t => ∃ y, getG t g = some y ∧ r * 64 + th ∈ y.pzV ∧ y.v = x.v)) ∧
    (∀ g, exec (.errorDetected (.areg g 0)) s = .next s) ∧
    (∀ m off x, m ≠ 0 → getT s m = some x →
      (completes (.errorDetected (.scratch m off)) s fun t => pzScratch t (.team m off) 1 = true) ∧
      (∀ unit, (completes (.errorDetected (.tile m unit)) s fun t => ∃ y, getT t m = some y ∧ unit ∈ y.pzT ∧ y.tiles = x.tiles) ∧
        (completes (.errorDetected (.acc m unit)) s fun t => ∃ y, getT t m = some y ∧ unit ∈ y.pzZ ∧ y.accs = x.accs))) ∧
    (∀ pa, ringFull s 0x3940 = true → completes (.errorDetected (.sector pa)) s fun t => t.mem = s.mem ∧
      ∀ d i, d < 4 → i < 32 → pzByte t d (pa / 32 * 32 + i) = true) ∧
    (∀ pa, s.scat = [] → completes (.errorDetected (.corrected pa)) s fun t => t.teams = s.teams ∧ t.g = s.g ∧ t.claims = s.claims ∧ t.path = s.path) ∧
    (∀ id e, s.claims.find? (fun e => e.id == id) = some e → e.making = false ∨ e.waiters = [] → ∀ recs, completes (.errorDetected (.claim id recs)) s fun t =>
      (∀ x ∈ t.claims, x.id ≠ id) ∧ (e.making = false → bytesKept s t)) ∧
    (∀ core sec, ringFull s 0x3940 = true → completes (.errorDetected (.l1 core sec)) s fun t => t.l1.length = s.l1.length ∧
      ∀ x ∈ t.l1, x.core = core → x.pa = sec → x.poison = List.replicate 32 true) ∧
    (∀ row, completes (.errorDetected (.row row)) s fun t => mget t.act 0 row = 0) ∧
    (∀ x r, s.tlb = x :: r → completes (.errorDetected .tlb) s fun t => t.tlb.length + 1 = s.tlb.length ∧ ∀ e ∈ t.tlb, e ∈ s.tlb) ∧
    (∀ g th off x, g ≠ 0 → getG s g = some x → th < 64 → off < 4096 → completes (.errorDetected (.lane g th off)) s fun t =>
      pzScratch t (.lane g th off) 1 = true) ∧
    (∀ core pa u, s.units.find? (fun u => u.core == core && u.pa / 8 == pa / 8) = some u → completes (.errorDetected (.atomicCache core pa)) s fun t =>
      (∀ x ∈ t.units, x.core = core → x.pa / 8 = pa / 8 → x.poison = true) ∧ t.units.length = s.units.length) ∧
    (∀ d r, s.dumps = d :: r → completes (.errorDetected .dumpBuffer) s fun t => t.dumps = { d with struck := true } :: r) ∧
    (∀ src pa, s.scat = [] → completes (.errorDetected (.correctedIn src pa)) s fun t => t.teams = s.teams ∧ t.g = s.g ∧ t.path = s.path) ∧
    (completes (.errorDetected .noContext) s fun t => t.service = .dead)

/-- R383, R384, R436, R437: device reset leaves every store as after reset, in the bring-up service where the image is good and in the mailbox service where it is not;
training makes full service possible, which begins when queue 0 runs no launch, at the full clock. Device time 0 after a reset is log 3, registers at
zero and empty stores after a reset rest on log 2, empty stores as full service begins on log 31. -/
def Sys2Proof.Say.serviceChanges : Prop :=
  ∀ (s : State),
    (∀ b, completes (.deviceReset b) s fun t => t.service = (if imageGood b.image b.sig b.key = true then .bringUp else .mailbox) ∧
      t.firm = some (sha384 b.image) ∧ allG t = [] ∧ allT t = [] ∧ allL t = [] ∧
      t.mem = [] ∧ t.dscr = [] ∧ t.path = [] ∧ t.inq = [] ∧ t.l1 = [] ∧ t.tlb = [] ∧ t.claims = [] ∧ t.reqs = [] ∧ t.eops = [] ∧ t.wins = [] ∧
      t.sess = [] ∧ t.dumps = [] ∧ t.faults = [] ∧ t.now = 0 ∧ ∀ n, sysGet t n = (sysReset n).toNat) ∧
    (s.service = .bringUp → completes .trainingComplete s fun t => sysBit t 0x3944 62 = true ∧ Say.onlySys s t 0x3944) ∧
    (s.service ≠ .bringUp → exec .trainingComplete s = .next s ∧ exec .fullServiceStart s = .next s) ∧
    (sysBit s 0x3944 62 = false ∨ (∃ l ∈ allL s, l.queue = 0) → exec .fullServiceStart s = .next s) ∧
    (s.service = .bringUp → sysBit s 0x3944 62 = true → (∀ l ∈ allL s, l.queue ≠ 0) → completes .fullServiceStart s fun t =>
      t.service = .full ∧ t.clock = 850 ∧ sysBit t 0x3944 63 = true ∧ t.mem = [] ∧ t.dscr = [] ∧ t.claims = [] ∧
      ∀ n, n ≠ 0x3944 → sysGet t n = sysGet s n)

/-- R318, R319, R323, R371, R382 to R384, R428, R432, R433, R436, R437: errors, reset and the services; device time 0 after a reset is log 3, empty stores
rest on log 2 and log 31. -/
def Obligations.ErrorsAndService : Prop := Say.errorsStrike ∧ Say.serviceChanges

/-! ### Invariants -/

/-- Every step keeps the canonical form of the scratchpads, the tile bank, the accumulators and the lane slices. -/
def Obligations.StepKeepsStoreForms : Prop :=
  ∀ (s t : State), Say.storesWf s → step s = .next t → Say.storesWf t

end
end

