-- ==== Sys2Proof/Laws/Arbiter.lean ====
section
/-! SUPPORT. What the choice of an issue slot can do to an attempt (R298). -/

namespace Sys2Proof.Machine

/-- The slot lets an attempt stand, or turns it away with nothing changed, or notes it. -/
theorem arbitrate_cases (lane : Bool) (e : Nat) (s : State) (o : Host.Outcome State Fault Refusal) :
    arbitrate lane e s o = o ∨ arbitrate lane e s o = .next s ∨
    ∃ s' c, o = .next s' ∧ mover s lane e = some c ∧
      arbitrate lane e s o = .next (noteIssue s' s.t.core (partOf s.g) lane c (slotCycles s lane e) (rivals s lane e)) := by
  cases o with
  | next s' =>
    cases hm : mover s lane e with
    | none => exact .inl (by simp [arbitrate, hm])
    | some c =>
      have h : arbitrate lane e s (.next s') = .next s' ∨ arbitrate lane e s (.next s') = .next s ∨
          arbitrate lane e s (.next s') = .next (noteIssue s' s.t.core (partOf s.g) lane c (slotCycles s lane e) (rivals s lane e)) := by
        simp only [arbitrate, hm]
        repeat' split
        all_goals simp
      rcases h with h | h | h
      · exact .inl h
      · exact .inr (.inl h)
      · exact .inr (.inr ⟨s', c, rfl, rfl, h⟩)
  | fault f => exact .inl rfl
  | refused r => exact .inl rfl

/-- The choice is one of the ready candidates (R298). -/
theorem oldest_mem {l : List SlotCand} {c : SlotCand} (h : oldest l = some c) : c ∈ l := by
  have key : ∀ (l : List SlotCand) (m : Option SlotCand), l.foldl (fun m c => match m with
      | none => some c
      | some x => if older c x then some c else some x) m = some c → c ∈ l ∨ m = some c := by
    intro l
    induction l with
    | nil => intro m h; exact .inr h
    | cons a r ih =>
      intro m h
      rcases ih _ h with h | h
      · exact .inl (List.mem_cons_of_mem _ h)
      · cases m with
        | none => exact .inl (by simp_all)
        | some x =>
          simp only at h
          split at h
          · exact .inl (by simp_all)
          · exact .inr h
  rcases key l none h with h | h
  · exact h
  · cases h

end Sys2Proof.Machine
end

