-- ==== Sys2Proof/Laws/Map.lean ====
section
/-! SUPPORT. Sparse stores: what is read after a write, and that every operation keeps the canonical form. -/

namespace Sys2Proof.Machine

variable {α : Type}

/-! ### Reading after a write -/

theorem mget_dropWhile_le {m : SMap α} {d : α} {k j : Nat} (h : k < j) :
    mget (m.dropWhile (fun e => decide (e.1 ≤ k))) d j = mget m d j := by
  induction m with
  | nil => rfl
  | cons p r ih =>
    obtain ⟨k', y⟩ := p
    by_cases hk : k' ≤ k
    · simp only [List.dropWhile, hk, decide_true, ih, mget]
      rw [if_neg (by omega), if_neg (by omega)]
    · simp [List.dropWhile, hk]

theorem mget_dropWhile_self (m : SMap α) (d : α) (k : Nat) :
    mget (m.dropWhile (fun e => decide (e.1 ≤ k))) d k = d := by
  induction m with
  | nil => rfl
  | cons p r ih =>
    obtain ⟨k', y⟩ := p
    by_cases hk : k' ≤ k
    · simp only [List.dropWhile, hk, decide_true, ih]
    · simp only [List.dropWhile, hk, decide_false, mget]
      rw [if_neg (by omega), if_pos (by omega)]

theorem mget_dropWhile_lt {m : SMap α} {d : α} {k j : Nat} (h : j < k) (hm : ∀ p ∈ m.head?, k ≤ p.1) :
    mget (m.dropWhile (fun e => decide (e.1 ≤ k))) d j = d := by
  induction m with
  | nil => rfl
  | cons p r ih =>
    obtain ⟨k', y⟩ := p
    by_cases hk : k' ≤ k
    · simp only [List.dropWhile, hk, decide_true]
      clear ih hm
      induction r with
      | nil => rfl
      | cons q r ih =>
        obtain ⟨k2, z⟩ := q
        by_cases hk2 : k2 ≤ k
        · simp only [List.dropWhile, hk2, decide_true, ih]
        · simp only [List.dropWhile, hk2, decide_false, mget]
          rw [if_neg (by omega), if_pos (by omega)]
    · simp only [List.dropWhile, hk, decide_false, mget]
      rw [if_neg (by omega), if_pos (by omega)]

/-- A read of the key written gives the value written. -/
@[simp] theorem mget_mput_self [DecidableEq α] (m : SMap α) (d : α) (k : Nat) (x : α) : mget (mput m d k x) d k = x := by
  induction m with
  | nil =>
    by_cases hx : x = d <;> simp [mput, mget, hx]
  | cons p r ih =>
    obtain ⟨k', y⟩ := p
    by_cases h1 : k < k'
    · by_cases hx : x = d
      · have : ¬ k' = k := by omega
        simp [mput, h1, hx, mget, this]
      · simp [mput, h1, hx, mget]
    · by_cases h2 : k = k'
      · subst h2
        by_cases hx : x = d
        · simp only [mput, Nat.lt_irrefl, if_false, hx, if_true]
          exact mget_dropWhile_self r d k
        · simp [mput, hx, mget]
      · simp only [mput, h1, if_false, h2, mget, ih]
        rw [if_neg (by omega)]

/-- A write leaves every other key alone, whatever default the reader has. -/
theorem mget_mput_of_ne' [DecidableEq α] {m : SMap α} {d d' : α} {k j : Nat} (x : α) (h : j ≠ k) :
    mget (mput m d' k x) d j = mget m d j := by
  induction m with
  | nil =>
    by_cases hx : x = d'
    · simp [mput, hx]
    · simp only [mput, hx, if_false, mget]
      rw [if_neg (by omega)]; split <;> rfl
  | cons p r ih =>
    obtain ⟨k', y⟩ := p
    by_cases h1 : k < k'
    · by_cases hx : x = d'
      · simp [mput, h1, hx]
      · simp only [mput, h1, if_true, hx, if_false, mget]
        rw [if_neg (show ¬ k = j by omega)]
        by_cases hj : j < k
        · rw [if_pos hj, if_neg (by omega), if_pos (by omega)]
        · rw [if_neg hj]
    · by_cases h2 : k = k'
      · subst h2
        by_cases hx : x = d'
        · simp only [mput, Nat.lt_irrefl, if_false, hx, if_true, mget]
          rw [if_neg (show ¬ k = j by omega)]
          by_cases hj : j < k
          · rw [if_pos hj]
            have := mget_dropWhile_lt (m := (k, y) :: r) (d := d) hj (by simp)
            simpa [List.dropWhile] using this
          · rw [if_neg hj]
            exact mget_dropWhile_le (by omega)
        · simp only [mput, Nat.lt_irrefl, if_false, hx, if_true, mget]
          rw [if_neg (show ¬ k = j by omega), if_neg (show ¬ k = j by omega)]
      · simp only [mput, h1, if_false, h2, mget, ih]

theorem mget_mput_of_ne [DecidableEq α] {m : SMap α} {d : α} {k j : Nat} (x : α) (h : j ≠ k) :
    mget (mput m d k x) d j = mget m d j := mget_mput_of_ne' x h

theorem mget_mput [DecidableEq α] (m : SMap α) (d : α) (k j : Nat) (x : α) :
    mget (mput m d k x) d j = if j = k then x else mget m d j := by
  by_cases h : j = k
  · subst h; simp
  · rw [if_neg h, mget_mput_of_ne x h]

/-! ### The canonical form -/

/-- The keys of the store rise strictly from `lo`, and no entry equals the default of its key. -/
theorem mwfFrom_cons [DecidableEq α] {d : Nat → α} {lo : Option Nat} {k : Nat} {x : α} {r : SMap α} :
    mwfFrom d lo ((k, x) :: r) = true ↔ (∀ l ∈ lo, l < k) ∧ x ≠ d k ∧ mwfFrom d (some k) r = true := by
  cases lo <;> simp [mwfFrom, and_assoc]

theorem mwfFrom_mono [DecidableEq α] {d : Nat → α} {lo lo' : Option Nat} {m : SMap α} (h : mwfFrom d lo m = true)
    (hl : ∀ l' ∈ lo', ∃ l ∈ lo, l' ≤ l) : mwfFrom d lo' m = true := by
  cases m with
  | nil => rfl
  | cons p r =>
    obtain ⟨k, x⟩ := p
    rw [mwfFrom_cons] at h ⊢
    refine ⟨fun l' hl' => ?_, h.2⟩
    obtain ⟨l, hm, hle⟩ := hl l' hl'
    exact Nat.lt_of_le_of_lt hle (h.1 l hm)

theorem mwfFrom_none [DecidableEq α] {d : Nat → α} {lo : Option Nat} {m : SMap α} (h : mwfFrom d lo m = true) : mwfFrom d none m = true :=
  mwfFrom_mono h (by simp)

theorem dropWhile_le_of_mwf [DecidableEq α] {d : Nat → α} {k : Nat} {m : SMap α} (h : mwfFrom d (some k) m = true) :
    m.dropWhile (fun e => decide (e.1 ≤ k)) = m := by
  cases m with
  | nil => rfl
  | cons p r =>
    obtain ⟨k', x⟩ := p
    rw [mwfFrom_cons] at h
    have : ¬ k' ≤ k := by have := h.1 k rfl; omega
    simp [List.dropWhile, this]

theorem mwfFrom_mput [DecidableEq α] {d : Nat → α} {m : SMap α} {lo : Option Nat} {k : Nat} {x : α} (h : mwfFrom d lo m = true)
    (hl : ∀ l ∈ lo, l < k) : mwfFrom d lo (mput m (d k) k x) = true := by
  induction m generalizing lo with
  | nil =>
    by_cases hx : x = d k
    · simp [mput, hx, mwfFrom]
    · simp only [mput, hx, if_false, mwfFrom_cons]
      exact ⟨hl, hx, rfl⟩
  | cons p r ih =>
    obtain ⟨k', y⟩ := p
    have h0 := h
    rw [mwfFrom_cons] at h
    by_cases h1 : k < k'
    · by_cases hx : x = d k
      · simpa [mput, h1, hx] using h0
      · simp only [mput, h1, if_true, hx, if_false, mwfFrom_cons]
        exact ⟨hl, hx, by simpa using h1, h.2⟩
    · by_cases h2 : k = k'
      · subst h2
        by_cases hx : x = d k
        · simp only [mput, Nat.lt_irrefl, if_false, hx, if_true]
          rw [dropWhile_le_of_mwf h.2.2]
          exact mwfFrom_mono h.2.2 (fun l hm => ⟨k, rfl, Nat.le_of_lt (h.1 l hm)⟩)
        · simp only [mput, Nat.lt_irrefl, if_false, hx, if_true, mwfFrom_cons]
          exact ⟨hl, hx, h.2.2⟩
      · simp only [mput, h1, if_false, h2, mwfFrom_cons]
        exact ⟨h.1, h.2.1, ih h.2.2 (by simp; omega)⟩

/-- A write keeps the canonical form. -/
theorem mwf_mput [DecidableEq α] {d : Nat → α} {m : SMap α} (k : Nat) (x : α) (h : mwf d m = true) : mwf d (mput m (d k) k x) = true :=
  mwfFrom_mput h (by simp)

/-- The keys of a canonical store rise strictly and no value is its default. -/
theorem mwf_iff [DecidableEq α] {d : Nat → α} {m : SMap α} :
    mwf d m = true ↔ m.Pairwise (fun a b => a.1 < b.1) ∧ ∀ p ∈ m, p.2 ≠ d p.1 := by
  suffices H : ∀ lo, mwfFrom d lo m = true ↔
      (∀ l ∈ lo, ∀ p ∈ m, l < p.1) ∧ m.Pairwise (fun a b => a.1 < b.1) ∧ ∀ p ∈ m, p.2 ≠ d p.1 by
    rw [mwf, H none]; simp
  induction m with
  | nil => intro lo; simp [mwfFrom]
  | cons p r ih =>
    intro lo
    obtain ⟨k, x⟩ := p
    rw [mwfFrom_cons, ih (some k)]
    constructor
    · rintro ⟨h1, h2, h3, h4, h5⟩
      have h3 : ∀ p ∈ r, k < p.1 := h3 k rfl
      refine ⟨fun l hl p hp => ?_, List.pairwise_cons.2 ⟨fun a ha => h3 a ha, h4⟩, ?_⟩
      · rcases List.mem_cons.1 hp with rfl | hp
        · exact h1 l hl
        · exact Nat.lt_trans (h1 l hl) (h3 p hp)
      · intro p hp
        rcases List.mem_cons.1 hp with rfl | hp
        · exact h2
        · exact h5 p hp
    · rintro ⟨h1, h2, h3⟩
      rw [List.pairwise_cons] at h2
      refine ⟨fun l hl => h1 l hl (k, x) (by simp), h3 (k, x) (by simp), ?_, h2.2, fun p hp => h3 p (by simp [hp])⟩
      intro l hl p hp
      cases hl
      exact h2.1 p hp

theorem mem_mrun [DecidableEq α] {d : α} {k : Nat} {l : List α} {p : Nat × α} (h : p ∈ mrun d k l) :
    k ≤ p.1 ∧ p.1 < k + l.length ∧ p.2 ≠ d := by
  induction l generalizing k with
  | nil => simp [mrun] at h
  | cons x r ih =>
    simp only [mrun] at h
    split at h
    · have := ih h; simp only [List.length_cons]; exact ⟨by omega, by omega, this.2.2⟩
    · rcases List.mem_cons.1 h with rfl | h
      · simp_all
      · have := ih h; simp only [List.length_cons]; exact ⟨by omega, by omega, this.2.2⟩

theorem pairwise_mrun [DecidableEq α] (d : α) (k : Nat) (l : List α) : (mrun d k l).Pairwise (fun a b => a.1 < b.1) := by
  induction l generalizing k with
  | nil => exact List.Pairwise.nil
  | cons x r ih =>
    simp only [mrun]
    split
    · exact ih _
    · refine List.pairwise_cons.2 ⟨fun a ha => ?_, ih _⟩
      have := mem_mrun ha; simp; omega

/-- A write of a run keeps the canonical form. -/
theorem mwf_mputs [DecidableEq α] {d : α} {m : SMap α} (k : Nat) (l : List α) (h : mwf (fun _ => d) m = true) :
    mwf (fun _ => d) (mputs m d k l) = true := by
  rw [mwf_iff] at h ⊢
  obtain ⟨hs, hd⟩ := h
  have h1 : ∀ p ∈ m.takeWhile (fun e => decide (e.1 < k)), p.1 < k := by
    intro p hp
    have := List.all_takeWhile (l := m) (p := fun e => decide (e.1 < k))
    rw [List.all_eq_true] at this
    simpa using this p hp
  have h3 : ∀ p ∈ m.dropWhile (fun e => decide (e.1 < k + l.length)), k + l.length ≤ p.1 := by
    clear h1 hd
    induction m with
    | nil => simp
    | cons q r ih =>
      rw [List.pairwise_cons] at hs
      by_cases hq : q.1 < k + l.length
      · simpa [List.dropWhile, hq] using ih hs.2
      · simp only [List.dropWhile, hq, decide_false]
        intro p hp
        rcases List.mem_cons.1 hp with rfl | hp
        · omega
        · have := hs.1 p hp; omega
  refine ⟨?_, ?_⟩
  · refine List.pairwise_append.2 ⟨List.pairwise_append.2 ⟨?_, pairwise_mrun d k l, ?_⟩, ?_, ?_⟩
    · exact hs.sublist (List.takeWhile_sublist _)
    · intro a ha b hb; have := h1 a ha; have := mem_mrun hb; omega
    · exact hs.sublist (List.dropWhile_sublist _)
    · intro a ha b hb
      have := h3 b hb
      rcases List.mem_append.1 ha with ha | ha
      · have := h1 a ha; omega
      · have := mem_mrun ha; omega
  · intro p hp
    rcases List.mem_append.1 hp with hp | hp
    · rcases List.mem_append.1 hp with hp | hp
      · exact hd p ((List.takeWhile_sublist _).subset hp)
      · exact (mem_mrun hp).2.2
    · exact hd p ((List.dropWhile_sublist _).subset hp)

/-- Forgetting a run keeps the canonical form. -/
theorem mwf_filter [DecidableEq α] {d : Nat → α} {m : SMap α} (f : Nat × α → Bool) (h : mwf d m = true) : mwf d (m.filter f) = true := by
  rw [mwf_iff] at h ⊢
  exact ⟨h.1.sublist List.filter_sublist, fun p hp => h.2 p ((List.mem_filter.1 hp).1)⟩

/-- In a store whose keys rise, a read looks the key up. -/
theorem mget_eq_find {m : SMap α} {d : α} {k : Nat} (h : m.Pairwise (fun a b => a.1 < b.1)) :
    mget m d k = ((m.find? (fun e => e.1 == k)).map (·.2)).getD d := by
  induction m with
  | nil => rfl
  | cons p r ih =>
    obtain ⟨k', y⟩ := p
    rw [List.pairwise_cons] at h
    by_cases h1 : k' = k
    · simp [mget, h1]
    · simp only [mget, h1, if_false]
      by_cases h2 : k < k'
      · rw [if_pos h2]
        have : r.find? (fun e => e.1 == k) = none := by
          rw [List.find?_eq_none]; intro e he; have := h.1 e he; simp; omega
        simp [h1, this]
      · rw [if_neg h2, ih h.2]
        simp [h1]

end Sys2Proof.Machine
end

