-- ==== Sys2Proof/Laws/Report.lean ====
section
/-! SUPPORT. Reporting changes nothing but records, logs, counters and the marks of requests: `onlyReports` holds between
the states before and after every operation of Machine/Trace.lean. -/

namespace Sys2Proof

open Sys2Proof.Machine

namespace onlyReports

theorem refl (s : State) : onlyReports s s := ⟨rfl, fun _ _ => rfl⟩

theorem trans {s t u : State} (h : onlyReports s t) (k : onlyReports t u) : onlyReports s u :=
  ⟨k.1.trans h.1, fun n hn => (k.2 n hn).trans (h.2 n hn)⟩

theorem symm {s t : State} (h : onlyReports s t) : onlyReports t s := ⟨h.1.symm, fun n hn => (h.2 n hn).symm⟩

variable {s t : State} (h : onlyReports s t)
include h

theorem get {α : Type} (f : State → α) : f (unreported t) = f (unreported s) := by rw [h.1]

theorem group : t.g = s.g := h.get (fun x : State => x.g)
theorem mem : t.mem = s.mem := h.get (fun x : State => x.mem)
theorem stamps : t.stamps = s.stamps := h.get (fun x : State => x.stamps)
theorem pz : t.pz = s.pz := h.get (fun x : State => x.pz)
theorem seqn : t.seqn = s.seqn := h.get (fun x : State => x.seqn)
theorem path : t.path = s.path := h.get (fun x : State => x.path)
theorem inq : t.inq = s.inq := h.get (fun x : State => x.inq)
theorem dscr : t.dscr = s.dscr := h.get (fun x : State => x.dscr)
theorem tags : t.tags = s.tags := h.get (fun x : State => x.tags)
theorem keygen : t.keygen = s.keygen := h.get (fun x : State => x.keygen)
theorem groups : t.groups = s.groups := h.get (fun x : State => x.groups)
theorem launches : t.launches = s.launches := h.get (fun x : State => x.launches)
theorem launch : t.l = s.l := h.get (fun x : State => x.l)
theorem time : t.now = s.now := h.get (fun x : State => x.now)
theorem scr : t.t.scr = s.t.scr := h.get (fun x : State => x.t.scr)
theorem byte (d pa : Nat) : memByte t d pa = memByte s d pa := by rw [memByte, memByte, h.mem]

end onlyReports

namespace sameButGroup

theorem refl (s : State) : sameButGroup s s := onlyReports.refl _
theorem trans {s t u : State} (h : sameButGroup s t) (k : sameButGroup t u) : sameButGroup s u := onlyReports.trans h k

variable {s t : State} (h : sameButGroup s t)
include h

theorem get {α : Type} (f : State → α) : f (unreported { t with g := {} }) = f (unreported { s with g := {} }) := by
  have := h.1; rw [this]

theorem mem : t.mem = s.mem := h.get (fun x : State => x.mem)
theorem stamps : t.stamps = s.stamps := h.get (fun x : State => x.stamps)
theorem pz : t.pz = s.pz := h.get (fun x : State => x.pz)
theorem seqn : t.seqn = s.seqn := h.get (fun x : State => x.seqn)
theorem path : t.path = s.path := h.get (fun x : State => x.path)
theorem inq : t.inq = s.inq := h.get (fun x : State => x.inq)
theorem dscr : t.dscr = s.dscr := h.get (fun x : State => x.dscr)
theorem tags : t.tags = s.tags := h.get (fun x : State => x.tags)
theorem groups : t.groups = s.groups := h.get (fun x : State => x.groups)
theorem launch : t.l = s.l := h.get (fun x : State => x.l)
theorem time : t.now = s.now := h.get (fun x : State => x.now)
theorem scr : t.t.scr = s.t.scr := h.get (fun x : State => x.t.scr)
theorem byte (d pa : Nat) : memByte t d pa = memByte s d pa := by rw [memByte, memByte, h.mem]

end sameButGroup

namespace Machine

/-! ### Changes of one register -/

theorem sysGet_sysPut (s : State) (n m x : Nat) :
    sysGet (sysPut s n x) m = if m = n then x % 2 ^ 64 else sysGet s m := by
  by_cases h : m = n
  · subst h; simp [sysGet, sysPut]
  · simp only [sysGet, sysPut, if_neg h]
    rw [mget_mput_of_ne' _ h]

theorem reports_sysPut (s : State) {n : Nat} (x : Nat) (h : 0x1400 ≤ n) : onlyReports s (sysPut s n x) := by
  refine ⟨rfl, fun m hm => ?_⟩
  rw [sysGet_sysPut, if_neg (by omega)]

theorem reports_sysSetBits (s : State) {n : Nat} (hi lo x : Nat) (h : 0x1400 ≤ n) : onlyReports s (sysSetBits s n hi lo x) :=
  reports_sysPut s _ h
theorem reports_sysSetBit (s : State) {n : Nat} (b : Nat) (x : Bool) (h : 0x1400 ≤ n) : onlyReports s (sysSetBit s n b x) :=
  reports_sysPut s _ h

theorem reports_foldl {α : Type} {f : State → α → State} (l : List α) (s : State)
    (h : ∀ x ∈ l, ∀ s, onlyReports s (f s x)) : onlyReports s (l.foldl f s) := by
  induction l generalizing s with
  | nil => exact onlyReports.refl s
  | cons x r ih =>
    exact (h x (by simp) s).trans (ih (f s x) (fun y hy => h y (by simp [hy])))

theorem reports_ite {c : Prop} [Decidable c] {s t u : State} (h : onlyReports s t) (k : onlyReports s u) :
    onlyReports s (if c then t else u) := by split <;> assumption

/-! ### Records -/

theorem reports_takeStamp (s : State) (src : Nat) : onlyReports s (takeStamp s src).2 := ⟨rfl, fun _ _ => rfl⟩

theorem reports_syncDbg (s : State) (core : Nat) : onlyReports s (syncDbg s core) := by
  have h : 0x1400 ≤ rDbg core := by unfold rDbg; omega
  unfold syncDbg
  split <;> exact .trans (reports_sysSetBit _ _ _ h) (reports_sysSetBits _ _ _ _ h)

/-- What a count may do: it changes no more than a report (R407). -/
abbrev CountsReport (cnt : Counts) : Prop := ∀ (s : State) (n k : Nat), 0x1400 ≤ n → onlyReports s (cnt s n k)

section
variable {cnt : Counts} (hc : CountsReport cnt)
include hc

theorem reports_countCoreBy (s : State) (core src : Nat) (c : Option Nat) (k : Nat) : onlyReports s (countCoreBy cnt s core src c k) := by
  unfold countCoreBy
  refine reports_foldl _ _ fun n hn s => hc s n k ?_
  simp only [List.mem_filter, List.mem_map] at hn
  obtain ⟨⟨j, -, rfl⟩, -⟩ := hn
  unfold rCtrCore; omega

theorem reports_countDieBy (s : State) (die src : Nat) (c : Option Nat) (k : Nat) : onlyReports s (countDieBy cnt s die src c k) := by
  unfold countDieBy
  refine reports_foldl _ _ fun n hn s => hc s n k ?_
  simp only [List.mem_filter, List.mem_map] at hn
  obtain ⟨⟨j, -, rfl⟩, -⟩ := hn
  unfold rCtrDie; omega

theorem reports_dropRecBy (s : State) (i : Nat) (r : HeldRec) : onlyReports s (dropRecBy cnt s i r) := by
  unfold dropRecBy
  refine .trans ?_ (reports_countDieBy hc _ _ _ _ _)
  exact .trans (reports_sysPut s (n := rTs i 5) _ (by unfold rTs; omega)) ⟨rfl, fun _ _ => rfl⟩

theorem reports_pushHeldBy (s : State) (i : Nat) (r : HeldRec) : onlyReports s (pushHeldBy cnt s i r) := by
  unfold pushHeldBy
  exact reports_ite (reports_dropRecBy hc s i r) ⟨rfl, fun _ _ => rfl⟩

theorem reports_emitBy (s : State) (cls code c src a : Nat) (b holds : Option Nat) :
    onlyReports s (emitBy cnt s cls code c src a b holds) := by
  unfold emitBy
  refine reports_ite (.refl s) ?_
  have h1 := (reports_takeStamp s src).trans (reports_foldl ((iota 0 16).filter (fun i => takes s i cls c src)) _ fun i _ u =>
    reports_pushHeldBy hc u i ⟨.record, src, recBytes (takeStamp s src).1 cls code (decide (dieNow s (srcDie src) < (takeStamp s src).1)) src c a b,
      if sysBit u (rTs i 0) 56 then holds else none⟩)
  have h2 : ∀ u, onlyReports u (if src < 256 then countCoreBy cnt u src 0x0E (some c) 1 else u) := fun u =>
    reports_ite (reports_countCoreBy hc u _ _ _ _) (.refl u)
  dsimp only
  refine .trans (h1.trans (h2 _)) ?_
  exact reports_countDieBy hc _ _ _ _ _

theorem reports_stopPartBy (s : State) (core part why code : Nat) : onlyReports s (stopPartBy cnt s core part why code) := by
  unfold stopPartBy
  have h1 : onlyReports s { s with stops := s.stops ++ [⟨core, part, why, code⟩] } := ⟨rfl, fun _ _ => rfl⟩
  refine reports_ite (.refl s) (.trans (h1.trans (reports_syncDbg _ core)) ?_)
  exact reports_emitBy hc _ _ _ _ _ _ _ _

end

theorem forgetAsk_mapFirst (p : Team → Bool) (f : Team → Team) (hf : ∀ t, forgetAsk (f t) = forgetAsk t) (l : List Team) :
    (mapFirst p f l).map forgetAsk = l.map forgetAsk := by
  induction l with
  | nil => rfl
  | cons x r ih =>
    simp only [mapFirst]
    split <;> simp [hf, ih]

theorem reports_updT (s : State) (uid : Nat) (f : Team → Team) (hf : ∀ t, forgetAsk (f t) = forgetAsk t) :
    onlyReports s (updT s uid f) := by
  unfold updT
  refine reports_ite ⟨?_, fun _ _ => rfl⟩ ⟨?_, fun _ _ => rfl⟩
  · simp [unreported, hf]
  · simp [unreported, forgetAsk_mapFirst _ f hf]

theorem reports_askLarge (s : State) (core : Nat) : onlyReports s (askLarge s core) := by
  unfold askLarge
  split
  · exact reports_ite (reports_updT s _ _ fun _ => rfl) (.refl s)
  · exact .refl s

theorem reports_preRequest (s : State) (core op : Nat) : onlyReports s (preRequest s core op) := by
  have h : 0x1400 ≤ rPre core := by unfold rPre; omega
  unfold preRequest
  refine reports_ite (.refl s) (reports_ite (reports_sysSetBits s _ _ _ h) ?_)
  have k : ∀ u : State, onlyReports u
      (sysSetBits (sysSetBit { u with pre := u.pre ++ [⟨core, op⟩] } (rPre core) 63 true) (rPre core) 62 61 0) := fun u =>
    .trans (.trans ⟨rfl, fun _ _ => rfl⟩ (reports_sysSetBit _ _ _ h)) (reports_sysSetBits _ _ _ _ h)
  by_cases ho : op = 1
  · simp only [ho, if_true] at k ⊢
    exact (reports_askLarge s core).trans (k _)
  · simp only [ho, if_false]
    exact k s

/-! ### Counters -/

theorem reports_ctrWrapBy {cnt : Counts} (hc : CountsReport cnt) (s : State) {n : Nat} (hn : 0x1400 ≤ n) :
    onlyReports s (ctrWrapBy cnt s n) := by
  have hp : 0x1400 ≤ rPre (ctrCore n) := by unfold rPre; omega
  have h1 : ∀ u, onlyReports u (if bit (sysGet s n) 60 then emitBy cnt u 0x0B 0 (if bit (sysGet s n) 57 then 0 else bits (sysGet s n) 15 8)
      (ctrSrc n) (ctrJ n + (if ctrIsCore n then 0 else 32)) none none else u) := fun u => reports_ite (reports_emitBy hc u _ _ _ _ _ _ _) (.refl u)
  have h2 : ∀ u, onlyReports u (if bit (sysGet s n) 61 then stopPartBy cnt u (ctrCore n) (bits (sysGet s n) 59 58) 3 0 else u) := fun u =>
    reports_ite (reports_stopPartBy hc u _ _ _ _) (.refl u)
  have h3 : ∀ u p, onlyReports u (if bit p 8 && bits p 7 4 == ctrJ n then
      preRequest (if bit p 9 then sysSetBit u (rPre (ctrCore n)) 8 false else u) (ctrCore n) (bits p 1 0) else u) := fun u p =>
    reports_ite ((reports_ite (reports_sysSetBit u _ _ hp) (.refl u)).trans (reports_preRequest _ _ _)) (.refl u)
  have h4 := (reports_sysSetBit s 62 true hn).trans (h1 _)
  exact reports_ite h4 ((h4.trans (h2 _)).trans (h3 _ _))

theorem reports_bumpN : ∀ fuel, CountsReport (bumpN fuel)
  | 0, s, n, _, hn => reports_sysPut s (n := n + 1) _ (by omega)
  | fuel + 1, s, n, k, hn => by
    unfold bumpN
    have h := reports_sysPut s (n := n + 1) ((sysGet s (n + 1) + k) % 2 ^ 48) (by omega)
    exact reports_ite h (h.trans (reports_ctrWrapBy (reports_bumpN fuel) _ hn))

theorem reports_bump : CountsReport bump := reports_bumpN 64

theorem reports_countCore (s : State) (core src : Nat) (c : Option Nat) (k : Nat) : onlyReports s (countCore s core src c k) :=
  reports_countCoreBy reports_bump s _ _ _ _
theorem reports_countDie (s : State) (die src : Nat) (c : Option Nat) (k : Nat) : onlyReports s (countDie s die src c k) :=
  reports_countDieBy reports_bump s _ _ _ _
theorem reports_pushHeld (s : State) (i : Nat) (r : HeldRec) : onlyReports s (pushHeld s i r) := reports_pushHeldBy reports_bump s i r
theorem reports_dropRec (s : State) (i : Nat) (r : HeldRec) : onlyReports s (dropRec s i r) := reports_dropRecBy reports_bump s i r
theorem reports_stopPart (s : State) (core part why code : Nat) : onlyReports s (stopPart s core part why code) :=
  reports_stopPartBy reports_bump s _ _ _ _
theorem reports_emit (s : State) (cls code c src a : Nat) (b holds : Option Nat) :
    onlyReports s (emit s cls code c src a b holds) := reports_emitBy reports_bump s _ _ _ _ _ _ _

theorem reports_countCycles (s : State) (k : Nat) : onlyReports s (countCycles s k) := by
  unfold countCycles
  refine reports_ite (.refl s) (reports_foldl _ _ fun n hn s => reports_bump s n k ?_)
  simp only [List.mem_filter, Bool.and_eq_true, decide_eq_true_eq] at hn
  omega

/-! ### Transfers (R391) -/

theorem reports_linkBytes (s : State) (a b n : Nat) : onlyReports s (linkBytes s a b n) := by
  unfold linkBytes
  exact reports_foldl _ _ fun d _ s => reports_countDie s _ _ _ _

theorem reports_xfer (s : State) (src dst n : Nat) : onlyReports s (xfer s src dst n) := by
  unfold xfer
  exact reports_ite (.refl s) ((reports_linkBytes _ _ _ _).trans ⟨rfl, fun _ _ => rfl⟩)

theorem reports_emitG (s : State) (cls code a val : Nat) : onlyReports s (emitG s cls code a val) := reports_emit s _ _ _ _ _ _ _
theorem reports_countG (s : State) (src k : Nat) : onlyReports s (countG s src k) := reports_countCore s _ _ _ _

theorem reports_replay (s : State) (uid kind : Nat) (sp : Space) (addr frag : Nat) (data : List Byte) :
    onlyReports s (replay s uid kind sp addr frag data) := by
  unfold replay
  split
  · exact .refl s
  · refine reports_ite (.refl s) (.trans (reports_takeStamp s _) (reports_foldl _ _ fun i _ s => reports_foldl _ _ fun d _ s => ?_))
    exact reports_pushHeld s _ _

/-! ### Error logs -/

theorem reports_pushA (s : State) (c : Nat) (r : ARec) : onlyReports s (pushA s c r) := by
  unfold pushA
  dsimp only
  repeat' first
    | exact ⟨rfl, fun _ _ => rfl⟩
    | split

theorem reports_logA (s : State) (l : Launch) (r : ARec) : onlyReports s (logA s l r) := by
  unfold logA
  exact reports_ite (reports_pushA s _ r) (.refl s)

theorem reports_logG (s : State) (l : Launch) (uid key : Nat) (r : ARec) : onlyReports s (logG s l uid key r) := by
  unfold logG
  refine reports_ite (.refl s) ?_
  split
  · exact reports_pushA s _ r
  · exact reports_ite ⟨rfl, fun _ _ => rfl⟩ (reports_pushA s _ r)

theorem reports_logExec (s : State) (l : Launch) (base : ARec) (who : List (Nat × List Cause)) :
    onlyReports s (logExec s l base who) := by
  unfold logExec
  exact reports_foldl _ _ fun c _ s => reports_ite (.refl s) (reports_logG s l _ _ _)

theorem reports_pushB (s : State) (c : Nat) (r : BRec) : onlyReports s (pushB s c r) := by
  unfold pushB
  exact reports_ite ⟨rfl, fun _ _ => rfl⟩ ⟨rfl, fun _ _ => rfl⟩

/-! ### The package (R9, R10, R18): what it keeps beside the values -/

theorem reports_openSeg (s : State) (pa : Nat) : onlyReports s (openSeg s pa) := by
  unfold openSeg
  exact reports_ite (.refl s) (reports_ite (.refl s) (.trans ⟨rfl, fun _ _ => rfl⟩ (reports_countDie _ _ _ _ _)))

theorem reports_l2Room (s : State) (die sl : Nat) : onlyReports s (l2Room s die sl) := by
  unfold l2Room
  exact reports_ite (.refl s) (reports_ite (.refl s) ⟨rfl, fun _ _ => rfl⟩)

theorem reports_l2Fill (s : State) (die sec : Nat) : onlyReports s (l2Fill s die sec) := by
  unfold l2Fill
  have h := reports_l2Room s die (homeSlice (32 * sec))
  dsimp only
  split
  · exact h.trans ⟨rfl, fun _ _ => rfl⟩
  · exact ⟨rfl, fun _ _ => rfl⟩

theorem reports_l2Home (s : State) (c : Option Nat) (sec : Nat) : onlyReports s (l2Home s c sec) := by
  unfold l2Home
  exact reports_ite (reports_countDie _ _ _ _ _)
    (((reports_countDie _ _ _ _ _).trans (reports_openSeg _ _)).trans (reports_l2Fill _ _ _))

end Machine

end Sys2Proof
end

