-- ==== Sys2Proof/Laws/Frags.lean ====
section
/-! SUPPORT. Moving a fragment on (R46, R47, R70) changes nothing but the split table, the held stack and records: the
registers, flags and operations of the group stay as they are. -/

namespace Sys2Proof

open Sys2Proof.Machine

namespace onlyFrags

theorem refl (s : State) : onlyFrags s s := ⟨.refl _, rfl⟩

theorem trans {s t u : State} (h : onlyFrags s t) (k : onlyFrags t u) : onlyFrags s u := ⟨h.1.trans k.1, k.2.trans h.2⟩

theorem of_reports {s t : State} (h : onlyReports s t) : onlyFrags s t := by
  have hg := h.group
  refine ⟨⟨?_, h.2⟩, by rw [hg]⟩
  have := h.1
  unfold unreported at this ⊢
  rw [State.mk.injEq] at this ⊢
  exact ⟨rfl, this.2⟩

theorem of_frags (s : State) (frs : List (Nat × Frag)) (held : List Held) (fi : Nat) :
    onlyFrags s { s with g := { s.g with frs := frs, held := held }, fi := fi } := ⟨⟨rfl, fun _ _ => rfl⟩, rfl⟩

theorem ite {c : Prop} [Decidable c] {s t u : State} (h : onlyFrags s t) (k : onlyFrags s u) :
    onlyFrags s (if c then t else u) := by split <;> assumption

variable {s t : State} (h : onlyFrags s t)
include h

theorem get {α : Type} (f : Group → α) : f (noFrags t.g) = f (noFrags s.g) := by rw [h.2]

theorem v : t.g.v = s.g.v := h.get (fun g => g.v)
theorem k : t.g.k = s.g.k := h.get (fun g => g.k)
theorem a : t.g.a = s.g.a := h.get (fun g => g.a)
theorem u : t.g.u = s.g.u := h.get (fun g => g.u)
theorem fl : t.g.fl = s.g.fl := h.get (fun g => g.fl)
theorem ch : t.g.ch = s.g.ch := h.get (fun g => g.ch)
theorem chv : t.g.chv = s.g.chv := h.get (fun g => g.chv)
theorem ops : t.g.ops = s.g.ops := h.get (fun g => g.ops)
theorem obs : t.g.obs = s.g.obs := h.get (fun g => g.obs)
theorem car : t.g.car = s.g.car := h.get (fun g => g.car)
theorem pc : t.g.pc = s.g.pc := h.get (fun g => g.pc)
theorem uid : t.g.uid = s.g.uid := h.get (fun g => g.uid)
theorem path : t.path = s.path := h.1.path
theorem mem : t.mem = s.mem := h.1.mem
theorem launch : t.l = s.l := h.1.launch
theorem byte (d pa : Nat) : memByte t d pa = memByte s d pa := by rw [memByte, memByte, h.mem]
theorem readV (r th : Nat) : readV t.g r th = readV s.g r th := by rw [Machine.readV, Machine.readV, h.v]
theorem readK (n : Nat) : readK t.g n = readK s.g n := by rw [Machine.readK, Machine.readK, h.k]

end onlyFrags

namespace Machine

theorem frags_modF (s : State) (f : Frag → Frag) : onlyFrags s (modF s f) := by
  unfold modF
  split
  · exact .refl s
  · exact onlyFrags.of_frags s _ _ _

theorem frags_emitG (s : State) (cls code a val : Nat) : onlyFrags s (emitG s cls code a val) := .of_reports (reports_emitG s _ _ _ _)
theorem frags_countG (s : State) (src k : Nat) : onlyFrags s (countG s src k) := .of_reports (reports_countG s _ _)

theorem frags_unstall (s : State) : onlyFrags s (unstall s) := by
  unfold unstall
  split
  · exact .refl s
  · exact (frags_emitG s _ _ _ _).trans (frags_modF _ _)

theorem frags_stall (s : State) (cause v : Nat) : onlyFrags s (stall s cause v) := by
  have h : ∀ u, onlyFrags u (modF (emitG u 0x02 0 cause v) (fun f => { f with blk := some cause })) := fun u =>
    (frags_emitG u _ _ _ _).trans (frags_modF _ _)
  have k : ∀ u, onlyFrags u (if cause = 0 then countG u 0x04 1 else u) := fun u => .ite (frags_countG u _ _) (.refl u)
  exact .ite (.refl s) (((frags_unstall s).trans (k _)).trans (h _))

theorem frags_fuse (s : State) (e2 : Nat) (f2 : Frag) : onlyFrags s (fuse s e2 f2) :=
  (onlyFrags.of_frags s _ _ _).trans (frags_emitG _ _ _ _ _)

theorem frags_heldPop (s : State) (h : Held) (rest : List Held) : onlyFrags s (heldPop s h rest) := by
  have h1 : onlyFrags s { s with g := { s.g with held := rest } } := onlyFrags.of_frags s _ _ _
  have h2 : ∀ u : State, onlyFrags u (if h.rejoin == some h.pc then modF u (fun f => { f with mask := f.mask ||| h.mask })
    else modF u (fun f => { f with
      back := { mask := f.mask, pc := f.pc, rejoin := h.rejoin } :: f.back
      mask := h.mask
      pc := h.pc
      idx := 0 })) := fun u => .ite (frags_modF u _) (frags_modF u _)
  exact (h1.trans (h2 _)).trans (onlyFrags.of_frags _ _ _ _)

theorem frags_heldJoin (s : State) (h : Held) (rest : List Held) : onlyFrags s (heldJoin s h rest) := frags_modF s _

theorem frags_arriveN (n : Nat) (s : State) : onlyFrags s (arriveN n s) := by
  induction n generalizing s with
  | zero => exact .refl s
  | succ n ih =>
    unfold arriveN
    dsimp only
    split
    · exact .refl s
    · split
      · exact (frags_heldPop s _ _).trans (ih _)
      · exact (frags_heldJoin s _ _).trans (ih _)
      · split
        · exact .refl s
        · split
          · exact ((frags_modF s _).trans (frags_fuse _ _ _)).trans (ih _)
          · exact frags_modF s _

theorem frags_arrive (s : State) : onlyFrags s (arrive s) := frags_arriveN _ s

theorem frags_laneNext (s : State) : onlyFrags s (laneNext s) := by
  refine (frags_unstall s).trans ?_
  exact onlyFrags.ite (frags_modF _ _) ((frags_modF _ _).trans (frags_arrive _))

theorem frags_laneGoto (s : State) (pc : Word) : onlyFrags s (laneGoto s pc) :=
  ((frags_unstall s).trans (frags_modF _ _)).trans (frags_arrive _)

end Machine

end Sys2Proof
end

