-- ==== Sys2Proof/Laws/Lane.lean ====
section
/-! SUPPORT. A lane arithmetic word writes results, pops channels and goes on, and changes nothing else; what a register
of a thread and a predicate mask hold after a write. -/

namespace Sys2Proof

open Sys2Proof.Machine

namespace Machine

/-! ### Registers after writes -/

theorem readV_writeV (g : Group) (r t q u : Nat) (x : VWord) :
    readV (writeV g r t x) q u = if q * 64 + u = r * 64 + t then x else readV g q u := by
  simp only [readV, writeV, mget_mput]

theorem readV_writeV_self (g : Group) (r t : Nat) (x : VWord) : readV (writeV g r t x) r t = x := by
  rw [readV_writeV, if_pos rfl]

theorem readV64_writeV64 (g : Group) (r t x : Nat) (h : x < 2 ^ 64) : readV64 (writeV64 g r t x) r t = x := by
  have h1 : ¬ r * 64 + t = (r + 1) * 64 + t := by omega
  simp only [readV64, writeV64, readV_writeV, if_pos, if_neg h1, BitVec.toNat_ofNat]
  omega

@[simp] theorem readK_zero (g : Group) : readK g 0 = BitVec.allOnes 64 := rfl

theorem readK_writeK (g : Group) (n m : Nat) (act b : Mask) :
    readK (writeK g n act b) m = if m = n ∧ n ≠ 0 then (readK g n &&& ~~~act) ||| (b &&& act) else readK g m := by
  by_cases hn : n = 0
  · simp [writeK, hn]
  · by_cases hm : m = 0
    · have : ¬ (m = n ∧ n ≠ 0) := by omega
      rw [if_neg this]; simp [readK, hm]
    · simp only [writeK, if_neg hn, readK, if_neg hm, mget_mput]
      by_cases h : m = n <;> simp [h, hn]

theorem regs_readV_of_ne (g : Group) (ty : LType) (d t x q u : Nat) (ht : t < 64) (hu : u < 64)
    (h : q ≠ d ∧ (tyWide ty = true → q ≠ d + 1)) : readV (writeTy g ty d t x) q u = readV g q u := by
  obtain ⟨h1, h2⟩ := h
  unfold writeTy
  by_cases hw : tyWide ty = true
  · have h2 := h2 hw
    rw [if_pos hw, writeV64, readV_writeV, readV_writeV, if_neg (by omega), if_neg (by omega)]
  · rw [if_neg hw, readV_writeV, if_neg (by omega)]

end Machine

/-! ### What writes results -/

namespace onlyResults

theorem refl (s : State) : onlyResults s s := ⟨.refl _, rfl⟩

theorem trans {s t u : State} (h : onlyResults s t) (k : onlyResults t u) : onlyResults s u := ⟨h.1.trans k.1, k.2.trans h.2⟩

theorem of_frags {s t : State} (h : onlyFrags s t) : onlyResults s t := by
  refine ⟨h.1, ?_⟩
  simp only [noResults, h.2]

theorem of_reports {s t : State} (h : onlyReports s t) : onlyResults s t := .of_frags (.of_reports h)

/-- A change of the issuing group that writes results. -/
theorem of_group (s : State) {g : Group} (h : noResults g = noResults s.g) : onlyResults s { s with g := g } :=
  ⟨⟨rfl, fun _ _ => rfl⟩, h⟩

variable {s t : State} (h : onlyResults s t)
include h

theorem get {α : Type} (f : Group → α) : f (noResults t.g) = f (noResults s.g) := by rw [h.2]
theorem a : t.g.a = s.g.a := h.get (fun g => g.a)
theorem u : t.g.u = s.g.u := h.get (fun g => g.u)
theorem fl : t.g.fl = s.g.fl := h.get (fun g => g.fl)
theorem ops : t.g.ops = s.g.ops := h.get (fun g => g.ops)
theorem pc : t.g.pc = s.g.pc := h.get (fun g => g.pc)
theorem uid : t.g.uid = s.g.uid := h.get (fun g => g.uid)
theorem slice : t.g.slice = s.g.slice := h.get (fun g => g.slice)
theorem path : t.path = s.path := h.1.path
theorem mem : t.mem = s.mem := h.1.mem
theorem dscr : t.dscr = s.dscr := h.1.dscr
theorem scr : t.t.scr = s.t.scr := h.1.scr
theorem launch : t.l = s.l := h.1.launch

end onlyResults

namespace Machine

theorem noResults_writeV (g : Group) (r t : Nat) (x : VWord) : noResults (writeV g r t x) = noResults g := rfl
theorem noResults_writeTy (g : Group) (ty : LType) (d t x : Nat) : noResults (writeTy g ty d t x) = noResults g := by
  unfold writeTy; split <;> rfl
theorem noResults_writeK (g : Group) (n : Nat) (act b : Mask) : noResults (writeK g n act b) = noResults g := by
  unfold writeK; split <;> rfl
theorem noResults_popChan (g : Group) (c : Nat) : noResults (popChan g c) = noResults g := by
  unfold popChan; split <;> rfl
theorem noResults_pushRes (g : Group) (ty : LType) (c : Nat) (rs : List (Nat × Nat)) : noResults (pushRes g ty c rs) = noResults g := by
  unfold pushRes
  split
  · rfl
  · split <;> rfl

theorem noResults_writeDst (g : Group) (w : LaneW) (ty : LType) (rs : List (Nat × Nat)) : noResults (writeDst g w ty rs) = noResults g := by
  unfold writeDst
  split
  · exact noResults_pushRes _ _ _ _
  · induction rs generalizing g with
    | nil => rfl
    | cons p r ih => exact (ih _).trans (noResults_writeTy _ _ _ _ _)

theorem results_completePop (s : State) (c : Nat) : onlyResults s (completePop s c) := by
  have step (u : State) : onlyResults u { u with g := { popChan u.g c with lap := 0 } } :=
    .of_group u (by
      have := noResults_popChan u.g c
      simp only [noResults, noFrags] at this ⊢
      rw [Group.mk.injEq] at this ⊢
      simp only [this, and_self])
  unfold completePop
  split
  · exact (onlyResults.of_reports (reports_replay s _ _ _ _ _ _)).trans (step _)
  · exact step s

theorem results_popIf (s : State) (o : Opnd) : onlyResults s (popIf s o) := by
  unfold popIf
  split
  · exact results_completePop s _
  · exact .refl s

theorem results_fresh (s : State) (n : Nat) : onlyResults s { s with fresh := n } := ⟨⟨rfl, fun _ _ => rfl⟩, rfl⟩

theorem results_popAll (s : State) (w : LaneW) : onlyResults s (popAll s w) := by
  have h0 : onlyResults s (if vecWide s w then { s with fresh := s.fresh + 64 } else s) := by
    split
    · exact results_fresh s _
    · exact .refl s
  exact ((h0.trans (results_popIf _ _)).trans (results_popIf _ _)).trans (results_popIf _ _)

/-- A lane arithmetic word whose channels are ready changes nothing but results, channels and its place. -/
theorem results_laneRun (s : State) (w : LaneW) (ty : LType) (f : Nat → Res) (h : chansReady s w = .ok) : onlyResults s (laneRun s w ty f) := by
  simp only [laneRun, withChans, h]
  refine ((onlyResults.of_reports ?_).trans (results_popAll _ w)).trans
    ((onlyResults.of_group _ (noResults_writeDst _ _ _ _)).trans (.of_frags (frags_laneNext _)))
  exact reports_logExec _ _ _ _

theorem results_laneRunK (s : State) (w : LaneW) (f : Nat → Bool × List Cause) (h : chansReady s w = .ok) : onlyResults s (laneRunK s w f) := by
  simp only [laneRunK, withChans, h]
  refine ((onlyResults.of_reports ?_).trans (results_popAll _ w)).trans
    ((onlyResults.of_group _ (noResults_writeK _ _ _ _)).trans (.of_frags (frags_laneNext _)))
  exact reports_logExec _ _ _ _

/-- Registers and masks after a lane arithmetic word: those that its results are written into, no pop having touched any. -/
theorem laneRun_v (s : State) (w : LaneW) (ty : LType) (f : Nat → Res) (h : chansReady s w = .ok) :
    (laneRun s w ty f).g.v = (writeDst (popAll (logHere s w.ty (resCauses ((doers w (active s w)).map (fun t => (t, f t))))) w).g w ty
      (spread w (active s w) (resCodes ((doers w (active s w)).map (fun t => (t, f t)))))).v := by
  simp only [laneRun, withChans, h]
  exact (frags_laneNext _).v

theorem laneRunK_k (s : State) (w : LaneW) (f : Nat → Bool × List Cause) (h : chansReady s w = .ok) :
    (laneRunK s w f).g.k = (writeK (popAll (logHere s w.ty (((doers w (active s w)).map (fun t => (t, f t))).map (fun p => (p.1, p.2.2)))) w).g
      w.d.toNat (active s w) (maskOf (((spread w (active s w)
        (((doers w (active s w)).map (fun t => (t, f t))).map (fun p => (p.1, p.2.1.toNat)))).filter (fun p => p.2 == 1)).map (·.1)))).k := by
  simp only [laneRunK, withChans, h]
  exact (frags_laneNext _).k

/-- A word whose channel is empty or full waits; one whose channel may not be used stops the context. -/
theorem laneRun_stall (s : State) (w : LaneW) (ty : LType) (f : Nat → Res) {c : Nat} (h : chansReady s w = .stall c) :
    laneRun s w ty f = stall s 2 c := by simp only [laneRun, withChans, h]
theorem laneRun_fault (s : State) (w : LaneW) (ty : LType) (f : Nat → Res) {c : FCause} (h : chansReady s w = .fault c) :
    laneRun s w ty f = laneFault s c 0 := by simp only [laneRun, withChans, h]

/-- Pops touch no vector register and no mask. -/
theorem popIf_v (s : State) (o : Opnd) : (popIf s o).g.v = s.g.v ∧ (popIf s o).g.k = s.g.k := by
  have hp (g : Group) (c : Nat) : (popChan g c).v = g.v ∧ (popChan g c).k = g.k := by unfold popChan; split <;> exact ⟨rfl, rfl⟩
  unfold popIf
  split
  · unfold completePop
    split
    · have hg := (reports_replay s s.g.uid 3 .g 0 s.fi (headBytes s.g o.idx.toNat)).group
      have := hp (replay s s.g.uid 3 .g 0 s.fi (headBytes s.g o.idx.toNat)).g o.idx.toNat
      rw [hg] at this
      dsimp only
      rw [hg]
      exact this
    · exact hp _ _
  · exact ⟨rfl, rfl⟩

theorem popAll_v (s : State) (w : LaneW) : (popAll s w).g.v = s.g.v ∧ (popAll s w).g.k = s.g.k := by
  have h0 : (if vecWide s w then { s with fresh := s.fresh + 64 } else s).g = s.g := by split <;> rfl
  have hA := popIf_v (if vecWide s w then { s with fresh := s.fresh + 64 } else s) w.a
  have hB := popIf_v (popIf (if vecWide s w then { s with fresh := s.fresh + 64 } else s) w.a) w.b
  have hC := popIf_v (popIf (popIf (if vecWide s w then { s with fresh := s.fresh + 64 } else s) w.a) w.b) w.c
  rw [h0] at hA
  exact ⟨hC.1.trans (hB.1.trans hA.1), hC.2.trans (hB.2.trans hA.2)⟩

end Machine

end Sys2Proof
end

