-- ==== Sys2Proof/Laws/Memory.lean ====
section
/-! SUPPORT. Reading after writing in the stores, and the canonical form of memory: every operation that writes it keeps
it, and it holds at reset. -/

namespace Sys2Proof.Machine

variable {α : Type}

/-! ### Runs of keys -/

theorem mget_of_not_mem {m : SMap α} {d : α} {k : Nat} (h : ∀ x, (k, x) ∉ m) : mget m d k = d := by
  induction m with
  | nil => rfl
  | cons p r ih =>
    obtain ⟨k', y⟩ := p
    have hk : k' ≠ k := fun e => h y (by simp [e])
    simp only [mget, if_neg hk, ih (fun x hx => h x (List.mem_cons_of_mem _ hx)), ite_self]

theorem mget_of_mem {m : SMap α} {d : α} {k : Nat} {x : α} (hs : m.Pairwise (fun a b => a.1 < b.1)) (h : (k, x) ∈ m) :
    mget m d k = x := by
  induction m with
  | nil => simp at h
  | cons p r ih =>
    obtain ⟨k', y⟩ := p
    rw [List.pairwise_cons] at hs
    rcases List.mem_cons.1 h with h | h
    · cases h; simp [mget]
    · have : k' < k := hs.1 _ h
      simp only [mget, if_neg (Nat.ne_of_lt this), if_neg (Nat.not_lt.2 (Nat.le_of_lt this)), ih hs.2 h]

/-- Two canonical stores that list the same at a key read the same there. -/
theorem mget_congr {m m' : SMap α} {d : α} {k : Nat} (hs : m.Pairwise (fun a b => a.1 < b.1))
    (hs' : m'.Pairwise (fun a b => a.1 < b.1)) (h : ∀ x, (k, x) ∈ m ↔ (k, x) ∈ m') : mget m d k = mget m' d k := by
  by_cases hx : ∃ x, (k, x) ∈ m
  · obtain ⟨x, hx⟩ := hx
    rw [mget_of_mem hs hx, mget_of_mem hs' ((h x).1 hx)]
  · rw [mget_of_not_mem (fun x e => hx ⟨x, e⟩), mget_of_not_mem (fun x e => hx ⟨x, (h x).2 e⟩)]

theorem mget_mrun [DecidableEq α] (d : α) (k j : Nat) (l : List α) (h : k ≤ j) : mget (mrun d k l) d j = l[j - k]?.getD d := by
  induction l generalizing k with
  | nil => simp [mrun, mget]
  | cons x r ih =>
    by_cases hj : j = k
    · subst hj
      have hn : mget (mrun d (j + 1) r) d j = d := mget_of_not_mem (fun y hy => absurd (mem_mrun hy).1 (Nat.not_succ_le_self j))
      by_cases hx : x = d
      · simp [mrun, hx, hn]
      · simp [mrun, hx, mget]
    · have hk : k + 1 ≤ j := by omega
      have e : j - k = (j - (k + 1)) + 1 := by omega
      rw [e, List.getElem?_cons_succ, ← ih (k + 1) hk]
      by_cases hx : x = d
      · simp [mrun, hx]
      · simp only [mrun, if_neg hx, mget, if_neg (Ne.symm hj), if_neg (Nat.not_lt.2 h)]

/-- What a canonical store holds after a run has been written. -/
theorem mget_mputs [DecidableEq α] {m : SMap α} {d : α} (h : mwf (fun _ => d) m = true) (k j : Nat) (l : List α) :
    mget (mputs m d k l) d j = if k ≤ j ∧ j < k + l.length then l[j - k]?.getD d else mget m d j := by
  have hs := (mwf_iff.1 h).1
  have hs' := (mwf_iff.1 (mwf_mputs k l h)).1
  have low : ∀ p ∈ m.takeWhile (fun e => decide (e.1 < k)), p.1 < k := by
    intro p hp
    have := List.all_takeWhile (l := m) (p := fun e => decide (e.1 < k))
    rw [List.all_eq_true] at this
    simpa using this p hp
  have split : ∀ (n : Nat) (q : SMap α), q.Pairwise (fun a b => a.1 < b.1) → ∀ x : α,
      ((j, x) ∈ q.dropWhile (fun e => decide (e.1 < n)) ↔ (j, x) ∈ q ∧ n ≤ j) ∧
      ((j, x) ∈ q.takeWhile (fun e => decide (e.1 < n)) ↔ (j, x) ∈ q ∧ j < n) := by
    intro n q hq x
    induction q with
    | nil => simp
    | cons p r ih =>
      rw [List.pairwise_cons] at hq
      obtain ⟨i1, i2⟩ := ih hq.2
      by_cases hp : p.1 < n
      · simp only [List.dropWhile, List.takeWhile, hp, decide_true, List.mem_cons, i1, i2]
        constructor
        · constructor
          · rintro ⟨a, b⟩; exact ⟨.inr a, b⟩
          · rintro ⟨a | a, b⟩
            · subst a; simp at hp; omega
            · exact ⟨a, b⟩
        · constructor
          · rintro (a | ⟨a, b⟩)
            · subst a; exact ⟨.inl rfl, hp⟩
            · exact ⟨.inr a, b⟩
          · rintro ⟨a | a, b⟩
            · exact .inl a
            · exact .inr ⟨a, b⟩
      · simp only [List.dropWhile, List.takeWhile, hp, decide_false, List.mem_cons, List.not_mem_nil, false_iff]
        constructor
        · constructor
          · intro a
            refine ⟨a, ?_⟩
            rcases a with a | a
            · subst a; simp at hp; omega
            · have := hq.1 _ a; simp at this; omega
          · exact fun a => a.1
        · rintro ⟨a | a, b⟩
          · subst a; exact hp b
          · have := hq.1 _ a; simp at this; omega
  have memP : ∀ x : α, (j, x) ∈ mputs m d k l ↔ ((j, x) ∈ m ∧ j < k) ∨ (j, x) ∈ mrun d k l ∨ ((j, x) ∈ m ∧ k + l.length ≤ j) := by
    intro x
    simp only [mputs, List.mem_append, (split k m hs x).2, (split (k + l.length) m hs x).1, or_assoc]
  by_cases hj : k ≤ j ∧ j < k + l.length
  · rw [if_pos hj, ← mget_mrun d k j l hj.1]
    refine mget_congr hs' (pairwise_mrun d k l) (fun x => ?_)
    rw [memP]
    constructor
    · rintro (⟨_, h1⟩ | h1 | ⟨_, h1⟩)
      · omega
      · exact h1
      · omega
    · exact fun h1 => .inr (.inl h1)
  · rw [if_neg hj]
    refine mget_congr hs' hs (fun x => ?_)
    rw [memP]
    constructor
    · rintro (h1 | h1 | h1)
      · exact h1.1
      · have := mem_mrun h1; simp at this; omega
      · exact h1.1
    · intro h1
      by_cases h2 : j < k
      · exact .inl ⟨h1, h2⟩
      · exact .inr (.inr ⟨h1, by omega⟩)

theorem mgets_length (m : SMap α) (d : α) (k n : Nat) : (mgets m d k n).length = n := by
  induction n generalizing k with
  | zero => rfl
  | succ n ih => simp [mgets, ih]

/-- Forgetting a run: its keys read as the default, every other key as before. -/
theorem mget_mclear [DecidableEq α] {m : SMap α} {d : α} (h : mwf (fun _ => d) m = true) (lo n j : Nat) :
    mget (mclear m lo n) d j = if lo ≤ j ∧ j < lo + n then d else mget m d j := by
  have hs := (mwf_iff.1 h).1
  by_cases hj : lo ≤ j ∧ j < lo + n
  · rw [if_pos hj]
    refine mget_of_not_mem (fun x hx => ?_)
    have := (List.mem_filter.1 hx).2
    simp at this; omega
  · rw [if_neg hj]
    refine mget_congr (hs.sublist List.filter_sublist) hs (fun x => ?_)
    constructor
    · exact fun hx => (List.mem_filter.1 hx).1
    · refine fun hx => List.mem_filter.2 ⟨hx, ?_⟩
      simp; omega

/-- A fold of single writes keeps the canonical form. -/
theorem mwf_foldl_mput [DecidableEq α] {d : α} (l : SMap α) (m : SMap α) (h : mwf (fun _ => d) m = true) :
    mwf (fun _ => d) (l.foldl (fun acc e => mput acc d e.1 e.2) m) = true := by
  induction l generalizing m with
  | nil => exact h
  | cons p r ih => exact ih _ (mwf_mput p.1 p.2 h)

/-- A copy of a run keeps the canonical form. -/
theorem mwf_mcopy [DecidableEq α] {d : α} {m : SMap α} (lo n dst : Nat) (h : mwf (fun _ => d) m = true) :
    mwf (fun _ => d) (mcopy m d lo n dst) = true :=
  mwf_foldl_mput _ _ (mwf_filter _ h)

/-! ### The views -/

/-- Addresses of one view below 2^52 never meet those of another. -/
theorem vkey_inj {d d' a a' : Nat} (h : a < 2 ^ 52) (h' : a' < 2 ^ 52) : vkey d a = vkey d' a' ↔ d = d' ∧ a = a' := by
  simp only [vkey]; omega

theorem wf_wrView (s : State) (die pa : Nat) (data : List Byte) (st : Stamp) (poison : Bool) (h : Memory.wf s) :
    Memory.wf (wrView s die pa data st poison) := mwf_mputs _ _ h

/-- What a view holds after a write: the bytes written, in their place; every other byte of every view is kept. -/
theorem memByte_wrView (s : State) (die pa : Nat) (data : List Byte) (st : Stamp) (poison : Bool) (h : Memory.wf s) (d a : Nat) :
    memByte (wrView s die pa data st poison) d a =
      if vkey die pa ≤ vkey d a ∧ vkey d a < vkey die pa + data.length then data[vkey d a - vkey die pa]?.getD 0 else memByte s d a :=
  mget_mputs h _ _ _

theorem wf_putDies (pa : Nat) (data : List Byte) (l : List Nat) (s : State) (h : Memory.wf s) :
    Memory.wf (l.foldl (fun s d => { s with mem := mputs s.mem 0 (vkey d pa) data }) s) := by
  induction l generalizing s with
  | nil => exact h
  | cons d r ih => exact ih _ (mwf_mputs (m := s.mem) _ _ h)

/-- A sector that changes its key keeps the canonical form. -/
theorem wf_retag (s : State) (key sec : Nat) (h : Memory.wf s) : Memory.wf (retag s key sec) := by
  have h1 : Memory.wf { s with tags := mput s.tags 0 sec (genOf s key) } := h
  simp only [retag]
  split
  · exact h
  · split
    · exact h1
    · exact wf_putDies _ _ _ _ h1

theorem wf_retags (key : Nat) (l : List Nat) (s : State) (h : Memory.wf s) : Memory.wf (l.foldl (fun s sec => retag s key sec) s) := by
  induction l generalizing s with
  | nil => exact h
  | cons x r ih => exact ih _ (wf_retag s key x h)

/-- Fills of the L2 and activations of rows keep the canonical form. -/
theorem wf_l2Homes (key : Nat) (c : State → Option Nat) (l : List Nat) (s : State) (h : Memory.wf s) :
    Memory.wf (l.foldl (fun s sec => l2Home (retag s key sec) (c s) sec) s) := by
  induction l generalizing s with
  | nil => exact h
  | cons x r ih =>
    refine ih _ ?_
    have hm : (l2Home (retag s key x) (c s) x).mem = (retag s key x).mem := onlyReports.mem (reports_l2Home (retag s key x) (c s) x)
    have hr : mwf (fun _ => (0 : Byte)) (retag s key x).mem = true := wf_retag s key x h
    rwa [← hm] at hr

theorem mem_pushUpds (s : State) (h num : Nat) (owner : Owner) (ent : Nat) (vec : V4) (k : UpdK) :
    (pushUpds s h num owner ent vec k).mem = s.mem := by
  simp only [pushUpds]
  split
  · rfl
  · refine (onlyReports.mem (reports_foldl _ _ fun (u : Upd) _ s => reports_linkBytes s h u.dst (updPlace k).2)).trans ?_
    rfl

/-- Bytes that arrive at their home keep the canonical form. -/
theorem wf_arriveBytes (s : State) (pa key : Nat) (data : List Byte) (vec : V4) (owner : Owner) (ent : Nat) (poison : Bool)
    (h : Memory.wf s) : Memory.wf (arriveBytes s pa key data vec owner ent poison).2 := by
  simp only [arriveBytes, Memory.wf, mem_pushUpds]
  have h1 : Memory.wf (nextNum s (homeDie s pa)).2 := h
  exact wf_wrView _ _ _ _ _ _ (wf_l2Homes key (fun s => ownerCtx s owner) (sectorsOf pa data.length) (nextNum s (homeDie s pa)).2 h1)

theorem wf_reset : Memory.wf State.reset := rfl

end Sys2Proof.Machine
end

