-- ==== Sys2Proof/Laws/PerInstr.lean ====
section
/-! SUPPORT. Statements about instructions as syntax, one lemma for each constructor. `Fits`: the word of an instruction has the
bits that its kind of word has (R55), whatever its operands. -/

namespace Sys2Proof.Laws.Fits

open Sys2Proof Sys2Proof.Machine

/-- R55: a scalar word is 32 bits wide, a lane word 96. -/
def Statement (i : Instr) : Prop := ∀ n w, encode i = some (n, w) → (n = 32 ∧ w < 2 ^ 32) ∨ (n = 96 ∧ w < 2 ^ 96)

/-! ### The forms of a word -/

theorem pair {n w k x : Nat} (h : some (k, x) = some (n, w)) : n = k ∧ w = x := by
  injection h with h; injection h with h1 h2; exact ⟨h1.symm, h2.symm⟩

theorem formNone {n w : Nat} (h : (none : Option (Nat × Nat)) = some (n, w)) : (n = 32 ∧ w < 2 ^ 32) ∨ (n = 96 ∧ w < 2 ^ 96) := nomatch h

theorem formS {op fn n w : Nat} {d a b : Reg} (ho : op < 64) (hf : fn < 256) (h : some (32, encS op fn d a b) = some (n, w)) :
    (n = 32 ∧ w < 2 ^ 32) ∨ (n = 96 ∧ w < 2 ^ 96) := by
  obtain ⟨rfl, rfl⟩ := pair h
  have := d.isLt; have := a.isLt; have := b.isLt
  exact .inl ⟨rfl, by unfold encS; omega⟩

theorem formI {op imm n w : Nat} {d a : Reg} (ho : op < 64) (hi : imm < 2 ^ 14) (h : some (32, encI op d a imm) = some (n, w)) :
    (n = 32 ∧ w < 2 ^ 32) ∨ (n = 96 ∧ w < 2 ^ 96) := by
  obtain ⟨rfl, rfl⟩ := pair h
  have := d.isLt; have := a.isLt
  exact .inl ⟨rfl, by unfold encI; omega⟩

theorem formU {op imm n w : Nat} {d : Reg} (ho : op < 64) (hi : imm < 2 ^ 20) (h : some (32, encU op d imm) = some (n, w)) :
    (n = 32 ∧ w < 2 ^ 32) ∨ (n = 96 ∧ w < 2 ^ 96) := by
  obtain ⟨rfl, rfl⟩ := pair h
  have := d.isLt
  exact .inl ⟨rfl, by unfold encU; omega⟩

theorem formB {op cond off n w : Nat} {a b : Reg} (ho : op < 64) (hc : cond < 8) (hi : off < 2 ^ 11)
    (h : some (32, encB op a b cond off) = some (n, w)) : (n = 32 ∧ w < 2 ^ 32) ∨ (n = 96 ∧ w < 2 ^ 96) := by
  obtain ⟨rfl, rfl⟩ := pair h
  have := a.isLt; have := b.isLt
  exact .inl ⟨rfl, by unfold encB; omega⟩

theorem formJ {op off n w : Nat} (ho : op < 64) (hi : off < 2 ^ 26) (h : some (32, encJ op off) = some (n, w)) :
    (n = 32 ∧ w < 2 ^ 32) ∨ (n = 96 ∧ w < 2 ^ 96) := by
  obtain ⟨rfl, rfl⟩ := pair h
  exact .inl ⟨rfl, by unfold encJ; omega⟩

theorem space_lt (sp : SSpace) : sspaceCode sp < 4 := by cases sp <;> decide
theorem spaceImm_lt (sp : SSpace) (off : BitVec 11) : sspaceCode sp * 2 ^ 11 + off.toNat < 2 ^ 14 := by
  have := space_lt sp; have := off.isLt; omega

theorem opndBits_lt (o : Opnd) : opndBits o < 2 ^ 11 := by
  have := o.idx.isLt; have := Bool.toNat_le o.chan; have := Bool.toNat_le o.pop
  simp only [opndBits]; omega

theorem formL {op n w : Nat} {x : LaneW} (ho : op < 256) (h : some (96, laneBits op x) = some (n, w)) :
    (n = 32 ∧ w < 2 ^ 32) ∨ (n = 96 ∧ w < 2 ^ 96) := by
  obtain ⟨rfl, rfl⟩ := pair h
  refine .inr ⟨rfl, ?_⟩
  have t : tyCode x.ty < 16 := by cases x.ty <;> decide
  have r : rndCode x.rnd < 8 := by cases x.rnd <;> decide
  have o : ordCode x.ord < 8 := by cases x.ord <;> decide
  have s : scpCode x.scp < 8 := by cases x.scp <;> decide
  have := x.k.isLt; have := x.d.isLt; have := x.x24.isLt
  have := opndBits_lt x.a; have := opndBits_lt x.b; have := opndBits_lt x.c
  have := Bool.toNat_le x.neg; have := Bool.toNat_le x.uni; have := Bool.toNat_le x.dchan; have := Bool.toNat_le x.sat
  have := Bool.toNat_le x.imm
  simp only [laneBits]; omega

/-! ### The constructors -/

theorem add (d a b : Reg) : Statement (.add d a b) := fun _ _ h => formS (by decide) (by decide) h
theorem sub (d a b : Reg) : Statement (.sub d a b) := fun _ _ h => formS (by decide) (by decide) h
theorem and (d a b : Reg) : Statement (.and d a b) := fun _ _ h => formS (by decide) (by decide) h
theorem or (d a b : Reg) : Statement (.or d a b) := fun _ _ h => formS (by decide) (by decide) h
theorem xor (d a b : Reg) : Statement (.xor d a b) := fun _ _ h => formS (by decide) (by decide) h
theorem shl (d a b : Reg) : Statement (.shl d a b) := fun _ _ h => formS (by decide) (by decide) h
theorem shr (d a b : Reg) : Statement (.shr d a b) := fun _ _ h => formS (by decide) (by decide) h
theorem sar (d a b : Reg) : Statement (.sar d a b) := fun _ _ h => formS (by decide) (by decide) h
theorem mul (d a b : Reg) : Statement (.mul d a b) := fun _ _ h => formS (by decide) (by decide) h
theorem mulhs (d a b : Reg) : Statement (.mulhs d a b) := fun _ _ h => formS (by decide) (by decide) h
theorem mulhu (d a b : Reg) : Statement (.mulhu d a b) := fun _ _ h => formS (by decide) (by decide) h
theorem divs (d a b : Reg) : Statement (.divs d a b) := fun _ _ h => formS (by decide) (by decide) h
theorem divu (d a b : Reg) : Statement (.divu d a b) := fun _ _ h => formS (by decide) (by decide) h
theorem rems (d a b : Reg) : Statement (.rems d a b) := fun _ _ h => formS (by decide) (by decide) h
theorem remu (d a b : Reg) : Statement (.remu d a b) := fun _ _ h => formS (by decide) (by decide) h
theorem min (d a b : Reg) : Statement (.min d a b) := fun _ _ h => formS (by decide) (by decide) h
theorem minu (d a b : Reg) : Statement (.minu d a b) := fun _ _ h => formS (by decide) (by decide) h
theorem max (d a b : Reg) : Statement (.max d a b) := fun _ _ h => formS (by decide) (by decide) h
theorem maxu (d a b : Reg) : Statement (.maxu d a b) := fun _ _ h => formS (by decide) (by decide) h
theorem slt (d a b : Reg) : Statement (.slt d a b) := fun _ _ h => formS (by decide) (by decide) h
theorem sltu (d a b : Reg) : Statement (.sltu d a b) := fun _ _ h => formS (by decide) (by decide) h
theorem seq (d a b : Reg) : Statement (.seq d a b) := fun _ _ h => formS (by decide) (by decide) h
theorem movz (d a b : Reg) : Statement (.movz d a b) := fun _ _ h => formS (by decide) (by decide) h
theorem movnz (d a b : Reg) : Statement (.movnz d a b) := fun _ _ h => formS (by decide) (by decide) h
theorem addi (d a : Reg) (imm : BitVec 14) : Statement (.addi d a imm) := fun _ _ h => formI (by decide) imm.isLt h
theorem andi (d a : Reg) (imm : BitVec 14) : Statement (.andi d a imm) := fun _ _ h => formI (by decide) imm.isLt h
theorem ori (d a : Reg) (imm : BitVec 14) : Statement (.ori d a imm) := fun _ _ h => formI (by decide) imm.isLt h
theorem xori (d a : Reg) (imm : BitVec 14) : Statement (.xori d a imm) := fun _ _ h => formI (by decide) imm.isLt h
theorem shli (d a : Reg) (sh : BitVec 6) : Statement (.shli d a sh) := fun _ _ h => formI (by decide) (Nat.lt_trans sh.isLt (by decide)) h
theorem shri (d a : Reg) (sh : BitVec 6) : Statement (.shri d a sh) := fun _ _ h => formI (by decide) (Nat.lt_trans sh.isLt (by decide)) h
theorem sari (d a : Reg) (sh : BitVec 6) : Statement (.sari d a sh) := fun _ _ h => formI (by decide) (Nat.lt_trans sh.isLt (by decide)) h
theorem slti (d a : Reg) (imm : BitVec 14) : Statement (.slti d a imm) := fun _ _ h => formI (by decide) imm.isLt h
theorem sltui (d a : Reg) (imm : BitVec 14) : Statement (.sltui d a imm) := fun _ _ h => formI (by decide) imm.isLt h
theorem lui (d : Reg) (imm : BitVec 20) : Statement (.lui d imm) := fun _ _ h => formU (by decide) imm.isLt h
theorem auipc (d : Reg) (imm : BitVec 20) : Statement (.auipc d imm) := fun _ _ h => formU (by decide) imm.isLt h
theorem lb (d a : Reg) (sp : SSpace) (off : BitVec 11) : Statement (.lb d a sp off) := fun _ _ h => formI (by decide) (spaceImm_lt sp off) h
theorem lbu (d a : Reg) (sp : SSpace) (off : BitVec 11) : Statement (.lbu d a sp off) := fun _ _ h => formI (by decide) (spaceImm_lt sp off) h
theorem lh (d a : Reg) (sp : SSpace) (off : BitVec 11) : Statement (.lh d a sp off) := fun _ _ h => formI (by decide) (spaceImm_lt sp off) h
theorem lhu (d a : Reg) (sp : SSpace) (off : BitVec 11) : Statement (.lhu d a sp off) := fun _ _ h => formI (by decide) (spaceImm_lt sp off) h
theorem lw (d a : Reg) (sp : SSpace) (off : BitVec 11) : Statement (.lw d a sp off) := fun _ _ h => formI (by decide) (spaceImm_lt sp off) h
theorem lwu (d a : Reg) (sp : SSpace) (off : BitVec 11) : Statement (.lwu d a sp off) := fun _ _ h => formI (by decide) (spaceImm_lt sp off) h
theorem ld (d a : Reg) (sp : SSpace) (off : BitVec 11) : Statement (.ld d a sp off) := fun _ _ h => formI (by decide) (spaceImm_lt sp off) h
theorem sb (d a : Reg) (sp : SSpace) (off : BitVec 11) : Statement (.sb d a sp off) := fun _ _ h => formI (by decide) (spaceImm_lt sp off) h
theorem sh (d a : Reg) (sp : SSpace) (off : BitVec 11) : Statement (.sh d a sp off) := fun _ _ h => formI (by decide) (spaceImm_lt sp off) h
theorem sw (d a : Reg) (sp : SSpace) (off : BitVec 11) : Statement (.sw d a sp off) := fun _ _ h => formI (by decide) (spaceImm_lt sp off) h
theorem sd (d a : Reg) (sp : SSpace) (off : BitVec 11) : Statement (.sd d a sp off) := fun _ _ h => formI (by decide) (spaceImm_lt sp off) h
theorem beq (a b : Reg) (off : BitVec 11) : Statement (.beq a b off) := fun _ _ h => formB (by decide) (by decide) off.isLt h
theorem bne (a b : Reg) (off : BitVec 11) : Statement (.bne a b off) := fun _ _ h => formB (by decide) (by decide) off.isLt h
theorem blt (a b : Reg) (off : BitVec 11) : Statement (.blt a b off) := fun _ _ h => formB (by decide) (by decide) off.isLt h
theorem bge (a b : Reg) (off : BitVec 11) : Statement (.bge a b off) := fun _ _ h => formB (by decide) (by decide) off.isLt h
theorem bltu (a b : Reg) (off : BitVec 11) : Statement (.bltu a b off) := fun _ _ h => formB (by decide) (by decide) off.isLt h
theorem bgeu (a b : Reg) (off : BitVec 11) : Statement (.bgeu a b off) := fun _ _ h => formB (by decide) (by decide) off.isLt h
theorem loop (a : Reg) (off : BitVec 11) : Statement (.loop a off) := fun _ _ h => formB (by decide) (by decide) off.isLt h
theorem jmp (off : BitVec 26) : Statement (.jmp off) := fun _ _ h => formJ (by decide) off.isLt h
theorem call (off : BitVec 26) : Statement (.call off) := fun _ _ h => formJ (by decide) off.isLt h
theorem jr (a : Reg) : Statement (.jr a) := fun _ _ h => formS (by decide) (by decide) h
theorem callr (d a : Reg) : Statement (.callr d a) := fun _ _ h => formS (by decide) (by decide) h
theorem issue (off : BitVec 20) : Statement (.issue off) := fun _ _ h => formU (by decide) off.isLt h
theorem issuex (a : Reg) : Statement (.issuex a) := fun _ _ h => formS (by decide) (by decide) h
theorem push (c a : Reg) : Statement (.push c a) := fun _ _ h => formS (by decide) (by decide) h
theorem pop (d c : Reg) : Statement (.pop d c) := fun _ _ h => formS (by decide) (by decide) h
theorem peek (d c : Reg) : Statement (.peek d c) := fun _ _ h => formS (by decide) (by decide) h
theorem cbind (c a : Reg) : Statement (.cbind c a) := fun _ _ h => formS (by decide) (by decide) h
theorem cfree (c : Reg) : Statement (.cfree c) := fun _ _ h => formS (by decide) (by decide) h
theorem mtg (n a : Reg) : Statement (.mtg n a) := fun _ _ h => formS (by decide) (by decide) h
theorem mfg (d n : Reg) : Statement (.mfg d n) := fun _ _ h => formS (by decide) (by decide) h
theorem mfk (d n : Reg) (j : Reg) : Statement (.mfk d n j) := fun _ _ h => formS (by decide) (by decide) h
theorem mtsh (t a : Reg) : Statement (.mtsh t a) := fun _ _ h => formS (by decide) (by decide) h
theorem mfsh (d t : Reg) : Statement (.mfsh d t) := fun _ _ h => formS (by decide) (by decide) h
theorem mfsr (d : Reg) (num : BitVec 14) : Statement (.mfsr d num) := fun _ _ h => formI (by decide) num.isLt h
theorem wflag (mask : BitVec 12) : Statement (.wflag mask) := fun _ _ h => formI (by decide) (Nat.lt_of_lt_of_le mask.isLt (by decide)) h
theorem endGroup : Statement .endGroup := fun _ _ h => formJ (by decide) (by decide) h
theorem groupRetire (g : Nat) : Statement (.groupRetire g) := fun _ _ h => formNone h
theorem trap (code : BitVec 20) : Statement (.trap code) := fun _ _ h => formU (by decide) code.isLt h
theorem eret : Statement .eret := fun _ _ h => formJ (by decide) (by decide) h
theorem safe (vn : BitVec 7) (tz : Bool) : Statement (.safe vn tz) := fun _ _ h => formU (by decide) (by have := vn.isLt; have := Bool.toNat_le tz; omega) h
theorem stop (code : BitVec 20) : Statement (.stop code) := fun _ _ h => formU (by decide) code.isLt h
theorem trc (a b : Reg) : Statement (.trc a b) := fun _ _ h => formS (by decide) (by decide) h
theorem tnow (d : Reg) : Statement (.tnow d) := fun _ _ h => formS (by decide) (by decide) h
theorem ctrRd (d a : Reg) : Statement (.ctrRd d a) := fun _ _ h => formS (by decide) (by decide) h
theorem ctrArm (a b : Reg) : Statement (.ctrArm a b) := fun _ _ h => formS (by decide) (by decide) h
theorem ctrClr (a : Reg) : Statement (.ctrClr a) := fun _ _ h => formS (by decide) (by decide) h
theorem elogRd (d a : Reg) : Statement (.elogRd d a) := fun _ _ h => formS (by decide) (by decide) h
theorem elogPop (a : Reg) : Statement (.elogPop a) := fun _ _ h => formS (by decide) (by decide) h
theorem mtsr (a : Reg) (num : BitVec 14) : Statement (.mtsr a num) := fun _ _ h => formI (by decide) num.isLt h
theorem ctxSave (d a b : Reg) : Statement (.ctxSave d a b) := fun _ _ h => formS (by decide) (by decide) h
theorem ctxRest (d a b : Reg) : Statement (.ctxRest d a b) := fun _ _ h => formS (by decide) (by decide) h
theorem clauseStart (h : Header) : Statement (.clauseStart h) := by
  intro n w e
  have e : some (96, headerBits h) = some (n, w) := e
  obtain ⟨rfl, rfl⟩ := pair e
  refine .inr ⟨rfl, ?_⟩
  have := h.len.isLt; have := h.wait.isLt; have := h.fa.isLt; have := h.fb.isLt; have := Bool.toNat_le h.av; have := Bool.toNat_le h.bv
  simp only [headerBits]; omega
theorem laneTaskStart (g : Nat) : Statement (.laneTaskStart g) := fun _ _ h => formNone h
theorem laneAdd (w : LaneW) : Statement (.laneAdd w) := fun _ _ h => formL (by decide) h
theorem laneSub (w : LaneW) : Statement (.laneSub w) := fun _ _ h => formL (by decide) h
theorem laneMul (w : LaneW) : Statement (.laneMul w) := fun _ _ h => formL (by decide) h
theorem mad (w : LaneW) : Statement (.mad w) := fun _ _ h => formL (by decide) h
theorem div (w : LaneW) : Statement (.div w) := fun _ _ h => formL (by decide) h
theorem rem (w : LaneW) : Statement (.rem w) := fun _ _ h => formL (by decide) h
theorem abs (w : LaneW) : Statement (.abs w) := fun _ _ h => formL (by decide) h
theorem neg (w : LaneW) : Statement (.neg w) := fun _ _ h => formL (by decide) h
theorem laneMin (w : LaneW) : Statement (.laneMin w) := fun _ _ h => formL (by decide) h
theorem laneMax (w : LaneW) : Statement (.laneMax w) := fun _ _ h => formL (by decide) h
theorem laneAnd (w : LaneW) : Statement (.laneAnd w) := fun _ _ h => formL (by decide) h
theorem laneOr (w : LaneW) : Statement (.laneOr w) := fun _ _ h => formL (by decide) h
theorem laneXor (w : LaneW) : Statement (.laneXor w) := fun _ _ h => formL (by decide) h
theorem not (w : LaneW) : Statement (.not w) := fun _ _ h => formL (by decide) h
theorem laneShl (w : LaneW) : Statement (.laneShl w) := fun _ _ h => formL (by decide) h
theorem laneShr (w : LaneW) : Statement (.laneShr w) := fun _ _ h => formL (by decide) h
theorem rot (w : LaneW) : Statement (.rot w) := fun _ _ h => formL (by decide) h
theorem bfx (w : LaneW) : Statement (.bfx w) := fun _ _ h => formL (by decide) h
theorem bfi (w : LaneW) : Statement (.bfi w) := fun _ _ h => formL (by decide) h
theorem popc (w : LaneW) : Statement (.popc w) := fun _ _ h => formL (by decide) h
theorem clz (w : LaneW) : Statement (.clz w) := fun _ _ h => formL (by decide) h
theorem setp (w : LaneW) : Statement (.setp w) := fun _ _ h => formL (by decide) h
theorem sel (w : LaneW) : Statement (.sel w) := fun _ _ h => formL (by decide) h
theorem mov (w : LaneW) : Statement (.mov w) := fun _ _ h => formL (by decide) h
theorem cvt (w : LaneW) : Statement (.cvt w) := fun _ _ h => formL (by decide) h
theorem qnt (w : LaneW) : Statement (.qnt w) := fun _ _ h => formL (by decide) h
theorem dqnt (w : LaneW) : Statement (.dqnt w) := fun _ _ h => formL (by decide) h
theorem frsq (w : LaneW) : Statement (.frsq w) := fun _ _ h => formL (by decide) h
theorem frcp (w : LaneW) : Statement (.frcp w) := fun _ _ h => formL (by decide) h
theorem xln (w : LaneW) : Statement (.xln w) := fun _ _ h => formL (by decide) h
theorem fexp (w : LaneW) : Statement (.fexp w) := fun _ _ h => formL (by decide) h
theorem specialFunctionComplete (g op : Nat) : Statement (.specialFunctionComplete g op) := fun _ _ h => formNone h
theorem xmv (w : LaneW) : Statement (.xmv w) := fun _ _ h => formL (by decide) h
theorem rdc (w : LaneW) : Statement (.rdc w) := fun _ _ h => formL (by decide) h
theorem ballot (w : LaneW) : Statement (.ballot w) := fun _ _ h => formL (by decide) h
theorem rng (w : LaneW) : Statement (.rng w) := fun _ _ h => formL (by decide) h
theorem lid (w : LaneW) : Statement (.lid w) := fun _ _ h => formL (by decide) h
theorem kop (w : LaneW) : Statement (.kop w) := fun _ _ h => formL (by decide) h
theorem fcls (w : LaneW) : Statement (.fcls w) := fun _ _ h => formL (by decide) h
theorem bra (k : BitVec 4) (neg : Bool) (target join : BitVec 24) : Statement (.bra k neg target join) := by
  intro n w e
  have e : some (96, 0x27 * 2 ^ 88 + k.toNat * 2 ^ 80 + neg.toNat * 2 ^ 79 + join.toNat * 2 ^ 54 + target.toNat) = some (n, w) := e
  obtain ⟨rfl, rfl⟩ := pair e
  refine .inr ⟨rfl, ?_⟩
  have := k.isLt; have := Bool.toNat_le neg; have := target.isLt; have := join.isLt
  omega
theorem lend (k : BitVec 4) (neg : Bool) : Statement (.lend k neg) := by
  intro n w e
  have e : some (96, 0x28 * 2 ^ 88 + k.toNat * 2 ^ 80 + neg.toNat * 2 ^ 79) = some (n, w) := e
  obtain ⟨rfl, rfl⟩ := pair e
  refine .inr ⟨rfl, ?_⟩
  have := k.isLt; have := Bool.toNat_le neg
  omega
theorem lnop (k : BitVec 4) (neg : Bool) : Statement (.lnop k neg) := by
  intro n w e
  have e : some (96, 0x29 * 2 ^ 88 + k.toNat * 2 ^ 80 + neg.toNat * 2 ^ 79) = some (n, w) := e
  obtain ⟨rfl, rfl⟩ := pair e
  refine .inr ⟨rfl, ?_⟩
  have := k.isLt; have := Bool.toNat_le neg
  omega
theorem mxl (w : LaneW) : Statement (.mxl w) := fun _ _ h => formL (by decide) h
theorem mxb (w : LaneW) : Statement (.mxb w) := fun _ _ h => formL (by decide) h
theorem mxs (w : LaneW) : Statement (.mxs w) := fun _ _ h => formL (by decide) h
theorem tld (w : LaneW) : Statement (.tld w) := fun _ _ h => formL (by decide) h
theorem tst (w : LaneW) : Statement (.tst w) := fun _ _ h => formL (by decide) h
theorem tclr (w : LaneW) : Statement (.tclr w) := fun _ _ h => formL (by decide) h
theorem tmov (w : LaneW) : Statement (.tmov w) := fun _ _ h => formL (by decide) h
theorem zrd (w : LaneW) : Statement (.zrd w) := fun _ _ h => formL (by decide) h
theorem zclr (w : LaneW) : Statement (.zclr w) := fun _ _ h => formL (by decide) h
theorem zld (w : LaneW) : Statement (.zld w) := fun _ _ h => formL (by decide) h
theorem zst (w : LaneW) : Statement (.zst w) := fun _ _ h => formL (by decide) h
theorem matrixStep (t i : Nat) : Statement (.matrixStep t i) := fun _ _ h => formNone h
theorem matrixOpComplete (t i : Nat) : Statement (.matrixOpComplete t i) := fun _ _ h => formNone h
theorem laneLd (w : LaneW) : Statement (.laneLd w) := fun _ _ h => formL (by decide) h
theorem st (w : LaneW) : Statement (.st w) := fun _ _ h => formL (by decide) h
theorem atom (w : LaneW) : Statement (.atom w) := fun _ _ h => formL (by decide) h
theorem red (w : LaneW) : Statement (.red w) := fun _ _ h => formL (by decide) h
theorem cas (w : LaneW) : Statement (.cas w) := fun _ _ h => formL (by decide) h
theorem fence (w : LaneW) : Statement (.fence w) := fun _ _ h => formL (by decide) h
theorem pref (w : LaneW) : Statement (.pref w) := fun _ _ h => formL (by decide) h
theorem cpy (w : LaneW) : Statement (.cpy w) := fun _ _ h => formL (by decide) h
theorem cpyt (w : LaneW) : Statement (.cpyt w) := fun _ _ h => formL (by decide) h
theorem gath (w : LaneW) : Statement (.gath w) := fun _ _ h => formL (by decide) h
theorem scat (w : LaneW) : Statement (.scat w) := fun _ _ h => formL (by decide) h
theorem coll (w : LaneW) : Statement (.coll w) := fun _ _ h => formL (by decide) h
theorem bclose (w : LaneW) : Statement (.bclose w) := fun _ _ h => formL (by decide) h
theorem bwait (w : LaneW) : Statement (.bwait w) := fun _ _ h => formL (by decide) h
theorem barx (w : LaneW) : Statement (.barx w) := fun _ _ h => formL (by decide) h
theorem bara (w : LaneW) : Statement (.bara w) := fun _ _ h => formL (by decide) h
theorem barw (w : LaneW) : Statement (.barw w) := fun _ _ h => formL (by decide) h
theorem barwWake (g f : Nat) : Statement (.barwWake g f) := fun _ _ h => formNone h
theorem nbar (w : LaneW) : Statement (.nbar w) := fun _ _ h => formL (by decide) h
theorem waitf (w : LaneW) : Statement (.waitf w) := fun _ _ h => formL (by decide) h
theorem monitorWake (g f : Nat) : Statement (.monitorWake g f) := fun _ _ h => formNone h
theorem claim (w : LaneW) : Statement (.claim w) := fun _ _ h => formL (by decide) h
theorem claimw (w : LaneW) : Statement (.claimw w) := fun _ _ h => formL (by decide) h
theorem fulfil (w : LaneW) : Statement (.fulfil w) := fun _ _ h => formL (by decide) h
theorem abandon (w : LaneW) : Statement (.abandon w) := fun _ _ h => formL (by decide) h
theorem claimHomeMove (k : Nat) : Statement (.claimHomeMove k) := fun _ _ h => formNone h
theorem leaseExpiry (e : Nat) : Statement (.leaseExpiry e) := fun _ _ h => formNone h
theorem deref (w : LaneW) : Statement (.deref w) := fun _ _ h => formL (by decide) h
theorem unify (w : LaneW) : Statement (.unify w) := fun _ _ h => formL (by decide) h
theorem bind (w : LaneW) : Statement (.bind w) := fun _ _ h => formL (by decide) h
theorem bindg (w : LaneW) : Statement (.bindg w) := fun _ _ h => formL (by decide) h
theorem chpt (k : BitVec 4) (neg : Bool) (st : BitVec 9) (alt join : BitVec 24) : Statement (.chpt k neg st alt join) := by
  intro n w e
  have e : some (96, 0x88 * 2 ^ 88 + k.toNat * 2 ^ 80 + neg.toNat * 2 ^ 79 + join.toNat * 2 ^ 54 + st.toNat * 2 ^ 35 + alt.toNat) = some (n, w) := e
  obtain ⟨rfl, rfl⟩ := pair e
  refine .inr ⟨rfl, ?_⟩
  have := k.isLt; have := Bool.toNat_le neg; have := st.isLt; have := alt.isLt; have := join.isLt
  omega
theorem fail (w : LaneW) : Statement (.fail w) := fun _ _ h => formL (by decide) h
theorem tag (w : LaneW) : Statement (.tag w) := fun _ _ h => formL (by decide) h
theorem emit (w : LaneW) : Statement (.emit w) := fun _ _ h => formL (by decide) h
theorem binTimerExpiry (l b : Nat) : Statement (.binTimerExpiry l b) := fun _ _ h => formNone h
theorem spawn (w : LaneW) : Statement (.spawn w) := fun _ _ h => formL (by decide) h
theorem steal (w : LaneW) : Statement (.steal w) := fun _ _ h => formL (by decide) h
theorem stealTimeout (t : Nat) : Statement (.stealTimeout t) := fun _ _ h => formNone h
theorem yield (w : LaneW) : Statement (.yield w) := fun _ _ h => formL (by decide) h
theorem beat (w : LaneW) : Statement (.beat w) := fun _ _ h => formL (by decide) h
theorem phase (w : LaneW) : Statement (.phase w) := fun _ _ h => formL (by decide) h
theorem phaseCommit (l : Nat) : Statement (.phaseCommit l) := fun _ _ h => formNone h
theorem phaseYieldSlot (t : Nat) : Statement (.phaseYieldSlot t) := fun _ _ h => formNone h
theorem storeArrival (k : Nat) : Statement (.storeArrival k) := fun _ _ h => formNone h
theorem updateApplication (h e : Nat) : Statement (.updateApplication h e) := fun _ _ h => formNone h
theorem loadPerform (g op j : Nat) : Statement (.loadPerform g op j) := fun _ _ h => formNone h
theorem l1SectorDrop (i : Nat) : Statement (.l1SectorDrop i) := fun _ _ h => formNone h
theorem missFragmentWake (g f : Nat) : Statement (.missFragmentWake g f) := fun _ _ h => formNone h
theorem atomicArrival (k : Nat) : Statement (.atomicArrival k) := fun _ _ h => formNone h
theorem updateOnlyGrant (k : Nat) : Statement (.updateOnlyGrant k) := fun _ _ h => formNone h
theorem reductionMerge (k : Nat) : Statement (.reductionMerge k) := fun _ _ h => formNone h
end Sys2Proof.Laws.Fits

theorem Sys2Proof.Laws.Fits.recall (line : Nat) : Sys2Proof.Laws.Fits.Statement (.recall line) := fun _ _ h => Sys2Proof.Laws.Fits.formNone h

namespace Sys2Proof.Laws.Fits

open Sys2Proof Sys2Proof.Machine

theorem engineOpStart (e : Nat) : Statement (.engineOpStart e) := fun _ _ h => formNone h
theorem engineRead (r : EngPoint) : Statement (.engineRead r) := fun _ _ h => formNone h
theorem engineDelivery (e n : Nat) : Statement (.engineDelivery e n) := fun _ _ h => formNone h
theorem engineOpComplete (e : Nat) : Statement (.engineOpComplete e) := fun _ _ h => formNone h
theorem neighbourEntryTransfer (g c : Nat) : Statement (.neighbourEntryTransfer g c) := fun _ _ h => formNone h
theorem streamInFill (g c : Nat) : Statement (.streamInFill g c) := fun _ _ h => formNone h
theorem streamOutWrite (g c : Nat) : Statement (.streamOutWrite g c) := fun _ _ h => formNone h
theorem collectiveCombine (e : Nat) (peers : List (Nat × List Word)) : Statement (.collectiveCombine e peers) := fun _ _ h => formNone h
theorem peerRequest (r : PeerReq) : Statement (.peerRequest r) := fun _ _ h => formNone h
theorem remoteAnswer (k : Nat) (v : Word) (poison : Bool) : Statement (.remoteAnswer k v poison) := fun _ _ h => formNone h
theorem remoteTimeout (k : Nat) : Statement (.remoteTimeout k) := fun _ _ h => formNone h
theorem hostPostedWrite (pa : Nat) (data : List Byte) : Statement (.hostPostedWrite pa data) := fun _ _ h => formNone h
theorem hostReadCompletion (k : Nat) (v : Word) (poison : Bool) : Statement (.hostReadCompletion k v poison) := fun _ _ h => formNone h
theorem linkError (k : Nat) : Statement (.linkError k) := fun _ _ h => formNone h
theorem launchRead (q : Nat) : Statement (.launchRead q) := fun _ _ h => formNone h
theorem launchComplete (l : Nat) : Statement (.launchComplete l) := fun _ _ h => formNone h
theorem coreOffer (core : Nat) : Statement (.coreOffer core) := fun _ _ h => formNone h
theorem lapClockExpiry (g : Nat) : Statement (.lapClockExpiry g) := fun _ _ h => formNone h
theorem clmdomEnClear (d : Nat) (v : Word) : Statement (.clmdomEnClear d v) := fun _ _ h => formNone h
theorem clmdomEnSet (d : Nat) (v : Word) : Statement (.clmdomEnSet d v) := fun _ _ h => formNone h
theorem purgeComplete (d : Nat) : Statement (.purgeComplete d) := fun _ _ h => formNone h
theorem ctxptWrite (c : Nat) (v : Word) : Statement (.ctxptWrite c v) := fun _ _ h => formNone h
theorem ctxstTdn (c : Nat) (v : Word) : Statement (.ctxstTdn c v) := fun _ _ h => formNone h
theorem keyslotWrite (n : Nat) (v : Word) : Statement (.keyslotWrite n v) := fun _ _ h => formNone h
theorem landaWrite (e : Nat) (v : Word) : Statement (.landaWrite e v) := fun _ _ h => formNone h
theorem landbWrite (e : Nat) (v : Word) : Statement (.landbWrite e v) := fun _ _ h => formNone h
theorem collsaEnSet (n : Nat) (v : Word) : Statement (.collsaEnSet n v) := fun _ _ h => formNone h
theorem collsaEnClear (n : Nat) (v : Word) : Statement (.collsaEnClear n v) := fun _ _ h => formNone h
theorem tlbinvcWrite (v : Word) : Statement (.tlbinvcWrite v) := fun _ _ h => formNone h
theorem tlbInvalidationComplete : Statement .tlbInvalidationComplete := fun _ _ h => formNone h
theorem pageWalk (core c : Nat) (va : Word) : Statement (.pageWalk core c va) := fun _ _ h => formNone h
theorem migcmdcWrite (v : Word) : Statement (.migcmdcWrite v) := fun _ _ h => formNone h
theorem migrationMove : Statement .migrationMove := fun _ _ h => formNone h
theorem roasterEpochEnd : Statement .roasterEpochEnd := fun _ _ h => formNone h
theorem attestationReportDone : Statement .attestationReportDone := fun _ _ h => formNone h
theorem recordPlace (i : Nat) : Statement (.recordPlace i) := fun _ _ h => formNone h
theorem counterOverflow (n : Nat) : Statement (.counterOverflow n) := fun _ _ h => formNone h
theorem shadowSwitch (core : Nat) : Statement (.shadowSwitch core) := fun _ _ h => formNone h
theorem switchOut (t : Nat) : Statement (.switchOut t) := fun _ _ h => formNone h
theorem switchRestore (t core : Nat) : Statement (.switchRestore t core) := fun _ _ h => formNone h
theorem dumpWrite : Statement .dumpWrite := fun _ _ h => formNone h
theorem scalarIllegalInstruction (w : BitVec 32) : Statement (.scalarIllegalInstruction w) := fun _ _ h => formNone h
theorem termInstructionFinished (g op : Nat) : Statement (.termInstructionFinished g op) := fun _ _ h => formNone h
theorem recordFlushTimeout (i : Nat) : Statement (.recordFlushTimeout i) := fun _ _ h => formNone h
theorem qtailWrite (q : Nat) (v : Word) : Statement (.qtailWrite q v) := fun _ _ h => formNone h
theorem qctlWrite (q : Nat) (v : Word) : Statement (.qctlWrite q v) := fun _ _ h => formNone h
theorem clmdomPurge (d : Nat) (v : Word) : Statement (.clmdomPurge d v) := fun _ _ h => formNone h
theorem attctlWrite (v : Word) : Statement (.attctlWrite v) := fun _ _ h => formNone h
theorem precharge (row : Nat) (bad : Bool) : Statement (.precharge row bad) := fun _ _ h => formNone h
theorem tbsetWrite (v : Word) : Statement (.tbsetWrite v) := fun _ _ h => formNone h
theorem tbadjWrite (v : Word) : Statement (.tbadjWrite v) := fun _ _ h => formNone h
theorem tbrateWrite (v : Word) : Statement (.tbrateWrite v) := fun _ _ h => formNone h
theorem ptmDialogue (dev host : Word) : Statement (.ptmDialogue dev host) := fun _ _ h => formNone h
theorem clockStep (up : Bool) : Statement (.clockStep up) := fun _ _ h => formNone h
theorem tsctlOpen (i : Nat) (v : Word) : Statement (.tsctlOpen i v) := fun _ _ h => formNone h
theorem tsctlClose (i : Nat) (v : Word) : Statement (.tsctlClose i v) := fun _ _ h => formNone h
theorem dbgctlHalt (core : Nat) (v : Word) : Statement (.dbgctlHalt core v) := fun _ _ h => formNone h
theorem dbgctlResume (core : Nat) (v : Word) : Statement (.dbgctlResume core v) := fun _ _ h => formNone h
theorem prectlSwitchOut (core : Nat) (v : Word) : Statement (.prectlSwitchOut core v) := fun _ _ h => formNone h
theorem prectlShadowSwitch (core : Nat) (v : Word) : Statement (.prectlShadowSwitch core v) := fun _ _ h => formNone h
theorem contextStop (c cause : Nat) : Statement (.contextStop c cause) := fun _ _ h => formNone h
theorem qrstGo (q : Nat) (v : Word) : Statement (.qrstGo q v) := fun _ _ h => formNone h
theorem errorDetected (e : ErrKind) : Statement (.errorDetected e) := fun _ _ h => formNone h
theorem deviceReset (b : BootImage) : Statement (.deviceReset b) := fun _ _ h => formNone h
theorem trainingComplete : Statement .trainingComplete := fun _ _ h => formNone h
theorem fullServiceStart : Statement .fullServiceStart := fun _ _ h => formNone h
theorem registerWrite (off : Nat) (v : Word) : Statement (.registerWrite off v) := fun _ _ h => formNone h
theorem textFetchTranslationFault : Statement .textFetchTranslationFault := fun _ _ h => formNone h
theorem portDown (port peer : Nat) : Statement (.portDown port peer) := fun _ _ h => formNone h
theorem portUp (port peer : Nat) : Statement (.portUp port peer) := fun _ _ h => formNone h
theorem linkRetry (port peer : Nat) : Statement (.linkRetry port peer) := fun _ _ h => formNone h

end Sys2Proof.Laws.Fits
end

