-- ==== Sys2Proof/Laws/Scalar.lean ====
section
/-! SUPPORT. The scalar registers of a group, and what the shared operations of the scalar stream do. -/

namespace Sys2Proof.Machine

open Sys2Proof

/-! ### Registers -/

@[simp] theorem readA_zero (g : Group) : readA g 0 = 0 := rfl

theorem readA_writeA (g : Group) (d r : Nat) (x : Word) :
    readA (writeA g d x) r = if r = d ∧ d ≠ 0 then x else readA g r := by
  by_cases hd : d = 0
  · simp [writeA, hd]
  · by_cases hr : r = 0
    · have : ¬ (r = d ∧ d ≠ 0) := by omega
      simp [readA, hr]
      intro h; exact absurd h.symm hd
    · simp only [readA, writeA, hd, hr, if_false, mget_mput]
      by_cases h : r = d <;> simp [h, hd]

theorem reg_toNat_eq {r d : Reg} : r.toNat = d.toNat ↔ r = d := BitVec.toNat_inj

theorem reg_ne_zero {d : Reg} : d.toNat ≠ 0 ↔ d ≠ 0 := by
  rw [ne_eq, ne_eq, show (0 : Nat) = (0 : Reg).toNat from rfl, BitVec.toNat_inj]

theorem wroteA_writeA (s : State) (t : State) (d : Reg) (x : Word) (h : t.g.a = (writeA s.g d.toNat x).a) : wroteA s t d x := by
  intro r
  have : readA t.g r.toNat = readA (writeA s.g d.toNat x) r.toNat := by simp [readA, h]
  simp only [this, readA_writeA, reg_toNat_eq, reg_ne_zero]

theorem scalarOnly_refl (s : State) : scalarOnly s s := rfl

theorem writeA_eq (g : Group) (d : Nat) (x : Word) :
    writeA g d x = { g with a := (writeA g d x).a, pzA := (writeA g d x).pzA } := by
  unfold writeA; split <;> rfl

/-! ### Shared operations -/

@[simp] theorem advance_pc (s : State) : (advance s).g.pc = s.g.pc + 4 := rfl
@[simp] theorem advance_a (s : State) : (advance s).g.a = s.g.a := rfl
@[simp] theorem jump_pc (s : State) (pc : Word) : (jump s pc).g.pc = pc := rfl
@[simp] theorem jump_a (s : State) (pc : Word) : (jump s pc).g.a = s.g.a := rfl

theorem scalarOnly_jump (s : State) (pc : Word) : scalarOnly s (jump s pc) := rfl

theorem scalarOnly_writeA_jump (s : State) (d : Nat) (x pc : Word) :
    scalarOnly s (jump { s with g := writeA s.g d x } pc) := by
  unfold scalarOnly jump
  rw [writeA_eq]

/-- What `setA` does: d receives x, the next word is at pc + 4, nothing else differs. -/
theorem setA_result (s : State) (d : Reg) (x : Word) : scalarResult s (setA s d x) d x := by
  refine ⟨wroteA_writeA s _ d x rfl, ?_, scalarOnly_writeA_jump s d.toNat x _⟩
  unfold setA advance jump writeA
  split <;> rfl

/-- What `advance` does when d keeps its value. -/
theorem advance_result (s : State) (d : Reg) : scalarResult s (advance s) d (readA s.g d.toNat) := by
  refine ⟨fun r => ?_, rfl, rfl⟩
  by_cases h : r = d ∧ d ≠ 0
  · rw [if_pos h, h.1]; rfl
  · rw [if_neg h]; rfl

theorem completes_setA {i : Instr} {s : State} {d : Reg} {x y : Word} (h : exec i s = .next (setA s d x)) (hxy : x = y) :
    completes i s fun t => scalarResult s t d y := ⟨_, h, hxy ▸ setA_result s d x⟩

end Sys2Proof.Machine
end

