-- ==== Sys2Proof/Laws/State.lean ====
section
/-! SUPPORT. What each named update of the state leaves alone: one lemma for a field and an update. -/

namespace Sys2Proof.Machine

/-! ### `jump` -/

@[simp] theorem jump_t (s : State) (pc : Word) : (jump s pc).t = s.t := rfl
@[simp] theorem jump_l (s : State) (pc : Word) : (jump s pc).l = s.l := rfl
@[simp] theorem jump_fi (s : State) (pc : Word) : (jump s pc).fi = s.fi := rfl
@[simp] theorem jump_groups (s : State) (pc : Word) : (jump s pc).groups = s.groups := rfl
@[simp] theorem jump_teams (s : State) (pc : Word) : (jump s pc).teams = s.teams := rfl
@[simp] theorem jump_launches (s : State) (pc : Word) : (jump s pc).launches = s.launches := rfl
@[simp] theorem jump_sys (s : State) (pc : Word) : (jump s pc).sys = s.sys := rfl
@[simp] theorem jump_mem (s : State) (pc : Word) : (jump s pc).mem = s.mem := rfl
@[simp] theorem jump_stamps (s : State) (pc : Word) : (jump s pc).stamps = s.stamps := rfl
@[simp] theorem jump_pz (s : State) (pc : Word) : (jump s pc).pz = s.pz := rfl
@[simp] theorem jump_seqn (s : State) (pc : Word) : (jump s pc).seqn = s.seqn := rfl
@[simp] theorem jump_path (s : State) (pc : Word) : (jump s pc).path = s.path := rfl
@[simp] theorem jump_inq (s : State) (pc : Word) : (jump s pc).inq = s.inq := rfl
@[simp] theorem jump_l1 (s : State) (pc : Word) : (jump s pc).l1 = s.l1 := rfl
@[simp] theorem jump_dscr (s : State) (pc : Word) : (jump s pc).dscr = s.dscr := rfl
@[simp] theorem jump_scrLeft (s : State) (pc : Word) : (jump s pc).scrLeft = s.scrLeft := rfl
@[simp] theorem jump_tags (s : State) (pc : Word) : (jump s pc).tags = s.tags := rfl
@[simp] theorem jump_keygen (s : State) (pc : Word) : (jump s pc).keygen = s.keygen := rfl
@[simp] theorem jump_locks (s : State) (pc : Word) : (jump s pc).locks = s.locks := rfl
@[simp] theorem jump_eops (s : State) (pc : Word) : (jump s pc).eops = s.eops := rfl
@[simp] theorem jump_claims (s : State) (pc : Word) : (jump s pc).claims = s.claims := rfl
@[simp] theorem jump_reqs (s : State) (pc : Word) : (jump s pc).reqs = s.reqs := rfl
@[simp] theorem jump_wins (s : State) (pc : Word) : (jump s pc).wins = s.wins := rfl
@[simp] theorem jump_sess (s : State) (pc : Word) : (jump s pc).sess = s.sess := rfl
@[simp] theorem jump_now (s : State) (pc : Word) : (jump s pc).now = s.now := rfl
@[simp] theorem jump_l2 (s : State) (pc : Word) : (jump s pc).l2 = s.l2 := rfl
@[simp] theorem jump_rows (s : State) (pc : Word) : (jump s pc).rows = s.rows := rfl
@[simp] theorem jump_winVals (s : State) (pc : Word) : (jump s pc).winVals = s.winVals := rfl
@[simp] theorem jump_apend (s : State) (pc : Word) : (jump s pc).apend = s.apend := rfl
@[simp] theorem jump_walks (s : State) (pc : Word) : (jump s pc).walks = s.walks := rfl
@[simp] theorem jump_wkeeps (s : State) (pc : Word) : (jump s pc).wkeeps = s.wkeeps := rfl
@[simp] theorem jump_invals (s : State) (pc : Word) : (jump s pc).invals = s.invals := rfl
@[simp] theorem jump_migq (s : State) (pc : Word) : (jump s pc).migq = s.migq := rfl
@[simp] theorem jump_tlb (s : State) (pc : Word) : (jump s pc).tlb = s.tlb := rfl
@[simp] theorem jump_firm (s : State) (pc : Word) : (jump s pc).firm = s.firm := rfl
@[simp] theorem jump_lastIss (s : State) (pc : Word) : (jump s pc).lastIss = s.lastIss := rfl
@[simp] theorem jump_cyc (s : State) (pc : Word) : (jump s pc).cyc = s.cyc := rfl
@[simp] theorem jump_reached (s : State) (pc : Word) : (jump s pc).reached = s.reached := rfl
@[simp] theorem jump_service (s : State) (pc : Word) : (jump s pc).service = s.service := rfl
@[simp] theorem jump_clock (s : State) (pc : Word) : (jump s pc).clock = s.clock := rfl
@[simp] theorem jump_fresh (s : State) (pc : Word) : (jump s pc).fresh = s.fresh := rfl
@[simp] theorem jump_nid (s : State) (pc : Word) : (jump s pc).nid = s.nid := rfl

/-! ### `advance` -/

@[simp] theorem advance_t (s : State) : (advance s).t = s.t := rfl
@[simp] theorem advance_l (s : State) : (advance s).l = s.l := rfl
@[simp] theorem advance_fi (s : State) : (advance s).fi = s.fi := rfl
@[simp] theorem advance_groups (s : State) : (advance s).groups = s.groups := rfl
@[simp] theorem advance_teams (s : State) : (advance s).teams = s.teams := rfl
@[simp] theorem advance_launches (s : State) : (advance s).launches = s.launches := rfl
@[simp] theorem advance_sys (s : State) : (advance s).sys = s.sys := rfl
@[simp] theorem advance_mem (s : State) : (advance s).mem = s.mem := rfl
@[simp] theorem advance_stamps (s : State) : (advance s).stamps = s.stamps := rfl
@[simp] theorem advance_pz (s : State) : (advance s).pz = s.pz := rfl
@[simp] theorem advance_seqn (s : State) : (advance s).seqn = s.seqn := rfl
@[simp] theorem advance_path (s : State) : (advance s).path = s.path := rfl
@[simp] theorem advance_inq (s : State) : (advance s).inq = s.inq := rfl
@[simp] theorem advance_l1 (s : State) : (advance s).l1 = s.l1 := rfl
@[simp] theorem advance_dscr (s : State) : (advance s).dscr = s.dscr := rfl
@[simp] theorem advance_scrLeft (s : State) : (advance s).scrLeft = s.scrLeft := rfl
@[simp] theorem advance_tags (s : State) : (advance s).tags = s.tags := rfl
@[simp] theorem advance_keygen (s : State) : (advance s).keygen = s.keygen := rfl
@[simp] theorem advance_locks (s : State) : (advance s).locks = s.locks := rfl
@[simp] theorem advance_eops (s : State) : (advance s).eops = s.eops := rfl
@[simp] theorem advance_claims (s : State) : (advance s).claims = s.claims := rfl
@[simp] theorem advance_reqs (s : State) : (advance s).reqs = s.reqs := rfl
@[simp] theorem advance_wins (s : State) : (advance s).wins = s.wins := rfl
@[simp] theorem advance_sess (s : State) : (advance s).sess = s.sess := rfl
@[simp] theorem advance_now (s : State) : (advance s).now = s.now := rfl
@[simp] theorem advance_l2 (s : State) : (advance s).l2 = s.l2 := rfl
@[simp] theorem advance_rows (s : State) : (advance s).rows = s.rows := rfl
@[simp] theorem advance_winVals (s : State) : (advance s).winVals = s.winVals := rfl
@[simp] theorem advance_apend (s : State) : (advance s).apend = s.apend := rfl
@[simp] theorem advance_walks (s : State) : (advance s).walks = s.walks := rfl
@[simp] theorem advance_wkeeps (s : State) : (advance s).wkeeps = s.wkeeps := rfl
@[simp] theorem advance_invals (s : State) : (advance s).invals = s.invals := rfl
@[simp] theorem advance_migq (s : State) : (advance s).migq = s.migq := rfl
@[simp] theorem advance_tlb (s : State) : (advance s).tlb = s.tlb := rfl
@[simp] theorem advance_firm (s : State) : (advance s).firm = s.firm := rfl
@[simp] theorem advance_lastIss (s : State) : (advance s).lastIss = s.lastIss := rfl
@[simp] theorem advance_cyc (s : State) : (advance s).cyc = s.cyc := rfl
@[simp] theorem advance_reached (s : State) : (advance s).reached = s.reached := rfl
@[simp] theorem advance_service (s : State) : (advance s).service = s.service := rfl
@[simp] theorem advance_clock (s : State) : (advance s).clock = s.clock := rfl
@[simp] theorem advance_fresh (s : State) : (advance s).fresh = s.fresh := rfl
@[simp] theorem advance_nid (s : State) : (advance s).nid = s.nid := rfl

/-! ### `setA` -/

@[simp] theorem setA_t (s : State) (d : Reg) (x : Word) : (setA s d x).t = s.t := rfl
@[simp] theorem setA_l (s : State) (d : Reg) (x : Word) : (setA s d x).l = s.l := rfl
@[simp] theorem setA_fi (s : State) (d : Reg) (x : Word) : (setA s d x).fi = s.fi := rfl
@[simp] theorem setA_groups (s : State) (d : Reg) (x : Word) : (setA s d x).groups = s.groups := rfl
@[simp] theorem setA_teams (s : State) (d : Reg) (x : Word) : (setA s d x).teams = s.teams := rfl
@[simp] theorem setA_launches (s : State) (d : Reg) (x : Word) : (setA s d x).launches = s.launches := rfl
@[simp] theorem setA_sys (s : State) (d : Reg) (x : Word) : (setA s d x).sys = s.sys := rfl
@[simp] theorem setA_mem (s : State) (d : Reg) (x : Word) : (setA s d x).mem = s.mem := rfl
@[simp] theorem setA_stamps (s : State) (d : Reg) (x : Word) : (setA s d x).stamps = s.stamps := rfl
@[simp] theorem setA_pz (s : State) (d : Reg) (x : Word) : (setA s d x).pz = s.pz := rfl
@[simp] theorem setA_seqn (s : State) (d : Reg) (x : Word) : (setA s d x).seqn = s.seqn := rfl
@[simp] theorem setA_path (s : State) (d : Reg) (x : Word) : (setA s d x).path = s.path := rfl
@[simp] theorem setA_inq (s : State) (d : Reg) (x : Word) : (setA s d x).inq = s.inq := rfl
@[simp] theorem setA_l1 (s : State) (d : Reg) (x : Word) : (setA s d x).l1 = s.l1 := rfl
@[simp] theorem setA_dscr (s : State) (d : Reg) (x : Word) : (setA s d x).dscr = s.dscr := rfl
@[simp] theorem setA_scrLeft (s : State) (d : Reg) (x : Word) : (setA s d x).scrLeft = s.scrLeft := rfl
@[simp] theorem setA_tags (s : State) (d : Reg) (x : Word) : (setA s d x).tags = s.tags := rfl
@[simp] theorem setA_keygen (s : State) (d : Reg) (x : Word) : (setA s d x).keygen = s.keygen := rfl
@[simp] theorem setA_locks (s : State) (d : Reg) (x : Word) : (setA s d x).locks = s.locks := rfl
@[simp] theorem setA_eops (s : State) (d : Reg) (x : Word) : (setA s d x).eops = s.eops := rfl
@[simp] theorem setA_claims (s : State) (d : Reg) (x : Word) : (setA s d x).claims = s.claims := rfl
@[simp] theorem setA_reqs (s : State) (d : Reg) (x : Word) : (setA s d x).reqs = s.reqs := rfl
@[simp] theorem setA_wins (s : State) (d : Reg) (x : Word) : (setA s d x).wins = s.wins := rfl
@[simp] theorem setA_sess (s : State) (d : Reg) (x : Word) : (setA s d x).sess = s.sess := rfl
@[simp] theorem setA_now (s : State) (d : Reg) (x : Word) : (setA s d x).now = s.now := rfl
@[simp] theorem setA_l2 (s : State) (d : Reg) (x : Word) : (setA s d x).l2 = s.l2 := rfl
@[simp] theorem setA_rows (s : State) (d : Reg) (x : Word) : (setA s d x).rows = s.rows := rfl
@[simp] theorem setA_winVals (s : State) (d : Reg) (x : Word) : (setA s d x).winVals = s.winVals := rfl
@[simp] theorem setA_apend (s : State) (d : Reg) (x : Word) : (setA s d x).apend = s.apend := rfl
@[simp] theorem setA_walks (s : State) (d : Reg) (x : Word) : (setA s d x).walks = s.walks := rfl
@[simp] theorem setA_wkeeps (s : State) (d : Reg) (x : Word) : (setA s d x).wkeeps = s.wkeeps := rfl
@[simp] theorem setA_invals (s : State) (d : Reg) (x : Word) : (setA s d x).invals = s.invals := rfl
@[simp] theorem setA_migq (s : State) (d : Reg) (x : Word) : (setA s d x).migq = s.migq := rfl
@[simp] theorem setA_tlb (s : State) (d : Reg) (x : Word) : (setA s d x).tlb = s.tlb := rfl
@[simp] theorem setA_firm (s : State) (d : Reg) (x : Word) : (setA s d x).firm = s.firm := rfl
@[simp] theorem setA_lastIss (s : State) (d : Reg) (x : Word) : (setA s d x).lastIss = s.lastIss := rfl
@[simp] theorem setA_cyc (s : State) (d : Reg) (x : Word) : (setA s d x).cyc = s.cyc := rfl
@[simp] theorem setA_reached (s : State) (d : Reg) (x : Word) : (setA s d x).reached = s.reached := rfl
@[simp] theorem setA_service (s : State) (d : Reg) (x : Word) : (setA s d x).service = s.service := rfl
@[simp] theorem setA_clock (s : State) (d : Reg) (x : Word) : (setA s d x).clock = s.clock := rfl
@[simp] theorem setA_fresh (s : State) (d : Reg) (x : Word) : (setA s d x).fresh = s.fresh := rfl
@[simp] theorem setA_nid (s : State) (d : Reg) (x : Word) : (setA s d x).nid = s.nid := rfl

/-! ### `sysPut` -/

@[simp] theorem sysPut_g (s : State) (n x : Nat) : (sysPut s n x).g = s.g := rfl
@[simp] theorem sysPut_t (s : State) (n x : Nat) : (sysPut s n x).t = s.t := rfl
@[simp] theorem sysPut_l (s : State) (n x : Nat) : (sysPut s n x).l = s.l := rfl
@[simp] theorem sysPut_fi (s : State) (n x : Nat) : (sysPut s n x).fi = s.fi := rfl
@[simp] theorem sysPut_groups (s : State) (n x : Nat) : (sysPut s n x).groups = s.groups := rfl
@[simp] theorem sysPut_teams (s : State) (n x : Nat) : (sysPut s n x).teams = s.teams := rfl
@[simp] theorem sysPut_launches (s : State) (n x : Nat) : (sysPut s n x).launches = s.launches := rfl
@[simp] theorem sysPut_mem (s : State) (n x : Nat) : (sysPut s n x).mem = s.mem := rfl
@[simp] theorem sysPut_stamps (s : State) (n x : Nat) : (sysPut s n x).stamps = s.stamps := rfl
@[simp] theorem sysPut_pz (s : State) (n x : Nat) : (sysPut s n x).pz = s.pz := rfl
@[simp] theorem sysPut_seqn (s : State) (n x : Nat) : (sysPut s n x).seqn = s.seqn := rfl
@[simp] theorem sysPut_path (s : State) (n x : Nat) : (sysPut s n x).path = s.path := rfl
@[simp] theorem sysPut_inq (s : State) (n x : Nat) : (sysPut s n x).inq = s.inq := rfl
@[simp] theorem sysPut_l1 (s : State) (n x : Nat) : (sysPut s n x).l1 = s.l1 := rfl
@[simp] theorem sysPut_dscr (s : State) (n x : Nat) : (sysPut s n x).dscr = s.dscr := rfl
@[simp] theorem sysPut_scrLeft (s : State) (n x : Nat) : (sysPut s n x).scrLeft = s.scrLeft := rfl
@[simp] theorem sysPut_tags (s : State) (n x : Nat) : (sysPut s n x).tags = s.tags := rfl
@[simp] theorem sysPut_keygen (s : State) (n x : Nat) : (sysPut s n x).keygen = s.keygen := rfl
@[simp] theorem sysPut_locks (s : State) (n x : Nat) : (sysPut s n x).locks = s.locks := rfl
@[simp] theorem sysPut_eops (s : State) (n x : Nat) : (sysPut s n x).eops = s.eops := rfl
@[simp] theorem sysPut_claims (s : State) (n x : Nat) : (sysPut s n x).claims = s.claims := rfl
@[simp] theorem sysPut_reqs (s : State) (n x : Nat) : (sysPut s n x).reqs = s.reqs := rfl
@[simp] theorem sysPut_wins (s : State) (n x : Nat) : (sysPut s n x).wins = s.wins := rfl
@[simp] theorem sysPut_sess (s : State) (n x : Nat) : (sysPut s n x).sess = s.sess := rfl
@[simp] theorem sysPut_now (s : State) (n x : Nat) : (sysPut s n x).now = s.now := rfl
@[simp] theorem sysPut_l2 (s : State) (n x : Nat) : (sysPut s n x).l2 = s.l2 := rfl
@[simp] theorem sysPut_rows (s : State) (n x : Nat) : (sysPut s n x).rows = s.rows := rfl
@[simp] theorem sysPut_winVals (s : State) (n x : Nat) : (sysPut s n x).winVals = s.winVals := rfl
@[simp] theorem sysPut_apend (s : State) (n x : Nat) : (sysPut s n x).apend = s.apend := rfl
@[simp] theorem sysPut_walks (s : State) (n x : Nat) : (sysPut s n x).walks = s.walks := rfl
@[simp] theorem sysPut_wkeeps (s : State) (n x : Nat) : (sysPut s n x).wkeeps = s.wkeeps := rfl
@[simp] theorem sysPut_invals (s : State) (n x : Nat) : (sysPut s n x).invals = s.invals := rfl
@[simp] theorem sysPut_migq (s : State) (n x : Nat) : (sysPut s n x).migq = s.migq := rfl
@[simp] theorem sysPut_tlb (s : State) (n x : Nat) : (sysPut s n x).tlb = s.tlb := rfl
@[simp] theorem sysPut_firm (s : State) (n x : Nat) : (sysPut s n x).firm = s.firm := rfl
@[simp] theorem sysPut_lastIss (s : State) (n x : Nat) : (sysPut s n x).lastIss = s.lastIss := rfl
@[simp] theorem sysPut_cyc (s : State) (n x : Nat) : (sysPut s n x).cyc = s.cyc := rfl
@[simp] theorem sysPut_reached (s : State) (n x : Nat) : (sysPut s n x).reached = s.reached := rfl
@[simp] theorem sysPut_service (s : State) (n x : Nat) : (sysPut s n x).service = s.service := rfl
@[simp] theorem sysPut_clock (s : State) (n x : Nat) : (sysPut s n x).clock = s.clock := rfl
@[simp] theorem sysPut_fresh (s : State) (n x : Nat) : (sysPut s n x).fresh = s.fresh := rfl
@[simp] theorem sysPut_nid (s : State) (n x : Nat) : (sysPut s n x).nid = s.nid := rfl

/-! ### `dropL1` -/

@[simp] theorem dropL1_g (s : State) (core : Nat) : (dropL1 s core).g = s.g := rfl
@[simp] theorem dropL1_t (s : State) (core : Nat) : (dropL1 s core).t = s.t := rfl
@[simp] theorem dropL1_l (s : State) (core : Nat) : (dropL1 s core).l = s.l := rfl
@[simp] theorem dropL1_fi (s : State) (core : Nat) : (dropL1 s core).fi = s.fi := rfl
@[simp] theorem dropL1_groups (s : State) (core : Nat) : (dropL1 s core).groups = s.groups := rfl
@[simp] theorem dropL1_teams (s : State) (core : Nat) : (dropL1 s core).teams = s.teams := rfl
@[simp] theorem dropL1_launches (s : State) (core : Nat) : (dropL1 s core).launches = s.launches := rfl
@[simp] theorem dropL1_sys (s : State) (core : Nat) : (dropL1 s core).sys = s.sys := rfl
@[simp] theorem dropL1_mem (s : State) (core : Nat) : (dropL1 s core).mem = s.mem := rfl
@[simp] theorem dropL1_stamps (s : State) (core : Nat) : (dropL1 s core).stamps = s.stamps := rfl
@[simp] theorem dropL1_pz (s : State) (core : Nat) : (dropL1 s core).pz = s.pz := rfl
@[simp] theorem dropL1_seqn (s : State) (core : Nat) : (dropL1 s core).seqn = s.seqn := rfl
@[simp] theorem dropL1_path (s : State) (core : Nat) : (dropL1 s core).path = s.path := rfl
@[simp] theorem dropL1_inq (s : State) (core : Nat) : (dropL1 s core).inq = s.inq := rfl
@[simp] theorem dropL1_dscr (s : State) (core : Nat) : (dropL1 s core).dscr = s.dscr := rfl
@[simp] theorem dropL1_scrLeft (s : State) (core : Nat) : (dropL1 s core).scrLeft = s.scrLeft := rfl
@[simp] theorem dropL1_tags (s : State) (core : Nat) : (dropL1 s core).tags = s.tags := rfl
@[simp] theorem dropL1_keygen (s : State) (core : Nat) : (dropL1 s core).keygen = s.keygen := rfl
@[simp] theorem dropL1_locks (s : State) (core : Nat) : (dropL1 s core).locks = s.locks := rfl
@[simp] theorem dropL1_eops (s : State) (core : Nat) : (dropL1 s core).eops = s.eops := rfl
@[simp] theorem dropL1_claims (s : State) (core : Nat) : (dropL1 s core).claims = s.claims := rfl
@[simp] theorem dropL1_reqs (s : State) (core : Nat) : (dropL1 s core).reqs = s.reqs := rfl
@[simp] theorem dropL1_wins (s : State) (core : Nat) : (dropL1 s core).wins = s.wins := rfl
@[simp] theorem dropL1_sess (s : State) (core : Nat) : (dropL1 s core).sess = s.sess := rfl
@[simp] theorem dropL1_now (s : State) (core : Nat) : (dropL1 s core).now = s.now := rfl
@[simp] theorem dropL1_l2 (s : State) (core : Nat) : (dropL1 s core).l2 = s.l2 := rfl
@[simp] theorem dropL1_rows (s : State) (core : Nat) : (dropL1 s core).rows = s.rows := rfl
@[simp] theorem dropL1_winVals (s : State) (core : Nat) : (dropL1 s core).winVals = s.winVals := rfl
@[simp] theorem dropL1_apend (s : State) (core : Nat) : (dropL1 s core).apend = s.apend := rfl
@[simp] theorem dropL1_walks (s : State) (core : Nat) : (dropL1 s core).walks = s.walks := rfl
@[simp] theorem dropL1_wkeeps (s : State) (core : Nat) : (dropL1 s core).wkeeps = s.wkeeps := rfl
@[simp] theorem dropL1_invals (s : State) (core : Nat) : (dropL1 s core).invals = s.invals := rfl
@[simp] theorem dropL1_migq (s : State) (core : Nat) : (dropL1 s core).migq = s.migq := rfl
@[simp] theorem dropL1_tlb (s : State) (core : Nat) : (dropL1 s core).tlb = s.tlb := rfl
@[simp] theorem dropL1_firm (s : State) (core : Nat) : (dropL1 s core).firm = s.firm := rfl
@[simp] theorem dropL1_lastIss (s : State) (core : Nat) : (dropL1 s core).lastIss = s.lastIss := rfl
@[simp] theorem dropL1_cyc (s : State) (core : Nat) : (dropL1 s core).cyc = s.cyc := rfl
@[simp] theorem dropL1_reached (s : State) (core : Nat) : (dropL1 s core).reached = s.reached := rfl
@[simp] theorem dropL1_service (s : State) (core : Nat) : (dropL1 s core).service = s.service := rfl
@[simp] theorem dropL1_clock (s : State) (core : Nat) : (dropL1 s core).clock = s.clock := rfl
@[simp] theorem dropL1_fresh (s : State) (core : Nat) : (dropL1 s core).fresh = s.fresh := rfl
@[simp] theorem dropL1_nid (s : State) (core : Nat) : (dropL1 s core).nid = s.nid := rfl

/-! ### `enter` -/

@[simp] theorem enter_g (s : State) (e : PEnt) : (enter s e).g = s.g := rfl
@[simp] theorem enter_t (s : State) (e : PEnt) : (enter s e).t = s.t := rfl
@[simp] theorem enter_l (s : State) (e : PEnt) : (enter s e).l = s.l := rfl
@[simp] theorem enter_fi (s : State) (e : PEnt) : (enter s e).fi = s.fi := rfl
@[simp] theorem enter_groups (s : State) (e : PEnt) : (enter s e).groups = s.groups := rfl
@[simp] theorem enter_teams (s : State) (e : PEnt) : (enter s e).teams = s.teams := rfl
@[simp] theorem enter_launches (s : State) (e : PEnt) : (enter s e).launches = s.launches := rfl
@[simp] theorem enter_sys (s : State) (e : PEnt) : (enter s e).sys = s.sys := rfl
@[simp] theorem enter_mem (s : State) (e : PEnt) : (enter s e).mem = s.mem := rfl
@[simp] theorem enter_stamps (s : State) (e : PEnt) : (enter s e).stamps = s.stamps := rfl
@[simp] theorem enter_pz (s : State) (e : PEnt) : (enter s e).pz = s.pz := rfl
@[simp] theorem enter_seqn (s : State) (e : PEnt) : (enter s e).seqn = s.seqn := rfl
@[simp] theorem enter_inq (s : State) (e : PEnt) : (enter s e).inq = s.inq := rfl
@[simp] theorem enter_l1 (s : State) (e : PEnt) : (enter s e).l1 = s.l1 := rfl
@[simp] theorem enter_dscr (s : State) (e : PEnt) : (enter s e).dscr = s.dscr := rfl
@[simp] theorem enter_scrLeft (s : State) (e : PEnt) : (enter s e).scrLeft = s.scrLeft := rfl
@[simp] theorem enter_tags (s : State) (e : PEnt) : (enter s e).tags = s.tags := rfl
@[simp] theorem enter_keygen (s : State) (e : PEnt) : (enter s e).keygen = s.keygen := rfl
@[simp] theorem enter_locks (s : State) (e : PEnt) : (enter s e).locks = s.locks := rfl
@[simp] theorem enter_eops (s : State) (e : PEnt) : (enter s e).eops = s.eops := rfl
@[simp] theorem enter_claims (s : State) (e : PEnt) : (enter s e).claims = s.claims := rfl
@[simp] theorem enter_reqs (s : State) (e : PEnt) : (enter s e).reqs = s.reqs := rfl
@[simp] theorem enter_wins (s : State) (e : PEnt) : (enter s e).wins = s.wins := rfl
@[simp] theorem enter_sess (s : State) (e : PEnt) : (enter s e).sess = s.sess := rfl
@[simp] theorem enter_now (s : State) (e : PEnt) : (enter s e).now = s.now := rfl
@[simp] theorem enter_l2 (s : State) (e : PEnt) : (enter s e).l2 = s.l2 := rfl
@[simp] theorem enter_rows (s : State) (e : PEnt) : (enter s e).rows = s.rows := rfl
@[simp] theorem enter_winVals (s : State) (e : PEnt) : (enter s e).winVals = s.winVals := rfl
@[simp] theorem enter_apend (s : State) (e : PEnt) : (enter s e).apend = s.apend := rfl
@[simp] theorem enter_walks (s : State) (e : PEnt) : (enter s e).walks = s.walks := rfl
@[simp] theorem enter_wkeeps (s : State) (e : PEnt) : (enter s e).wkeeps = s.wkeeps := rfl
@[simp] theorem enter_invals (s : State) (e : PEnt) : (enter s e).invals = s.invals := rfl
@[simp] theorem enter_migq (s : State) (e : PEnt) : (enter s e).migq = s.migq := rfl
@[simp] theorem enter_tlb (s : State) (e : PEnt) : (enter s e).tlb = s.tlb := rfl
@[simp] theorem enter_firm (s : State) (e : PEnt) : (enter s e).firm = s.firm := rfl
@[simp] theorem enter_lastIss (s : State) (e : PEnt) : (enter s e).lastIss = s.lastIss := rfl
@[simp] theorem enter_cyc (s : State) (e : PEnt) : (enter s e).cyc = s.cyc := rfl
@[simp] theorem enter_reached (s : State) (e : PEnt) : (enter s e).reached = s.reached := rfl
@[simp] theorem enter_service (s : State) (e : PEnt) : (enter s e).service = s.service := rfl
@[simp] theorem enter_clock (s : State) (e : PEnt) : (enter s e).clock = s.clock := rfl
@[simp] theorem enter_fresh (s : State) (e : PEnt) : (enter s e).fresh = s.fresh := rfl

/-! ### `delEnt` -/

@[simp] theorem delEnt_g (s : State) (id : Nat) : (delEnt s id).g = s.g := rfl
@[simp] theorem delEnt_t (s : State) (id : Nat) : (delEnt s id).t = s.t := rfl
@[simp] theorem delEnt_l (s : State) (id : Nat) : (delEnt s id).l = s.l := rfl
@[simp] theorem delEnt_fi (s : State) (id : Nat) : (delEnt s id).fi = s.fi := rfl
@[simp] theorem delEnt_groups (s : State) (id : Nat) : (delEnt s id).groups = s.groups := rfl
@[simp] theorem delEnt_teams (s : State) (id : Nat) : (delEnt s id).teams = s.teams := rfl
@[simp] theorem delEnt_launches (s : State) (id : Nat) : (delEnt s id).launches = s.launches := rfl
@[simp] theorem delEnt_sys (s : State) (id : Nat) : (delEnt s id).sys = s.sys := rfl
@[simp] theorem delEnt_mem (s : State) (id : Nat) : (delEnt s id).mem = s.mem := rfl
@[simp] theorem delEnt_stamps (s : State) (id : Nat) : (delEnt s id).stamps = s.stamps := rfl
@[simp] theorem delEnt_pz (s : State) (id : Nat) : (delEnt s id).pz = s.pz := rfl
@[simp] theorem delEnt_seqn (s : State) (id : Nat) : (delEnt s id).seqn = s.seqn := rfl
@[simp] theorem delEnt_inq (s : State) (id : Nat) : (delEnt s id).inq = s.inq := rfl
@[simp] theorem delEnt_l1 (s : State) (id : Nat) : (delEnt s id).l1 = s.l1 := rfl
@[simp] theorem delEnt_dscr (s : State) (id : Nat) : (delEnt s id).dscr = s.dscr := rfl
@[simp] theorem delEnt_scrLeft (s : State) (id : Nat) : (delEnt s id).scrLeft = s.scrLeft := rfl
@[simp] theorem delEnt_tags (s : State) (id : Nat) : (delEnt s id).tags = s.tags := rfl
@[simp] theorem delEnt_keygen (s : State) (id : Nat) : (delEnt s id).keygen = s.keygen := rfl
@[simp] theorem delEnt_locks (s : State) (id : Nat) : (delEnt s id).locks = s.locks := rfl
@[simp] theorem delEnt_eops (s : State) (id : Nat) : (delEnt s id).eops = s.eops := rfl
@[simp] theorem delEnt_claims (s : State) (id : Nat) : (delEnt s id).claims = s.claims := rfl
@[simp] theorem delEnt_reqs (s : State) (id : Nat) : (delEnt s id).reqs = s.reqs := rfl
@[simp] theorem delEnt_wins (s : State) (id : Nat) : (delEnt s id).wins = s.wins := rfl
@[simp] theorem delEnt_sess (s : State) (id : Nat) : (delEnt s id).sess = s.sess := rfl
@[simp] theorem delEnt_now (s : State) (id : Nat) : (delEnt s id).now = s.now := rfl
@[simp] theorem delEnt_l2 (s : State) (id : Nat) : (delEnt s id).l2 = s.l2 := rfl
@[simp] theorem delEnt_rows (s : State) (id : Nat) : (delEnt s id).rows = s.rows := rfl
@[simp] theorem delEnt_winVals (s : State) (id : Nat) : (delEnt s id).winVals = s.winVals := rfl
@[simp] theorem delEnt_apend (s : State) (id : Nat) : (delEnt s id).apend = s.apend := rfl
@[simp] theorem delEnt_walks (s : State) (id : Nat) : (delEnt s id).walks = s.walks := rfl
@[simp] theorem delEnt_wkeeps (s : State) (id : Nat) : (delEnt s id).wkeeps = s.wkeeps := rfl
@[simp] theorem delEnt_invals (s : State) (id : Nat) : (delEnt s id).invals = s.invals := rfl
@[simp] theorem delEnt_migq (s : State) (id : Nat) : (delEnt s id).migq = s.migq := rfl
@[simp] theorem delEnt_tlb (s : State) (id : Nat) : (delEnt s id).tlb = s.tlb := rfl
@[simp] theorem delEnt_firm (s : State) (id : Nat) : (delEnt s id).firm = s.firm := rfl
@[simp] theorem delEnt_lastIss (s : State) (id : Nat) : (delEnt s id).lastIss = s.lastIss := rfl
@[simp] theorem delEnt_cyc (s : State) (id : Nat) : (delEnt s id).cyc = s.cyc := rfl
@[simp] theorem delEnt_reached (s : State) (id : Nat) : (delEnt s id).reached = s.reached := rfl
@[simp] theorem delEnt_service (s : State) (id : Nat) : (delEnt s id).service = s.service := rfl
@[simp] theorem delEnt_clock (s : State) (id : Nat) : (delEnt s id).clock = s.clock := rfl
@[simp] theorem delEnt_fresh (s : State) (id : Nat) : (delEnt s id).fresh = s.fresh := rfl
@[simp] theorem delEnt_nid (s : State) (id : Nat) : (delEnt s id).nid = s.nid := rfl

/-! ### `setEnt` -/

@[simp] theorem setEnt_g (s : State) (id : Nat) (f : PEnt → PEnt) : (setEnt s id f).g = s.g := rfl
@[simp] theorem setEnt_t (s : State) (id : Nat) (f : PEnt → PEnt) : (setEnt s id f).t = s.t := rfl
@[simp] theorem setEnt_l (s : State) (id : Nat) (f : PEnt → PEnt) : (setEnt s id f).l = s.l := rfl
@[simp] theorem setEnt_fi (s : State) (id : Nat) (f : PEnt → PEnt) : (setEnt s id f).fi = s.fi := rfl
@[simp] theorem setEnt_groups (s : State) (id : Nat) (f : PEnt → PEnt) : (setEnt s id f).groups = s.groups := rfl
@[simp] theorem setEnt_teams (s : State) (id : Nat) (f : PEnt → PEnt) : (setEnt s id f).teams = s.teams := rfl
@[simp] theorem setEnt_launches (s : State) (id : Nat) (f : PEnt → PEnt) : (setEnt s id f).launches = s.launches := rfl
@[simp] theorem setEnt_sys (s : State) (id : Nat) (f : PEnt → PEnt) : (setEnt s id f).sys = s.sys := rfl
@[simp] theorem setEnt_mem (s : State) (id : Nat) (f : PEnt → PEnt) : (setEnt s id f).mem = s.mem := rfl
@[simp] theorem setEnt_stamps (s : State) (id : Nat) (f : PEnt → PEnt) : (setEnt s id f).stamps = s.stamps := rfl
@[simp] theorem setEnt_pz (s : State) (id : Nat) (f : PEnt → PEnt) : (setEnt s id f).pz = s.pz := rfl
@[simp] theorem setEnt_seqn (s : State) (id : Nat) (f : PEnt → PEnt) : (setEnt s id f).seqn = s.seqn := rfl
@[simp] theorem setEnt_inq (s : State) (id : Nat) (f : PEnt → PEnt) : (setEnt s id f).inq = s.inq := rfl
@[simp] theorem setEnt_l1 (s : State) (id : Nat) (f : PEnt → PEnt) : (setEnt s id f).l1 = s.l1 := rfl
@[simp] theorem setEnt_dscr (s : State) (id : Nat) (f : PEnt → PEnt) : (setEnt s id f).dscr = s.dscr := rfl
@[simp] theorem setEnt_scrLeft (s : State) (id : Nat) (f : PEnt → PEnt) : (setEnt s id f).scrLeft = s.scrLeft := rfl
@[simp] theorem setEnt_tags (s : State) (id : Nat) (f : PEnt → PEnt) : (setEnt s id f).tags = s.tags := rfl
@[simp] theorem setEnt_keygen (s : State) (id : Nat) (f : PEnt → PEnt) : (setEnt s id f).keygen = s.keygen := rfl
@[simp] theorem setEnt_locks (s : State) (id : Nat) (f : PEnt → PEnt) : (setEnt s id f).locks = s.locks := rfl
@[simp] theorem setEnt_eops (s : State) (id : Nat) (f : PEnt → PEnt) : (setEnt s id f).eops = s.eops := rfl
@[simp] theorem setEnt_claims (s : State) (id : Nat) (f : PEnt → PEnt) : (setEnt s id f).claims = s.claims := rfl
@[simp] theorem setEnt_reqs (s : State) (id : Nat) (f : PEnt → PEnt) : (setEnt s id f).reqs = s.reqs := rfl
@[simp] theorem setEnt_wins (s : State) (id : Nat) (f : PEnt → PEnt) : (setEnt s id f).wins = s.wins := rfl
@[simp] theorem setEnt_sess (s : State) (id : Nat) (f : PEnt → PEnt) : (setEnt s id f).sess = s.sess := rfl
@[simp] theorem setEnt_now (s : State) (id : Nat) (f : PEnt → PEnt) : (setEnt s id f).now = s.now := rfl
@[simp] theorem setEnt_l2 (s : State) (id : Nat) (f : PEnt → PEnt) : (setEnt s id f).l2 = s.l2 := rfl
@[simp] theorem setEnt_rows (s : State) (id : Nat) (f : PEnt → PEnt) : (setEnt s id f).rows = s.rows := rfl
@[simp] theorem setEnt_winVals (s : State) (id : Nat) (f : PEnt → PEnt) : (setEnt s id f).winVals = s.winVals := rfl
@[simp] theorem setEnt_apend (s : State) (id : Nat) (f : PEnt → PEnt) : (setEnt s id f).apend = s.apend := rfl
@[simp] theorem setEnt_walks (s : State) (id : Nat) (f : PEnt → PEnt) : (setEnt s id f).walks = s.walks := rfl
@[simp] theorem setEnt_wkeeps (s : State) (id : Nat) (f : PEnt → PEnt) : (setEnt s id f).wkeeps = s.wkeeps := rfl
@[simp] theorem setEnt_invals (s : State) (id : Nat) (f : PEnt → PEnt) : (setEnt s id f).invals = s.invals := rfl
@[simp] theorem setEnt_migq (s : State) (id : Nat) (f : PEnt → PEnt) : (setEnt s id f).migq = s.migq := rfl
@[simp] theorem setEnt_tlb (s : State) (id : Nat) (f : PEnt → PEnt) : (setEnt s id f).tlb = s.tlb := rfl
@[simp] theorem setEnt_firm (s : State) (id : Nat) (f : PEnt → PEnt) : (setEnt s id f).firm = s.firm := rfl
@[simp] theorem setEnt_lastIss (s : State) (id : Nat) (f : PEnt → PEnt) : (setEnt s id f).lastIss = s.lastIss := rfl
@[simp] theorem setEnt_cyc (s : State) (id : Nat) (f : PEnt → PEnt) : (setEnt s id f).cyc = s.cyc := rfl
@[simp] theorem setEnt_reached (s : State) (id : Nat) (f : PEnt → PEnt) : (setEnt s id f).reached = s.reached := rfl
@[simp] theorem setEnt_service (s : State) (id : Nat) (f : PEnt → PEnt) : (setEnt s id f).service = s.service := rfl
@[simp] theorem setEnt_clock (s : State) (id : Nat) (f : PEnt → PEnt) : (setEnt s id f).clock = s.clock := rfl
@[simp] theorem setEnt_fresh (s : State) (id : Nat) (f : PEnt → PEnt) : (setEnt s id f).fresh = s.fresh := rfl
@[simp] theorem setEnt_nid (s : State) (id : Nat) (f : PEnt → PEnt) : (setEnt s id f).nid = s.nid := rfl

/-! ### `updC` -/

@[simp] theorem updC_g (s : State) (id : Nat) (f : CEnt → CEnt) : (updC s id f).g = s.g := rfl
@[simp] theorem updC_t (s : State) (id : Nat) (f : CEnt → CEnt) : (updC s id f).t = s.t := rfl
@[simp] theorem updC_l (s : State) (id : Nat) (f : CEnt → CEnt) : (updC s id f).l = s.l := rfl
@[simp] theorem updC_fi (s : State) (id : Nat) (f : CEnt → CEnt) : (updC s id f).fi = s.fi := rfl
@[simp] theorem updC_groups (s : State) (id : Nat) (f : CEnt → CEnt) : (updC s id f).groups = s.groups := rfl
@[simp] theorem updC_teams (s : State) (id : Nat) (f : CEnt → CEnt) : (updC s id f).teams = s.teams := rfl
@[simp] theorem updC_launches (s : State) (id : Nat) (f : CEnt → CEnt) : (updC s id f).launches = s.launches := rfl
@[simp] theorem updC_sys (s : State) (id : Nat) (f : CEnt → CEnt) : (updC s id f).sys = s.sys := rfl
@[simp] theorem updC_mem (s : State) (id : Nat) (f : CEnt → CEnt) : (updC s id f).mem = s.mem := rfl
@[simp] theorem updC_stamps (s : State) (id : Nat) (f : CEnt → CEnt) : (updC s id f).stamps = s.stamps := rfl
@[simp] theorem updC_pz (s : State) (id : Nat) (f : CEnt → CEnt) : (updC s id f).pz = s.pz := rfl
@[simp] theorem updC_seqn (s : State) (id : Nat) (f : CEnt → CEnt) : (updC s id f).seqn = s.seqn := rfl
@[simp] theorem updC_path (s : State) (id : Nat) (f : CEnt → CEnt) : (updC s id f).path = s.path := rfl
@[simp] theorem updC_inq (s : State) (id : Nat) (f : CEnt → CEnt) : (updC s id f).inq = s.inq := rfl
@[simp] theorem updC_l1 (s : State) (id : Nat) (f : CEnt → CEnt) : (updC s id f).l1 = s.l1 := rfl
@[simp] theorem updC_dscr (s : State) (id : Nat) (f : CEnt → CEnt) : (updC s id f).dscr = s.dscr := rfl
@[simp] theorem updC_scrLeft (s : State) (id : Nat) (f : CEnt → CEnt) : (updC s id f).scrLeft = s.scrLeft := rfl
@[simp] theorem updC_tags (s : State) (id : Nat) (f : CEnt → CEnt) : (updC s id f).tags = s.tags := rfl
@[simp] theorem updC_keygen (s : State) (id : Nat) (f : CEnt → CEnt) : (updC s id f).keygen = s.keygen := rfl
@[simp] theorem updC_locks (s : State) (id : Nat) (f : CEnt → CEnt) : (updC s id f).locks = s.locks := rfl
@[simp] theorem updC_eops (s : State) (id : Nat) (f : CEnt → CEnt) : (updC s id f).eops = s.eops := rfl
@[simp] theorem updC_reqs (s : State) (id : Nat) (f : CEnt → CEnt) : (updC s id f).reqs = s.reqs := rfl
@[simp] theorem updC_wins (s : State) (id : Nat) (f : CEnt → CEnt) : (updC s id f).wins = s.wins := rfl
@[simp] theorem updC_sess (s : State) (id : Nat) (f : CEnt → CEnt) : (updC s id f).sess = s.sess := rfl
@[simp] theorem updC_now (s : State) (id : Nat) (f : CEnt → CEnt) : (updC s id f).now = s.now := rfl
@[simp] theorem updC_l2 (s : State) (id : Nat) (f : CEnt → CEnt) : (updC s id f).l2 = s.l2 := rfl
@[simp] theorem updC_rows (s : State) (id : Nat) (f : CEnt → CEnt) : (updC s id f).rows = s.rows := rfl
@[simp] theorem updC_winVals (s : State) (id : Nat) (f : CEnt → CEnt) : (updC s id f).winVals = s.winVals := rfl
@[simp] theorem updC_apend (s : State) (id : Nat) (f : CEnt → CEnt) : (updC s id f).apend = s.apend := rfl
@[simp] theorem updC_walks (s : State) (id : Nat) (f : CEnt → CEnt) : (updC s id f).walks = s.walks := rfl
@[simp] theorem updC_wkeeps (s : State) (id : Nat) (f : CEnt → CEnt) : (updC s id f).wkeeps = s.wkeeps := rfl
@[simp] theorem updC_invals (s : State) (id : Nat) (f : CEnt → CEnt) : (updC s id f).invals = s.invals := rfl
@[simp] theorem updC_migq (s : State) (id : Nat) (f : CEnt → CEnt) : (updC s id f).migq = s.migq := rfl
@[simp] theorem updC_tlb (s : State) (id : Nat) (f : CEnt → CEnt) : (updC s id f).tlb = s.tlb := rfl
@[simp] theorem updC_firm (s : State) (id : Nat) (f : CEnt → CEnt) : (updC s id f).firm = s.firm := rfl
@[simp] theorem updC_lastIss (s : State) (id : Nat) (f : CEnt → CEnt) : (updC s id f).lastIss = s.lastIss := rfl
@[simp] theorem updC_cyc (s : State) (id : Nat) (f : CEnt → CEnt) : (updC s id f).cyc = s.cyc := rfl
@[simp] theorem updC_reached (s : State) (id : Nat) (f : CEnt → CEnt) : (updC s id f).reached = s.reached := rfl
@[simp] theorem updC_service (s : State) (id : Nat) (f : CEnt → CEnt) : (updC s id f).service = s.service := rfl
@[simp] theorem updC_clock (s : State) (id : Nat) (f : CEnt → CEnt) : (updC s id f).clock = s.clock := rfl
@[simp] theorem updC_fresh (s : State) (id : Nat) (f : CEnt → CEnt) : (updC s id f).fresh = s.fresh := rfl
@[simp] theorem updC_nid (s : State) (id : Nat) (f : CEnt → CEnt) : (updC s id f).nid = s.nid := rfl

/-! ### `delC` -/

@[simp] theorem delC_g (s : State) (id : Nat) : (delC s id).g = s.g := rfl
@[simp] theorem delC_t (s : State) (id : Nat) : (delC s id).t = s.t := rfl
@[simp] theorem delC_l (s : State) (id : Nat) : (delC s id).l = s.l := rfl
@[simp] theorem delC_fi (s : State) (id : Nat) : (delC s id).fi = s.fi := rfl
@[simp] theorem delC_groups (s : State) (id : Nat) : (delC s id).groups = s.groups := rfl
@[simp] theorem delC_teams (s : State) (id : Nat) : (delC s id).teams = s.teams := rfl
@[simp] theorem delC_launches (s : State) (id : Nat) : (delC s id).launches = s.launches := rfl
@[simp] theorem delC_sys (s : State) (id : Nat) : (delC s id).sys = s.sys := rfl
@[simp] theorem delC_mem (s : State) (id : Nat) : (delC s id).mem = s.mem := rfl
@[simp] theorem delC_stamps (s : State) (id : Nat) : (delC s id).stamps = s.stamps := rfl
@[simp] theorem delC_pz (s : State) (id : Nat) : (delC s id).pz = s.pz := rfl
@[simp] theorem delC_seqn (s : State) (id : Nat) : (delC s id).seqn = s.seqn := rfl
@[simp] theorem delC_path (s : State) (id : Nat) : (delC s id).path = s.path := rfl
@[simp] theorem delC_inq (s : State) (id : Nat) : (delC s id).inq = s.inq := rfl
@[simp] theorem delC_l1 (s : State) (id : Nat) : (delC s id).l1 = s.l1 := rfl
@[simp] theorem delC_dscr (s : State) (id : Nat) : (delC s id).dscr = s.dscr := rfl
@[simp] theorem delC_scrLeft (s : State) (id : Nat) : (delC s id).scrLeft = s.scrLeft := rfl
@[simp] theorem delC_tags (s : State) (id : Nat) : (delC s id).tags = s.tags := rfl
@[simp] theorem delC_keygen (s : State) (id : Nat) : (delC s id).keygen = s.keygen := rfl
@[simp] theorem delC_locks (s : State) (id : Nat) : (delC s id).locks = s.locks := rfl
@[simp] theorem delC_eops (s : State) (id : Nat) : (delC s id).eops = s.eops := rfl
@[simp] theorem delC_reqs (s : State) (id : Nat) : (delC s id).reqs = s.reqs := rfl
@[simp] theorem delC_wins (s : State) (id : Nat) : (delC s id).wins = s.wins := rfl
@[simp] theorem delC_sess (s : State) (id : Nat) : (delC s id).sess = s.sess := rfl
@[simp] theorem delC_now (s : State) (id : Nat) : (delC s id).now = s.now := rfl
@[simp] theorem delC_l2 (s : State) (id : Nat) : (delC s id).l2 = s.l2 := rfl
@[simp] theorem delC_rows (s : State) (id : Nat) : (delC s id).rows = s.rows := rfl
@[simp] theorem delC_winVals (s : State) (id : Nat) : (delC s id).winVals = s.winVals := rfl
@[simp] theorem delC_apend (s : State) (id : Nat) : (delC s id).apend = s.apend := rfl
@[simp] theorem delC_walks (s : State) (id : Nat) : (delC s id).walks = s.walks := rfl
@[simp] theorem delC_wkeeps (s : State) (id : Nat) : (delC s id).wkeeps = s.wkeeps := rfl
@[simp] theorem delC_invals (s : State) (id : Nat) : (delC s id).invals = s.invals := rfl
@[simp] theorem delC_migq (s : State) (id : Nat) : (delC s id).migq = s.migq := rfl
@[simp] theorem delC_tlb (s : State) (id : Nat) : (delC s id).tlb = s.tlb := rfl
@[simp] theorem delC_firm (s : State) (id : Nat) : (delC s id).firm = s.firm := rfl
@[simp] theorem delC_lastIss (s : State) (id : Nat) : (delC s id).lastIss = s.lastIss := rfl
@[simp] theorem delC_cyc (s : State) (id : Nat) : (delC s id).cyc = s.cyc := rfl
@[simp] theorem delC_reached (s : State) (id : Nat) : (delC s id).reached = s.reached := rfl
@[simp] theorem delC_service (s : State) (id : Nat) : (delC s id).service = s.service := rfl
@[simp] theorem delC_clock (s : State) (id : Nat) : (delC s id).clock = s.clock := rfl
@[simp] theorem delC_fresh (s : State) (id : Nat) : (delC s id).fresh = s.fresh := rfl
@[simp] theorem delC_nid (s : State) (id : Nat) : (delC s id).nid = s.nid := rfl

/-! ### `delReq` -/

@[simp] theorem delReq_g (s : State) (id : Nat) : (delReq s id).g = s.g := rfl
@[simp] theorem delReq_t (s : State) (id : Nat) : (delReq s id).t = s.t := rfl
@[simp] theorem delReq_l (s : State) (id : Nat) : (delReq s id).l = s.l := rfl
@[simp] theorem delReq_fi (s : State) (id : Nat) : (delReq s id).fi = s.fi := rfl
@[simp] theorem delReq_groups (s : State) (id : Nat) : (delReq s id).groups = s.groups := rfl
@[simp] theorem delReq_teams (s : State) (id : Nat) : (delReq s id).teams = s.teams := rfl
@[simp] theorem delReq_launches (s : State) (id : Nat) : (delReq s id).launches = s.launches := rfl
@[simp] theorem delReq_sys (s : State) (id : Nat) : (delReq s id).sys = s.sys := rfl
@[simp] theorem delReq_mem (s : State) (id : Nat) : (delReq s id).mem = s.mem := rfl
@[simp] theorem delReq_stamps (s : State) (id : Nat) : (delReq s id).stamps = s.stamps := rfl
@[simp] theorem delReq_pz (s : State) (id : Nat) : (delReq s id).pz = s.pz := rfl
@[simp] theorem delReq_seqn (s : State) (id : Nat) : (delReq s id).seqn = s.seqn := rfl
@[simp] theorem delReq_path (s : State) (id : Nat) : (delReq s id).path = s.path := rfl
@[simp] theorem delReq_inq (s : State) (id : Nat) : (delReq s id).inq = s.inq := rfl
@[simp] theorem delReq_l1 (s : State) (id : Nat) : (delReq s id).l1 = s.l1 := rfl
@[simp] theorem delReq_dscr (s : State) (id : Nat) : (delReq s id).dscr = s.dscr := rfl
@[simp] theorem delReq_scrLeft (s : State) (id : Nat) : (delReq s id).scrLeft = s.scrLeft := rfl
@[simp] theorem delReq_tags (s : State) (id : Nat) : (delReq s id).tags = s.tags := rfl
@[simp] theorem delReq_keygen (s : State) (id : Nat) : (delReq s id).keygen = s.keygen := rfl
@[simp] theorem delReq_locks (s : State) (id : Nat) : (delReq s id).locks = s.locks := rfl
@[simp] theorem delReq_eops (s : State) (id : Nat) : (delReq s id).eops = s.eops := rfl
@[simp] theorem delReq_claims (s : State) (id : Nat) : (delReq s id).claims = s.claims := rfl
@[simp] theorem delReq_wins (s : State) (id : Nat) : (delReq s id).wins = s.wins := rfl
@[simp] theorem delReq_sess (s : State) (id : Nat) : (delReq s id).sess = s.sess := rfl
@[simp] theorem delReq_now (s : State) (id : Nat) : (delReq s id).now = s.now := rfl
@[simp] theorem delReq_l2 (s : State) (id : Nat) : (delReq s id).l2 = s.l2 := rfl
@[simp] theorem delReq_rows (s : State) (id : Nat) : (delReq s id).rows = s.rows := rfl
@[simp] theorem delReq_winVals (s : State) (id : Nat) : (delReq s id).winVals = s.winVals := rfl
@[simp] theorem delReq_apend (s : State) (id : Nat) : (delReq s id).apend = s.apend := rfl
@[simp] theorem delReq_walks (s : State) (id : Nat) : (delReq s id).walks = s.walks := rfl
@[simp] theorem delReq_wkeeps (s : State) (id : Nat) : (delReq s id).wkeeps = s.wkeeps := rfl
@[simp] theorem delReq_invals (s : State) (id : Nat) : (delReq s id).invals = s.invals := rfl
@[simp] theorem delReq_migq (s : State) (id : Nat) : (delReq s id).migq = s.migq := rfl
@[simp] theorem delReq_tlb (s : State) (id : Nat) : (delReq s id).tlb = s.tlb := rfl
@[simp] theorem delReq_firm (s : State) (id : Nat) : (delReq s id).firm = s.firm := rfl
@[simp] theorem delReq_lastIss (s : State) (id : Nat) : (delReq s id).lastIss = s.lastIss := rfl
@[simp] theorem delReq_cyc (s : State) (id : Nat) : (delReq s id).cyc = s.cyc := rfl
@[simp] theorem delReq_reached (s : State) (id : Nat) : (delReq s id).reached = s.reached := rfl
@[simp] theorem delReq_service (s : State) (id : Nat) : (delReq s id).service = s.service := rfl
@[simp] theorem delReq_clock (s : State) (id : Nat) : (delReq s id).clock = s.clock := rfl
@[simp] theorem delReq_fresh (s : State) (id : Nat) : (delReq s id).fresh = s.fresh := rfl
@[simp] theorem delReq_nid (s : State) (id : Nat) : (delReq s id).nid = s.nid := rfl

/-! ### `updG` -/

@[simp] theorem updG_t (s : State) (uid : Nat) (f : Group → Group) : (updG s uid f).t = s.t := by simp only [updG]; split <;> rfl
@[simp] theorem updG_l (s : State) (uid : Nat) (f : Group → Group) : (updG s uid f).l = s.l := by simp only [updG]; split <;> rfl
@[simp] theorem updG_fi (s : State) (uid : Nat) (f : Group → Group) : (updG s uid f).fi = s.fi := by simp only [updG]; split <;> rfl
@[simp] theorem updG_teams (s : State) (uid : Nat) (f : Group → Group) : (updG s uid f).teams = s.teams := by simp only [updG]; split <;> rfl
@[simp] theorem updG_launches (s : State) (uid : Nat) (f : Group → Group) : (updG s uid f).launches = s.launches := by simp only [updG]; split <;> rfl
@[simp] theorem updG_sys (s : State) (uid : Nat) (f : Group → Group) : (updG s uid f).sys = s.sys := by simp only [updG]; split <;> rfl
@[simp] theorem updG_mem (s : State) (uid : Nat) (f : Group → Group) : (updG s uid f).mem = s.mem := by simp only [updG]; split <;> rfl
@[simp] theorem updG_stamps (s : State) (uid : Nat) (f : Group → Group) : (updG s uid f).stamps = s.stamps := by simp only [updG]; split <;> rfl
@[simp] theorem updG_pz (s : State) (uid : Nat) (f : Group → Group) : (updG s uid f).pz = s.pz := by simp only [updG]; split <;> rfl
@[simp] theorem updG_seqn (s : State) (uid : Nat) (f : Group → Group) : (updG s uid f).seqn = s.seqn := by simp only [updG]; split <;> rfl
@[simp] theorem updG_path (s : State) (uid : Nat) (f : Group → Group) : (updG s uid f).path = s.path := by simp only [updG]; split <;> rfl
@[simp] theorem updG_inq (s : State) (uid : Nat) (f : Group → Group) : (updG s uid f).inq = s.inq := by simp only [updG]; split <;> rfl
@[simp] theorem updG_l1 (s : State) (uid : Nat) (f : Group → Group) : (updG s uid f).l1 = s.l1 := by simp only [updG]; split <;> rfl
@[simp] theorem updG_dscr (s : State) (uid : Nat) (f : Group → Group) : (updG s uid f).dscr = s.dscr := by simp only [updG]; split <;> rfl
@[simp] theorem updG_tags (s : State) (uid : Nat) (f : Group → Group) : (updG s uid f).tags = s.tags := by simp only [updG]; split <;> rfl
@[simp] theorem updG_keygen (s : State) (uid : Nat) (f : Group → Group) : (updG s uid f).keygen = s.keygen := by simp only [updG]; split <;> rfl
@[simp] theorem updG_locks (s : State) (uid : Nat) (f : Group → Group) : (updG s uid f).locks = s.locks := by simp only [updG]; split <;> rfl
@[simp] theorem updG_eops (s : State) (uid : Nat) (f : Group → Group) : (updG s uid f).eops = s.eops := by simp only [updG]; split <;> rfl
@[simp] theorem updG_claims (s : State) (uid : Nat) (f : Group → Group) : (updG s uid f).claims = s.claims := by simp only [updG]; split <;> rfl
@[simp] theorem updG_reqs (s : State) (uid : Nat) (f : Group → Group) : (updG s uid f).reqs = s.reqs := by simp only [updG]; split <;> rfl
@[simp] theorem updG_wins (s : State) (uid : Nat) (f : Group → Group) : (updG s uid f).wins = s.wins := by simp only [updG]; split <;> rfl
@[simp] theorem updG_sess (s : State) (uid : Nat) (f : Group → Group) : (updG s uid f).sess = s.sess := by simp only [updG]; split <;> rfl
@[simp] theorem updG_now (s : State) (uid : Nat) (f : Group → Group) : (updG s uid f).now = s.now := by simp only [updG]; split <;> rfl
@[simp] theorem updG_l2 (s : State) (uid : Nat) (f : Group → Group) : (updG s uid f).l2 = s.l2 := by simp only [updG]; split <;> rfl
@[simp] theorem updG_rows (s : State) (uid : Nat) (f : Group → Group) : (updG s uid f).rows = s.rows := by simp only [updG]; split <;> rfl
@[simp] theorem updG_winVals (s : State) (uid : Nat) (f : Group → Group) : (updG s uid f).winVals = s.winVals := by simp only [updG]; split <;> rfl
@[simp] theorem updG_apend (s : State) (uid : Nat) (f : Group → Group) : (updG s uid f).apend = s.apend := by simp only [updG]; split <;> rfl
@[simp] theorem updG_walks (s : State) (uid : Nat) (f : Group → Group) : (updG s uid f).walks = s.walks := by simp only [updG]; split <;> rfl
@[simp] theorem updG_wkeeps (s : State) (uid : Nat) (f : Group → Group) : (updG s uid f).wkeeps = s.wkeeps := by simp only [updG]; split <;> rfl
@[simp] theorem updG_invals (s : State) (uid : Nat) (f : Group → Group) : (updG s uid f).invals = s.invals := by simp only [updG]; split <;> rfl
@[simp] theorem updG_migq (s : State) (uid : Nat) (f : Group → Group) : (updG s uid f).migq = s.migq := by simp only [updG]; split <;> rfl
@[simp] theorem updG_tlb (s : State) (uid : Nat) (f : Group → Group) : (updG s uid f).tlb = s.tlb := by simp only [updG]; split <;> rfl
@[simp] theorem updG_firm (s : State) (uid : Nat) (f : Group → Group) : (updG s uid f).firm = s.firm := by simp only [updG]; split <;> rfl
@[simp] theorem updG_lastIss (s : State) (uid : Nat) (f : Group → Group) : (updG s uid f).lastIss = s.lastIss := by simp only [updG]; split <;> rfl
@[simp] theorem updG_cyc (s : State) (uid : Nat) (f : Group → Group) : (updG s uid f).cyc = s.cyc := by simp only [updG]; split <;> rfl
@[simp] theorem updG_reached (s : State) (uid : Nat) (f : Group → Group) : (updG s uid f).reached = s.reached := by simp only [updG]; split <;> rfl
@[simp] theorem updG_service (s : State) (uid : Nat) (f : Group → Group) : (updG s uid f).service = s.service := by simp only [updG]; split <;> rfl
@[simp] theorem updG_clock (s : State) (uid : Nat) (f : Group → Group) : (updG s uid f).clock = s.clock := by simp only [updG]; split <;> rfl
@[simp] theorem updG_fresh (s : State) (uid : Nat) (f : Group → Group) : (updG s uid f).fresh = s.fresh := by simp only [updG]; split <;> rfl
@[simp] theorem updG_nid (s : State) (uid : Nat) (f : Group → Group) : (updG s uid f).nid = s.nid := by simp only [updG]; split <;> rfl

/-! ### `updT` -/

@[simp] theorem updT_g (s : State) (uid : Nat) (f : Team → Team) : (updT s uid f).g = s.g := by simp only [updT]; split <;> rfl
@[simp] theorem updT_l (s : State) (uid : Nat) (f : Team → Team) : (updT s uid f).l = s.l := by simp only [updT]; split <;> rfl
@[simp] theorem updT_fi (s : State) (uid : Nat) (f : Team → Team) : (updT s uid f).fi = s.fi := by simp only [updT]; split <;> rfl
@[simp] theorem updT_groups (s : State) (uid : Nat) (f : Team → Team) : (updT s uid f).groups = s.groups := by simp only [updT]; split <;> rfl
@[simp] theorem updT_launches (s : State) (uid : Nat) (f : Team → Team) : (updT s uid f).launches = s.launches := by simp only [updT]; split <;> rfl
@[simp] theorem updT_sys (s : State) (uid : Nat) (f : Team → Team) : (updT s uid f).sys = s.sys := by simp only [updT]; split <;> rfl
@[simp] theorem updT_mem (s : State) (uid : Nat) (f : Team → Team) : (updT s uid f).mem = s.mem := by simp only [updT]; split <;> rfl
@[simp] theorem updT_stamps (s : State) (uid : Nat) (f : Team → Team) : (updT s uid f).stamps = s.stamps := by simp only [updT]; split <;> rfl
@[simp] theorem updT_pz (s : State) (uid : Nat) (f : Team → Team) : (updT s uid f).pz = s.pz := by simp only [updT]; split <;> rfl
@[simp] theorem updT_seqn (s : State) (uid : Nat) (f : Team → Team) : (updT s uid f).seqn = s.seqn := by simp only [updT]; split <;> rfl
@[simp] theorem updT_path (s : State) (uid : Nat) (f : Team → Team) : (updT s uid f).path = s.path := by simp only [updT]; split <;> rfl
@[simp] theorem updT_inq (s : State) (uid : Nat) (f : Team → Team) : (updT s uid f).inq = s.inq := by simp only [updT]; split <;> rfl
@[simp] theorem updT_l1 (s : State) (uid : Nat) (f : Team → Team) : (updT s uid f).l1 = s.l1 := by simp only [updT]; split <;> rfl
@[simp] theorem updT_dscr (s : State) (uid : Nat) (f : Team → Team) : (updT s uid f).dscr = s.dscr := by simp only [updT]; split <;> rfl
@[simp] theorem updT_tags (s : State) (uid : Nat) (f : Team → Team) : (updT s uid f).tags = s.tags := by simp only [updT]; split <;> rfl
@[simp] theorem updT_keygen (s : State) (uid : Nat) (f : Team → Team) : (updT s uid f).keygen = s.keygen := by simp only [updT]; split <;> rfl
@[simp] theorem updT_locks (s : State) (uid : Nat) (f : Team → Team) : (updT s uid f).locks = s.locks := by simp only [updT]; split <;> rfl
@[simp] theorem updT_eops (s : State) (uid : Nat) (f : Team → Team) : (updT s uid f).eops = s.eops := by simp only [updT]; split <;> rfl
@[simp] theorem updT_claims (s : State) (uid : Nat) (f : Team → Team) : (updT s uid f).claims = s.claims := by simp only [updT]; split <;> rfl
@[simp] theorem updT_reqs (s : State) (uid : Nat) (f : Team → Team) : (updT s uid f).reqs = s.reqs := by simp only [updT]; split <;> rfl
@[simp] theorem updT_wins (s : State) (uid : Nat) (f : Team → Team) : (updT s uid f).wins = s.wins := by simp only [updT]; split <;> rfl
@[simp] theorem updT_sess (s : State) (uid : Nat) (f : Team → Team) : (updT s uid f).sess = s.sess := by simp only [updT]; split <;> rfl
@[simp] theorem updT_now (s : State) (uid : Nat) (f : Team → Team) : (updT s uid f).now = s.now := by simp only [updT]; split <;> rfl
@[simp] theorem updT_l2 (s : State) (uid : Nat) (f : Team → Team) : (updT s uid f).l2 = s.l2 := by simp only [updT]; split <;> rfl
@[simp] theorem updT_rows (s : State) (uid : Nat) (f : Team → Team) : (updT s uid f).rows = s.rows := by simp only [updT]; split <;> rfl
@[simp] theorem updT_winVals (s : State) (uid : Nat) (f : Team → Team) : (updT s uid f).winVals = s.winVals := by simp only [updT]; split <;> rfl
@[simp] theorem updT_apend (s : State) (uid : Nat) (f : Team → Team) : (updT s uid f).apend = s.apend := by simp only [updT]; split <;> rfl
@[simp] theorem updT_walks (s : State) (uid : Nat) (f : Team → Team) : (updT s uid f).walks = s.walks := by simp only [updT]; split <;> rfl
@[simp] theorem updT_wkeeps (s : State) (uid : Nat) (f : Team → Team) : (updT s uid f).wkeeps = s.wkeeps := by simp only [updT]; split <;> rfl
@[simp] theorem updT_invals (s : State) (uid : Nat) (f : Team → Team) : (updT s uid f).invals = s.invals := by simp only [updT]; split <;> rfl
@[simp] theorem updT_migq (s : State) (uid : Nat) (f : Team → Team) : (updT s uid f).migq = s.migq := by simp only [updT]; split <;> rfl
@[simp] theorem updT_tlb (s : State) (uid : Nat) (f : Team → Team) : (updT s uid f).tlb = s.tlb := by simp only [updT]; split <;> rfl
@[simp] theorem updT_firm (s : State) (uid : Nat) (f : Team → Team) : (updT s uid f).firm = s.firm := by simp only [updT]; split <;> rfl
@[simp] theorem updT_lastIss (s : State) (uid : Nat) (f : Team → Team) : (updT s uid f).lastIss = s.lastIss := by simp only [updT]; split <;> rfl
@[simp] theorem updT_cyc (s : State) (uid : Nat) (f : Team → Team) : (updT s uid f).cyc = s.cyc := by simp only [updT]; split <;> rfl
@[simp] theorem updT_reached (s : State) (uid : Nat) (f : Team → Team) : (updT s uid f).reached = s.reached := by simp only [updT]; split <;> rfl
@[simp] theorem updT_service (s : State) (uid : Nat) (f : Team → Team) : (updT s uid f).service = s.service := by simp only [updT]; split <;> rfl
@[simp] theorem updT_clock (s : State) (uid : Nat) (f : Team → Team) : (updT s uid f).clock = s.clock := by simp only [updT]; split <;> rfl
@[simp] theorem updT_fresh (s : State) (uid : Nat) (f : Team → Team) : (updT s uid f).fresh = s.fresh := by simp only [updT]; split <;> rfl
@[simp] theorem updT_nid (s : State) (uid : Nat) (f : Team → Team) : (updT s uid f).nid = s.nid := by simp only [updT]; split <;> rfl

/-! ### `updL` -/

@[simp] theorem updL_g (s : State) (uid : Nat) (f : Launch → Launch) : (updL s uid f).g = s.g := by simp only [updL]; split <;> rfl
@[simp] theorem updL_t (s : State) (uid : Nat) (f : Launch → Launch) : (updL s uid f).t = s.t := by simp only [updL]; split <;> rfl
@[simp] theorem updL_fi (s : State) (uid : Nat) (f : Launch → Launch) : (updL s uid f).fi = s.fi := by simp only [updL]; split <;> rfl
@[simp] theorem updL_groups (s : State) (uid : Nat) (f : Launch → Launch) : (updL s uid f).groups = s.groups := by simp only [updL]; split <;> rfl
@[simp] theorem updL_teams (s : State) (uid : Nat) (f : Launch → Launch) : (updL s uid f).teams = s.teams := by simp only [updL]; split <;> rfl
@[simp] theorem updL_sys (s : State) (uid : Nat) (f : Launch → Launch) : (updL s uid f).sys = s.sys := by simp only [updL]; split <;> rfl
@[simp] theorem updL_mem (s : State) (uid : Nat) (f : Launch → Launch) : (updL s uid f).mem = s.mem := by simp only [updL]; split <;> rfl
@[simp] theorem updL_stamps (s : State) (uid : Nat) (f : Launch → Launch) : (updL s uid f).stamps = s.stamps := by simp only [updL]; split <;> rfl
@[simp] theorem updL_pz (s : State) (uid : Nat) (f : Launch → Launch) : (updL s uid f).pz = s.pz := by simp only [updL]; split <;> rfl
@[simp] theorem updL_seqn (s : State) (uid : Nat) (f : Launch → Launch) : (updL s uid f).seqn = s.seqn := by simp only [updL]; split <;> rfl
@[simp] theorem updL_path (s : State) (uid : Nat) (f : Launch → Launch) : (updL s uid f).path = s.path := by simp only [updL]; split <;> rfl
@[simp] theorem updL_inq (s : State) (uid : Nat) (f : Launch → Launch) : (updL s uid f).inq = s.inq := by simp only [updL]; split <;> rfl
@[simp] theorem updL_l1 (s : State) (uid : Nat) (f : Launch → Launch) : (updL s uid f).l1 = s.l1 := by simp only [updL]; split <;> rfl
@[simp] theorem updL_dscr (s : State) (uid : Nat) (f : Launch → Launch) : (updL s uid f).dscr = s.dscr := by simp only [updL]; split <;> rfl
@[simp] theorem updL_tags (s : State) (uid : Nat) (f : Launch → Launch) : (updL s uid f).tags = s.tags := by simp only [updL]; split <;> rfl
@[simp] theorem updL_keygen (s : State) (uid : Nat) (f : Launch → Launch) : (updL s uid f).keygen = s.keygen := by simp only [updL]; split <;> rfl
@[simp] theorem updL_locks (s : State) (uid : Nat) (f : Launch → Launch) : (updL s uid f).locks = s.locks := by simp only [updL]; split <;> rfl
@[simp] theorem updL_eops (s : State) (uid : Nat) (f : Launch → Launch) : (updL s uid f).eops = s.eops := by simp only [updL]; split <;> rfl
@[simp] theorem updL_claims (s : State) (uid : Nat) (f : Launch → Launch) : (updL s uid f).claims = s.claims := by simp only [updL]; split <;> rfl
@[simp] theorem updL_reqs (s : State) (uid : Nat) (f : Launch → Launch) : (updL s uid f).reqs = s.reqs := by simp only [updL]; split <;> rfl
@[simp] theorem updL_wins (s : State) (uid : Nat) (f : Launch → Launch) : (updL s uid f).wins = s.wins := by simp only [updL]; split <;> rfl
@[simp] theorem updL_sess (s : State) (uid : Nat) (f : Launch → Launch) : (updL s uid f).sess = s.sess := by simp only [updL]; split <;> rfl
@[simp] theorem updL_now (s : State) (uid : Nat) (f : Launch → Launch) : (updL s uid f).now = s.now := by simp only [updL]; split <;> rfl
@[simp] theorem updL_l2 (s : State) (uid : Nat) (f : Launch → Launch) : (updL s uid f).l2 = s.l2 := by simp only [updL]; split <;> rfl
@[simp] theorem updL_rows (s : State) (uid : Nat) (f : Launch → Launch) : (updL s uid f).rows = s.rows := by simp only [updL]; split <;> rfl
@[simp] theorem updL_winVals (s : State) (uid : Nat) (f : Launch → Launch) : (updL s uid f).winVals = s.winVals := by simp only [updL]; split <;> rfl
@[simp] theorem updL_apend (s : State) (uid : Nat) (f : Launch → Launch) : (updL s uid f).apend = s.apend := by simp only [updL]; split <;> rfl
@[simp] theorem updL_walks (s : State) (uid : Nat) (f : Launch → Launch) : (updL s uid f).walks = s.walks := by simp only [updL]; split <;> rfl
@[simp] theorem updL_wkeeps (s : State) (uid : Nat) (f : Launch → Launch) : (updL s uid f).wkeeps = s.wkeeps := by simp only [updL]; split <;> rfl
@[simp] theorem updL_invals (s : State) (uid : Nat) (f : Launch → Launch) : (updL s uid f).invals = s.invals := by simp only [updL]; split <;> rfl
@[simp] theorem updL_migq (s : State) (uid : Nat) (f : Launch → Launch) : (updL s uid f).migq = s.migq := by simp only [updL]; split <;> rfl
@[simp] theorem updL_tlb (s : State) (uid : Nat) (f : Launch → Launch) : (updL s uid f).tlb = s.tlb := by simp only [updL]; split <;> rfl
@[simp] theorem updL_firm (s : State) (uid : Nat) (f : Launch → Launch) : (updL s uid f).firm = s.firm := by simp only [updL]; split <;> rfl
@[simp] theorem updL_lastIss (s : State) (uid : Nat) (f : Launch → Launch) : (updL s uid f).lastIss = s.lastIss := by simp only [updL]; split <;> rfl
@[simp] theorem updL_cyc (s : State) (uid : Nat) (f : Launch → Launch) : (updL s uid f).cyc = s.cyc := by simp only [updL]; split <;> rfl
@[simp] theorem updL_reached (s : State) (uid : Nat) (f : Launch → Launch) : (updL s uid f).reached = s.reached := by simp only [updL]; split <;> rfl
@[simp] theorem updL_service (s : State) (uid : Nat) (f : Launch → Launch) : (updL s uid f).service = s.service := by simp only [updL]; split <;> rfl
@[simp] theorem updL_clock (s : State) (uid : Nat) (f : Launch → Launch) : (updL s uid f).clock = s.clock := by simp only [updL]; split <;> rfl
@[simp] theorem updL_fresh (s : State) (uid : Nat) (f : Launch → Launch) : (updL s uid f).fresh = s.fresh := by simp only [updL]; split <;> rfl
@[simp] theorem updL_nid (s : State) (uid : Nat) (f : Launch → Launch) : (updL s uid f).nid = s.nid := by simp only [updL]; split <;> rfl

/-! ### `modF` -/

@[simp] theorem modF_t (s : State) (f : Frag → Frag) : (modF s f).t = s.t := by simp only [modF]; split <;> rfl
@[simp] theorem modF_l (s : State) (f : Frag → Frag) : (modF s f).l = s.l := by simp only [modF]; split <;> rfl
@[simp] theorem modF_fi (s : State) (f : Frag → Frag) : (modF s f).fi = s.fi := by simp only [modF]; split <;> rfl
@[simp] theorem modF_groups (s : State) (f : Frag → Frag) : (modF s f).groups = s.groups := by simp only [modF]; split <;> rfl
@[simp] theorem modF_teams (s : State) (f : Frag → Frag) : (modF s f).teams = s.teams := by simp only [modF]; split <;> rfl
@[simp] theorem modF_launches (s : State) (f : Frag → Frag) : (modF s f).launches = s.launches := by simp only [modF]; split <;> rfl
@[simp] theorem modF_sys (s : State) (f : Frag → Frag) : (modF s f).sys = s.sys := by simp only [modF]; split <;> rfl
@[simp] theorem modF_mem (s : State) (f : Frag → Frag) : (modF s f).mem = s.mem := by simp only [modF]; split <;> rfl
@[simp] theorem modF_stamps (s : State) (f : Frag → Frag) : (modF s f).stamps = s.stamps := by simp only [modF]; split <;> rfl
@[simp] theorem modF_pz (s : State) (f : Frag → Frag) : (modF s f).pz = s.pz := by simp only [modF]; split <;> rfl
@[simp] theorem modF_seqn (s : State) (f : Frag → Frag) : (modF s f).seqn = s.seqn := by simp only [modF]; split <;> rfl
@[simp] theorem modF_path (s : State) (f : Frag → Frag) : (modF s f).path = s.path := by simp only [modF]; split <;> rfl
@[simp] theorem modF_inq (s : State) (f : Frag → Frag) : (modF s f).inq = s.inq := by simp only [modF]; split <;> rfl
@[simp] theorem modF_l1 (s : State) (f : Frag → Frag) : (modF s f).l1 = s.l1 := by simp only [modF]; split <;> rfl
@[simp] theorem modF_dscr (s : State) (f : Frag → Frag) : (modF s f).dscr = s.dscr := by simp only [modF]; split <;> rfl
@[simp] theorem modF_tags (s : State) (f : Frag → Frag) : (modF s f).tags = s.tags := by simp only [modF]; split <;> rfl
@[simp] theorem modF_keygen (s : State) (f : Frag → Frag) : (modF s f).keygen = s.keygen := by simp only [modF]; split <;> rfl
@[simp] theorem modF_locks (s : State) (f : Frag → Frag) : (modF s f).locks = s.locks := by simp only [modF]; split <;> rfl
@[simp] theorem modF_eops (s : State) (f : Frag → Frag) : (modF s f).eops = s.eops := by simp only [modF]; split <;> rfl
@[simp] theorem modF_claims (s : State) (f : Frag → Frag) : (modF s f).claims = s.claims := by simp only [modF]; split <;> rfl
@[simp] theorem modF_reqs (s : State) (f : Frag → Frag) : (modF s f).reqs = s.reqs := by simp only [modF]; split <;> rfl
@[simp] theorem modF_wins (s : State) (f : Frag → Frag) : (modF s f).wins = s.wins := by simp only [modF]; split <;> rfl
@[simp] theorem modF_sess (s : State) (f : Frag → Frag) : (modF s f).sess = s.sess := by simp only [modF]; split <;> rfl
@[simp] theorem modF_now (s : State) (f : Frag → Frag) : (modF s f).now = s.now := by simp only [modF]; split <;> rfl
@[simp] theorem modF_l2 (s : State) (f : Frag → Frag) : (modF s f).l2 = s.l2 := by simp only [modF]; split <;> rfl
@[simp] theorem modF_rows (s : State) (f : Frag → Frag) : (modF s f).rows = s.rows := by simp only [modF]; split <;> rfl
@[simp] theorem modF_winVals (s : State) (f : Frag → Frag) : (modF s f).winVals = s.winVals := by simp only [modF]; split <;> rfl
@[simp] theorem modF_apend (s : State) (f : Frag → Frag) : (modF s f).apend = s.apend := by simp only [modF]; split <;> rfl
@[simp] theorem modF_walks (s : State) (f : Frag → Frag) : (modF s f).walks = s.walks := by simp only [modF]; split <;> rfl
@[simp] theorem modF_wkeeps (s : State) (f : Frag → Frag) : (modF s f).wkeeps = s.wkeeps := by simp only [modF]; split <;> rfl
@[simp] theorem modF_invals (s : State) (f : Frag → Frag) : (modF s f).invals = s.invals := by simp only [modF]; split <;> rfl
@[simp] theorem modF_migq (s : State) (f : Frag → Frag) : (modF s f).migq = s.migq := by simp only [modF]; split <;> rfl
@[simp] theorem modF_tlb (s : State) (f : Frag → Frag) : (modF s f).tlb = s.tlb := by simp only [modF]; split <;> rfl
@[simp] theorem modF_firm (s : State) (f : Frag → Frag) : (modF s f).firm = s.firm := by simp only [modF]; split <;> rfl
@[simp] theorem modF_lastIss (s : State) (f : Frag → Frag) : (modF s f).lastIss = s.lastIss := by simp only [modF]; split <;> rfl
@[simp] theorem modF_cyc (s : State) (f : Frag → Frag) : (modF s f).cyc = s.cyc := by simp only [modF]; split <;> rfl
@[simp] theorem modF_reached (s : State) (f : Frag → Frag) : (modF s f).reached = s.reached := by simp only [modF]; split <;> rfl
@[simp] theorem modF_service (s : State) (f : Frag → Frag) : (modF s f).service = s.service := by simp only [modF]; split <;> rfl
@[simp] theorem modF_clock (s : State) (f : Frag → Frag) : (modF s f).clock = s.clock := by simp only [modF]; split <;> rfl
@[simp] theorem modF_fresh (s : State) (f : Frag → Frag) : (modF s f).fresh = s.fresh := by simp only [modF]; split <;> rfl
@[simp] theorem modF_nid (s : State) (f : Frag → Frag) : (modF s f).nid = s.nid := by simp only [modF]; split <;> rfl

/-! ### What they change -/

@[simp] theorem enter_path (s : State) (e : PEnt) : (enter s e).path = s.path ++ [{ e with id := s.nid }] := rfl
@[simp] theorem enter_nid (s : State) (e : PEnt) : (enter s e).nid = s.nid + 1 := rfl
theorem modF_g (s : State) (f : Frag → Frag) {x : Frag} (h : fget s.g.frs s.fi = some x) :
    (modF s f).g = { s.g with frs := fput s.g.frs s.fi (f x) } := by simp only [modF, h]
theorem updG_self (s : State) (f : Group → Group) : (updG s s.g.uid f).g = f s.g := by simp [updG]
theorem updT_self (s : State) (f : Team → Team) : (updT s s.t.uid f).t = f s.t := by simp [updT]
theorem updL_self (s : State) (f : Launch → Launch) : (updL s s.l.uid f).l = f s.l := by simp [updL]

end Sys2Proof.Machine
end

