-- ==== Sys2Proof/Tests/Slice0.lean ====
section
/-! SUPPORT. Tests of this row's own work. First the checks of well-formedness, each with a term that it refuses; then words
written out from the encoding tables; then, for every statement of Obligations.lean that has hypotheses, a state and
operands that meet them. -/

set_option Elab.async false

namespace Sys2Proof.Tests

open Sys2Proof Sys2Proof.Machine

/-! ### A small state -/

/-- A fragment of every thread at the first word of a clause of one word. -/
def tF : Frag := { id := 4, mask := BitVec.allOnes 64, pc := 0x110000, idx := 1, len := 1 }
def tG : Group := { uid := 1, team := 2, pc := 0x110000, a := [(1, 8), (2, 6), (3, 0x200000)], task := some 0x110000, frs := [(0, tF)] }
def tT : Team := { uid := 2, launch := 3, vregs := 512, scrB := 65536, sliceB := 4096 }
def tL : Launch := { uid := 3, w := [0x110000, 0x110000, 1, 0, 0, 0, 0, 0], placed := 1 }
/-- More pages of 2 MiB from 1 GiB on, held by the TLB of core 0: one whose page is away, a host window, a window of peer 1. -/
def tMap (s : State) : State :=
  let l : List Nat := [5 * 2 ^ 60 + 0x10000000339, 5 * 2 ^ 60 + 0x40000000039, 5 * 2 ^ 60 + 0x120000000039]
  let s := placeBytes (placeBytes (placeTables s) 0x102008 (leBytes 8 0x103003)) 0x103000 (l.flatMap (leBytes 8))
  { s with tlb := s.tlb ++ l.zipIdx.map (fun p =>
      { core := 0, ctx := 0, base := 0x40000000 + 2 ^ 21 * p.2, size := 2 ^ 21, leaf := p.1, addr := 0x103000 + 8 * p.2 }) }
/-- The device in full service, with context 0 live and the first GiB mapped to itself; a walk of group 1 has found nothing at 2^41. -/
def tS : State :=
  setCtxState (sysPut { tMap State.reset with
    g := tG, t := tT, l := tL, nid := 5, service := .full
    walks := [{ id := 0, core := 0, ctx := 0, uid := 1, page := 2 ^ 41, failed := some .unmapped }] } (rCtx 0 0) (2 ^ 63 + 0x100000)) 0 1
def vaAway : Nat := 0x40000000
def vaHost : Nat := 0x40200000
def vaPeer : Nat := 0x40400000
def inG (s : State) (f : Group → Group) : State := { s with g := f s.g }
def inT (s : State) (f : Team → Team) : State := { s with t := f s.t }
def inL (s : State) (f : Launch → Launch) : State := { s with l := f s.l }

/-- A store of group 1 on its way to byte 0 of the scratchpad of team 2. -/
def tE : PEnt := { id := 9, owner := .group 1, op := .store, acc := { sp := .s, va := 0, loc := .team 2 0, n := 8 }, x := 5 }

/-- What a result says, as plain data. -/
def okIs {ε α : Type} [DecidableEq α] (x : Except ε α) (a : α) : Bool := match x with | .ok b => decide (b = a) | .error _ => false
def gotOf : ScOut → Option Nat | .got _ v => some v | _ => none
def faultOf : ScOut → Option FCause | .fault _ c => some c | _ => none
def goes (o : Host.Outcome State Fault Refusal) : Bool := match o with | .next _ => true | _ => false
def isOk : Chk → Bool | .ok _ => true | _ => false
def isAway : Chk → Bool | .away _ => true | _ => false

/-! ### Ill-formed terms -/

def zR (n : BitVec 9) : Opnd := { chan := false, pop := false, idx := n }
def zC (n : BitVec 9) : Opnd := { chan := true, pop := true, idx := n }
/-- A lane word with a type, a destination and three sources; everything else zero. -/
def lW (ty : LType) (d a b c : BitVec 9) : LaneW :=
  { ty := ty, k := 0, neg := false, uni := false, dchan := false, d := d, a := zR a, b := zR b, c := zR c, rnd := .rn, ord := .rlx,
    scp := .grp, sat := false, imm := false, x24 := 0 }
/-- R99, R101 to R103, R418, R69: channels that a scalar word may not name, a predicate half, a shape register, a count past 64,
flags of a header. Each line pairs an ill-formed term with the like that is well-formed. -/
theorem test_ill_formed_scalar :
    (∀ i ∈ [Instr.push 4 1, .pop 5 3, .peek 5 11, .cbind 11 1, .cfree 16, .mfk 1 16 0, .mfk 1 2 1, .mtsh 16 1, .mfsh 1 16, .safe 65 false],
      wellFormed i = false) ∧
    (∀ i ∈ [Instr.push 3 1, .pop 5 4, .peek 5 12, .cbind 12 1, .cfree 15, .mfk 1 15 0, .mtsh 15 1, .mfsh 1 15, .safe 64 true], wellFormed i = true) ∧
    (∀ h ∈ ([⟨0, 0, true, 12, false, 0⟩, ⟨0, 0, false, 1, false, 0⟩, ⟨0, 0, false, 0, true, 1⟩, ⟨0, 0, true, 3, true, 3⟩] : List Header),
      wellFormed (.clauseStart h) = false) ∧ wellFormed (.clauseStart ⟨0, 0, true, 3, true, 11⟩) = true := by decide +kernel
/-- R39, R63 to R68, R256: a field that its entry leaves out, a type, a rounding, a saturation, a uniform bit, an order, a scope, an
immediate, a space or a register pair that the entry does not accept. -/
theorem test_ill_formed_lane :
    (∀ i ∈ [Instr.laneAdd (lW .i32 1 2 3 4), .laneAdd (lW .m8 1 2 3 0), .laneAdd (lW .n64 1 2 4 0), .laneAdd { lW .f32 1 2 3 0 with rnd := .ra },
      .laneAdd { lW .f32 1 2 3 0 with sat := true }, .laneAnd { lW .i32 1 2 3 0 with rnd := .rz }, .laneAdd { lW .i32 1 2 3 0 with ord := .acq },
      .laneAdd { lW .i32 1 2 3 0 with scp := .dev }, .laneAdd { lW .i32 1 2 3 0 with x24 := 1 }, .laneAdd { lW .i8 1 2 0 0 with imm := true, x24 := 128 },
      .laneAdd { lW .i32 1 2 3 0 with a := zC 4 }, .laneAdd { lW .i32 0 2 3 0 with dchan := true }, .mad { lW .i32 1 2 3 4 with c := zC 16 }], wellFormed i = false) ∧
    (∀ i ∈ [Instr.setp (lW .i32 1 2 3 6), .setp (lW .i32 16 2 3 0), .rdc { lW .f32 1 2 0 0 with x24 := 3 }, .cvt { lW .f32 1 2 0 0 with x24 := 12 },
      .qnt (lW .f32 2 4 0 0), .xmv { lW .n32 1 2 0 0 with x24 := 64 }, .kop { lW .i32 1 2 3 0 with x24 := 8 }, .mxl (lW .i32 0 1 2 0), .mxl (lW .f32 4 1 2 0),
      .mxs { lW .f32 0 1 2 3 with x24 := 59 }, .laneLd (lW .n32 1 3 0 0), .laneLd { lW .n32 1 2 0 0 with x24 := 5 <<< 21 }, .laneLd { lW .n32 1 2 0 0 with ord := .rel },
      .laneLd { lW .n32 1 2 0 0 with x24 := 4 <<< 21, ord := .acq }], wellFormed i = false) ∧
    (∀ i ∈ [Instr.st { lW .n32 0 2 3 0 with ord := .acq }, .atom { lW .n32 1 2 3 0 with x24 := 4 <<< 21 }, .atom (lW .f32 1 2 3 3), .red (lW .n32 0 2 3 6), .fence (lW .i32 0 0 0 0),
      .bwait { lW .i32 0 2 0 0 with x24 := 2 }, .nbar { lW .i32 0 0 0 0 with x24 := 17 * 16 }, .waitf (lW .i32 0 2 4 8), .tag (lW .i32 1 2 0 6), .emit { lW .i32 0 2 0 0 with x24 := 256 },
      .steal (lW .i32 3 0 1 0), .yield (lW .i32 1 0 0 0)], wellFormed i = false) ∧
    (∀ i ∈ [Instr.laneAdd (lW .n64 2 4 6 0), .laneAdd { lW .i32 1 0 3 0 with a := zC 1 }, .laneAdd { lW .i32 6 2 3 0 with dchan := true }, .mad (lW .i32 1 2 3 4)],
      wellFormed i = true) := by decide +kernel

/-! ### Words written out from the encoding tables of the spec -/

/-- The words of a list decode to the instructions beside them. -/
def reads (nbits : Nat) (l : List (Nat × Instr)) : Bool := l.all (fun p => decodeTableWord nbits p.1 == some p.2)
/-- The worked encodings, and words of each form with operands at the ends of their ranges. -/
theorem test_decode_worked_scalar :
    reads 32 [(0x04518700, .add 5 6 7), (0x58608008, .ld 6 2 .g 8), (0x50608FFC, .lw 6 2 .s 0x7FC), (0x80108002, .beq 1 2 2), (0x842007FD, .loop 2 0x7FD),
      (0x8C000004, .call 4), (0x8BFFFFFE, .jmp 0x3FFFFFE), (0x900FC000, .jr 63), (0x93F24001, .callr 63 9), (0xB4900001, .mfsr 9 1), (0xA0000040, .issue 0x40),
      (0xA4018000, .issuex 6), (0x2451BFFF, .slti 5 6 0x3FFF), (0x18514003, .shli 5 5 3)] = true ∧
    reads 32 [(0x2C712345, .lui 7 0x12345), (0x34700001, .auipc 7 1), (0xA8004000, .push 0 1), (0xA8510001, .pop 5 4), (0xA8C1C003, .cbind 12 7), (0xA8C00004, .cfree 12),
      (0xB0328000, .mtsh 3 10), (0xB8000009, .wflag 9), (0xBC000000, .endGroup), (0xC0000012, .trap 0x12), (0xC4000000, .eret), (0xCC000005, .stop 5), (0xD4700000, .tnow 7)] = true := by
  decide +kernel
/-- R60: opcode 0x01, d in [25:20], a in [19:14], b in [13:8], fn in [7:0]. -/
theorem test_decode_alu :
    let w (fn : Nat) : Nat := 1 * 2 ^ 26 + 63 * 2 ^ 20 + 1 * 2 ^ 14 + 32 * 2 ^ 8 + fn
    reads 32 [(w 0, .add 63 1 32), (w 1, .sub 63 1 32), (w 2, .and 63 1 32), (w 3, .or 63 1 32), (w 4, .xor 63 1 32), (w 5, .shl 63 1 32),
      (w 6, .shr 63 1 32), (w 7, .sar 63 1 32), (w 8, .mul 63 1 32), (w 9, .mulhs 63 1 32), (w 10, .mulhu 63 1 32), (w 11, .divs 63 1 32)] = true ∧
    reads 32 [(w 12, .divu 63 1 32), (w 13, .rems 63 1 32), (w 14, .remu 63 1 32), (w 15, .min 63 1 32), (w 16, .minu 63 1 32), (w 17, .max 63 1 32),
      (w 18, .maxu 63 1 32), (w 19, .slt 63 1 32), (w 20, .sltu 63 1 32), (w 21, .seq 63 1 32), (w 22, .movz 63 1 32), (w 23, .movnz 63 1 32)] = true ∧
    decodeTableWord 32 (w 24) = none := by decide +kernel
/-- R59, R61, R94: the immediate words, the loads and stores with space in [13:11], the branches with cond in [13:11]. -/
theorem test_decode_imm_memory_branch :
    let w (op x : Nat) : Nat := op * 2 ^ 26 + 5 * 2 ^ 20 + 6 * 2 ^ 14 + x
    reads 32 [(w 2 0x2001, .addi 5 6 0x2001), (w 3 1, .andi 5 6 1), (w 4 1, .ori 5 6 1), (w 5 1, .xori 5 6 1), (w 6 63, .shli 5 6 63), (w 7 63, .shri 5 6 63),
      (w 8 63, .sari 5 6 63), (w 9 1, .slti 5 6 1), (w 10 1, .sltui 5 6 1)] = true ∧
    reads 32 [(w 0x10 0x0400, .lb 5 6 .g 0x400), (w 0x11 0x0801, .lbu 5 6 .s 1), (w 0x12 0x1002, .lh 5 6 .k 2), (w 0x13 0x1802, .lhu 5 6 .d 2), (w 0x14 4, .lw 5 6 .g 4),
      (w 0x15 4, .lwu 5 6 .g 4), (w 0x16 8, .ld 5 6 .g 8), (w 0x17 0x0FFF, .sb 5 6 .s 0x7FF), (w 0x18 2, .sh 5 6 .g 2), (w 0x19 4, .sw 5 6 .g 4), (w 0x1A 8, .sd 5 6 .g 8)] = true ∧
    reads 32 [(w 0x20 0x0001, .beq 5 6 1), (w 0x20 0x0801, .bne 5 6 1), (w 0x20 0x1001, .blt 5 6 1), (w 0x20 0x1801, .bge 5 6 1), (w 0x20 0x2001, .bltu 5 6 1), (w 0x20 0x2C00, .bgeu 5 6 0x400)] = true ∧
    (∀ x ∈ [w 6 64, w 0x14 0x2000, w 0x20 0x3000, w 0x21 0, w 0x0C 0], decodeTableWord 32 x = none) := by decide +kernel
/-- R59: the words with a function code, and those with special fields. -/
theorem test_decode_system :
    let s (op d a b fn : Nat) : Nat := op * 2 ^ 26 + d * 2 ^ 20 + a * 2 ^ 14 + b * 2 ^ 8 + fn
    reads 32 [(s 0x2A 5 12 0 2, .peek 5 12), (s 0x2B 3 4 0 0, .mtg 3 4), (s 0x2B 3 4 0 1, .mfg 3 4), (s 0x2B 3 4 0 2, .mfk 3 4 0), (s 0x2C 3 4 0 1, .mfsh 3 4), (s 0x34 0 4 5 0, .trc 4 5),
      (s 0x36 3 4 0 0, .ctrRd 3 4), (s 0x36 0 4 5 1, .ctrArm 4 5), (s 0x36 0 4 0 2, .ctrClr 4), (s 0x37 3 4 0 0, .elogRd 3 4), (s 0x37 0 4 0 1, .elogPop 4)] = true ∧
    reads 32 [(0x32 * 2 ^ 26 + 128 + 64, .safe 64 true), (0x38 * 2 ^ 26 + 4 * 2 ^ 14 + 0x1309, .mtsr 4 0x1309), (s 0x39 3 4 5 0, .ctxSave 3 4 5), (s 0x39 3 4 5 1, .ctxRest 3 4 5)] = true ∧
    (∀ x ∈ [s 0x24 1 4 0 0, s 0x2A 3 1 1 0, s 0x2B 3 4 0 3, 0x2F * 2 ^ 26 + 1, 0x25 * 2 ^ 26, 0], decodeTableWord 32 x = none) := by decide +kernel

/-- R62: opcode [95:88], type [87:84], d [76:68], A [67:57], B [56:46], C [45:35], and `low` bits [34:0]. -/
def lw96 (op ty d a b c low : Nat) : Nat := op * 2 ^ 88 + ty * 2 ^ 84 + d * 2 ^ 68 + a * 2 ^ 57 + b * 2 ^ 46 + c * 2 ^ 35 + low
/-- R62 to R66, R69: every field of a lane word at once: k !3, a channel destination and source, rounding, saturation, an immediate,
order and scope; a clause header, and the words with fields of their own. -/
theorem test_decode_lane_fields :
    reads 96 [(lw96 1 4 6 (0x600 + 11) 511 0 (5 * 2 ^ 32) + 3 * 2 ^ 80 + 2 ^ 79 + 2 ^ 77,
        .laneAdd { lW .f32 6 0 511 0 with k := 3, neg := true, dchan := true, a := zC 11, rnd := .rdyn }),
      (lw96 1 0 5 7 0 0 (2 ^ 25 + 2 ^ 24 + 0xFFFFFF) + 2 ^ 78, .laneAdd { lW .i32 5 7 0 0 with uni := true, sat := true, imm := true, x24 := 0xFFFFFF }),
      (lw96 0x52 3 4 6 8 6 (4 * 2 ^ 29 + 5 * 2 ^ 26 + 3 * 2 ^ 21), .atom { lW .n64 4 6 8 6 with ord := .sc, scp := .sys, x24 := 3 <<< 21 }),
      (0xC0 * 2 ^ 88, .clauseStart ⟨0, 0, false, 0, false, 0⟩), (0x27 * 2 ^ 88 + 3 * 2 ^ 80 + 5 * 2 ^ 54 + 9, .bra 3 false 9 5), (0x28 * 2 ^ 88 + 1 * 2 ^ 79, .lend 0 true),
      (0x29 * 2 ^ 88 + 2 * 2 ^ 80, .lnop 2 false), (0x88 * 2 ^ 88 + 5 * 2 ^ 54 + 511 * 2 ^ 35 + 9, .chpt 0 false 511 9 5)] = true := by decide +kernel
/-- R71: the arithmetic opcodes 0x01 to 0x26. -/
theorem test_decode_lane_alu :
    let w (op : Nat) : Nat := lw96 op 0 1 2 3 0 0
    let o (op : Nat) : Nat := lw96 op 0 1 2 0 0 0
    let x := lW .i32 1 2 3 0
    let y := lW .i32 1 2 0 0
    reads 96 [(w 1, .laneAdd x), (w 2, .laneSub x), (w 3, .laneMul x), (w 4 + 4 * 2 ^ 35, .mad (lW .i32 1 2 3 4)), (w 5, .div x), (w 6, .rem x), (o 7, .abs y), (o 8, .neg y),
      (w 9, .laneMin x), (w 0xA, .laneMax x), (w 0xB, .laneAnd x), (w 0xC, .laneOr x), (w 0xD, .laneXor x), (o 0xE, .not y), (w 0xF, .laneShl x), (w 0x10, .laneShr x)] = true ∧
    reads 96 [(w 0x11, .rot x), (w 0x12, .bfx x), (w 0x13 + 4 * 2 ^ 35, .bfi (lW .i32 1 2 3 4)), (o 0x14, .popc y), (o 0x15, .clz y), (w 0x16 + 5 * 2 ^ 35, .setp (lW .i32 1 2 3 5)),
      (w 0x17 + 4 * 2 ^ 35, .sel (lW .i32 1 2 3 4)), (o 0x18, .mov y), (o 0x19 + 11, .cvt { y with x24 := 11 }), (lw96 0x1A 4 2 4 0 0 3, .qnt { lW .f32 2 4 0 0 with x24 := 3 }),
      (lw96 0x1B 4 1 2 3 0 3, .dqnt { lW .f32 1 2 3 0 with x24 := 3 }), (lw96 0x1C 4 1 2 0 0 0, .frsq (lW .f32 1 2 0 0)), (lw96 0x1D 4 1 2 0 0 0, .frcp (lW .f32 1 2 0 0)),
      (lw96 0x1E 5 2 4 0 0 0, .xln (lW .f64 2 4 0 0)), (lw96 0x1F 4 1 2 0 0 0, .fexp (lW .f32 1 2 0 0))] = true ∧
    reads 96 [(o 0x20 + 2 * 2 ^ 35 + 5, .xmv { lW .i32 1 2 0 2 with x24 := 5 }), (o 0x21 + 5, .rdc { y with x24 := 5 }), (lw96 0x22 3 2 3 0 0 0, .ballot (lW .n64 2 3 0 0)),
      (lw96 0x23 1 1 2 0 0 9, .rng { lW .n32 1 2 0 0 with x24 := 9 }), (lw96 0x24 0 1 0 0 0 2, .lid { lW .i32 1 0 0 0 with x24 := 2 }), (w 0x25 + 2, .kop { x with x24 := 2 }),
      (lw96 0x26 4 1 2 0 0 0x3FF, .fcls { lW .f32 1 2 0 0 with x24 := 0x3FF })] = true ∧ decodeTableWord 96 (w 0) = none := by decide +kernel
/-- R71: the matrix opcodes 0x40 to 0x4A and the memory, engine and barrier opcodes 0x50 to 0x62. -/
theorem test_decode_lane_matrix_memory :
    reads 96 [(lw96 0x40 4 3 1 2 0 60, .mxl { lW .f32 3 1 2 0 with x24 := 60 }), (lw96 0x41 4 3 1 2 0 60, .mxb { lW .f32 3 1 2 0 with x24 := 60 }), (lw96 0x42 4 3 1 2 4 58, .mxs { lW .f32 3 1 2 4 with x24 := 58 }),
      (lw96 0x43 0 15 0 0 0 9, .tld { lW .i32 15 0 0 0 with x24 := 9 }), (lw96 0x44 0 0 15 0 0 9, .tst { lW .i32 0 15 0 0 with x24 := 9 }), (lw96 0x45 0 15 0 0 0 0, .tclr (lW .i32 15 0 0 0)),
      (lw96 0x46 0 15 1 0 0 0, .tmov (lW .i32 15 1 0 0)), (lw96 0x47 4 9 3 0 0 0x10000, .zrd { lW .f32 9 3 0 0 with x24 := 0x10000 }), (lw96 0x48 0 3 0 0 0 0, .zclr (lW .i32 3 0 0 0)),
      (lw96 0x49 0 3 0 0 0 9, .zld { lW .i32 3 0 0 0 with x24 := 9 }), (lw96 0x4A 0 0 3 0 0 9, .zst { lW .i32 0 3 0 0 with x24 := 9 })] = true ∧
    reads 96 [(lw96 0x50 1 1 2 0 0 (2 ^ 29 + 2 ^ 26 + 2 ^ 21), .laneLd { lW .n32 1 2 0 0 with ord := .acq, scp := .team, x24 := 1 <<< 21 }),
      (lw96 0x51 1 0 2 3 0 (2 * 2 ^ 29), .st { lW .n32 0 2 3 0 with ord := .rel }), (lw96 0x53 1 0 2 3 5 0, .red (lW .n32 0 2 3 5)), (lw96 0x54 1 1 2 3 4 (3 * 2 ^ 29), .cas { lW .n32 1 2 3 4 with ord := .ar }),
      (lw96 0x55 0 0 0 0 0 (4 * 2 ^ 29 + 4 * 2 ^ 26), .fence { lW .i32 0 0 0 0 with ord := .sc, scp := .dev }), (lw96 0x56 0 0 0 0 0 61, .cpy { lW .i32 0 0 0 0 with x24 := 61 }),
      (lw96 0x57 0 0 0 0 0 5, .cpyt { lW .i32 0 0 0 0 with x24 := 5 }), (lw96 0x58 0 0 2 0 0 5, .gath { lW .i32 0 2 0 0 with x24 := 5 }), (lw96 0x59 0 0 2 0 0 5, .scat { lW .i32 0 2 0 0 with x24 := 5 }),
      (lw96 0x5A 4 0 0 0 2 5, .coll { lW .f32 0 0 0 2 with x24 := 5 })] = true ∧
    reads 96 [(lw96 0x5B 0 9 0 0 0 0, .bclose (lW .i32 9 0 0 0)), (lw96 0x5C 0 9 2 0 0 1, .bwait { lW .i32 9 2 0 0 with x24 := 1 }), (lw96 0x5D 0 0 2 3 0 0, .barx (lW .i32 0 2 3 0)),
      (lw96 0x5E 0 9 2 3 0 0, .bara (lW .i32 9 2 3 0)), (lw96 0x5F 0 9 2 3 0 0, .barw (lW .i32 9 2 3 0)), (lw96 0x60 0 0 0 0 1 0x10F, .nbar { lW .i32 0 0 0 1 with x24 := 0x10F }),
      (lw96 0x61 0 0 2 4 7 0, .waitf (lW .i32 0 2 4 7)), (lw96 0x62 0 0 2 0 1 0, .pref (lW .i32 0 2 0 1))] = true ∧ decodeTableWord 96 (lw96 0x63 0 0 0 0 0 0) = none := by decide +kernel
/-- R71: the opcodes 0x80 to 0x90. -/
theorem test_decode_lane_claim_term :
    reads 96 [(lw96 0x80 0 8 2 0 0 0, .claim (lW .i32 8 2 0 0)), (lw96 0x81 0 8 2 0 0 0, .claimw (lW .i32 8 2 0 0)), (lw96 0x82 0 9 2 4 0 0, .fulfil (lW .i32 9 2 4 0)),
      (lw96 0x83 0 9 2 0 0 0, .abandon (lW .i32 9 2 0 0)), (lw96 0x84 0 8 2 0 3 0, .deref (lW .i32 8 2 0 3)), (lw96 0x85 0 9 2 4 0 0, .unify (lW .i32 9 2 4 0)), (lw96 0x86 0 9 2 4 0 0, .bind (lW .i32 9 2 4 0)),
      (lw96 0x87 0 9 2 4 0 (5 * 2 ^ 26), .bindg { lW .i32 9 2 4 0 with scp := .sys }), (lw96 0x89 0 3 0 0 0 0, .fail (lW .i32 3 0 0 0))] = true ∧
    reads 96 [(lw96 0x8A 0 8 2 0 1 5, .tag { lW .i32 8 2 0 1 with x24 := 5 }), (lw96 0x8B 0 0 2 0 0 255, .emit { lW .i32 0 2 0 0 with x24 := 255 }), (lw96 0x8C 0 9 0 4 0 0, .spawn (lW .i32 9 0 4 0)),
      (lw96 0x8D 0 8 0 3 0 0, .steal (lW .i32 8 0 3 0)), (lw96 0x8E 0 0 0 0 0 0, .yield (lW .i32 0 0 0 0)), (lw96 0x8F 0 0 0 0 0 0, .beat (lW .i32 0 0 0 0)), (lw96 0x90 0 0 0 0 0 0, .phase (lW .i32 0 0 0 0))] = true ∧
    decodeTableWord 96 (lw96 0x91 0 0 0 0 0 0) = none := by decide +kernel
/-- Lane words as the manual writes them: three 32-bit words from the lowest address up. -/
def w3 (x y z : Nat) : Nat := x + y * 2 ^ 32 + z * 2 ^ 64
/-- The manual's worked lane encodings. -/
theorem test_decode_worked_lane :
    reads 96 [(w3 0 0 0xC0600080, .clauseStart ⟨6, 0, true, 0, false, 0⟩), (w3 0 0 0xC0200100, .clauseStart ⟨2, 1, false, 0, false, 0⟩),
      (w3 0x01000008 0x00003000 0x04300020, .mad { lW .n64 2 0 0 0 with c := zC 0, imm := true, x24 := 8 }),
      (w3 0x02000000 0x04000000 0x07000020, .abs { lW .i32 2 2 0 0 with sat := true }), (w3 0 0x08018000 0x0A500040, .laneMax (lW .f64 4 4 6 0)),
      (w3 0x010000FF 0x02000000 0x0D100010, .laneXor { lW .n32 1 1 0 0 with imm := true, x24 := 0xFF }),
      (w3 0x01000808 0x08000018 0x13100030, .bfi { lW .n32 3 4 0 3 with imm := true, x24 := 0x808 })] = true := by decide +kernel

/-! ### Results of single instructions -/

/-- Scalar register n after an instruction. -/
def aAfter (o : Host.Outcome State Fault Refusal) (n : Nat) : Option Nat := match o with | .next s => some (readA s.g n).toNat | _ => none
/-- Vector register r of thread t after a lane word. -/
def vAfter (o : Host.Outcome State Fault Refusal) (r t : Nat) : Option Nat := match o with | .next s => some (readV s.g r t).toNat | _ => none
/-- The group with a1 and a2. -/
def sA (x y : Word) : State := inG tS fun g => { g with a := [(1, x), (2, y)] }
/-- The group with v2, v3 and v4 in thread 0. -/
def sV (x y z : VWord) : State := inG tS fun g => { g with v := mput (mput (mput [] 0 128 x) 0 192 y) 0 256 z }
/-- R89: the example, and the two cases defined by value. -/
theorem test_divide :
    aAfter (exec (.divs 5 1 2) (sA (-7) 2)) 5 = some (2 ^ 64 - 3) ∧ aAfter (exec (.rems 5 1 2) (sA (-7) 2)) 5 = some (2 ^ 64 - 1) ∧
    aAfter (exec (.divs 5 1 2) (sA (BitVec.ofNat 64 (2 ^ 63)) (-1))) 5 = some (2 ^ 63) ∧ aAfter (exec (.rems 5 1 2) (sA 9 0)) 5 = some 9 ∧
    aAfter (exec (.divu 5 1 2) (sA 9 0)) 5 = some (2 ^ 64 - 1) := by decide +kernel
/-- R88, R91: the high half of a product, the example of `lui`, and a write of a0, which is discarded. -/
theorem test_alu_values :
    aAfter (exec (.mulhu 5 1 2) (sA (-1) (-1))) 5 = some (2 ^ 64 - 2) ∧ aAfter (exec (.mulhs 5 1 2) (sA (-1) (-1))) 5 = some 0 ∧
    aAfter (exec (.lui 7 0x12345) tS) 7 = some 0x48D14000 ∧ aAfter (exec (.add 0 1 2) (sA 1 2)) 0 = some 0 := by decide +kernel
/-- R154, R157 to R159: the negation of the minimum, a shift count past the width, fields that cross the top, counts of bits. -/
theorem test_lane_values :
    vAfter (exec (.neg (lW .i32 1 2 0 0)) (sV 0x80000000 0 0)) 1 0 = some 0x80000000 ∧
    vAfter (exec (.neg { lW .i32 1 2 0 0 with sat := true }) (sV 0x80000000 0 0)) 1 0 = some 0x7FFFFFFF ∧
    vAfter (exec (.laneShr (lW .i32 1 2 3 0)) (sV 0x80000000 33 0)) 1 0 = some 0xC0000000 ∧
    vAfter (exec (.bfx (lW .i32 1 2 3 0)) (sV 0xF0000000 0x0A1C 0)) 1 0 = some 0xFFFFFFFF ∧
    vAfter (exec (.clz (lW .n32 1 2 0 0)) (sV 1 0 0)) 1 0 = some 31 ∧ vAfter (exec (.popc (lW .n32 1 2 0 0)) (sV 0xFF 0 0)) 1 0 = some 8 := by decide +kernel
/-- The packing of M8 codes of the lane chapter: three fields inserted. -/
theorem test_bfi_packs :
    vAfter (exec (.bfi { lW .n32 2 3 0 2 with imm := true, x24 := 0x0808 }) (sV 0x40 0x60 0)) 2 0 = some 0x6040 ∧
    vAfter (exec (.bfi { lW .n32 2 3 0 2 with imm := true, x24 := 0x0818 }) (sV 0xE06040 0xC0 0)) 2 0 = some 0xC0E06040 := by decide +kernel
/-- R115: the two codes that the number chapter reads: −(1 + 171/32) and 0.001 × (1 + 27/8). -/
theorem test_m8_values : m8Val 0xD3 = .num true (32 + 171) 32 ∧ m8Val 0x0B = .num false 35 8000 := by decide +kernel
/-! ### Encoding and the step -/

theorem wit_DecodeEncode : wellFormed (.add 5 6 7) = true ∧ encode (.add 5 6 7) = some (32, 0x04518700) := by decide +kernel
theorem wit_EncodeDecode : decodeTableWord 32 0x04518700 = some (.add 5 6 7) ∧
    decodeTableWord 96 (0x29 * 2 ^ 88 + 2 ^ 80) = some (.lnop 1 false) := by decide +kernel
theorem wit_ReservedOpcodesRefused : bits 0xFFFFFFFF 31 26 ∉ scalarOps ∧ bits (0xFF * 2 ^ 88) 95 88 ∉ laneOps := by decide +kernel
theorem wit_stepRunsScalarWord :
    let s := State.reset.withFetchWord 32 0x04518700
    let g := s.g.uid
    let u := focus (passTime { s with agenda := [] } 1) g
    s.agenda = [.scalar g] ∧ g ≠ 0 ∧ u.g.uid = g ∧ mayIssue u u.g u.t u.l.ctx = true ∧ u.g.atEnd = false ∧ u.g.swait = .go ∧
    fetch4 u false u.t.core u.l.ctx u.g.pc.toNat = .word 0x04518700 ∧ okIs (decodeScalar 0x04518700) (.add 5 6 7) = true ∧
    (∀ n ∈ readsA (.add 5 6 7), n ∉ u.g.pzA) ∧ (∀ n ∈ readsUS (.add 5 6 7), n ∉ u.g.pzU) := by decide +kernel
/-- A lane word that starts an operation, at the group's next step. -/
def tLane : State := State.reset.withFetchWord 96 (lw96 0x1C 4 1 2 0 0 0)
theorem wit_stepRunsLaneWord :
    let i := Instr.frsq (lW .f32 1 2 0 0)
    let g := tLane.g.uid
    let u := focus (passTime { tLane with agenda := [] } 1) g
    let v := { u with fi := 0 }
    tLane.agenda = [.lane g 0] ∧ g ≠ 0 ∧ u.g.uid = g ∧ mayIssue u u.g u.t u.l.ctx = true ∧ u.g.task.isSome = true ∧
    (fget u.g.frs 0).any (fun f => f.wait == .go && f.idx != 0 && f.code[f.idx - 1]? == some (lw96 0x1C 4 1 2 0 0 0) && !flagsFull u.g f) = true ∧
    okIs (decodeLane (BitVec.ofNat 96 (lw96 0x1C 4 1 2 0 0 0))) i = true ∧ midOp v = none ∧ (∀ n ∈ vNamed i, n ∉ pendingRegs u.g) ∧
    isLong i = true ∧ activeOf v (guardOf i).1 (guardOf i).2 ≠ 0 ∧
    isPoisoned v i (activeOf v (guardOf i).1 (guardOf i).2) = false ∧ u.t.small = true := by decide +kernel
/-- Two groups of partition 0 at a word that adds; the second one is the elder. -/
def tRival : State :=
  let s := inG (placeBytes tS 0x110000 (leBytes 4 0x04518700)) fun g => { g with born := 5 }
  { s with groups := [{ tG with uid := 8, idx := 4, born := 1 }] }
theorem wit_slotChoice :
    let on (s : State) := inG s fun g => { g with pc := g.pc + 4 }
    let c : SlotCand := ⟨1, 0, (0, 0), 0, false⟩
    let last : LastIss := { core := 0, part := 0, lane := false, uid := 1, entry := 0, age := (0, 0) }
    scalarMoved 1 tS tS = false ∧ scalarMoved 1 tS (on tS) = true ∧ mover tS false 0 = some c ∧ rivals tS false 0 = [] ∧
    scalarMoved 1 tRival (on tRival) = true ∧ mover tRival false 0 = some { c with age := (5, 0) } ∧
    (rivals tRival false 0).map (fun x => x.uid) = [8] ∧
    (chooseCand (bit (lw tRival.l 2) 44) (lastOn tRival 0 0 false) ({ c with age := (5, 0) } :: rivals tRival false 0)).any (fun x => x.uid == 8) = true ∧
    (let again := { tRival with lastIss := [{ last with age := (5, 0) }] }
     (rivals again false 0).map (fun x => x.uid) = [8] ∧ (mover again false 0).map (fun x => x.uid) = some 1 ∧
     (chooseCand (bit (lw again.l 2) 44) (lastOn again 0 0 false) ({ c with age := (5, 0) } :: rivals again false 0)).any (fun x => x.uid == 1 && x.entry == 0) = true) ∧
    urgent { c with cnt := 256 } = true ∧ urgent c = false ∧ urgent { c with cnt := 256, low := true } = false ∧
    last.uid = c.uid ∧ last.entry = c.entry ∧ c.low = false := by decide +kernel
theorem wit_stepMakesMove : isMove .trainingComplete = true ∧ State.reset.agenda = [] ∧
    pick { State.reset with dumps := [{ ctx := 0, first := { ctx := 0, cause := .bounds } }] } = some (.ev .dumpWrite) ∧
    State.reset.service ≠ .mailbox ∧ { State.reset with service := .mailbox }.service = .mailbox := by decide +kernel
theorem wit_StepKeepsMemoryForm : Memory.wf State.reset ∧ mwf (fun _ => (0 : Byte)) State.reset.dscr = true ∧
    goes (step State.reset) = true := by decide +kernel

/-! ### The scalar stream -/

theorem wit_ScalarControl :
    (readA tS.g (1 : Reg).toNat).toNat % 4 = 0 ∧ (readA tS.g (2 : Reg).toNat).toNat % 4 ≠ 0 ∧
    (List.replicate 7 (0 : Word)).length < 8 ∧ 8 ≤ (List.replicate 8 (0 : Word)).length ∧
    (∀ n, n < 12 → bit (5 : BitVec 12).toNat n = true → mget (tS.g.fl) 0 n = 0) ∧
    (∃ n, n < 12 ∧ bit (5 : BitVec 12).toNat n = true ∧ mget [(2, 1)] 0 n ≠ 0) ∧
    (64 : BitVec 7).toNat ≤ 64 ∧ tS.t.small = true ∧ tS.g.task.isSome ∧ (inG tS fun g => { g with task := none }).g.taskq = [] := by decide +kernel

theorem wit_scalarLoadsFromScratchpad :
    let s := inG tS fun g => { g with a := [(1, 65528)] }
    let ea := ea92 s 1 0
    s.t.uid ≠ 0 ∧ ea % 8 = 0 ∧ ea + 8 = s.t.scrB ∧ s.path = [] ∧ s.locks = [] ∧ s.t.pzS = [] := by decide +kernel
/-- Loads and stores: a misaligned place, one past the region, one in memory, one whose page is away, a locked one. -/
theorem wit_scalarAccesses :
    let lk : Lock := { op := 9, ctx := 0, sp := .s, holder := 2, lo := 0, hi := 8, dst := true }
    let chk (s : State) (sp : Space) (k : AKind) (ea : Nat) := checkAcc s s.g.uid s.t s.l.ctx 0 sp k ea 8 8
    chk tS .s .load 6 = .bad .misaligned ∧ chk tS .s .store 65536 = .bad .bounds ∧ isOk (chk tS .s .load 0) = true ∧
    isAway (chk tS .g .load vaAway) = true ∧ isAway (chk tS .g .store vaAway) = true ∧
    (match chk { tS with locks := [lk] } .s .store 0 with | .ok a => locked { tS with locks := [lk] } 0 a true && !locked tS 0 a true | _ => false) = true ∧
    (match chk { tS with locks := [lk] } .s .load 0 with | .ok a => locked { tS with locks := [lk] } 0 a false | _ => false) = true ∧
    gotOf (scalarRead tS .g 0x200000 8) = some 0 ∧ (faultOf (scalarRead tS .g (2 ^ 41) 8)).isSome = true := by decide +kernel
theorem wit_fatalFault : tS.l.ctx < 256 ∧ ctxState tS tS.l.ctx = 1 := by decide +kernel
theorem wit_scalarChannels :
    (3 : Reg).toNat < 4 ∧ (mget [(3, List.replicate 15 (0 : Word))] [] 3).length < 16 ∧ 16 ≤ (mget [(3, List.replicate 16 (0 : Word))] [] 3).length ∧
    4 ≤ (7 : Reg).toNat ∧ (7 : Reg).toNat < 8 ∧ mget [(7, [5, 6])] [] 7 = (5 : Word) :: [6] ∧ mget tS.g.ch [] 7 = [] ∧
    12 ≤ (15 : Reg).toNat ∧ (15 : Reg).toNat < 16 ∧ bindOf tS.g 15 = none := by decide +kernel
theorem wit_scalarBindings :
    let s := inG tS fun g => { g with task := none, a := [(1, 2 ^ 63 + 8), (2, 2 ^ 63 + 6)] }
    let b : Bind := { chan := 12, kind := 0, vec := false }
    let q : WinReq := { id := 70, kind := .load, peer := true, ctx := 0, owner := .stream 1, pa := 0, n := 8, t := 12 }
    tS.g.task.isSome = true ∧ (teamOfRank tS tS.t (5 / 2 ^ 16 % 16)).map (fun t => t.uid) = some tS.t.uid ∧ 5 / 2 ^ 8 % 16 = tS.g.idx ∧
    (∃ r ∈ { s with wins := [q] }.wins, r.owner = .stream s.g.uid ∧ r.t = 12) ∧ s.wins = [] ∧ b.buf = [] ∧ { b with buf := [0] }.buf ≠ [] ∧
    s.g.task = none ∧ s.g.taskq = [] ∧ (bindOfWord s 12 (readA s.g 1).toNat).isSome = true ∧ bindOfWord s 12 (readA s.g 2).toNat = none ∧
    bindOf s.g 12 = none ∧ (bindOf (inG s fun g => { g with bind := [b] }).g 12).isSome = true ∧
    chanLen { s.g with bind := [b] } 12 = 0 ∧ (∀ e ∈ s.path, ¬ (e.owner = .stream s.g.uid ∧ e.t = 12)) ∧
    (bindOf { s.g with bind := [b] } 12).map (fun x => (x.kind, x.vec)) = some (0, false) ∧
    (∀ k < 4, (bindOf { s.g with bind := [{ b with kind := k }] } 12).map (fun x => x.kind) = some k) := by decide +kernel
theorem wit_scalarToLaneRegisters :
    let s := inG tS fun g => { g with task := none }
    s.g.task = none ∧ s.g.taskq = [] ∧ tS.g.task.isSome = true ∧ (inG s fun g => { g with taskq := [4] }).g.taskq ≠ [] ∧
    shapeOk shapeReset.toNat = true ∧ shapeOk 0xFFFFF = false := by decide +kernel
theorem wit_scalarSystemWords :
    let c1 := inL tS fun l => { l with ctx := 1 }
    (∀ p ∈ programNumbers tS, p.1 < 0x100) ∧ tS.l.ctx = 0 ∧ c1.l.ctx ≠ 0 ∧ sysAssigned 0x100 = true ∧ 0x100 ≤ (0x100 : BitVec 14).toNat ∧
    progRead tS 0x00B = none ∧ sysAssigned 0x101 = false ∧ tS.path = [] ∧ tS.inq = [] ∧
    (∃ e ∈ { tS with path := [tE] }.path, e.owner = .group tS.g.uid) ∧
    sysBit tS (0x3700 + tS.l.ctx) 0 = false ∧ sysBit (sysPut tS 0x3700 1) (0x3700 + tS.l.ctx) 0 = true ∧ (∀ p ∈ tS.stops, p.core ≠ tS.t.core) ∧
    tS.t.core < 256 ∧ ctrOwned tS 0 ≠ none ∧ ctrOwned c1 0 = none ∧ ctrOwned (sysPut c1 0x1600 (2 ^ 63 + 256)) 0 ≠ none := by decide +kernel
theorem wit_scalarErrorLogs :
    let x : Nat := (0 : Word).toNat
    bit x 3 = false ∧ bit 4 2 = true ∧ bit 8 3 = true ∧ bit 12 3 = true ∧ bit 12 2 = true := by decide +kernel

/-! ### Traps -/

/-- Context 0 with a handler, and its frames at 0x200000. -/
def tTrap : State := sysPut (sysPut tS (rRec 0 0) (2 ^ 63 + 0x110000)) (rRec 0 1) 0x200000
def stores4 : List (Nat × Nat) := [(0, 1), (8, 4), (0x10, 5), (0x18, 1)]
theorem wit_HandledTrapEntry :
    let f (s : State) := ((sextW (sysBits s (rRec s.l.ctx 1) 56 5 * 32) 57).toNat + 32 * (16 * s.t.idx + s.g.idx)) % 2 ^ 64
    let busy := placeBytes tTrap 0x200018 [1]
    tS.t.core < 256 ∧ tS.l.ctx < 256 ∧ sysBit tS (rRec 0 0) 63 = false ∧ sysBit tTrap (rRec 0 0) 63 = true ∧ f tTrap = 0x200000 ∧
    gotOf (scalarRead tTrap .g 0x200018 8) = some 0 ∧ gotOf (scalarRead busy .g 0x200018 8) = some 1 ∧
    (gotOf (frameStores tTrap 0x200000 stores4)).isSome = true ∧
    (faultOf (scalarRead (sysPut tTrap (rRec 0 1) (2 ^ 41)) .g (2 ^ 41 + 0x18) 8)).isSome = true ∧
    (faultOf (frameStores { tTrap with locks := [{ op := 9, ctx := 0, sp := .g, holder := 0, lo := 0x200000, hi := 0x200008, dst := false }] }
      0x200000 stores4)).isSome = true := by decide +kernel
theorem wit_TrapReturn :
    let fr := inG tTrap fun g => { g with frame := some 0x200000 }
    tS.g.frame = none ∧ fr.g.frame = some 0x200000 ∧ gotOf (scalarRead fr .g 0x200000 8) = some 0 ∧
    gotOf (scalarRead (placeBytes fr 0x200000 [2]) .g 0x200000 8) = some 2 ∧ (gotOf (scalarWrite fr .g 0x200018 8 0)).isSome = true ∧
    (faultOf (scalarRead fr .g (2 ^ 41) 8)).isSome = true ∧
    (faultOf (scalarWrite { fr with locks := [{ op := 9, ctx := 0, sp := .g, holder := 0, lo := 0x200018, hi := 0x200020, dst := false }] }
      .g 0x200018 8 0)).isSome = true := by decide +kernel
theorem wit_scalarFetchFaults :
    (match fetch4 tS false 0 0 (2 ^ 41) with | .bad _ _ => true | _ => false) = true ∧
    (match fetch4 tS false 0 0 vaAway with | .away _ => true | _ => false) = true := by decide +kernel

/-! ### Partitions -/

def tStop : State := { tS with stops := [⟨0, 0, 2, 5⟩] }
/-- Core 1 holds no team: its records are few enough to be read by evaluation. The buffer holds them as they were saved. -/
theorem wit_scalarPartitionWords :
    let st : State := { tS with stops := [⟨1, 0, 2, 5⟩] }
    let one : State := placeBytes st 0x200000 ((partBodies st 1 0).flatMap (fun x => dumpRec x.1 0 x.2))
    let n := (partBodies one 1 0).foldl (fun n x => n + 16 + x.2.length) 0
    (inL tS fun l => { l with ctx := 1 }).l.ctx ≠ 0 ∧ isStopped tS 0 0 = false ∧ isStopped tStop 0 0 = true ∧ isStopped one 1 0 = true ∧
    0x200000 % 16 = 0 ∧ n % 16 = 0 ∧ (iota 0 (n + 16)).all (fun k => inMem one (0x200000 + k)) = true ∧ one.winVals = [] ∧
    (match physRead one 0x200000 (n / 16) with
      | .inl data => decide (n ≤ data.length) && (match splitRecs (partBodies one 1 0) data with
        | some l => restOk 0 (partGroups one 1 0) (partBodies one 1 0) l
        | none => false)
      | .inr _ => false) = true := by decide +kernel

theorem physRead_window (s : State) (pa k : Nat) (hu : paKind s pa ≠ .unmapped) (hw : isWindow s pa = true)
    (ha : (match winRead s (.group s.g.uid) restName s.l.ctx pa 16 with | .inr _ => true | .inl _ => false) = true) :
    ∃ pas, physRead s pa (k + 1) = .inr pas := by
  simp only [physRead, hu, hw, if_true, if_false]
  revert ha
  cases winRead s (.group s.g.uid) restName s.l.ctx pa 16 with
  | inl d => simp
  | inr l => intro _; cases physRead s (pa + 16) k with
    | inl r => exact ⟨_, rfl⟩
    | inr m => exact ⟨_, rfl⟩
theorem partBodies_size (s : State) (c p : Nat) (h : (running s c).isSome = true) :
    16 ≤ (partBodies s c p).foldl (fun n x => n + 16 + x.2.length) 0 := by
  obtain ⟨t, ht⟩ := Option.isSome_iff_exists.1 h
  simp only [partBodies, ht, List.foldl_append, List.foldl_cons, List.foldl_nil]
  omega
/-- Of the stopped partition of core 0 there are records, and a buffer in the host window holds bytes that must be asked for. -/
theorem wit_scalarPartitionWindow :
    tStop.l.ctx = 0 ∧ isStopped tStop 0 0 = true ∧ 0x40000000000 % 16 = 0 ∧
    ∃ pas, physRead tStop 0x40000000000 ((partBodies tStop 0 0).foldl (fun n x => n + 16 + x.2.length) 0 / 16) = .inr pas := by
  refine ⟨by decide +kernel, by decide +kernel, by decide +kernel, ?_⟩
  have hr : (running tStop 0).isSome = true := by decide +kernel
  have hn := partBodies_size tStop 0 0 hr
  revert hn
  generalize (partBodies tStop 0 0).foldl (fun n x => n + 16 + x.2.length) 0 = n
  intro hn
  obtain ⟨k, hk⟩ : ∃ k, n / 16 = k + 1 := ⟨n / 16 - 1, by omega⟩
  rw [hk]
  exact physRead_window tStop _ k (by decide +kernel) (by decide +kernel) (by decide +kernel)

/-! ### The lane stream -/

def lnopBytes : List Byte := leBytes 12 (0x29 * 2 ^ 88)
def tH : Header := { len := 0, wait := 0x800, av := false, fa := 0, bv := false, fb := 0 }
theorem wit_laneTasksAndClauses :
    let idle := inG tS fun g => { g with task := none, frs := [], taskq := [0x110000, 4] }
    let one := placeBytes tS 0x11000C lnopBytes
    let up := inG tS fun g => { g with fl := [(11, 1)] }
    (focus idle 1).g.task = none ∧ (focus idle 1).g.taskq = 0x110000 :: [4] ∧ fget tS.g.frs tS.fi = some tF ∧
    tF.rcv ≠ some tF.pc ∧ tS.g.held = [] ∧ tF.back = [] ∧ (∀ i, i < 12 → bit tH.wait.toNat i = true → mget tS.g.fl 0 i = 0) ∧
    checkWords one tF.pc 1 1 1 = .ok [0x29 * 2 ^ 88] ∧ (∀ i, i < 12 → bit (rawWait (2 ^ 95)) i = true → mget tS.g.fl 0 i = 0) ∧ one.t.small = true ∧ (inG one fun g => { g with nClause := 511 }).g.nClause < 512 ∧
    checkWords tS tF.pc 1 1 1 = .illegal 1 ∧ (∃ i, i < 12 ∧ bit tH.wait.toNat i = true ∧ mget up.g.fl 0 i ≠ 0) := by decide +kernel
def tFull : List (Nat × Frag) := (iota 0 8).map (fun i => (i, { tF with id := 10 + i }))
theorem wit_laneBranch :
    let follow := BitVec.ofNat 64 ((tF.pc.toNat + 12 * (tF.len + 1)) % 2 ^ 64)
    let tgt := BitVec.ofNat 64 (lcBase tS.l + 4 * 0x100)
    let half := inG tS fun g => { g with k := [(1, 0xFFFFFFFF)] }
    let full := inG half fun g => { g with frs := tFull }
    let ovf := inG full fun g => { g with held := List.replicate 16 { mask := 1, pc := 0, rejoin := none } }
    tF.idx = tF.len ∧ tF.mask &&& ~~~(readK tS.g 0) = 0 ∧ tF.rcv ≠ some follow ∧ tF.mask &&& readK tS.g 0 = tF.mask ∧ tF.mask ≠ 0 ∧
    tF.rcv ≠ some tgt ∧ tF.mask &&& readK half.g 1 ≠ 0 ∧ tF.mask &&& readK half.g 1 ≠ tF.mask ∧
    freeEntry half.g.frs = some 1 ∧ fget full.g.frs full.fi = some { tF with id := 10 } ∧ freeEntry full.g.frs = none ∧
    16 ≤ ovf.g.held.length ∧ activeOf ovf 1 false ≠ 0 ∧ activeOf ovf 1 false ≠ tF.mask := by decide +kernel
theorem wit_laneEndAndNop :
    let two := { tF with len := 2 }
    let half := { tF with mask := 1 }
    let s := inG tS fun g => { g with frs := [(0, half)] }
    two.idx < two.len ∧ fget (inG tS fun g => { g with frs := [(0, two)] }).g.frs tS.fi = some two ∧ tF.len ≤ tF.idx ∧
    tF.mask = BitVec.allOnes 64 ∧ half.mask ≠ BitVec.allOnes 64 ∧ s.g.frs = [(s.fi, half)] := by decide +kernel

/-! ### Lane operands and results -/

def oR (n : BitVec 9) : Opnd := { chan := false, pop := false, idx := n }
def oC (n : BitVec 9) : Opnd := { chan := true, pop := true, idx := n }
/-- A word of a type, with d 4 and sources 0, 2 and 6. -/
def tW (ty : LType) : LaneW :=
  { ty := ty, k := 0, neg := false, uni := false, dchan := false, d := 4, a := oR 0, b := oR 2, c := oR 6, rnd := .rn, ord := .rlx,
    scp := .grp, sat := false, imm := false, x24 := 0 }
theorem wit_laneOperands :
    let s := inG tS fun g => { g with ch := [(7, [5, 6])], chv := [(11, [[1, 2]])] }
    let w := { tW .n32 with a := oC 7, b := oC 7 }
    (oR 4).chan = false ∧ tyWide .n32 = false ∧ tyWide .n64 = true ∧ (oC 7).chan = true ∧ (oC 7).idx.toNat < 8 ∧
    wordQ s.g 7 = (5 : Word) :: [6] ∧ 8 ≤ (oC 11).idx.toNat ∧ (oC 11).idx.toNat < 12 ∧ vecQ s.g 11 = [1, 2] :: [] ∧
    w.a.chan = true ∧ w.a.pop = true ∧ w.b.idx = w.a.idx ∧ w.imm = false := by decide +kernel
theorem wit_laneResults :
    (∀ ty ∈ [LType.i8, .n8, .i16, .i32, .n32, .i64, .n64], tyInt ty = true) ∧ (∀ ty ∈ [LType.f16, .bf16, .f32, .f64], tyFloat ty = true) ∧
    (∀ ty ∈ [LType.i32, .n32, .i64, .n64], tyI4 ty = true) ∧ chansReady tS (tW .n32) = .ok ∧
    chansReady (inG tS fun g => { g with ch := [(7, [5, 6])] }) { tW .n32 with a := oC 7, b := oC 7 } = .ok ∧
    (inG tS fun g => { g with ch := [(0, List.replicate 15 0)] }).g.ch ≠ [] ∧
    (∀ cc < 6, ((tW .n32).c.idx.toNat % 6 + cc) < 6) ∧ (7 : BitVec 9).toNat < 8 ∧ fval fmt32 0x3F800000 = .num false 8388608 8388608 ∧
    0x3F800000 < 2 ^ fmtWidth fmt32 := by decide +kernel
theorem wit_crossLane :
    let mate := { tF with lin := [{ id := 7, rcv := none, hm := true }] }
    let s := inG tS fun g => { g with frs := [(0, mate)] }
    (curF tS).lin = [] ∧ 1 ≤ (1 : BitVec 24).toNat ∧ (3 : BitVec 24).toNat ≤ 3 ∧ fget s.g.frs s.fi = some mate ∧
    (∀ p ∈ s.g.frs, p.1 ≠ s.fi → p.2.wait ≠ .cross) := by decide +kernel
theorem wit_conversions :
    tyOfCode 11 ≠ none ∧ (11 : BitVec 24).toNat < 12 ∧ tyOfCode 0 ≠ none ∧ (3 : BitVec 24).toNat < 4 ∧
    (∃ c < 12, tyOfCode c = some .i32) ∧ (∃ c < 12, tyOfCode c = some .f32) ∧ (∃ c < 12, tyOfCode c = some .m8) := by decide +kernel

theorem wit_laneChannelWaits :
    let b : Bind := { chan := 12, kind := 0, vec := false }
    let bound (k : Nat) := inG tS fun g => { g with bind := [{ b with kind := k }] }
    fget tS.g.frs tS.fi = some tF ∧ (tW .n32).b.chan = false ∧ wordQ tS.g 7 = [] ∧ vecQ tS.g 11 = [] ∧
    16 ≤ (wordQ (inG tS fun g => { g with ch := [(7, List.replicate 16 0)] }).g 7).length ∧
    4 ≤ (vecQ (inG tS fun g => { g with chv := [(11, List.replicate 4 [])] }).g 11).length ∧ bindOf tS.g 12 = none ∧ 12 ≤ (12 : BitVec 9).toNat ∧
    (∀ k < 4, (bindOf (bound k).g 12).map (fun x => x.kind) = some k) := by decide +kernel
/-- An operation of the issuing group that is due. -/
def tO (k : OpKind) : LOp := { id := 20, kind := k, left := 1 }
theorem wit_LaneSpecialFunctions :
    let s := inG tS fun g => { g with ops := [tO .special] }
    active tS (tW .f32) ≠ 0 ∧ (1 : Nat) ≠ 0 ∧ (getG s 1).map (fun g => getOp g 20) = some (some (tO .special)) ∧
    (tO .special).left = 1 ∧ (tO .special).parts = [] := by decide +kernel

/-! ### The matrix unit -/

def tM (k : MKind) : MEnt := { id := 30, kind := k, group := 1, op := 20, hdr := 0x110000, entry := 0, act := BitVec.allOnes 64, ty := .f32, d := 1, a := 0, b := 1 }
/-- The team with an entry at the head of its queue. -/
def inQ (e : MEnt) : State := inT (inG tS fun g => { g with ops := [tO .matrix] }) fun t => { t with mq := [e] }
def sixteen (s : State) : State := inT s fun t => { t with shapes := [(0, 0x4000F), (1, 0x40F00)] }
theorem wit_MatrixIssueAndChecks :
    let w := { tW .f32 with a := oR 0, b := oR 1, x24 := 64 * 8 + 4096 * 9 }
    let s := inG tS fun g => { g with u := [(8, 4), (9, 4)] }
    let full := inT tS fun t => { t with mq := List.replicate 16 (tM .tclr) }
    let bad := inG tS fun g => { g with u := [(8, 3), (9, 9)] }
    let ok := inT s fun t => { t with shapes := [(0, 0x40000), (1, 0x40000)] }
    let wide := inT s fun t => { t with shapes := [(0, 0x40100), (1, 0x40000)] }
    let ent (s : State) (sparse blocks : Bool) : Bool := match loopPlan w sparse blocks s (Say.matrixEntry s w) with | .ent _ => true | _ => false
    let kept (s : State) : Bool := fmtBlockOk s 4 && 4 == shFmt (shapeGet s.t 0) && 4 == shFmt (shapeGet s.t 1)
    (curF tS).lin = [] ∧ active s w ≠ 0 ∧ s.t.mq.length < 16 ∧ 16 ≤ full.t.mq.length ∧
    active tS { w with neg := true } = 0 ∧ (readU bad.g 8).toNat % 16 < 4 ∧ 8 < (readU bad.g 9).toNat % 16 ∧
    (readU s.g 0).toNat / 2 ^ 60 = 0 ∧ bits (readU s.g 0).toNat 59 57 ≤ 3 ∧ (addrOf (readU s.g 0).toNat).2 % 8 = 0 ∧
    (readU { s.g with u := [(0, 2 ^ 60)] } 0).toNat / 2 ^ 60 ≠ 0 ∧ ent ok false false = true ∧ ent (sixteen s) false true = true ∧
    ent (inT ok fun t => { t with shapes := [(0, 0x40300), (1, 0x40007), (6, 0xA0000)] }) true false = true ∧
    kept wide = true ∧ shRows (shapeGet wide.t 1) ≠ shCols (shapeGet wide.t 0) ∧ shRows (shapeGet ok.t 0) % 16 ≠ 0 := by decide +kernel
theorem wit_matrixSteps :
    (∀ k ∈ [MKind.tclr, .zclr, .tmov, .loop false false false false, .zrd false 0 0],
      let s := inQ (tM k)
      getT s 2 = some s.t ∧ s.t.mq = tM k :: [] ∧ mwf (fun _ => (0 : Byte)) s.t.tiles = true ∧ mwf (fun _ => (0 : Byte)) s.t.accs = true ∧
      (tM k).fin = false ∧ s.t.slot = .running ∧ ctxState s (launchOfT s s.t).ctx = 1 ∧ heldBack s (tM k).id = false ∧ s.t.pzT = [] ∧
      s.t.pzZ = [] ∧ (tM k).group ≠ 0 ∧ (tM k).uni = false ∧ getG s 1 = some s.g ∧ getOp s.g 20 = some (tO .matrix)) ∧
    stepsOf { tM (.loop false false false false) with shA := 0, desc := [0, 0, 0, 0] } = 0 := by decide +kernel
theorem wit_MatrixProducts :
    let e := { tM (.loop false false false false) with shA := 0x40000, shB := 0x40000, fA := 4, fB := 4, d := 2,
                                                       desc := [0x200000, 0x200000, 0, 2 ^ 32] }
    let s := inQ e
    getT s 2 = some s.t ∧ s.t.mq = e :: [] ∧ s.t.pzZ = [] ∧ e.fin = false ∧ s.t.slot = .running ∧ ctxState s (launchOfT s s.t).ctx = 1 ∧
    heldBack s e.id = false ∧ s.t.stamps = [] ∧ stepsOf e ≠ 0 ∧ loopN e ≤ viewCols e.ty ∧ loopM e ≤ 128 ∧
    (match mPanels s s.t e (loopLoads e false e.step) [] with | .inr _ => true | _ => false) = true := by decide +kernel
/-- A first step that starts from zero, and a step of a sparse loop of two groups of four. -/
theorem wit_loopStep :
    let z := { tM (.loop false false true false) with shA := 0x40000, shB := 0x40000, fA := 4, fB := 4, d := 2, desc := [0x200000, 0x200000, 0, 2 ^ 32] }
    let sp := { z with kind := .loop true false true false, shA := 0x40300, shB := 0x40007, c := 3, desc := [0x200000, 0x200000, 0, 2 ^ 32, 0x200000, 0] }
    let s0 (e : MEnt) (sparse : Bool) (blocks : Bool) : State := updT (inQ e) 2 (fun t => if sparse then loopZero t e blocks else loopZero t e blocks)
    (∀ p ∈ [(z, false), (sp, true)], stepsOf p.1 ≠ 0 ∧ p.1.step = 0 ∧ p.1.d < 4 ∧ loopN p.1 ≤ viewCols p.1.ty ∧ loopM p.1 ≤ 128 ∧ heldBack (inQ p.1) 30 = false ∧
      (match mPanels (s0 p.1 p.2 false) ((getT (s0 p.1 p.2 false) 2).getD tT) p.1 (loopLoads p.1 p.2 0) [] with | .inr _ => true | _ => false) = true) ∧
    (0 : Nat) < [1, 2, 3, 4].length / 2 ∧ (3 : Nat) < 4 := by decide +kernel
def mGot : MRds → Bool | .got _ _ => true | _ => false
def mAway : MRds → Bool | .wait _ _ => true | _ => false
def mAll : MSts → Bool | .all _ => true | _ => false
def mStop : MSts → Bool | .away _ _ => true | _ => false
theorem wit_matrixTransferSteps :
    let e (k : MKind) (va : Nat) : MEnt := { tM k with shA := 0x40000, desc := [va] }
    let row (va z n : Nat) : List Nat := (iota 0 n).map (fun k => va + k * z)
    let sts (k : MKind) (va : Nat) (z : Nat) (d : List Byte) : MSts :=
      mStores (inQ (e k va)) (inQ (e k va)).t (e k va) .g 0 ((List.zip (row va z (d.length / z)) (chunks z (d.length / z) d)).drop 0)
    (∀ k ∈ [MKind.tld, .tst, .zld, .zst], (inQ (e k 0x200000)).t.mq = e k 0x200000 :: [] ∧ (e k 0x200000).fin = false ∧ heldBack (inQ (e k 0x200000)) 30 = false ∧
      ctxState (inQ (e k 0x200000)) 0 = 1) ∧
    (addrOf 0x200000).2 = 0x200000 ∧ tT.pzT = [] ∧ tT.pzZ = [] ∧ shSize 0x40000 = 4 ∧ shCols 0x40000 = 1 ∧ shRows 0x40000 = 1 ∧
    mGot (mLoads (inQ (e .tld 0x200000)) (inQ (e .tld 0x200000)).t (e .tld 0x200000) .g 4 (row 0x200000 4 1)) = true ∧
    mGot (mLoads (inQ (e .zld 0x200000)) (inQ (e .zld 0x200000)).t (e .zld 0x200000) .g 8 (row 0x200000 8 64)) = true ∧
    (∀ k ∈ [MKind.tld, .zld], mAway (mLoads (inQ (e k vaAway)) (inQ (e k vaAway)).t (e k vaAway) .g 4 (row vaAway 4 1)) = true) ∧
    mAll (sts .tst 0x200000 4 [1, 2, 3, 4]) = true ∧ mAll (sts .zst 0x200000 8 (List.replicate 512 0)) = true ∧ mStop (sts .tst vaAway 4 [1, 2, 3, 4]) = true := by
  decide +kernel
theorem wit_matrixCompletion :
    let e := { tM .tclr with fin := true }
    let s := inQ e
    getT s 2 = some s.t ∧ s.t.mq = e :: [] ∧ e.group ≠ 0 ∧ getG s 1 = some s.g ∧ getOp s.g 20 = some (tO .matrix) ∧ (tO .matrix).left = 1 ∧
    e.fin = true ∧ (tM .tclr).fin = false := by decide +kernel

/-! ### Lane memory -/

/-- A memory word of a space for thread 0 alone, with its address in the pair 0 and its data in register 2. -/
def tMem (ty : LType) (sp : BitVec 24) : LaneW := { tW ty with k := 1, x24 := sp <<< 21 }
/-- Thread 0 is active under k1 and has address x. -/
def tAt (x : Nat) : State := inG tS fun g => { g with k := [(1, 1)], v := mput (mput [] 0 0 (BitVec.ofNat 32 x)) 0 64 (BitVec.ofNat 32 (x / 2 ^ 32)) }
def accsOf : Checks → List (Nat × Acc) | .ok l => l | _ => []
def badOf : Checks → Option (FCause × Nat) | .bad c va => some (c, va) | _ => none
def awayOf : Checks → Bool | .away _ => true | _ => false
/-- A sector of the L1 of core 0 at 0x200000. -/
def tSec : L1Sec := { core := 0, pa := 0x200000 / 32, key := 0, data := List.replicate 32 7, stamps := [] }
theorem wit_LaneMemoryChecks :
    chansReady tS (tMem .n32 0) = .ok ∧ isDet tS.l = false ∧
    (∀ k ∈ [AKind.load, .store, .atom, .red], badOf (Say.checks (tAt 2) (tMem .n32 0) k) = some (.misaligned, 2) ∧
      badOf (Say.checks (tAt (2 ^ 41)) (tMem .n32 0) k) = some (.unmapped, 2 ^ 41) ∧
      awayOf (Say.checks (tAt vaAway) (tMem .n32 0) k) = true) ∧
    doers (tMem .n32 1) (active (tAt 65536) (tMem .n32 1)) = 0 :: [] ∧ laneEa (tAt 65536) (tMem .n32 1) 0 % 4 = 0 ∧
    memSpace (tMem .n32 1) = .s ∧ (tAt 65536).t.scrB < laneEa (tAt 65536) (tMem .n32 1) 0 + 4 ∧
    memSpace (tMem .n32 4) = .l ∧ (tAt 4096).t.sliceB < laneEa (tAt 4096) (tMem .n32 4) 0 + 4 := by decide +kernel
theorem wit_laneLoadIssue :
    let s := tAt 0x200000
    let w := tMem .n32 0
    let two := { s with l1 := [tSec] }
    let w2 := { w with k := 0 }
    let s2 := inG two fun g => { g with v := [(0, 0x200000)] }
    w.ord = .rlx ∧ { w with ord := .acq }.scp = .grp ∧ { w with ord := .acq, scp := .team }.ord = .acq ∧ s.g.pzL = [] ∧ sysBit s 0x1307 63 = false ∧ w.dchan = false ∧ accsOf (Say.checks s w .load) ≠ [] ∧ memSpace w = .g ∧
    (∀ p ∈ accsOf (Say.checks s w .load), inL1 s p.2 = false) ∧ (∀ p ∈ accsOf (Say.checks two w .load), inL1 two p.2 = true) ∧
    accsOf (Say.checks (tAt 0) (tMem .n32 4) .load) ≠ [] ∧ memSpace (tMem .n32 4) = .l ∧ w.uni = false ∧ s.g.uid ≠ 0 ∧
    (∃ p ∈ accsOf (Say.checks s2 w2 .load), inL1 s2 p.2 = true) ∧ (∃ p ∈ accsOf (Say.checks s2 w2 .load), inL1 s2 p.2 = false) ∧
    fget (inG s2 fun g => { g with frs := [(0, { tF with len := 2 })] }).g.frs 0 = some { tF with len := 2 } ∧ freeEntry s2.g.frs = some 1 := by
  decide +kernel
/-- An access of thread 0 to memory at 0x200000, and one to the scratchpad. -/
def tAccM : Acc := { sp := .g, va := 0x200000, loc := .mem 0x200000, n := 4, cached := true }
def tAccS : Acc := { sp := .s, va := 0, loc := .team 2 0, n := 4 }
/-- An operation of the group with one part. -/
def inOp (k : OpKind) (a : Acc) : State := inG tS fun g => { g with ops := [{ id := 20, kind := k, parts := [⟨0, a⟩] }] }
theorem wit_loadsPerformed :
    let s := inOp .load tAccM
    let c := { s with l1 := [tSec] }
    let e : PEnt := { tE with acc := { tAccM with cached := false }, x := 9 }
    getG s 1 = some s.g ∧ getOp s.g 20 = some { id := 20, kind := .load, parts := [⟨0, tAccM⟩] } ∧
    (teamOfG s s.g).slot ≠ .out ∧ locked s (ctxOfG s s.g) tAccM false = false ∧ poisonedRegion s tAccM = false ∧
    (∀ e ∈ s.path, e.owner = .group 1 → overlap e.acc tAccM = false) ∧ pzScratch (inOp .load tAccS) tAccS.loc 4 = false ∧
    isWindow s 0x200000 = false ∧ s.pz = [] ∧ (∀ i, i < 4 → isScat s (dieOf (teamOfG s s.g).core) (0x200000 + i) = false) ∧
    (∀ i, i < 4 → l1Find s 0 (0x200000 + i) 0 = none) ∧
    l1Find c 0 0x200000 0 = some tSec ∧ ((tSec.poison.drop 0).take 4).any id = false ∧ tSec.data.length = 32 ∧ 0x200000 % 32 + 4 ≤ 32 ∧
    { s with path := [e] }.path = [] ++ [e] ∧ e.owner = .group 1 ∧ e.op = .store ∧ e.acc.loc = .mem 0x200000 ∧ e.acc.n = tAccM.n := by decide +kernel
theorem wit_LaneStoresAndAtomics :
    let s := tAt 0x200000
    let w := tMem .n32 0
    let lk := { s with locks := [{ op := 9, ctx := 0, sp := .g, holder := 0, lo := 0x200000, hi := 0x200004, dst := true }] }
    accsOf (Say.checks s w .store) ≠ [] ∧ (∀ p ∈ accsOf (Say.checks s w .store), locked s s.l.ctx p.2 true = false) ∧
    (∃ p ∈ accsOf (Say.checks lk w .store), locked lk lk.l.ctx p.2 true = true) ∧ accsOf (Say.checks (tAt 0) (tMem .n32 4) .store) ≠ [] ∧
    s.t.sliceB ≤ 4096 ∧ mwf (fun _ => (0 : Byte)) s.g.slice = true ∧ accsOf (Say.checks s w .atom) ≠ [] ∧ isDet s.l = false ∧
    (∀ p ∈ accsOf (Say.checks s w .atom), locked s s.l.ctx p.2 true = false ∧ remoteRefusal s .cas p.2 = none) ∧
    (∃ p ∈ accsOf (Say.checks (tAt vaHost) w .atom), ∃ q, p.2.loc = .mem q ∧ paKind s q = .host) ∧ accsOf (Say.checks s w .red) ≠ [] ∧
    accsOf (Say.checks (tAt vaHost) w .red) ≠ [] ∧ (tMem .f32 0).c.idx.toNat = 6 ∧
    tyFloat .f32 = true ∧ { tMem .n32 0 with c := oR 1 }.c.idx.toNat ≠ 0 := by
  refine ⟨by decide +kernel, by decide +kernel, by decide +kernel, by decide +kernel, by decide +kernel, by decide +kernel, by decide +kernel,
    by decide +kernel, by decide +kernel, ⟨_, List.mem_singleton.2 rfl, _, rfl, by decide +kernel⟩, by decide +kernel, by decide +kernel, by decide +kernel, by decide +kernel, by decide +kernel⟩
theorem wit_detAtomic : isDet (inL tS fun l => { l with w := [0x110000, 0x110000, 2 ^ 45 + 1] }).l = true := by decide +kernel
theorem wit_LaneFences :
    let up := { tS with path := [tE] }
    let ld := inG tS fun g => { g with ops := [{ id := 20, kind := .load, act := 1, parts := [⟨0, tAccM⟩] }] }
    let rc := { tS with apend := [⟨1, 0, 0, ⟨0, 0, 0, 1, 0, 0, 0, 0, false, 0, 0, 1⟩⟩] }
    (curF tS).wait = .go ∧ (curF tS).flushed = false ∧ loadsDue tS.t tS.g (curF tS) = false ∧ recordsDue tS tS.g = false ∧
    uCount tS tS.g.uid = 0 ∧ tS.g.hostSt = false ∧ tS.inq = [] ∧ loadsDue ld.t ld.g tF = true ∧ recordsDue rc rc.g = true ∧
    uCount up up.g.uid ≠ 0 := by decide +kernel
theorem wit_matrixAccesses :
    let e := tM .tst
    let s := inQ e
    isOk (checkAcc s e.group s.t (launchOfT s s.t).ctx 0 .g .store (0x200000 % 2 ^ 64) 4 4) = true ∧
    accsOf (match checkAcc s e.group s.t (launchOfT s s.t).ctx 0 .g .load (0x200000 % 2 ^ 64) 4 4 with | .ok a => .ok [(0, a)] | _ => .ok []) = [(0, tAccM)] ∧
    accsOf (match checkAcc s e.group s.t (launchOfT s s.t).ctx 0 .s .load (0 % 2 ^ 64) 4 4 with | .ok a => .ok [(0, a)] | _ => .ok []) = [(0, tAccS)] ∧
    locked s 0 tAccM true = false ∧ locked s 0 tAccM false = false ∧ poisonedRegion s tAccM = false ∧ s.path = [] ∧ pzScratch s tAccS.loc 4 = false ∧
    isWindow s 0x200000 = false ∧ s.pz = [] ∧ (∀ i, i < 4 → isScat s (dieOf s.t.core) (0x200000 + i) = false) ∧ (∀ i, i < 4 → l1Find s 0 (0x200000 + i) 0 = none) := by
  decide +kernel

/-! ### The ordering machine -/

def tArr (op : EntOp) (a : Acc) : PEnt := { tE with op := op, acc := a, core := 0 }
theorem wit_storeArrivals :
    let s (a : Acc) := { tS with path := [tArr .store a] }
    let m := s tAccM
    m.path[0]? = some (tArr .store tAccM) ∧ (tArr .store tAccM).st = .sent ∧ (∀ x ∈ allG m, ∀ p ∈ x.frs, p.2.wait = .go) ∧
    inMem m 0x200000 = true ∧ 0x200000 + 4 ≤ 2 ^ 52 ∧ mwf (fun _ => (0 : Byte)) m.mem = true ∧
    (∀ sec ∈ sectorsOf 0x200000 4, mget m.tags 0 sec = 0 ∨ mget m.tags 0 sec = genOf m 0) ∧ isScat m (homeDie m 0x200000) 0x200000 = false ∧
    isScat { m with scat := [scatKey (homeDie m 0x200000) (lineOf 0x200000)] } (homeDie m 0x200000) 0x200000 = true ∧
    (getT (s tAccS) 2).isSome = true ∧ poisonedRegion (s tAccS) tAccS = false ∧ mwf (fun _ => (0 : Byte)) (s tAccS).t.scr = true ∧
    paKind m 0x40000000000 = .host ∧ getG m 1 = some m.g := by decide +kernel

theorem wit_updatesApplied :
    let u (k : UpdK) : Upd := { home := 1, dst := 0, num := 1, ser := 7, owner := .device, ent := 0, k := k }
    let s (k : UpdK) := { tS with inq := [u k] }
    (∀ k ∈ [UpdK.bytes 0x200000 [1, 2] false, .runs [(0x200000, [1, 2])] false, .same 0x200000 [1, 2] [] false, .mark 0x4000, .clear 0x4000 [(0x200000, [1], false)]],
      (s k).inq.find? (fun u => u.home == 1 && u.dst == 0) = some (u k)) ∧ 0x200000 + 2 ≤ 2 ^ 52 ∧
    tS.inq.find? (fun u => u.home == 1 && u.dst == 0) = none := by decide +kernel
theorem wit_AtomicEffects :
    let e : PEnt := { tArr .cas tAccM with lop := 20, y := 6 }
    let s := { inOp .atomic tAccM with path := [e] }
    tyInt .i32 = true ∧ (7 : Nat) < 2 ^ tyWidth .i32 ∧ Say.intVal .i32 (2 ^ 31) < Say.intVal .i32 5 ∧ ¬ Say.intVal .i32 5 < Say.intVal .i32 5 ∧
    let bd : PEnt := { e with op := .bindg }
    let term := inG { tS with path := [bd] } fun g => { g with ops := [{ id := 20, kind := .term, left := 2 }] }
    s.path[0]? = some e ∧ e.st = .sent ∧ e.owner = .group 1 ∧ getG s 1 = some s.g ∧ e.t < 64 ∧ e.be = 0 ∧
    (getOp s.g e.lop).map (fun o => (o.kind, o.res.length, o.kres.length)) = some (.atomic, 0, 0) ∧
    term.path[0]? = some bd ∧ (getOp term.g 20).map (fun o => (o.kind, o.left)) = some (.term, 2) ∧
    leNat (rdBytes s (homeDie s 0x200000) 0x200000 0 4) ≠ e.x ∧ leNat (rdBytes s (homeDie s 0x200000) 0x200000 0 4) = { e with x := 0 }.x ∧
    leNat (rdBytes (placeBytes s 0x200000 (leBytes 8 (2 * 2 ^ 60))) (homeDie s 0x200000) 0x200000 0 8) / 2 ^ 60 % 16 ≠ 0 ∧
    inMem s 0x200000 = true ∧ s.pz = [] ∧ isScat s (homeDie s 0x200000) 0x200000 = false ∧
    (∀ code < 7, (tArr (.red code .i32 .rn) tAccM).op = .red code .i32 .rn) := by decide +kernel
/-- Core 0 has an update-only copy of the line at 0x200000, with a pending sum. -/
def tUnit : AUnit := { core := 0, pa := 0x200000, n := 4, code := 0, ty := .i32, rnd := .rn, val := 5, key := 0, ctx := 0 }
def tCopy : State := { tS with path := [tArr (.red 0 .i32 .rn) tAccM], copies := [{ core := 0, line := 0x4000, num := 1 }], scat := [scatKey (homeDie tS 0x200000) 0x4000], wants := [0x4000] }
theorem wit_reductionMoves :
    let e := tArr (.red 0 .i32 .rn) tAccM
    let s := { tS with path := [e] }
    s.path[0]? = some e ∧ hasCopy s 0 (lineOf 0x200000) = none ∧ lineOf 0x200000 ∉ s.wants ∧ owing s (lineOf 0x200000) = false ∧ hasCopy tCopy 0 (lineOf 0x200000) = some { core := 0, line := 0x4000, num := 1 } ∧
    (s.copies.filter (fun c => c.core == 0)).length < 512 ∧
    (∀ u ∈ tCopy.units, u.core = e.core → u.pa ≠ 0x200000) ∧ { tCopy with units := [tUnit] }.units = [tUnit] ∧ tUnit.core = e.core ∧
    0x4000 ∈ tCopy.wants ∧ isScat tCopy (homeDie tCopy (128 * 0x4000)) (128 * 0x4000) = true ∧
    (tCopy.copies.filter (fun c => c.line == 0x4000)).map (fun c => c.core) = [0] ∧
    { tCopy with units := [tUnit] }.units.filter (fun u => u.core == 0 && lineOf u.pa == 0x4000) = [tUnit] ∧ 5 ∉ tCopy.wants := by decide +kernel
theorem wit_cacheAndMissMoves :
    let fr := { tF with wait := .mem 20 none }
    let up : LOp := { tO .load with reqs := [⟨0, 0, 0, 0, 0, 0, [], [0]⟩] }
    let s := inG { tS with l1 := [tSec] } fun g => { g with frs := [(0, fr)] }
    0 < s.l1.length ∧ entryOfFrag s.g 4 = some (0, fr) ∧ fget s.g.frs 0 = some fr ∧ getOp s.g 20 = none ∧ fr.idx ≠ 0 ∧
    (let fa := { fr with wait := .mem 20 (some .team) }
     entryOfFrag { s.g with frs := [(0, fa)] } 4 = some (0, fa) ∧ fget ({ s.g with frs := [(0, fa)] } : Group).frs 0 = some fa) ∧
    getOp { s.g with ops := [up] } 20 = some up ∧ secsDue up = 0 ∧ up.reqs ≠ [] ∧ (tO .load).reqs = [] := by decide +kernel

/-! ### Engines -/

def isPlan : Planned → Bool | .plan _ _ => true | _ => false
def isFault : Planned → Bool | .fault _ _ => true | _ => false
def isWait : Planned → Bool | .wait _ => true | _ => false
/-- The group with a descriptor in g0, g1 and g2: a copy of n bytes from 0x200000 to 0x300000. -/
def tCpy (n : Word) : State := inG tS fun g => { g with u := [(0, 0x200000), (1, 0x300000), (2, n)] }
/-- A layout record of one byte at 0x400000, at an address of its own. -/
def tLay (va : Word) : State := inG (placeBytes tS 0x200000 (leBytes 8 0x400000)) fun g => { g with u := [(0, va), (1, 0x300000)] }
/-- Slot 0 holds a set of this package and package 1. -/
def tColl : State := { sysPut (tCpy 8) 0x0200 (2 ^ 63) with sets := [(0, [0, 1])] }
theorem wit_engineWordsIssue :
    let full (s : State) := { s with eops := List.replicate 64 { id := 9, kind := .cpy tAccM tAccM, group := 1 } }
    (curF tS).lin = [] ∧ active tS (tW .n32) ≠ 0 ∧ (tW .n32).ord = .rlx ∧ isPlan (planCpy (tW .n32) (tCpy 4)) = true ∧
    isPlan (planCpyt (tW .n32) (tLay 0x200000)) = true ∧ isPlan (planColl (tW .n32) tColl) = true ∧
    isWait (planCpyt (tW .n32) (tLay (BitVec.ofNat 64 vaAway))) = true ∧
    isFault (planCpy (tW .n32) tS) = true ∧ eopsOf tS tS.g.uid < 64 ∧ lockRoom tS tS.l.ctx (rangesOf tS .g 0x200000 4) = true ∧
    64 ≤ eopsOf (full tS) tS.g.uid := by decide +kernel
theorem wit_enginePlans :
    let w := { tW .n32 with x24 := 2 ^ 16 }
    let gs := inG (tAt 0x200000) fun g => { g with u := [(0, 0x300000)] }
    let got := match readRecord (tLay 0x200000) .g 0x200000 with | .inr (_, l) => some l | .inl _ => none
    (packedOf 0x200000).isSome = true ∧ (barOf tS 0).isSome = true ∧ packedOf (2 ^ 60) = none ∧ barOf tS (2 ^ 63) = none ∧
    rngsMeet (rangesOf tS .g 0x200000 4) (rangesOf tS .g 0x200003 4) = true ∧ rngsMeet (rangesOf tS .g 0x200000 4) (rangesOf tS .g 0x200004 4) = false ∧
    threads (active (tAt 2) (tMem .n32 0)) = 0 :: [] ∧ 2 ^ ((tW .n32).x24.toNat / 2 ^ 15 % 4) = 1 ∧ (readV64 (tAt 2).g 0 0) % 2 ^ (w.x24.toNat / 2 ^ 15 % 4) ≠ 0 ∧
    isPlan (planGs { tW .n32 with k := 1 } false gs) = true ∧ isPlan (planGs { tW .n32 with k := 1 } true gs) = true ∧
    isFault (planGs { tW .n32 with k := 1 } false (inG gs fun g => { g with u := [(0, 0x200000)] })) = true ∧ 0x200000 % 1 = 0 ∧
    got = some [0x400000, 0, 0, 0, 0, 0, 0, 0] ∧ layoutOk [0x400000, 0, 0, 0, 0, 0, 0, 0] 0x400000 0x300000 = true ∧
    layoutOk [0x400000, 0, 0, 0, 0, 0, 0, 1] 0x400000 0x300000 = false ∧ boxRange [0x400000, 0, 0, 0, 0, 0, 0, 0] = some (0, 1) ∧
    rngsMeet (rangesOf tS .g 0x400000 1) (rangesOf tS .g 0x300000 1) = false ∧ pzScratch tS (.team tS.t.uid 0) 64 = false ∧ 0 + 64 ≤ tS.t.scrB ∧
    tS.path = [] ∧ tS.locks = [] ∧ slotReady tColl 0 = true ∧ slotReady tS 0 = false ∧ 8 % tySize .n32 = 0 := by decide +kernel
theorem wit_layoutElements :
    let l : List Nat := []
    let cv : List Nat := [0, 0, 0, 0, 0, 0, 2 ^ 5, 0]
    let out : List Nat := [0, 0, 0, 0, 2 ^ 32 - 1, 0, 0, 0]
    let zero : List Nat := [0, 0, 0, 0, 2 ^ 32 - 1, 0, 2 ^ 2, 0]
    lEdge l = 0 ∧ lConv l = false ∧ 0 ≤ coordRaw l 0 0 ∧ coordRaw l 0 0 < lExt l 0 ∧ lConv cv = true ∧ lEdge cv < 2 ∧
    lConv out = false ∧ lEdge out = 0 ∧ coordRaw out 0 0 < 0 ∧ lEdge zero = 1 ∧ coordRaw zero 0 0 < 0 ∧
    (∀ j < 4, coord l j (boxIdx l 0 j) = .at 0 false) := by decide +kernel
theorem wit_engineBatches :
    let b (n : Nat) (d : Bool) : Batch := { no := n, done := d }
    let full := inG tS fun g => { g with batchNo := 32, batches := (iota 1 32).map (fun n => b n false) }
    let one (d : Bool) := inG tS fun g => { g with batchNo := 1, batches := [b 1 d], v := [(0, 1)] }
    openClosed tS.g < 32 ∧ 32 ≤ openClosed full.g ∧ lowest (active (one true) (tW .n32)) = some 0 ∧
    ((one true).g.batchNo + 2 ^ 16 - opndVal (one true) .n32 (oR 0) 0 0 % 2 ^ 16) % 2 ^ 16 = 0 ∧
    2 ^ 15 ≤ (tS.g.batchNo + 2 ^ 16 - opndVal (one true) .n32 (oR 0) 0 0 % 2 ^ 16) % 2 ^ 16 ∧ (∃ x ∈ (one false).g.batches, x.done = false) ∧
    (∀ x ∈ (one true).g.batches, x.done = true) := by decide +kernel
/-- A copy of four bytes in flight. -/
def tEng : EngOp :=
  { id := 40, kind := .cpy { tAccM with va := 0x200000 } { tAccM with va := 0x300000 }, group := 1, team := 2, launch := 3, lop := 20, total := 4, todo := [(0, 4)] }
def inE (e : EngOp) : State := { inG tS fun g => { g with ops := [tO .engine] } with eops := [e] }
theorem wit_engineMoves :
    let on := { tEng with started := true }
    let far (va : Nat) : EngOp := { on with kind := .cpy { tAccM with va := va } { tAccM with va := 0x300000 } }
    let half : EngOp := { on with total := 8, todo := [(0, 8)], kind := .cpy { tAccM with va := 0x200001 } { tAccM with va := 0x300000 } }
    let out := { on with rd := 4, ackd := 4, todo := [] }
    let bar := { out with bar := some { tAccS with n := 8 } }
    let sc := inT (inE bar) fun t => { t with scr := mputs [] 0 0 (leBytes 8 (2 ^ 48 + 2 ^ 24)) }
    let loads (e : EngOp) := engLoad (inE e) e tT (engSrc e (engPiece e 0).1).1 (engPiece e 0).2
    getE (inE tEng) 40 = some tEng ∧ tEng.started = false ∧ heldBack (inE tEng) 40 = false ∧ conflicts (inE tEng) 0 40 [] [] = false ∧
    conflicts { inE tEng with locks := [{ op := 39, ctx := 0, sp := .g, holder := 0, lo := 0x300000, hi := 0x300001, dst := true },
      { op := 40, ctx := 0, sp := .g, holder := 0, lo := 0x300000, hi := 0x300004, dst := true }] } 0 40 [] [⟨.g, 0, 0x300000, 0x300004⟩] = true ∧
    on.result = none ∧ inRuns on.todo 0 = true ∧ on.whole.contains ((engUnit on 0).headD 0) = false ∧ (getT (inE on) 2).map (fun t => t.uid) = some tT.uid ∧
    engPiece on 0 = (0, 4) ∧ (match loads on with | .got _ d _ _ => d.length == 4 | _ => false) = true ∧ (inE on).wins = [] ∧ on.pzs = [] ∧
    engPiece half 0 = (0, 3) ∧ (match loads half with
      | .got _ d v pz => d.length == 3 && (iota 0 3).all (fun i => !unitRead (inE half) (engTake half 0 d v pz) (engUnit (engTake half 0 d v pz) i))
      | _ => false) = true ∧
    (match loads (far vaHost) with | .window _ => true | _ => false) = true ∧ (match loads (far (2 ^ 41)) with | .fault _ _ => true | _ => false) = true ∧
    isOk (checkAcc (inE on) 1 tT 0 0 .g .store 0x300000 4 1) = true ∧ engMoved out = true ∧ engMoved on = false ∧ out.bar = none ∧
    bar.delivered + 4 ≤ bar.ackd ∧ (getT (inE out) 2).map (fun t => t.slot) = some .running ∧
    (match barMove sc { tAccS with n := 8 } false 0 4 {} { group := 0, team := 0, core := 0, ctx := 0, engine := true } with | .ok _ _ => true | _ => false) = true := by
  decide +kernel
theorem wit_collectiveResults :
    let e := { tEng with kind := .coll tAccM tAccM 0 .n32 .rn 0 1, started := true, rd := 4, esize := 4, todo := [], bytes := [(0, 1)] }
    let s := { inE e with sets := [(0, [0, 1])] }
    getE s 40 = some e ∧ e.result = none ∧ e.total ≤ e.rd ∧ (mget s.sets [] 0).length ≤ 512 ∧ sysBits s 0x0100 8 0 = 0 ∧ isColl e = true ∧
    (∀ p ∈ [(1, [(5 : Word)])], p.1 ∈ mget s.sets [] 0 ∧ p.1 ≠ 0 ∧ p.2.length = e.total / e.esize) ∧
    (∀ m ∈ mget s.sets [] 0, m ≠ 0 → ∃ p ∈ [(1, [(5 : Word)])], p.1 = m) ∧ (∀ p ∈ [(2, [(5 : Word)])], p.1 ∉ mget s.sets [] 0) ∧
    (∀ p ∈ [(1, ([] : List Word))], p.1 ∈ mget s.sets [] 0 ∧ p.1 ≠ 0 ∧ p.2.length ≠ e.total / e.esize) := by decide +kernel
theorem wit_ChannelTransfers :
    let b (k : Nat) : Bind := { chan := 12, kind := k, vec := false, sp := .s, grp := 1, peer := 13 }
    let y : Group := { uid := 8, team := 2, idx := 1, bind := [{ chan := 13, kind := 1, vec := false, grp := 0, peer := 12 }] }
    let s := inT (inG { tS with groups := [y] } fun g => { g with bind := [b 0], ch := [(12, [5, 6])] }) fun t => { t with ngrp := 2 }
    let st (k : Nat) := inG tS fun g => { g with bind := [b k], ch := [(12, [5])] }
    getBind s.g 12 0 = some (b 0) ∧ (joined s s.g (b 0)).map (fun p => (p.1.uid, p.2.chan)) = some (8, 13) ∧ chanRuns s s.g = true ∧ chanRuns s y = true ∧
    wordQ s.g 12 = 5 :: [6] ∧ (wordQ y 13).length < 16 ∧ wordQ tS.g 12 = [] ∧ chanVec s.g 12 = false ∧ chanVec y 13 = false ∧
    getBind (st 2).g 12 2 = some (b 2) ∧ (b 2).buf = [] ∧ chanRuns (st 2) (st 2).g = true ∧ pzScratch (st 2) (.team 2 0) 8 = false ∧
    (st 2).wins = [] ∧ (b 2).addr + 8 * (b 2).pos + 8 ≤ (teamOfG (st 2) (st 2).g).scrB ∧
    (wordQ (st 2).g 12).length < 16 ∧ getBind (st 3).g 12 3 = some (b 3) ∧ 8 ≤ (teamOfG (st 3) (st 3).g).scrB := by decide +kernel

/-! ### Barriers and flag waits -/

def who0 : BarBy := { group := 0, team := 0, core := 0, ctx := 0, engine := false }
/-- A barrier word of one arrival in the scratchpad at byte 0, with n bytes outstanding. -/
def tBar (n : Nat) : State := inT tS fun t => { t with scr := mputs [] 0 0 (leBytes 8 (2 ^ 48 + 2 ^ 24 + n)) }
def tAccB : Acc := { sp := .s, va := 0, loc := .team 2 0, n := 8 }
def barOk : BarOut → Bool | .ok _ _ => true | _ => false
def barBad : BarOut → Option FCause | .bad c => some c | _ => none
theorem wit_barrierMove :
    getT (tBar 0) 2 = some (tBar 0).t ∧ pzScratch (tBar 0) tAccB.loc 8 = false ∧ mwf (fun _ => (0 : Byte)) (tBar 0).t.scr = true ∧
    (∀ x ∈ allG (tBar 0), ∀ p ∈ x.frs, p.2.wait = .go) ∧ barOk (barMove (tBar 0) tAccB true 0 0 {} who0) = true ∧
    barBad (barMove tS tAccB true 0 0 {} who0) = some .badBarrier ∧ barBad (barMove (tBar (2 ^ 23 - 1)) tAccB false 1 0 {} who0) = some .barrierRange ∧
    barOk (barMove (tBar (2 ^ 23 - 2)) tAccB false 1 0 {} who0) = true ∧ barOk (barMove (tBar 0) tAccB false 0 (2 ^ 23) {} who0) = true := by decide +kernel
theorem wit_barrierWords :
    let w := tMem .n32 1
    let s (n : Nat) := inG (tBar n) fun g => { g with k := [(1, 1)] }
    let g0 := tAt 0x200000
    let par := inG (s 0) fun g => { g with v := [(128, 1)] }
    let mine := { s 0 with path := [tE] }
    let fr := { tF with wait := .barrier tAccB true 2 1 .rlx .grp, len := 2 }
    let pk := inG (s 0) fun g => { g with frs := [(0, fr)] }
    chansReady (s 0) w = .ok ∧ lowest (active (s 0) w) = some 0 ∧ w.ord = .rlx ∧
    accsOf (checkAll (s 0) .s .load 8 4 (laneEa (s 0) w) [0]) = [(0, tAccB)] ∧ accsOf (checkAll (s 0) .s .atom 8 4 (laneEa (s 0) w) [0]) = [(0, tAccB)] ∧
    accsOf (checkAll g0 .g .load 8 4 (laneEa g0 (tMem .n32 0)) [0]) ≠ [] ∧ locked (s 0) 0 tAccB true = false ∧ tAccB.va % 8 = 0 ∧ memSpace w = .s ∧
    ownPending (s 0) tAccB = false ∧ vB (s 0) .n32 w 0 = 0 ∧ barOk (barMove (s 0) tAccB false 0 0 {} (barBy (s 0))) = true ∧
    barOk (barMove (s 0) tAccB true 0 0 {} (barBy (s 0))) = true ∧ barBad (barMove tS tAccB false 0 0 {} (barBy tS)) = some .badBarrier ∧
    (rdPoint (s 0) tAccB).2.2 = false ∧ barLegal (rdPoint (s 0) tAccB).1 = true ∧ (rdPoint (s 0) tAccB).1 / 2 ^ 63 % 2 = vB (s 0) .n32 w 0 % 2 ∧
    (rdPoint par tAccB).1 / 2 ^ 63 % 2 ≠ vB par .n32 w 0 % 2 ∧ ownPending mine tAccB = true ∧ entryOfFrag pk.g 4 = some (0, fr) ∧
    (teamOfG pk pk.g).slot ≠ .out ∧ fr.idx < fr.len ∧ (rdPoint pk tAccB).1.testBit 63 ≠ true := by decide +kernel
theorem wit_namedBarriers :
    let f2 := { tF with len := 2 }
    let s (n : Nat) (b : NBar) := inT (inG tS fun g => { g with frs := [(0, f2)] }) fun t => { t with ngrp := n, nb := [(0, b)] }
    let half := { tF with mask := 1 }
    f2.mask = BitVec.allOnes 64 ∧ active (s 2 {}) (tW .n32) ≠ 0 ∧ f2.wait = .go ∧ f2.idx < f2.len ∧
    (mget (s 2 { arrived := 1, expected := 3 }).t.nb {} 0).arrived ≠ 0 ∧ 2 ≠ (mget (s 2 { arrived := 1, expected := 3 }).t.nb {} 0).expected ∧
    (mget (s 2 {}).t.nb {} 0).arrived + 1 ≠ (s 2 {}).t.ngrp ∧ (mget (s 1 {}).t.nb {} 0).arrived + 1 = (s 1 {}).t.ngrp ∧
    (mget (s 2 { arrived := 1, expected := 2 }).t.nb {} 0).arrived + 1 = 2 ∧ half.mask ≠ BitVec.allOnes 64 ∧
    (inG tS fun g => { g with frs := [(0, half)] }).g.frs = [(0, half)] := by decide +kernel
theorem wit_flagWaits :
    let w := tMem .n64 0
    let s := tAt 0x200000
    let a : Acc := { tAccM with n := 8 }
    let hit := { tF with wait := .monHit {} .rlx .grp, len := 2 }
    let full := inG s fun g => { g with frs := (iota 0 64).map (fun i => (i, { tF with wait := .monitor a 0 1 .rlx .grp })) }
    chansReady s w = .ok ∧ lowest (active s w) = some 0 ∧ accsOf (checkAll s .g .load 8 8 (laneEa s w) [0]) = [(0, a)] ∧ remoteWord s a = false ∧
    (∃ p ∈ accsOf (checkAll (tAt vaHost) .g .load 8 8 (laneEa (tAt vaHost) w) [0]), remoteWord (tAt vaHost) p.2 = true) ∧
    locked s 0 a false = false ∧ monitorsUsed s 0 < 64 ∧ 64 ≤ monitorsUsed full 0 ∧ scattered s a = none ∧ (rdPoint s a).2.2 = false ∧
    (rdPoint s a).1 = 0 ∧ opndVal s .n64 w.b (skipB w) 0 = 0 ∧ entryOfFrag (inG s fun g => { g with frs := [(0, hit)] }).g 4 = some (0, hit) ∧
    hit.idx < hit.len := by decide +kernel

/-! ### The claim table -/

def tName : List Word := List.replicate 4 0
def tReq (k : ReqK) : CReq := { id := 50, kind := k, group := 1, team := 2, ctx := 0, domain := 0, name := tName, lop := 20 }
/-- Domain 0 serves, and a request of the group stands first. -/
def tClaim (k : ReqK) (es : List CEnt) : State := sysPut { inG tS fun g => { g with ops := [tO .claim] } with reqs := [tReq k], claims := es } 0x0800 (2 ^ 63 + 1000)
def tEnt (making : Bool) (maker : Nat) : CEnt := { id := 51, die := 0, slice := 0, set := 0, way := 0, domain := 0, name := tName, making := making, maker := maker, limit := 1000 }
/-- The fragment stands at a claim word whose name is there. -/
def tNamed (o : LOp) : State := inG (tAt 0x200000) fun g => { g with ops := [o], frs := [(0, { tF with len := 2 })] }
theorem wit_ClaimWords :
    let w := tMem .n64 0
    let s := tAt 0x200000
    let a : Acc := { tAccM with n := 32 }
    let o : LOp := { tO .claim with mid := true, fid := 4, vals := [(0, 0), (1, 0), (2, 0), (3, 0)], opnds := [(0, 7, 0)] }
    let early := { o with vals := [], parts := [⟨0, a⟩] }
    let full := inG (tNamed o) fun g => { g with frs := (iota 0 64).map (fun i => (i, { tF with id := if i = 0 then 4 else 100 + i, wait := if i = 0 then .go else .monitor a 0 1 .rlx .grp })) ++
      [(64, { tF with id := 99, wait := .monitor a 0 1 .rlx .grp })] }
    let due := { tNamed o with path := [tE] }
    (curF s).lin = [] ∧ midOp s = none ∧ chansReady s w = .ok ∧ lowest (active s w) = some 0 ∧
    accsOf (checkAll s .g .load 32 32 (laneEa s w) [0]) = [(0, a)] ∧ monitorsUsed (tNamed o) 0 < 64 ∧
    midOp (tNamed o) = some o ∧ getOp (tNamed o).g 20 = some o ∧ o.left = 1 ∧ o.parts = [] ∧ 4 ≤ o.vals.length ∧
    midOp (tNamed early) = some early ∧ early.parts ≠ [] ∧ fget (tNamed o).g.frs 0 = some { tF with len := 2 } ∧
    (∀ k ∈ [ReqK.fulfil, .abandon], (match endRelease (tNamed o) w k with | .pass _ => true | .hold _ => false) = true ∧
      (match endRelease due { w with ord := .rel, scp := .dev } k with | .pass _ => false | .hold _ => true) = true) ∧
    midOp full = some o ∧ 64 ≤ monitorsUsed full 0 ∧ active tS { w with neg := true, k := 0 } = 0 := by decide +kernel
theorem wit_claimHomeMoves :
    let s := tClaim .claim []
    s.reqs[0]? = some (tReq .claim) ∧ (iota 0 16).all (fun i => !tsOpen s i) = true ∧ heldBack s 20 = false ∧ domainServes tS 0 = false ∧
    domainServes s 0 = true ∧ findC s 0 tName = none ∧ makerCount s 1 < 16 ∧
    16 ≤ makerCount (tClaim .claim (List.replicate 16 { tEnt true 1 with name := [1] })) 1 ∧
    findC (tClaim .claim (List.replicate 16 { tEnt true 1 with name := [1] })) 0 tName = none ∧
    (usableWay s 0 (nameX s 0 tName)).map (fun p => p.2) = some none ∧ isClaim .claim = true ∧ isClaim .fulfil = false := by decide +kernel
theorem wit_claimHomeMoves2 :
    let f (m : Bool) (g : Nat) := findC (tClaim .fulfil [tEnt m g]) 0 tName
    f false 1 = some (tEnt false 1) ∧ f true 1 = some (tEnt true 1) ∧ f true 9 = some (tEnt true 9) ∧ (tEnt true 1).waiters = [] ∧
    parkedAt (tClaim .claimw [tEnt true 9]) (nameX (tClaim .claimw [tEnt true 9]) 0 tName) < 4096 ∧
    { tEnt true 1 with lease := 1000000 }.limit * 1000 ≤ { tEnt true 1 with lease := 1000000 }.lease ∧ (tEnt true 1).lease < (tEnt true 1).limit * 1000 := by decide +kernel
theorem wit_claimDomains :
    (255 : Nat) < 256 ∧ sysBit (tClaim .claim []) 0x0800 63 = true ∧ (iota 0 16).all (fun i => !tsOpen tS i) = true ∧
    { tS with purges := [⟨0, true⟩] }.purges = [⟨0, true⟩] ∧ (∀ e ∈ tS.claims, e.waiters = []) ∧ (∀ p ∈ tS.purges, p.domain ≠ 0) := by decide +kernel

/-! ### Logic terms, work graphs, work stealing, phases -/

/-- One thread with a term area whose count of trail entries is n, and a first operand x, a second one y. -/
def tTerm (n x y : Nat) : State :=
  inG (tAt x) fun g => { g with
    v := mput (mput g.v 0 128 (BitVec.ofNat 32 y)) 0 192 (BitVec.ofNat 32 (y / 2 ^ 32))
    slice := mput [] 0 (lkey 0 0x10) (BitVec.ofNat 8 n), frs := [(0, { tF with len := 2 })] }
def okVal {α : Type} : TR α → Option α | .ok a _ => some a | _ => none
theorem wit_termWords :
    let w := { tW .n64 with k := 1 }
    let x := 2 * 2 ^ 60 + 5
    let s := tTerm 0 x x
    let full := tTerm 45 x x
    let rdy (s : State) : Bool := chansReady s w == .ok && threads (active s w) == [0] && midOp s == none && (curF s).wait == .go && s.g.ops == [] &&
      decide (2048 ≤ s.t.sliceB) && headerOk s 0 && mwf (fun _ => (0 : Byte)) s.g.slice
    rdy s = true ∧ rdy full = true ∧ opndVal s .n64 w.a 0 0 = x ∧ opndVal s .n64 w.b (skipB w) 0 = x ∧ x / 2 ^ 60 % 16 = 2 ∧
    wact s 0 = false ∧ slotsUsed s 0 2 ≤ 46 ∧ wact full 0 = false ∧ 46 < slotsUsed full 0 2 ∧ fget s.g.frs s.fi = some { tF with len := 2 } ∧
    loadsDue s.t s.g { tF with len := 2 } = false ∧ recordsDue s s.g = false ∧ uCount s s.g.uid = 0 ∧ w.scp = .grp ∧
    activeOf s 1 false = active s w ∧ cpn s 0 = 0 ∧ tcnt s 0 = 0 ∧ (tW .n64).uni = false ∧ (inT s fun t => { t with sliceB := 0 }).t.sliceB < 2048 ∧
    getG { s with g := { s.g with ops := [tO .term] } } 1 = some { s.g with ops := [tO .term] } ∧ (tO .term).left = 1 ∧ (tO .term).mid = false ∧
    (tO .term).parts = [] := by decide +kernel
theorem wit_termRules :
    let ref := 2 ^ 60 + 0x200000
    let cell (x : Nat) : State := placeBytes tS 0x200000 (leBytes 8 x)
    let own := inG (cell 1) fun g => { g with slice := mput (mput (mput [] 0 (lkey 0 2) 0x20) 0 (lkey 0 0x20) 1) 0 (lkey 0 0x120) 5 }
    let term := inG tS fun g => { g with ops := [tO .term] }
    let loc (s : State) (r : Nat) : Option Loc := match cellAcc s 0 .atom r with | .ok a _ => if locked s s.l.ctx a true then none else some a.loc | _ => none
    (∀ x ∈ [2 ^ 60 + 0x300000, 2 * 2 ^ 60 + 5, 0, 1, 6 * 2 ^ 60], okVal (cellLoad (cell x) 0 ref) = some x) ∧ malformed ref = false ∧ malformed (ref + 1) = true ∧
    okVal (cellLoad own 0 ref) = some 1 ∧ cellKey own 0 ref = some 1 ∧ lookup own 0 1 = some (0, true) ∧ oval own 0 0 = 5 ∧
    5 < (6 * 2 ^ 60 : Nat) / 2 ^ 60 % 16 ∧
    46 ≤ slotsUsed (tTerm 46 0 0) 0 0 ∧ slotsUsed (tTerm 0 0 0) 0 0 < 46 ∧ okVal (bindVar (tTerm 0 0 0) 0 0 ref 0 (2 * 2 ^ 60)) = some 0 ∧
    getOp term.g 20 = some (tO .term) ∧ (tO .term).vals = [] ∧ loc term ref = some (.mem 0x200000) ∧ loc term (2 ^ 60 + 4 * 2 ^ 57) = some (.lane 1 0 0) ∧
    leNat (rdScratch term (.lane 1 0 0) 8) / 2 ^ 60 % 16 = 0 ∧
    leNat (rdScratch (inG term fun g => { g with slice := [(lkey 0 7, 0x20)] }) (.lane 1 0 0) 8) / 2 ^ 60 % 16 ≠ 0 ∧
    sharedVar 1 = true ∧ sharedVar 0 = false := by decide +kernel
/-- A work graph of one node: count 3, records of 8 bytes, a timer of 1 µs. -/
def tGraph (bins : List Bin) (q : List BinTeam) : State :=
  inL (tAt 0x200000) fun l => { l with w := [0x110000, 0x110000, 2 ^ 47 + 1, 0, 0, 0, 0, 0], nodes := [[0x110000, 2 ^ 16 + 2 ^ 8 + 3, 0, 0]], bins := bins, binq := q }
theorem wit_WorkGraphs :
    let w := tMem .n32 0
    let bin (n : Nat) : Bin := { id := 60, node := 0, recs := List.replicate n [] }
    let many : List BinTeam := List.replicate 16 { idx := 0, node := 0, recs := [], vec := {} }
    let words : List (Nat × Nat × Nat) := (threads (active (tGraph [] []) w)).flatMap (fun th => (iota 0 (nodeSize (tGraph [] []).l 0 / 8)).map
      (fun j => (th, j, (readV64 (tGraph [] []).g w.a.idx.toNat th + 8 * j) % 2 ^ 64)))
    let o : LOp := { tO .emit with mid := true, fid := 4, act := 1, vals := [(0, 5)] }
    let at' (s : State) (o : LOp) : State := inG s fun g => { g with ops := [o] }
    midOp tS = none ∧ isGraph tS.l = false ∧ isGraph (tGraph [] []).l = true ∧ nodeN (tGraph [] []).l ≤ 255 ∧ 0 < nodeN (tGraph [] []).l ∧
    active (tGraph [] []) w ≠ 0 ∧ words = [(0, 0, 0x200000)] ∧
    (match releaseGate (tGraph [] []) .dev with
      | .pass u => u.g.ops.all (fun o => o.id != u.nid) && (fget u.g.frs u.fi).isSome && accsOf (checkRecs u .g words) == [(0, { tAccM with n := 8 })]
      | .hold _ => false) = true ∧
    midOp (at' tS { o with parts := [⟨0, tAccM⟩] }) = some { o with parts := [⟨0, tAccM⟩] } ∧ o.opnds = [] ∧
    (∀ s ∈ [tGraph [] [], tGraph [bin 1] [], tGraph [bin 2] [], tGraph [] many], midOp (at' s o) = some o ∧ s.l.uid ≠ 0) ∧ o.parts = [] ∧ o.left ≤ 1 ∧
    threads o.act = [0] ∧ (tGraph [bin 1] []).l.bins.find? (fun b => b.node == 0) = some (bin 1) ∧
    (tGraph [bin 2] []).l.bins.find? (fun b => b.node == 0) = some (bin 2) ∧ nodeCount (tGraph [] []).l 0 = 3 ∧
    binsUsed (tGraph [] []).l 0 < 16 ∧ 16 ≤ binsUsed (tGraph [] many).l 0 ∧ getL (tGraph [bin 1] []) 3 = some (tGraph [bin 1] []).l ∧
    ctxState (tGraph [bin 1] []) 0 = 1 ∧ 1000 * bits (nodeW (tGraph [] []).l 0 1) 31 16 = 1000 ∧ (tGraph [] []).now = 0 := by decide +kernel
/-- A persistent launch of two teams, the first one placed, with a mailbox and a thief of group 8. -/
def tPers (m : Option StealReq) : State :=
  inT (inL { tS with groups := [{ uid := 8, team := 2, ops := [tO .claim] }] } fun l => { l with w := [0x110000, 0x110000, 2 ^ 43 + 2, 0, 0, 0, 0, 0] })
    fun t => { t with mail := m }
theorem wit_WorkStealing :
    let m : StealReq := { thief := 8, req := 20 }
    let s := inG (tPers none) fun g => { g with frs := [(0, { tF with len := 2 })] }
    let by_ (x : BitVec 24) : LaneW := { tW .n32 with imm := true, x24 := x }
    isPers tS.l = false ∧ isPers s.l = true ∧ (curF s).lin = [] ∧ lowest (active s (by_ 1)) = some 0 ∧ s.t.uid ≠ 0 ∧ chansReady s (by_ 1) = .ok ∧
    gridN s.l = 2 ∧ victim s 1 = none ∧ (victim s 0).map (fun x => x.mail) = some none ∧ (victim (tPers (some m)) 0).map (fun x => x.mail) = some (some m) ∧
    fget s.g.frs s.fi = some { tF with len := 2 } ∧ (match releaseGate s .dev with | .pass u => u.t.mail == none | _ => false) = true ∧
    (match releaseGate (tPers (some m)) .dev with | .pass u => u.t.mail == some m | _ => false) = true ∧ m.thief ≠ (tPers (some m)).g.uid ∧
    getT (tPers (some m)) 2 = some (tPers (some m)).t ∧ m.ns < 64000 ∧ 64000 ≤ { m with ns := 64000 }.ns ∧
    (getG (tPers (some m)) 8).bind (fun x => getOp x 20) = some (tO .claim) ∧ (tPers (some m)).t.slot ≠ .out := by decide +kernel
theorem wit_Phases :
    let e : DetEnt := { acc := tAccM, op := 0, ty := .i32, rnd := .rn, value := 5, team := 0, group := 0, thread := 0, seq := 0, core := 0 }
    let s (l : List DetEnt) := inL tS fun x => { x with ended := [1], det := l }
    tF.mask = BitVec.allOnes 64 ∧ (match releaseGate tS .dev with | .pass u => fget u.g.frs u.fi == some tF | _ => false) = true ∧ tF.idx = tF.len ∧
    getL tS 3 = some tS.l ∧ phaseDue tS tS.l = false ∧ phaseDue (s []) (s []).l = true ∧ phaseDue (s [e]) (s [e]).l = true ∧ (s [e]).l.uid = 3 ∧
    (match detPlace (s [e]) 0 e with | .ok a => a.loc == .mem 0x200000 && a.n == 4 | _ => false) = true ∧ inMem tS 0x200000 = true ∧
    isScat tS (homeDie tS 0x200000) 0x200000 = false ∧ (s [e]).pz = [] ∧ (∀ sec ∈ sectorsOf 0x200000 4, mget (s [e]).tags 0 sec = 0) ∧
    (∀ x ∈ allG tS, ∀ p ∈ x.frs, p.2.wait = .go) := by decide +kernel

/-! ### Sessions, counters, stops -/

/-- The device's translation of a store at an address in context 0: in a page that is not migratable. -/
def fixedAt (s : State) (va : Nat) : Bool := match walk s 0 .store va with | .ok _ _ _ _ leaf _ => !bit leaf 8 | _ => false
/-- Session 0 with its control block at va; `ctl` are bits of its control register, and x what it keeps beside. -/
def tSess (ctl va : Nat) (x : Session) : State :=
  sysPut (sysPut { tS with sess := [(0, x)] } (rTs 0 0) ctl) (rTs 0 4) va
def recNone (s : State) : Bool := dies.all (fun d => (iota 0 32).all (fun j => sysBits s (0x3600 + 64 * d + 2 * j) 7 0 != 0x0E && sysBits s (0x3600 + 64 * d + 2 * j) 7 0 != 0x0C))
theorem wit_sessionControl :
    let s := tSess 0 0x200000 {}
    let away := tSess 0 vaAway {}
    let on := tSess (2 ^ 63) 0x200000 {}
    tsOpen s 0 = false ∧ recNone s = true ∧ fixedAt s (blkVa s 0 0) = true ∧ s.heldAns = [] ∧ s.tears = [] ∧
    (match walk away 0 .store (blkVa away 0 0) with | .away _ => true | _ => false) = true ∧ tsOpen on 0 = true ∧
    (mget on.sess {} 0).closing = none ∧ bit (2 ^ 50 : Word).toNat 62 = false ∧ bit (2 ^ 50 : Word).toNat 56 = false ∧ (dieQueue s 0).length < 256 ∧
    bit (2 ^ 62 : Word).toNat 62 = true := by decide +kernel
theorem wit_recordPlacement :
    let r : HeldRec := ⟨.record, 0, List.replicate 16 0, none⟩
    let on (x : Session) := tSess (2 ^ 63) 0x200000 x
    let full (c : Nat) := tSess (2 ^ 63 + c) (2 ^ 40) { tailR := 254, pubR := 254, held := [r] }
    let u (x : Session) := readHead (readHead (readHead (on x) 0 .record) 0 .tile) 0 .replay
    tsOpen tS 0 = false ∧ tsOpen (on {}) 0 = true ∧ (on {}).path = [] ∧ fixedAt (on {}) (blkVa (on {}) 0 0) = true ∧
    fixedAt (sysPut (on {}) (rTs 0 1) 0x210000) (ringVa (sysPut (on {}) (rTs 0 1) 0x210000) 0 .record 1) = true ∧
    0 + 3 ≤ 0 + 2 ^ (sysBits (on {}) (rTs 0 1) 3 0 + 8) ∧ 0 + 2 ^ (sysBits (full 0) (rTs 0 1) 3 0 + 8) < 254 + 3 ∧
    (full 0).winVals = [] ∧ (full 0).path = [] ∧ (mget (full 0).sess {} 0).tailT = (mget (full 0).sess {} 0).pubT ∧ ({ tailR := 1 } : Session).pubR ≠ 1 ∧ recNone (full 0) = true ∧
    (match devReadBy (full 0) (.session 0) 1 0 (blkVa (full 0) 0 8) 8 with | .bad _ => true | _ => false) = true ∧ sysBit (full 0) (rTs 0 0) 56 = false ∧
    sysBit (full (2 ^ 56)) (rTs 0 0) 56 = true ∧ (mget (full 0).sess {} 0).closing = none ∧ sysGet (full 0) (rTs 0 5) = 0 ∧
    (mget (on { ended := true, closing := some 1 }).sess {} 0).ended = true ∧
    (mget (u { closing := some 2 }).sess {} 0).closing = some 2 ∧ (on {}).now < (mget (u { closing := some 2, since := 5 }).sess {} 0).since + 10000000 ∧
    (mget (u { closing := some 2 }).sess {} 0).since + 10000000 ≤ { on {} with now := 10000000 }.now := by decide +kernel
theorem wit_linkRecords :
    let on := tSess (2 ^ 63 + 255 * 2 ^ 50 + 2 ^ 33) 0x200000 {}
    tS.service = .full ∧ State.reset.service ≠ .full ∧ recNone on = true ∧ takes on 0 0x0A 0 (0x400 + 35) = true ∧ takes tS 0 0x0A 0 0x400 = false ∧
    (dieQueue on (srcDie (0x400 + 35))).length < 256 := by decide +kernel
theorem wit_countersAndStops :
    let c (n : Nat) := sysPut (sysPut tS n (2 ^ 63 + 2 ^ 61 + 2)) (n + 1) (2 ^ 48 - 1)
    (∀ n ∈ [0x1600, 0x3600], sysBit (c n) n 63 = true ∧ sysGet (c n) (n + 1) = 2 ^ 48 - 1 ∧ sysBits (c n) n 7 0 ≠ 0x0E ∧ sysBits (c n) n 7 0 ≠ 0x0C) ∧ sysBit (c 0x1600) 0x1600 61 = true ∧
    stoppedOn (c 0x1600) 0 = none ∧ sysBit tS 0x1600 63 = false ∧ stoppedOn tStop 0 = some ⟨0, 0, 2, 5⟩ ∧ stoppedOn tS 0 = none := by decide +kernel
theorem wit_HeldGroupsDoNotIssue :
    let f (s : State) := focus (passTime { s with agenda := [] } 1) 1
    (f tS).g.uid = 1 ∧ ctxState (f (setCtxState tS 0 2)) (f (setCtxState tS 0 2)).l.ctx ≠ 1 ∧ (f (inT tS fun t => { t with slot := .shadow })).t.slot ≠ .running ∧
    isStopped (f tStop) (f tStop).t.core ((f tStop).g.idx % 4) = true ∧ (f tStop).g.uid = 1 ∧
    heldBack (f (tSess (2 ^ 63) 0x200000 { held := [⟨.record, 0, [], some 1⟩] })) 1 = true ∧
    (let p := f (inT tS fun t => { t with preempt := true, small := true }); p.t.preempt = true ∧ p.t.small = true) ∧ heldBack (f tS) 1 = false ∧
    getG tS 1 = some tS.g ∧ tS.reached = [] ∧ tS.tears = [] ∧ tS.service ≠ .bringUp := by decide +kernel

/-! ### The host and the domain -/

/-- Landing entry 0 covers 2 MiB from 0x200000, for every kind of request of domain tag 7. -/
def tLand : State := sysPut (sysPut tS 0x3A00 0x200000) 0x3A01 (7 * 2 ^ 48 + 7 * 2 ^ 32 + 1)
theorem wit_outsideWrites :
    let rq (op : PeerOp) : PeerReq := ⟨1, 7, 0x200000, op⟩
    inMem tS 0x200000 = true ∧ inMem tS (2 ^ 51) = false ∧ (∀ e < 256, landServes tS (rq (.read 8)) e = false) ∧
    (∀ op ∈ [PeerOp.read 8, .write [1], .atom 0 .i32 .rn 5 0, .cas true 0 1],
      (iota 0 256).find? (landServes tLand (rq op)) = some 0 ∧ inMem tLand 0x200000 = true) ∧
    isScat tLand (homeDie tLand 0x200000) 0x200000 = false ∧ 0x200000 % tySize .i32 = 0 ∧ 0x200002 % tySize .i32 ≠ 0 ∧
    landServes tLand ⟨1, 7, 0x200002, .atom 0 .i32 .rn 5 0⟩ 0 = true := by decide +kernel
theorem wit_windowAnswers :
    let q (k : WinK) (sc : Bool) (e : Nat) : WinReq :=
      { id := 70, kind := k, peer := true, ctx := 0, owner := .group 1, pa := 0, n := 8, lop := 20, frag := 4, scalar := sc, ent := e }
    let s (q : WinReq) := inG { tS with wins := [q], path := [tE] } fun g => { g with ops := [{ tO .load with d := 4 }] }
    { q .load false 0 with keep := true }.keep = true ∧ (q .load false 0).keep = false ∧
    tS.wins[0]? = none ∧ (s (q .load false 0)).wins[0]? = some (q .load false 0) ∧ getG (s (q .load false 0)) 1 = some (s (q .load false 0)).g ∧
    getOp (s (q .load false 0)).g 20 = some { tO .load with d := 4 } ∧ { tS.g with swait := .remote 70 }.swait = .remote 70 ∧
    fget { tS.g with frs := [(0, { tF with wait := .remote 70 })] }.frs 0 = some { tF with wait := .remote 70 } ∧
    (s (q .store false 9)).path.find? (fun e => e.id == 9) = some tE ∧ (q .load false 0).ent = 0 ∧ (∀ e ∈ (s (q .load false 0)).path, e.id ≠ 0) ∧
    ctxState (s (q .load false 0)) 0 = 1 ∧ (s (q .load false 0)).dumps.length < 3 ∧ (q .load false 0).born + 2000000 ≤ { tS with now := 2000000 }.now ∧
    tS.now < (q .load false 0).born + 2000000 ∧ hangDue (s (q .load false 0)) 0 = none ∧ getL tS 3 = some tS.l ∧
    { q .flush false 0 with owner := .session 0 }.owner = .session 0 ∧ ({ q .flush false 0 with owner := .device, lop := 3 } : WinReq).lop ≠ 0 ∧
    (q .load true 0).scalar = true := by decide +kernel

/-! ### Queues, offers, completion -/

/-- Queue 0 of context 0 with its ring at 0x200000, two slots written, and control word `w2`, `w6` of the launch. -/
def tQueue (w0 w2 w6 : Nat) : State :=
  let s := sysPut (sysPut (sysPut (sysPut tS (rQ 0 0) 0x200000) (rQ 0 1) (2 ^ 13)) (rQ 0 2) 2) (rQ 0 4) 1000
  placeBytes s 0x200000 (([w0, 0x110000, w2, 0, 0, 0, w6, 0] : List Nat).flatMap (leBytes 8))
def isGotNodes (whole : Bool) : NodeRd → Bool | .got l b => b == whole && (!whole || l.all nodeOk) | _ => false
theorem wit_queueRegisters :
    let d (v head : Nat) := (v % 2 ^ 32 + 2 ^ 32 - head) % 2 ^ 32
    sysGet tS (rQ 0 3) = 0 ∧ d 16 0 ≤ 2 ^ (min (sysBits tS (rQ 0 1) 3 0) 12 + 4) ∧ (sysGet tS (rQ 0 2) + 2 ^ 32 - 0) % 2 ^ 32 ≤ d 16 0 ∧
    ¬ d 17 0 ≤ 2 ^ (min (sysBits tS (rQ 0 1) 3 0) 12 + 4) ∧ queueEn tS 0 = false ∧ queueEn (tQueue 0 0 0) 0 = true := by decide +kernel
theorem wit_launchReads :
    let rd (s : State) (k : Nat) : Option (List Word) := match readWords s 0 (slotVa s 0 k) 8 with | .ok d _ => some (wordsOf d) | _ => none
    let due (s : State) : Bool := servesQueue s 0 && decide (2 ≤ (qTail s 0 + 2 ^ 32 - qHead s 0) % 2 ^ 32)
    let ok := tQueue 0x110000 1 0
    let bad := tQueue 0x110001 1 0
    let nodes (va : Nat) := placeBytes (tQueue 0x110000 (2 ^ 47 + 1) va) 0x210000 ([0x110000, 2 ^ 16 + 2 ^ 8 + 3, 1 * 2 ^ 16, 0].flatMap (leBytes 8))
    due tS = false ∧ due ok = true ∧ rd ok 0 = some [0x110000, 0x110000, 1, 0, 0, 0, 0, 0] ∧ (rd ok 1).map (fun l => l.length) = some 8 ∧
    recordOk [0x110000, 0x110000, 1, 0, 0, 0, 0, 0] = true ∧ (rd bad 0).map recordOk = some false ∧
    (match walk bad 0 .store 0 with | .away _ => true | _ => false) = false ∧ scatLines bad 0x200000 8 = [] ∧
    (match walk bad 0 .store 0x200000 with | .ok _ _ _ _ _ _ => true | _ => false) = true ∧
    (match readWords (sysPut ok (rQ 0 0) (2 ^ 40)) 0 (slotVa (sysPut ok (rQ 0 0) (2 ^ 40)) 0 0) 8 with | .bad _ => true | _ => false) = true ∧
    due (sysPut ok (rQ 0 0) (2 ^ 40)) = true ∧ due (nodes 0x210000) = true ∧ (rd (nodes 0x210000) 0).map recordOk = some true ∧
    isGotNodes true (readNodes (nodes 0x210000) 0 0x210000 1) = true ∧ (rd (nodes (2 ^ 40)) 0).map recordOk = some true ∧
    isGotNodes false (readNodes (nodes (2 ^ 40)) 0 (2 ^ 40) 1) = true := by decide +kernel
theorem wit_CoreOffers :
    let two : State := inL (tQueue 0 0 0) fun l => { l with w := [0x110000, 0x110000, 2, 0, 0, 0, 0, 0] }
    let out : State := inT (tQueue 0 0 0) fun t => { t with slot := .out }
    (running tS 0).isSome = true ∧ offerable two 1 = true ∧ offerable out 1 = true ∧
    (match offer two 1 with | (u, .place 0 (.grid 3) [1]) => (getL u 3).any (fun x => !isAfter x) && decide (u.g.uid < u.nid) && u.groups.isEmpty | _ => false) = true ∧
    (match offer out 1 with
      | (u, .place 0 (.back 2) [1]) => (getT u 2).any (fun x => x.slot == .out && x.rank == 0 && clusterOf u x == [x])
      | _ => false) = true := by decide +kernel
theorem wit_Completion :
    let done := inG tS fun g => { g with atEnd := true, task := none, frs := [] }
    let mate := { done with groups := [{ uid := 8, team := 2, idx := 1 }] }
    let left (f : Launch → Launch) : State := { tS with g := {}, t := {}, l := f tS.l }
    let l (f : Launch → Launch) : Launch := f tS.l
    getG tS 1 = some tS.g ∧ mayRetire tS tS.g = false ∧ mayRetire done done.g = true ∧ getT done 2 = some done.t ∧ getL done 3 = some done.l ∧
    done.t.uid = 2 ∧ done.l.uid = 3 ∧ done.claims = [] ∧ (∃ y ∈ allG mate, y.uid ≠ 1 ∧ y.team = 2) ∧ (∀ y ∈ allG done, y.uid ≠ 1 → y.team ≠ 2) ∧
    { done.t with mq := [tM .tclr] }.mq ≠ [] ∧ done.t.mq = [] ∧ done.t.clusterN ≤ 1 ∧ done.t.mail = none ∧ done.eops = [] ∧ done.l.queue < 64 ∧ mayRetire mate mate.g = true ∧
    getL (left id) 3 = some (l id) ∧ launchDrained { left id with path := [{ tE with launch := 3 }] } (l id) = false ∧
    launchDrained (left id) (l id) = true ∧ launchOver tS tS.l = false ∧ launchOver (left id) (l id) = true ∧
    (match walk (left id) 0 .store (lw (l id) 7) with | .away _ => true | _ => false) = false ∧
    (l id).status = none ∧ (l id).hostSt = false ∧ (l id).flush ≠ 1 ∧
    (let f := fun x : Launch => { x with hostSt := true }; launchDrained (left f) (l f) = true ∧ launchOver (left f) (l f) = true ∧ (l f).flush = 0) ∧
    (let f := fun x : Launch => { x with flush := 1 }; launchDrained (left f) (l f) = true ∧ launchOver (left f) (l f) = true) ∧
    (let f := fun x : Launch => { x with status := some 2 }; launchDrained (left f) (l f) = true ∧ (l f).dumping = false) ∧
    (let f := fun x : Launch => { x with status := some 2, dumping := true }; launchDrained (left f) (l f) = true ∧ (l f).dumping = true) := by decide +kernel

/-! ### Stops, dumps, teardown -/

theorem wit_contextStops :
    let p := inG (tPers none) fun g => { g with lap := 50000000 }
    ctxState tS 0 = 1 ∧ tS.dumps.length < 3 ∧ ctxState State.reset 0 ≠ 1 ∧ getG p 1 = some p.g ∧ isPers p.l = true ∧ lapNs p.l ≤ p.g.lap ∧
    ctxState p 0 = 1 ∧ tS.g.lap < lapNs (tPers none).l ∧ hangDue tS 0 = none ∧ hangDue p 0 = some p.g := by decide +kernel
theorem wit_dumpMoves :
    let d (k : Nat) : Dump := { ctx := 0, first := { ctx := 0, cause := .bounds, core := 9 }, k := k }
    let s (k : Nat) : State := sysPut { tS with dumps := [d k] } (rRec 0 3) 0x200000
    let n := (drecBytes (s 0) 0 (.first (d 0).first)).length
    (d 0).struck = false ∧ { d 0 with struck := true }.struck = true ∧ ((dumpRecs (s 9) (d 9))[9]?).isNone = true ∧ (match (dumpRecs (s 0) (d 0))[0]? with | some (DRec.first r) => decide (r.ctx = 0) | _ => false) = true ∧
    dumpSize (s 0) 0 < { d 0 with pos := 4096 }.pos + n ∧ 0 + n ≤ dumpSize (s 0) 0 ∧
    (match devWriteRun (s 0) 0 ((dumpVa (s 0) 0 + 0) % 2 ^ 64) (n / 4096 + 2) (List.replicate n 0) with | .ok _ => true | _ => false) = true := by
  decide +kernel
theorem wit_teardown :
    let begun (s : State) : State := { s with tears := [(0, 0), (0, 1)] }
    let gone := begun { tS with g := {}, t := {}, l := {} }
    ctxState tS 0 = 1 ∧ ctxState (setCtxState tS 0 2) 0 = 2 ∧ ctxState (setCtxState tS 0 3) 0 = 3 ∧ ctxState State.reset 0 = 0 ∧ queueCtx tS 0 = 0 ∧
    (∀ p ∈ gone.tears, p.1 = 0 ∧ p.2 ≤ 64) ∧ gone.reached = [] ∧ gone.service ≠ .bringUp ∧ goesOn (begun tS) 0 = true ∧ goesOn gone 0 = false ∧
    flushing gone 0 = false ∧ flushing (tSess (2 ^ 63) 0x200000 { closing := some 3 }) 0 = true ∧ ownSession (tSess (2 ^ 63) 0x200000 {}) 0 0 = true ∧
    (∀ x < 256, x ≠ 0 → ctxLive tS x = false) ∧ inWindow (sysPut tS (rCtx 0 5) 1) 0 0 = true ∧ sysBits (sysPut tS (rCtx 0 2) 3) (rCtx 0 2) 7 0 = 3 := by
  decide +kernel

/-! ### Registers of the device -/

theorem wit_contextAndKeyWrites :
    ctxLive tS 0 = true ∧ ctxLive tS 1 = false ∧ sysBit tS (rKey 3) 0 = false ∧ sysBit (sysPut tS (rKey 3) 1) (rKey 3) 0 = true ∧
    (1 : Word).toNat.testBit 0 = true ∧ (0 : Word).toNat.testBit 0 = false := by decide +kernel
theorem wit_domainTables :
    let map := placeBytes tS 0x200000 [3]
    let l := mapMembers (rdBytes map (homeDie map (bits (0x200000 : Word).toNat 51 6 * 64)) (bits (0x200000 : Word).toNat 51 6 * 64) 0 64)
    let on := sysPut tS 0x0200 (2 ^ 63)
    landSize tLand 0 ≠ 0 ∧ landSize tS 0 = 0 ∧ tS.landOff = [] ∧ { tLand with landed := [⟨0, 9⟩] }.landed = [⟨0, 9⟩] ∧ sysBit tS 0x0200 63 = false ∧
    inMem map 0x200000 = true ∧ l = [0, 1] ∧ mapMembers (rdBytes tS (homeDie tS 0x200000) 0x200000 0 64) = [] ∧ sysBit on 0x0200 63 = true ∧
    (0 : Word).toNat.testBit 62 = false ∧ on.collOff = [] ∧ on.eops = [] ∧
    ({ tEng with kind := .coll tAccM tAccM 0 .n32 .rn 0 1 } : EngOp).stopped = false := by decide +kernel
theorem wit_ClockAndTime :
    (∀ i < 16, tsOpen State.reset i = false) ∧ allL State.reset = [] ∧ tsOpen (tSess (2 ^ 63) 0 {}) 0 = true ∧ allL tS ≠ [] ∧
    sysBit (sysPut tS 0x1310 (2 ^ 62)) 0x1310 62 = true ∧ sysBit tS 0x1310 62 = false ∧ mget tS.rows 0 5 = 0 ∧
    mget { tS with rows := [(5, 3)], act := [(5, 1024)] }.rows 0 5 ≠ 0 ∧
    max 64 (sysBits tS 0x1309 11 0) ≤ mget { tS with rows := [(5, 3)], act := [(5, 1024)] }.act 0 5 := by decide +kernel
theorem wit_outsideRegisterWrites :
    bar0Num 4 = none ∧ bar0Num 0x704000 = none ∧ bar0Num 0x100038 = some 0x407 ∧ sysAssigned 0x407 = false ∧ tS.service ≠ .mailbox ∧
    { tS with service := .mailbox }.service = .mailbox ∧ ctxLive tS 0 = true ∧ ctxLive tS 1 = false ∧ ctxResident tS 0 = true ∧ ctxResident tS 1 = false := by decide +kernel

/-! ### Translation, migration, attestation -/

theorem wit_pageWalks :
    let w : PWalk := { id := 9, core := 0, ctx := 0, uid := 1, page := 0x200000 }
    let on (l b : Nat) (page : Nat) : PWalk := { w with going := true, level := l, base := b, page := page }
    let s (w : PWalk) : State := { tS with walks := [w] }
    let e (w : PWalk) : Nat := rdPhys (s w) (w.base + 8 * pteIndex w.level w.page) 8
    let bad : State := placeBytes (s (on 2 0x102000 0x200000)) 0x102000 (leBytes 8 (placeLeaf + 2 ^ 10))
    (∀ x ∈ tS.walks, x.core = 0 → x.ctx = 0 → x.page = 2 ^ 41 → x.failed ≠ none) ∧
    (s w).walks.find? (fun x => x.core == 0 && x.ctx == 0 && x.page == 0x200000 && x.failed.isNone) = some w ∧ w.going = false ∧
    ((s w).walks.filter (fun x => x.going && dieOf x.core == dieOf 0)).length < 64 ∧
    64 ≤ ((List.replicate 64 (on 0 0 0)).filter (fun x => x.going && dieOf x.core == dieOf 0)).length ∧
    inMem (s w) (ptePa (sysGet (s w) (rCtx 0 0))) = true ∧
    (let u := sysPut (s w) (rCtx 0 0) (2 ^ 63 + 2 ^ 51); inMem u (ptePa (sysGet u (rCtx 0 0))) = false) ∧
    bit (e (on 0 0x100000 (2 ^ 50))) 0 = false ∧
    (∀ x ∈ [on 0 0x100000 0x200000, on 2 0x102000 0x200000], bit (e x) 0 = true ∧ badEntry (s x) x.level (e x) = false ∧
      (bit (e x) 1 = true ∨ paKind (s x) (ptePa (e x)) ≠ .unmapped) ∧ bit (e x) 1 = decide (x.level = 0)) ∧
    badEntry bad 2 (rdPhys bad 0x102000 8) = true ∧ bit (rdPhys bad 0x102000 8) 0 = true ∧ bit (rdPhys bad 0x102000 8) 1 = false ∧
    paKind bad (ptePa (rdPhys bad 0x102000 8)) ≠ .unmapped ∧ w.stale = false ∧ { w with stale := true }.stale = true := by decide +kernel
theorem wit_invalidations :
    let i : Inval := { ctx := 0, va := 0x200000, len := 1 }
    let w : PWalk := { id := 9, core := 0, ctx := 0, uid := 1, page := 0x200000 }
    tlbFind tS 0 0 0x200000 ≠ none ∧ sysBit (sysPut tS 0x1306 (2 ^ 63)) 0x1306 63 = true ∧ sysBit tS 0x1306 63 = false ∧ tS.invals = [] ∧
    i.bound = none ∧ { i with bound := some 100 }.bound = some 100 ∧ accessDue tS 0 0x200000 4096 100 = false ∧ i.walks = [] ∧
    accessDue { tS with path := [tArr .store tAccM] } 0 0x200000 4096 100 = true ∧
    (∃ x ∈ [w], x.id ∈ { i with walks := [9] }.walks ∧ x.failed = none) := by decide +kernel
/-- A page that is away, whose shadow names a frame at 0x400000. -/
def tMove : State :=
  placeBytes (sysPut { tS with migq := [{ ctx := 0, va := vaAway, away := false, byFault := false }] } (rCtx 0 1) 0x1000) 0x104000 (leBytes 8 (5 * 2 ^ 60 + 0x400139))
theorem wit_migrationMoves :
    let move : MigMove := { ctx := 0, va := vaAway, away := false, byFault := false }
    let n := 2 ^ 21
    let old := 0x10000000000
    let on : State := { tMove with migq := [{ move with moving := true, sz := 5 }] }
    let w : PWalk := { id := 9, core := 0, ctx := 0, uid := 1, page := vaAway }
    (tS.migq.filter (fun m => !m.byFault)).length < 64 ∧ 64 ≤ ((List.replicate 64 move).filter (fun m => !m.byFault)).length ∧
    tS.migq = [] ∧ tMove.migq = [move] ∧ ringFull tMove 0x1300 = false ∧ heldBack tMove 0 = false ∧
    (∃ u ∈ [({ home := 1, dst := 0, num := 1, ser := 7, owner := .device, ent := 0, k := .bytes 0 [] false } : Upd)], u.ser ∈ { move with stores := [7] }.stores) ∧
    (∃ e ∈ [tE], e.id ∈ { move with stores := [9] }.stores) ∧ tMove.path = [] ∧ tMove.inq = [] ∧ move.stored = false ∧ leafOf tMove 1 0 = none ∧
    (leafOf tMove 0 vaAway).any (fun p => bit p.2 8 && usableShadow tMove 0 p.1 p.2 == some 0x400000 && !pinned tMove (ptePa p.2) n &&
      2 ^ pageLog (bits p.2 63 60) == n && ptePa p.2 == old) = true ∧
    (leafOf { tS with migq := [move] } 0 vaAway).map (fun p => usableShadow tS 0 p.1 p.2) = some none ∧
    leafOf on 0 vaAway = leafOf tMove 0 vaAway ∧ on.migq ≠ [] ∧
    (∀ x ∈ on.walks, x.failed = none → walkIn 0 vaAway n x = false) ∧ walkIn 0 vaAway n w = true ∧ w.failed = none ∧
    accessDue on 0 vaAway n on.nid = false ∧ frameBusy on old n = false ∧ frameBusy on 0x400000 n = false ∧ copiedLines on old n = [] ∧
    accessDue { on with path := [tArr .store { tAccM with va := vaAway }], nid := 100 } 0 vaAway n 100 = true ∧
    copiedLines { on with copies := [{ core := 0, line := old / 128, num := 1 }] } old n ≠ [] ∧
    Memory.wf State.reset ∧ (∀ sec ∈ sectorsOf 0x400000 32, mget State.reset.tags 0 sec = 0) := by decide +kernel
theorem wit_roasterAndAttestation :
    let on := sysPut tS 0x1307 (2 ^ 63)
    sysBit tS 0x1307 63 = false ∧ sysBit on 0x1307 63 = true ∧ on.roastEnd ≤ on.now ∧ on.now < { on with roastEnd := 9 }.roastEnd ∧
    scatLines State.reset 0 256 = [] ∧ sysBit (sysPut tS 0x130A (2 ^ 63)) 0x130A 63 = true ∧ sysBit tS 0x130A 63 = false ∧ tS.atts = false ∧
    { tS with atts := true }.atts = true ∧ State.reset.firm = none ∧ (List.replicate 48 (0 : Byte)).length = 48 ∧
    inMem State.reset 0 = true ∧ (∀ sec ∈ sectorsOf 0 256, mget State.reset.tags 0 sec = 0) ∧ Memory.wf State.reset := by decide +kernel

/-! ### Switches, errors, services -/

/-- A small team with no register and no scratchpad: its image takes two pages; the save area lies in a host window. -/
def tSave : State :=
  sysPut (inT (inG tS fun g => { g with a := [] }) fun t => { t with vregs := 0, scrB := 0, sliceB := 0, preempt := true }) (rRec 0 2) (vaHost + 9)
theorem wit_TeamSwitches :
    let two := { tS with teams := [{ uid := 8, launch := 3, idx := 1, slot := .shadow }], pre := [⟨0, 2⟩] }
    let due := { inL tSave fun l => { l with w := [0x110000, 0x110000, 2, 0, 0, 0, 0, 0], ended := [1] } with nid := 9 }
    sysBit (sysPut tS 0x3800 (2 ^ 63)) 0x3800 63 = true ∧ sysBit tS 0x3800 63 = false ∧ (0 : Word).toNat.testBit 8 = false ∧
    stoppedOn tStop 0 = some ⟨0, 0, 2, 5⟩ ∧ stoppedOn two 0 = none ∧ preOp two 0 = some 2 ∧ (running two 0).map (fun t => t.uid) = some 2 ∧
    (shadow two 0).map (fun t => t.uid) = some 8 ∧ two.t.clusterN ≤ 1 ∧ (getT two 8).isSome = true ∧ preOp tS 0 = none ∧ shadow tS 0 = none ∧
    getT tSave 2 = some tSave.t ∧ tSave.t.slot = .running ∧ tS.t.preempt = false ∧
    settled { tSave with path := [{ tE with launch := 3 }] } tSave.t = false ∧ settled tSave tSave.t = true ∧ (saveTeam tSave tSave.t).2 = true ∧
    (getT (saveTeam tSave tSave.t).1 2).isSome = true ∧ (∀ z ∈ allT tSave, z.uid = 2 → z = tSave.t) ∧ settled due due.t = true ∧
    allAtPhase due due.t = true ∧ othersToPlace due due.l = true ∧ ctxState due 0 = 1 ∧ (saveTeam due due.t).2 = true ∧ toMemory due due.t = false ∧
    (let u := { due with teams := [{ uid := 8, launch := 3, idx := 1, slot := .shadow }] };
      toMemory u u.t = true ∧ allAtPhase u u.t = true ∧ othersToPlace u u.l = true ∧ settled u u.t = true ∧ (saveTeam u u.t).2 = true ∧
      (getT (saveTeam u u.t).1 2).isSome = true ∧ settled { u with path := [{ tE with launch := 3 }] } u.t = false) ∧
    (∀ g ∈ allG two, ∀ o ∈ g.ops, o.kind = .term → o.mid = false) ∧ stoppedOn tSave 0 = none := by decide +kernel
theorem wit_errorsStrike :
    let s := { tClaim .claim [tEnt false 0] with tlb := [{ core := 0, ctx := 0, base := 0, size := 4096, leaf := 0, addr := 0 }] }
    getG s 1 = some s.g ∧ getT s 2 = some s.t ∧ ringFull (sysPut (sysPut tS 0x3942 64) 0x3940 0) 0x3940 = true ∧
    s.claims.find? (fun e => e.id == 51) = some (tEnt false 0) ∧ (tEnt false 0).making = false ∧ (tEnt true 1).making = true ∧
    (tEnt true 1).waiters = [] ∧ s.tlb ≠ [] ∧ s.scat = [] ∧ ({ s with units := [tUnit] }.units.find? (fun u => u.core == 0 && u.pa / 8 == 0x200000 / 8)) = some tUnit ∧ (∃ x ∈ { s with l1 := [tSec] }.l1, x.core = 0 ∧ x.pa = tSec.pa) := by decide +kernel
theorem wit_serviceChanges :
    let up := sysPut State.reset 0x3944 (2 ^ 62)
    State.reset.service = .bringUp ∧ tS.service ≠ .bringUp ∧ sysBit State.reset 0x3944 62 = false ∧ sysBit up 0x3944 62 = true ∧ allL up = [] ∧
    (∃ l ∈ allL { up with l := tL }, l.queue = 0) := by decide +kernel
theorem wit_StepKeepsStoreForms : Say.storesWf State.reset ∧ goes (step State.reset) = true := by
  unfold Say.storesWf; decide +kernel

end Sys2Proof.Tests
end

section
/-! SUPPORT. Scalar arithmetic (R86, R88 to R91): the values of the model's word functions, the meaning of each row of the
table of register forms, and the words of the register and immediate forms. -/

namespace Sys2Proof.Machine

open Sys2Proof

/-! ### Values of the word functions -/

theorem ite_slt {α : Type} (x y : Word) (p q : α) : (if x.slt y then p else q) = if x.toInt < y.toInt then p else q := by
  simp only [BitVec.slt_iff_toInt_lt]

theorem ite_ult {α : Type} (x y : Word) (p q : α) : (if x.ult y then p else q) = if x.toNat < y.toNat then p else q := by
  simp only [BitVec.ult_iff_lt, BitVec.lt_def]

theorem flagW_slt (x y : Word) : flagW (x.slt y) = if x.toInt < y.toInt then 1 else 0 := ite_slt x y 1 0

theorem flagW_ult (x y : Word) : flagW (x.ult y) = if x.toNat < y.toNat then 1 else 0 := ite_ult x y 1 0

theorem flagW_beq (x y : Word) : flagW (x == y) = if x = y then 1 else 0 := by
  simp only [flagW, beq_iff_eq]

/-- The upper half of a 128-bit code is the quotient of the coded integer by 2^64. -/
theorem extractLsb'_ofInt_128 (z : Int) : (BitVec.ofInt 128 z).extractLsb' 64 64 = BitVec.ofInt 64 (z / 2 ^ 64) := by
  apply BitVec.eq_of_toNat_eq
  rw [BitVec.extractLsb'_toNat, BitVec.toNat_ofInt, BitVec.toNat_ofInt, Nat.shiftRight_eq_div_pow]
  omega

theorem mulhsW_eq_extract (x y : Word) : mulhsW x y = (x.signExtend 128 * y.signExtend 128).extractLsb' 64 64 := by
  rw [BitVec.signExtend, BitVec.signExtend, ← BitVec.ofInt_mul, extractLsb'_ofInt_128, mulhsW]

theorem mulhuW_eq_extract (x y : Word) : mulhuW x y = (x.setWidth 128 * y.setWidth 128).extractLsb' 64 64 := by
  have hlt : x.toNat * y.toNat < 2 ^ 128 := Nat.lt_of_lt_of_eq (Nat.mul_lt_mul'' x.isLt y.isLt) (Nat.pow_add 2 64 64).symm
  apply BitVec.eq_of_toNat_eq
  rw [BitVec.extractLsb'_toNat, BitVec.toNat_mul, BitVec.toNat_setWidth_of_le (by decide), BitVec.toNat_setWidth_of_le (by decide),
    Nat.mod_eq_of_lt hlt, Nat.shiftRight_eq_div_pow, mulhuW, BitVec.toNat_ofNat]

/-- R91: shifting the sign-extended immediate by 14 multiplies its value by 2^14. -/
theorem upper_eq_ofInt (i : BitVec 20) : upper i = BitVec.ofInt 64 (i.toInt * 2 ^ 14) := by
  rw [upper, BitVec.signExtend, BitVec.shiftLeft_eq_mul_twoPow, BitVec.ofInt_mul]
  rfl

/-! ### Register forms (R88, R89) -/

/-- A row of the table of register forms tells the model's meaning: d receives the row's function of a and b. -/
def AluRowHolds (p : (Reg → Reg → Reg → Instr) × (Word → Word → Word)) : Prop :=
  ∀ (s : State) (d a b : Reg), exec (p.1 d a b) s = .next (aluRR s d a b p.2)

/-- A row holds when the model computes its instruction with a function that agrees with the row's. -/
theorem aluRowHolds_of_eq {m : Reg → Reg → Reg → Instr} {f : Word → Word → Word} (g : Word → Word → Word)
    (hm : ∀ s d a b, exec (m d a b) s = .next (aluRR s d a b g)) (hfg : ∀ x y, g x y = f x y) : AluRowHolds (m, f) := by
  have : g = f := funext fun x => funext fun y => hfg x y
  exact this ▸ hm

theorem scalarAluRows_hold : ∀ p ∈ scalarAluRows, AluRowHolds p := by
  simp only [scalarAluRows, List.forall_mem_cons, List.not_mem_nil, false_implies, implies_true, and_true]
  exact ⟨-- `add` to `mul`: the row's function is the model's own
    fun _ _ _ _ => rfl, fun _ _ _ _ => rfl, fun _ _ _ _ => rfl, fun _ _ _ _ => rfl, fun _ _ _ _ => rfl,
    fun _ _ _ _ => rfl, fun _ _ _ _ => rfl, fun _ _ _ _ => rfl, fun _ _ _ _ => rfl,
    -- the upper halves of the products
    aluRowHolds_of_eq mulhsW (fun _ _ _ _ => rfl) mulhsW_eq_extract,
    aluRowHolds_of_eq mulhuW (fun _ _ _ _ => rfl) mulhuW_eq_extract,
    -- quotients and remainders: the model's own again
    fun _ _ _ _ => rfl, fun _ _ _ _ => rfl, fun _ _ _ _ => rfl, fun _ _ _ _ => rfl,
    -- minima, maxima and comparisons, with `slt` and `ult` read as orders
    aluRowHolds_of_eq _ (fun _ _ _ _ => rfl) (fun x y => ite_slt x y x y),
    aluRowHolds_of_eq _ (fun _ _ _ _ => rfl) (fun x y => ite_ult x y x y),
    aluRowHolds_of_eq _ (fun _ _ _ _ => rfl) (fun x y => ite_slt x y y x),
    aluRowHolds_of_eq _ (fun _ _ _ _ => rfl) (fun x y => ite_ult x y y x),
    aluRowHolds_of_eq _ (fun _ _ _ _ => rfl) flagW_slt,
    aluRowHolds_of_eq _ (fun _ _ _ _ => rfl) flagW_ult,
    aluRowHolds_of_eq _ (fun _ _ _ _ => rfl) flagW_beq⟩

theorem scalarAluRegisterForms_hold : Say.scalarAluRegisterForms :=
  fun p hp s d a b => completes_setA (scalarAluRows_hold p hp s d a b) rfl

/-! ### Immediate forms, conditional moves and upper immediates (R88, R90, R91) -/

theorem scalarAluImmediateForms_hold : Say.scalarAluImmediateForms :=
  fun _ _ _ _ _ => ⟨completes_setA rfl rfl, completes_setA rfl rfl, completes_setA rfl rfl, completes_setA rfl rfl,
    completes_setA rfl (flagW_slt _ _), completes_setA rfl (flagW_ult _ _),
    completes_setA rfl rfl, completes_setA rfl rfl, completes_setA rfl rfl⟩

/-- A conditional move that writes gives d the value x, and one that does not leaves d as it was (R88). -/
theorem move_result (c : Prop) [Decidable c] (s : State) (d : Reg) (x : Word) :
    scalarResult s (if c then setA s d x else advance s) d (if c then x else readA s.g d.toNat) := by
  split
  · exact setA_result s d x
  · exact advance_result s d

theorem scalarMovesAndUppers_hold : Say.scalarMovesAndUppers := by
  intro s d a b i
  refine ⟨⟨_, rfl, move_result _ s d _⟩, ⟨_, rfl, ?_⟩, completes_setA rfl (upper_eq_ofInt i),
    completes_setA rfl (congrArg (s.g.pc + ·) (upper_eq_ofInt i))⟩
  have := move_result (¬ srcA s b = 0) s d (srcA s a)
  rwa [ite_not, ite_not] at this

/-! ### Words (R58, R60, R88, R90) -/

/-- R88: the fn number of a register form is its place in the table, with `movz` and `movnz` after the last row. -/
theorem encode_aluRow : ∀ p ∈ (scalarAluRows.map (fun p => p.1) ++ [Instr.movz, Instr.movnz]).zipIdx,
    ∀ d a b : Reg, encode (p.1 d a b) = some (32, encS 1 p.2 d a b) := by
  simp only [scalarAluRows, List.map_cons, List.map_nil, List.cons_append, List.nil_append, List.zipIdx_cons, List.zipIdx_nil,
    List.forall_mem_cons, List.not_mem_nil, false_implies, implies_true, and_true]
  and_intros <;> exact fun _ _ _ => rfl

theorem decodeScalar_error {w : BitVec 32} {e : DecodeErr} (h : decodeScalarRaw w = .error e) : decodeScalar w = .error e := by
  rw [decodeScalar, h]

theorem decodeScalarRaw_imm {w : BitVec 32} (h : 2 ≤ bits w.toNat 31 26 ∧ bits w.toNat 31 26 ≤ 10) :
    decodeScalarRaw w = decodeImm (bits w.toNat 31 26) w.toNat (rfield w.toNat 20) (rfield w.toNat 14) := by
  unfold decodeScalarRaw
  rw [if_neg (by omega), if_pos h]

/-- R90: a shift by a constant needs imm14 [13:6] to be zero. -/
theorem decodeImm_shift_error {op x : Nat} {d a : Reg} (ho : op = 6 ∨ op = 7 ∨ op = 8) (hx : bits x 13 6 ≠ 0) :
    decodeImm op x d a = .error .value := by
  rcases ho with rfl | rfl | rfl <;> simp [decodeImm, okIf, hx]

theorem decodeScalar_shift_error {w : BitVec 32} (ho : bits w.toNat 31 26 = 6 ∨ bits w.toNat 31 26 = 7 ∨ bits w.toNat 31 26 = 8)
    (hx : bits w.toNat 13 6 ≠ 0) : decodeScalar w = .error .value :=
  decodeScalar_error (by rw [decodeScalarRaw_imm (by omega), decodeImm_shift_error ho hx])

theorem scalarAluWords_hold : Say.scalarAluWords := by
  refine ⟨fun k m hk d a b => ?_, ?_, ?_⟩
  · rw [encode_aluRow (m, k) (List.mem_zipIdx_iff_getElem?.2 hk), encS, Nat.one_mul]
  · simp only [List.forall_mem_cons, List.not_mem_nil, false_implies, implies_true, and_true]
    exact ⟨fun _ _ _ => rfl, fun _ _ _ => rfl, fun _ _ _ => rfl, fun _ _ _ => rfl, fun _ _ _ => rfl, fun _ _ _ => rfl⟩
  · simp only [List.forall_mem_cons, List.not_mem_nil, false_implies, implies_true, and_true]
    exact ⟨⟨fun _ _ _ => rfl, fun w ho hx => ⟨_, decodeScalar_shift_error (.inl ho) hx⟩⟩,
      ⟨fun _ _ _ => rfl, fun w ho hx => ⟨_, decodeScalar_shift_error (.inr (.inl ho)) hx⟩⟩,
      ⟨fun _ _ _ => rfl, fun w ho hx => ⟨_, decodeScalar_shift_error (.inr (.inr ho)) hx⟩⟩⟩

/-- Settles O8: every register form is a row of the model's table, the other forms write d through `setA` or leave it, and the
words are the encoder's. -/
theorem scalarArithmetic : Obligations.ScalarArithmetic :=
  ⟨scalarAluRegisterForms_hold, scalarAluImmediateForms_hold, scalarMovesAndUppers_hold, scalarAluWords_hold⟩

end Sys2Proof.Machine
end

section
/-! SUPPORT. Scalar control flow (R94 to R98, R109, R110, R418): what the Pacer's note of a taken branch leaves alone, and the
outcomes of branches, jumps, calls, lane tasks, waits and `end`. -/

namespace Sys2Proof.Machine

open Sys2Proof

theorem completes_of_exec {i : Instr} {s t : State} {P : State → Prop} (h : exec i s = .next t) (hP : P t) : completes i s P :=
  ⟨t, h, hP⟩

/-! ### The Pacer (R300) -/

theorem reports_emitS (s : State) (cls code a val : Nat) : onlyReports s (emitS s cls code a val) := reports_emit s _ _ _ _ _ _ _

/-- Beside the watched branches, the Pacer changes only what reporting writes. -/
theorem reports_setPacer (s : State) (br : Word) (l : List Pacer) :
    onlyReports { s with g := { s.g with pacer := l } } (setPacer s br l) := by
  refine reports_ite (.refl _) (reports_ite ?lifted ?lowered)
  case lifted => exact reports_emitS _ _ _ _ _
  case lowered => exact (reports_emitS _ _ _ _ _).trans (reports_countG _ _ _)

theorem pacerTaken_reports (s : State) (tgt : Word) :
    ∃ l, onlyReports { s with g := { s.g with pacer := l } } (pacerTaken s tgt) := by
  simp only [pacerTaken]
  split
  · exact ⟨s.g.pacer, .refl _⟩
  · exact ⟨_, reports_setPacer _ _ _⟩

theorem pcAndPacer_jump_pacerTaken (s : State) (tgt pc : Word) : pcAndPacer s (jump (pacerTaken s tgt) pc) pc := by
  obtain ⟨l, h⟩ := pacerTaken_reports s tgt
  refine ⟨(onlyFrags.of_reports h).1, ?_⟩
  simp only [jump, h.group]

theorem pcAndPacer_advance (s : State) : pcAndPacer s (advance s) (s.g.pc + 4) := ⟨.refl s, rfl⟩

/-! ### Branches (R94) -/

theorem branch_result (s : State) (c : Bool) (off : BitVec 11) :
    pcAndPacer s (branch s c off) (if c then s.g.pc + 4 * off.signExtend 64 else s.g.pc + 4) := by
  unfold branch
  cases c
  · exact pcAndPacer_advance s
  · exact pcAndPacer_jump_pacerTaken s _ _

theorem bne_eq_decide_ne (x y : Word) : (x != y) = decide (x ≠ y) := by
  rw [bne, Bool.beq_eq_decide_eq, decide_not]

theorem not_slt_eq_decide (x y : Word) : (!x.slt y) = decide (y.toInt ≤ x.toInt) := by
  rw [BitVec.slt, ← decide_not]
  simp only [Int.not_lt]

theorem not_ult_eq_decide (x y : Word) : (!x.ult y) = decide (y.toNat ≤ x.toNat) := by
  rw [BitVec.ult, ← decide_not]
  simp only [Nat.not_lt]

/-- A row of the branch table tells the model's meaning: the branch is taken when the row's condition holds of a and b. -/
def BranchRowHolds (p : (Reg → Reg → BitVec 11 → Instr) × (Word → Word → Bool)) : Prop :=
  ∀ (s : State) (a b : Reg) (off : BitVec 11), exec (p.1 a b off) s = .next (branch s (p.2 (srcA s a) (srcA s b)) off)

theorem branchRowHolds_of_eq {m : Reg → Reg → BitVec 11 → Instr} {f : Word → Word → Bool} (g : Word → Word → Bool)
    (hm : ∀ s a b off, exec (m a b off) s = .next (branch s (g (srcA s a) (srcA s b)) off)) (hfg : ∀ x y, g x y = f x y) :
    BranchRowHolds (m, f) := by
  have : g = f := funext fun x => funext fun y => hfg x y
  exact this ▸ hm

theorem branchRows_hold : ∀ p ∈ branchRows, BranchRowHolds p := by
  simp only [branchRows, List.forall_mem_cons, List.not_mem_nil, false_implies, implies_true, and_true]
  exact ⟨branchRowHolds_of_eq _ (fun _ _ _ _ => rfl) Bool.beq_eq_decide_eq,
    branchRowHolds_of_eq _ (fun _ _ _ _ => rfl) bne_eq_decide_ne,
    fun _ _ _ _ => rfl,
    branchRowHolds_of_eq _ (fun _ _ _ _ => rfl) not_slt_eq_decide,
    fun _ _ _ _ => rfl,
    branchRowHolds_of_eq _ (fun _ _ _ _ => rfl) not_ult_eq_decide⟩

theorem scalarBranches_hold : Say.scalarBranches :=
  ⟨fun p hp s a b off => completes_of_exec (branchRows_hold p hp s a b off) (branch_result s _ off),
    fun s _ => completes_of_exec rfl (pcAndPacer_jump_pacerTaken s _ _)⟩

/-! ### The counted loop (R95) -/

theorem wroteA_jump_writeA (s : State) (d : Reg) (x pc : Word) : wroteA s (jump { s with g := writeA s.g d.toNat x } pc) d x :=
  wroteA_writeA s _ d x rfl

theorem wroteA_jump_self (s : State) (d : Reg) (pc : Word) : wroteA s (jump s pc) d (readA s.g d.toNat) :=
  (advance_result s d).1

theorem writeA_pc (g : Group) (d : Nat) (x : Word) : (writeA g d x).pc = g.pc := by
  rw [writeA_eq]

/-- A loop word's register counts down, but stays 0 (R95). -/
def countDown (s : State) (a : Reg) : State :=
  if srcA s a = 0 then s else { s with g := writeA s.g a.toNat (srcA s a - 1) }

theorem countDown_pc (s : State) (a : Reg) : (countDown s a).g.pc = s.g.pc := by
  unfold countDown
  split
  · rfl
  · exact writeA_pc _ _ _

theorem countDown_result (s : State) (a : Reg) (pc : Word) :
    wroteA s (jump (countDown s a) pc) a (if srcA s a = 0 then 0 else srcA s a - 1) ∧ scalarOnly s (jump (countDown s a) pc) := by
  unfold countDown
  split
  case isTrue h => exact ⟨h ▸ wroteA_jump_self s a pc, scalarOnly_jump s pc⟩
  case isFalse => exact ⟨wroteA_jump_writeA s a _ pc, scalarOnly_writeA_jump s _ _ pc⟩

theorem jump_or_advance (s : State) (c : Prop) [Decidable c] (x : Word) {y : Word} (hy : s.g.pc = y) :
    (if c then jump s x else advance s) = jump s (if c then x else y + 4) := by
  subst hy; split <;> rfl

theorem exec_loop (s : State) (a : Reg) (off : BitVec 11) :
    exec (.loop a off) s =
      .next (jump (countDown s a) (if a ≠ 0 ∧ 1 < (srcA s a).toNat then s.g.pc + 4 * off.signExtend 64 else s.g.pc + 4)) :=
  congrArg _ (jump_or_advance (countDown s a) _ _ (countDown_pc s a))

theorem scalarLoop_hold : Say.scalarLoop := by
  intro s a off n
  obtain ⟨hwrote, honly⟩ := countDown_result s a
    (if a ≠ 0 ∧ 1 < n.toNat then s.g.pc + 4 * off.signExtend 64 else s.g.pc + 4)
  exact completes_of_exec (exec_loop s a off) ⟨hwrote, honly, rfl⟩

/-! ### Jumps and calls (R96) -/

theorem exec_jr_aligned {s : State} {a : Reg} (h : (srcA s a).toNat % 4 = 0) : exec (.jr a) s = .next (jump s (srcA s a)) :=
  congrArg _ (if_neg (Decidable.not_not.2 h))

theorem exec_jr_misaligned {s : State} {a : Reg} (h : (srcA s a).toNat % 4 ≠ 0) :
    exec (.jr a) s = .next (takeTrap s 3 s.g.pc.toNat (encS 0x24 0 0 a 0)) :=
  congrArg _ (if_pos h)

theorem exec_callr_aligned {s : State} (d : Reg) {a : Reg} (h : (srcA s a).toNat % 4 = 0) :
    exec (.callr d a) s = .next (jump { s with g := writeA s.g d.toNat (s.g.pc + 4) } (srcA s a)) :=
  congrArg _ (if_neg (Decidable.not_not.2 h))

theorem exec_callr_misaligned {s : State} (d : Reg) {a : Reg} (h : (srcA s a).toNat % 4 ≠ 0) :
    exec (.callr d a) s = .next (takeTrap s 3 s.g.pc.toNat (encS 0x24 1 d a 0)) :=
  congrArg _ (if_pos h)

theorem scalarCallsAndJumps_hold : Say.scalarCallsAndJumps := fun s d _ _ =>
  ⟨completes_of_exec rfl ⟨wroteA_jump_writeA s 63 _ _, rfl, scalarOnly_writeA_jump s 63 _ _⟩,
    fun h => completes_of_exec (exec_jr_aligned h) rfl,
    fun h => completes_of_exec (exec_callr_aligned d h) ⟨wroteA_jump_writeA s d _ _, rfl, scalarOnly_writeA_jump s _ _ _⟩,
    fun h => ⟨exec_jr_misaligned h, exec_callr_misaligned d h⟩⟩

/-! ### Lane tasks (R33, R97, R98) -/

/-- A state with one more lane task in the issuing group's queue, at the next word. -/
def queued (s : State) (task : Word) : State := advance { s with g := { s.g with taskq := s.g.taskq ++ [task] } }

theorem enqueue_of_room {s : State} (task : Word) (h : s.g.taskq.length < 8) : enqueue s task = queued s task :=
  if_neg (Nat.not_le.2 h)

theorem enqueue_of_full {s : State} (task : Word) (h : 8 ≤ s.g.taskq.length) : enqueue s task = s := if_pos h

theorem exec_issue (s : State) (off : BitVec 20) :
    exec (.issue off) s = .next (enqueue s (BitVec.ofNat 64 (lcBase s.l + 4 * off.toNat))) := rfl

theorem exec_issuex_aligned {s : State} {a : Reg} (h : (srcA s a).toNat % 4 = 0) :
    exec (.issuex a) s = .next (enqueue s (BitVec.ofNat 64 (lcBase s.l) + srcA s a)) :=
  congrArg _ (if_neg (Decidable.not_not.2 h))

theorem exec_issuex_misaligned {s : State} {a : Reg} (h : (srcA s a).toNat % 4 ≠ 0) :
    exec (.issuex a) s = .next (takeTrap s 3 s.g.pc.toNat (encS 0x29 0 0 a 0)) :=
  congrArg _ (if_pos h)

theorem encode_issuex (a : Reg) : encode (.issuex a) = some (32, 0x29 * 2 ^ 26 + a.toNat * 2 ^ 14) := by
  have : encode (.issuex a) = some (32, encS 0x29 0 0 a 0) := rfl
  simpa [encS] using this

theorem encode_issue (off : BitVec 20) : encode (.issue off) = some (32, 0x28 * 2 ^ 26 + off.toNat) := by
  have : encode (.issue off) = some (32, encU 0x28 0 off.toNat) := rfl
  simpa [encU] using this

theorem scalarIssue_hold : Say.scalarIssue := by
  intro s a off
  refine ⟨fun room => ⟨?issue, fun h => ?issuex⟩, fun full => ⟨?issueWaits, fun h => ?issuexWaits⟩,
    exec_issuex_misaligned, encode_issuex a, encode_issue off⟩
  case issue => exact completes_of_exec (exec_issue s off) (enqueue_of_room _ room)
  case issuex => exact completes_of_exec (exec_issuex_aligned h) (enqueue_of_room _ room)
  case issueWaits => rw [exec_issue, enqueue_of_full _ full]
  case issuexWaits => rw [exec_issuex_aligned h, enqueue_of_full _ full]

/-! ### Waits and `end` (R34, R109, R110, R418) -/

theorem mem_iota {n lo k : Nat} : k ∈ iota lo n ↔ lo ≤ k ∧ k < lo + n := by
  induction n generalizing lo with
  | zero => simp [iota]
  | succ n ih => simp only [iota, List.mem_cons, ih]; omega

/-- Every completion flag that the mask names is 0 (R36). -/
theorem flagsClear_iff {g : Group} {mask : Nat} :
    flagsClear g mask = true ↔ ∀ n, n < 12 → bit mask n = true → mget g.fl 0 n = 0 := by
  simp only [flagsClear, List.all_eq_true, mem_iota, Bool.or_eq_true, Bool.not_eq_true', beq_iff_eq]
  constructor
  · intro h n hn hb
    exact (h n ⟨Nat.zero_le n, by omega⟩).resolve_left (by simp [hb])
  · intro h n hn
    cases hb : bit mask n with
    | false => exact .inl rfl
    | true => exact .inr (h n (by omega) hb)

theorem exec_wflag_clear {s : State} {m : BitVec 12} (h : flagsClear s.g m.toNat = true) :
    exec (.wflag m) s = .next (advance s) := congrArg _ (if_pos h)

theorem exec_wflag_waits {s : State} {m : BitVec 12} (h : ¬ flagsClear s.g m.toNat = true) : exec (.wflag m) s = .next s :=
  congrArg _ (if_neg h)

theorem laneIdle_iff {g : Group} : laneIdle g = true ↔ g.task = none ∧ g.taskq = [] := by
  simp [laneIdle]

/-- The state after the point that a large team's `safe` makes (R418). -/
def pointMade (s : State) (vn : BitVec 7) (tz : Bool) : State :=
  advance { s with g := { s.g with safe := some (vn.toNat + 128 * tz.toNat), nInstr := 0, nClause := 0 } }

theorem exec_safe {s : State} {vn : BitVec 7} (tz : Bool) (h : vn.toNat ≤ 64) :
    exec (.safe vn tz) s = .next (if s.t.small then advance s else if !laneIdle s.g then s else pointMade s vn tz) :=
  congrArg _ (if_neg (Nat.not_lt.2 h))

theorem exec_safe_small {s : State} {vn : BitVec 7} (tz : Bool) (h : vn.toNat ≤ 64) (hs : s.t.small = true) :
    exec (.safe vn tz) s = .next (advance s) := by
  rw [exec_safe tz h, if_pos hs]

theorem exec_safe_idle {s : State} {vn : BitVec 7} (tz : Bool) (h : vn.toNat ≤ 64) (hs : s.t.small = false)
    (hi : laneIdle s.g = true) : exec (.safe vn tz) s = .next (pointMade s vn tz) := by
  simp [exec_safe tz h, hs, hi]

theorem exec_safe_waits {s : State} {vn : BitVec 7} (tz : Bool) (h : vn.toNat ≤ 64) (hs : s.t.small = false)
    (hi : ¬ laneIdle s.g = true) : exec (.safe vn tz) s = .next s := by
  simp [exec_safe tz h, hs, hi]

theorem scalarWaitsAndEnd_hold : Say.scalarWaitsAndEnd := by
  intro s m vn tz
  refine ⟨fun h => ?clear, fun h => ?waits, completes_of_exec rfl rfl, fun hv hs => ?small, fun hv hs ht hq => ?point,
    fun hv hs hb => ?busy⟩
  case clear => exact completes_of_exec (exec_wflag_clear (flagsClear_iff.2 h)) rfl
  case waits =>
    obtain ⟨n, hn, hb, h0⟩ := h
    exact exec_wflag_waits fun hc => h0 (flagsClear_iff.1 hc n hn hb)
  case small => exact completes_of_exec (exec_safe_small tz hv hs) rfl
  case point => exact completes_of_exec (exec_safe_idle tz hv hs (laneIdle_iff.2 ⟨ht, hq⟩)) rfl
  case busy =>
    refine exec_safe_waits tz hv hs fun hi => ?_
    obtain ⟨ht, hq⟩ := laneIdle_iff.1 hi
    simp [ht, hq] at hb

/-- Settles O9: one equation for each outcome of each word, the watched branches of the Pacer being the one thing that a taken
branch writes beside the pc. -/
theorem scalarControl : Obligations.ScalarControl :=
  ⟨⟨scalarBranches_hold, scalarLoop_hold, scalarCallsAndJumps_hold⟩, scalarIssue_hold, scalarWaitsAndEnd_hold⟩

end Sys2Proof.Machine
end

section
/-! SUPPORT. The format M8 (R115 to R119): the values of the payloads, their order in millionths, and the payload that a
rounding chooses. -/

namespace Sys2Proof.Machine

open Sys2Proof

/-! ### Values (R115 to R117) -/

theorem m8Mag_pos (p : Nat) : 0 < (m8Mag p).1 ∧ 0 < (m8Mag p).2 := by
  have two_pow_pos (k : Nat) : 0 < 2 ^ k := Nat.pow_pos (by decide)
  have ten_pow_pos (k : Nat) : 0 < 10 ^ k := Nat.pow_pos (by decide)
  have one_plus_pos (k F : Nat) : 0 < 2 ^ k + 9 * F := Nat.add_pos_left (two_pow_pos k) _
  unfold m8Mag
  dsimp only
  generalize (if p = 0x7F then 0x7E else p) = q
  split
  · exact ⟨Nat.mul_pos (one_plus_pos _ _) (ten_pow_pos _), two_pow_pos _⟩
  · exact ⟨one_plus_pos _ _, Nat.mul_pos (two_pow_pos _) (ten_pow_pos _)⟩

/-- A code with payload p has the magnitude of p under its own sign. -/
theorem m8Val_signed (neg : Bool) {p : Nat} (h0 : 0 < p) (h : p < 128) :
    m8Val (p + if neg then 128 else 0) = .num neg (m8Mag p).1 (m8Mag p).2 := by
  have hnan : (p + if neg then 128 else 0) ≠ 0x80 := by split <;> omega
  have hpayload : (p + if neg then 128 else 0) % 128 = p := by split <;> omega
  have hsign : bit (p + if neg then 128 else 0) 7 = neg := by
    rw [bit, Nat.testBit_eq_decide_div_mod_eq]
    cases neg
    · exact decide_eq_false (by rw [if_neg Bool.false_ne_true]; omega)
    · exact decide_eq_true (by rw [if_pos rfl]; omega)
  rw [m8Val, if_neg hnan, hpayload, if_neg (by omega), hsign]

theorem m8Decades_payload : ∀ r ∈ m8Decades, ∀ i < r.2.1, 0 < r.1 + i ∧ r.1 + i < 128 := by decide

/-- R116: the magnitudes of a decade begin at its first value and rise by its step. -/
theorem m8Mag_decade : ∀ r ∈ m8Decades, ∀ i < r.2.1,
    (m8Mag (r.1 + i)).1 * 1000000 = (m8Mag (r.1 + i)).2 * (r.2.2.1 + i * r.2.2.2) := by decide

theorem m8Val_decade : ∀ r ∈ m8Decades, ∀ i < r.2.1, ∀ neg : Bool,
    ∃ n d, m8Val (r.1 + i + if neg then 128 else 0) = .num neg n d ∧ 0 < d ∧ n * 1000000 = d * (r.2.2.1 + i * r.2.2.2) := by
  intro r hr i hi neg
  obtain ⟨h0, h⟩ := m8Decades_payload r hr i hi
  exact ⟨_, _, m8Val_signed neg h0 h, (m8Mag_pos _).2, m8Mag_decade r hr i hi⟩

/-! ### The order of the values (R118) -/

/-- The magnitude of a payload, with 0x00 as zero: what rounding compares with. -/
def m8Frac (p : Nat) : Nat × Nat := if p = 0 then (0, 1) else m8Mag p

theorem m8Frac_of_pos {p : Nat} (h : 0 < p) : m8Frac p = m8Mag p := if_neg (by omega)

theorem m8Frac_den_pos (p : Nat) : 0 < (m8Frac p).2 := by
  unfold m8Frac
  split
  · exact Nat.one_pos
  · exact (m8Mag_pos p).2

/-- The magnitude of a payload in millionths, the unit in which every payload has a whole number. -/
def m8Millionths (p : Nat) : Nat := (m8Frac p).1 * 1000000 / (m8Frac p).2

theorem m8Frac_eq_millionths : ∀ p < 127, (m8Frac p).1 * 1000000 = (m8Frac p).2 * m8Millionths p := by decide

theorem m8Millionths_lt_succ : ∀ p < 126, m8Millionths p < m8Millionths (p + 1) := by decide

/-- R118: from 0x00 to 0x7E a larger payload has a larger magnitude. -/
theorem m8Millionths_lt {p c : Nat} (hlt : p < c) (hc : c ≤ 126) : m8Millionths p < m8Millionths c := by
  induction hlt with
  | refl => exact m8Millionths_lt_succ p hc
  | @step k _ ih => exact Nat.lt_trans (ih (by omega)) (m8Millionths_lt_succ k hc)

theorem m8Millionths_top : m8Millionths 126 = 100000000000 := by decide

theorem m8Millionths_inj {p c : Nat} (hp : p ≤ 126) (hc : c ≤ 126) (h : m8Millionths p = m8Millionths c) : p = c := by
  rcases Nat.lt_trichotomy p c with hlt | heq | hgt
  · exact absurd h (Nat.ne_of_lt (m8Millionths_lt hlt hc))
  · exact heq
  · exact absurd h.symm (Nat.ne_of_lt (m8Millionths_lt hgt hp))

/-- Two payloads of equal magnitude, compared crosswise as fractions, are the same. -/
theorem m8Frac_inj {p c : Nat} (hp : p ≤ 126) (hc : c ≤ 126)
    (h : (m8Frac p).1 * (m8Frac c).2 = (m8Frac c).1 * (m8Frac p).2) : p = c := by
  have hscaled : (m8Frac p).2 * (m8Frac c).2 * m8Millionths p = (m8Frac p).2 * (m8Frac c).2 * m8Millionths c :=
    calc (m8Frac p).2 * (m8Frac c).2 * m8Millionths p
      _ = (m8Frac p).1 * (m8Frac c).2 * 1000000 := by
        rw [Nat.mul_right_comm, ← m8Frac_eq_millionths p (by omega), Nat.mul_right_comm]
      _ = (m8Frac c).1 * (m8Frac p).2 * 1000000 := by rw [h]
      _ = (m8Frac p).2 * (m8Frac c).2 * m8Millionths c := by
        rw [Nat.mul_assoc (m8Frac p).2, ← m8Frac_eq_millionths c (by omega), ← Nat.mul_assoc, Nat.mul_comm (m8Frac c).1]
  exact m8Millionths_inj hp hc (Nat.eq_of_mul_eq_mul_left (Nat.mul_pos (m8Frac_den_pos p) (m8Frac_den_pos c)) hscaled)

/-! ### The nearest payload (R119) -/

/-- The distance of payload p from n/d. -/
def m8Dist (n d p : Nat) : Nat × Nat := ratDist (m8Frac p).1 (m8Frac p).2 n d

/-- The one of two payloads that rounding keeps: the nearer, or the even later one when they are equally near. -/
def m8Nearer (n d best p : Nat) : Nat :=
  if (m8Dist n d p).1 * (m8Dist n d best).2 < (m8Dist n d best).1 * (m8Dist n d p).2 then p
  else if (m8Dist n d p).1 * (m8Dist n d best).2 = (m8Dist n d best).1 * (m8Dist n d p).2 ∧ p % 2 = 0 then p else best

theorem m8Nearest_eq_foldl (n d : Nat) : m8Nearest n d = (iota 1 126).foldl (m8Nearer n d) 0 := rfl

theorem m8Nearer_eq_or (n d best p : Nat) : m8Nearer n d best p = best ∨ m8Nearer n d best p = p := by
  unfold m8Nearer
  split
  · exact .inr rfl
  · split
    · exact .inr rfl
    · exact .inl rfl

theorem foldl_m8Nearer_mem (n d : Nat) (l : List Nat) (best : Nat) : l.foldl (m8Nearer n d) best ∈ best :: l := by
  induction l generalizing best with
  | nil => exact List.mem_singleton_self best
  | cons x xs ih =>
    rw [List.foldl_cons]
    rcases m8Nearer_eq_or n d best x with h | h <;> rw [h]
    · exact List.cons_subset_cons best (List.subset_cons_self x xs) (ih best)
    · exact List.mem_cons_of_mem best (ih x)

theorem m8Nearest_le (n d : Nat) : m8Nearest n d ≤ 126 := by
  have h := foldl_m8Nearer_mem n d (iota 1 126) 0
  rw [← m8Nearest_eq_foldl, List.mem_cons, mem_iota] at h
  omega

theorem ratDist_eq_zero_iff (a b n d : Nat) : (ratDist a b n d).1 = 0 ↔ a * d = n * b := by
  unfold ratDist
  split <;> omega

theorem m8Dist_den_pos (c p : Nat) : 0 < (m8Dist (m8Frac c).1 (m8Frac c).2 p).2 :=
  Nat.mul_pos (m8Frac_den_pos p) (m8Frac_den_pos c)

section
variable {c : Nat} (hc : c ≤ 126)
include hc

/-- No payload but c itself lies at distance zero from the value of c. -/
theorem m8Dist_eq_zero_iff {p : Nat} (hp : p ≤ 126) : (m8Dist (m8Frac c).1 (m8Frac c).2 p).1 = 0 ↔ p = c := by
  rw [m8Dist, ratDist_eq_zero_iff]
  exact ⟨m8Frac_inj hp hc, fun h => by rw [h]⟩

/-- A payload at distance zero displaces every other. -/
theorem m8Nearer_takes_exact {best : Nat} (hb : best ≤ 126) : m8Nearer (m8Frac c).1 (m8Frac c).2 best c = c := by
  have hself := (m8Dist_eq_zero_iff hc hc).2 rfl
  by_cases h : best = c
  · exact h ▸ (m8Nearer_eq_or _ _ best best).elim id id
  · have hbest := Nat.pos_of_ne_zero fun h0 => h ((m8Dist_eq_zero_iff hc hb).1 h0)
    rw [m8Nearer, hself, Nat.zero_mul, if_pos (Nat.mul_pos hbest (m8Dist_den_pos c c))]

/-- A payload at distance zero is displaced by no other. -/
theorem m8Nearer_keeps_exact {p : Nat} (hp : p ≤ 126) : m8Nearer (m8Frac c).1 (m8Frac c).2 c p = c := by
  have hself := (m8Dist_eq_zero_iff hc hc).2 rfl
  by_cases h : p = c
  · exact h ▸ m8Nearer_takes_exact hc hc
  · have hfar := Nat.pos_of_ne_zero fun h0 => h ((m8Dist_eq_zero_iff hc hp).1 h0)
    have hne := Nat.ne_of_gt (Nat.mul_pos hfar (m8Dist_den_pos c c))
    rw [m8Nearer, hself, Nat.zero_mul, if_neg (Nat.not_lt_zero _), if_neg fun heq => hne heq.1]

/-- The search ends at c when c is among the payloads that it looks at. -/
theorem foldl_m8Nearer_exact (l : List Nat) (best : Nat) (hl : ∀ p ∈ best :: l, p ≤ 126) (hmem : c ∈ best :: l) :
    l.foldl (m8Nearer (m8Frac c).1 (m8Frac c).2) best = c := by
  induction l generalizing best with
  | nil => exact (List.mem_singleton.1 hmem).symm
  | cons x xs ih =>
    simp only [List.forall_mem_cons] at hl
    obtain ⟨hb, hx, hxs⟩ := hl
    rw [List.foldl_cons]
    refine ih _ ?bound ?found
    case bound =>
      refine List.forall_mem_cons.2 ⟨?_, hxs⟩
      rcases m8Nearer_eq_or (m8Frac c).1 (m8Frac c).2 best x with h | h <;> rwa [h]
    case found =>
      rw [List.mem_cons, List.mem_cons] at hmem
      rcases hmem with rfl | rfl | hmem
      · rw [m8Nearer_keeps_exact hc hx]
        exact List.mem_cons_self
      · rw [m8Nearer_takes_exact hc hb]
        exact List.mem_cons_self
      · exact List.mem_cons_of_mem _ hmem

theorem m8Nearest_m8Frac : m8Nearest (m8Frac c).1 (m8Frac c).2 = c := by
  rw [m8Nearest_eq_foldl]
  refine foldl_m8Nearer_exact hc _ _ (fun p hp => ?_) ?_
  · rw [List.mem_cons, mem_iota] at hp
    omega
  · rw [List.mem_cons, mem_iota]
    omega

/-- Only the largest payload reaches 100 000, where rounding saturates. -/
theorem m8Frac_saturated (h : 100000 * (m8Frac c).2 ≤ (m8Frac c).1) : c = 126 := by
  have hscaled : (m8Frac c).2 * m8Millionths 126 ≤ (m8Frac c).2 * m8Millionths c :=
    calc (m8Frac c).2 * m8Millionths 126
      _ = 100000 * (m8Frac c).2 * 1000000 := by rw [m8Millionths_top]; omega
      _ ≤ (m8Frac c).1 * 1000000 := Nat.mul_le_mul_right _ h
      _ = (m8Frac c).2 * m8Millionths c := m8Frac_eq_millionths c (by omega)
  have htop := Nat.le_of_mul_le_mul_left hscaled (m8Frac_den_pos c)
  rcases Nat.lt_or_eq_of_le hc with hlt | heq
  · exact absurd (m8Millionths_lt hlt (Nat.le_refl 126)) (Nat.not_lt.2 htop)
  · exact heq

end

/-! ### Rounding (R117, R119) -/

/-- The payload that a magnitude n/d rounds to (R119). -/
def m8Payload (n d : Nat) : Nat := if 100000 * d ≤ n then 0x7E else m8Nearest n d

theorem roundM8_num (neg : Bool) (n d : Nat) : roundM8 (.num neg n d) =
    if m8Payload n d = 0 then 0 else if neg && decide (n ≠ 0) then 0x80 + m8Payload n d else m8Payload n d := rfl

theorem m8Payload_le (n d : Nat) : m8Payload n d ≤ 126 := by
  unfold m8Payload
  split
  · exact Nat.le_refl _
  · exact m8Nearest_le n d

theorem m8Payload_m8Frac {c : Nat} (hc : c ≤ 126) : m8Payload (m8Frac c).1 (m8Frac c).2 = c := by
  unfold m8Payload
  split
  case isTrue h => exact (m8Frac_saturated hc h).symm
  case isFalse => exact m8Nearest_m8Frac hc

/-- R117: what a rounding writes, and from what. -/
theorem roundM8_codes (v : FVal) :
    roundM8 v < 256 ∧ roundM8 v ≠ 0x7F ∧ roundM8 v ≠ 0xFF ∧ (roundM8 v = 0x80 ↔ ∃ q, v = .nan q) := by
  cases v with
  | nan q =>
    have hcode : roundM8 (.nan q) = 0x80 := rfl
    rw [hcode]
    exact ⟨by decide, by decide, by decide, fun _ => ⟨q, rfl⟩, fun _ => rfl⟩
  | inf neg =>
    have hfinite : ¬ ∃ q, FVal.inf neg = .nan q := fun ⟨_, h⟩ => FVal.noConfusion h
    simp only [hfinite, iff_false]
    cases neg <;> decide
  | num neg n d =>
    have hfinite : ¬ ∃ q, FVal.num neg n d = .nan q := fun ⟨_, h⟩ => FVal.noConfusion h
    have hp := m8Payload_le n d
    simp only [hfinite, iff_false, roundM8_num]
    split
    · decide
    · split <;> omega

theorem roundM8_zero (neg : Bool) : roundM8 (.num neg 0 1) = 0 := by
  have h : m8Payload 0 1 = 0 := m8Payload_m8Frac (c := 0) (Nat.zero_le 126)
  rw [roundM8_num, if_pos h]

theorem roundM8_m8Val_signed (neg : Bool) {p : Nat} (h0 : 0 < p) (h : p ≤ 126) :
    roundM8 (m8Val (p + if neg then 128 else 0)) = p + if neg then 128 else 0 := by
  have hpayload : m8Payload (m8Mag p).1 (m8Mag p).2 = p := m8Frac_of_pos h0 ▸ m8Payload_m8Frac h
  rw [m8Val_signed neg h0 (by omega), roundM8_num, hpayload, if_neg (Nat.ne_of_gt h0),
    decide_eq_true (Nat.ne_of_gt (m8Mag_pos p).1), Bool.and_true]
  split
  · exact Nat.add_comm _ _
  · rfl

theorem roundM8_m8Val {c : Nat} (hc : c < 256) (h7F : c ≠ 0x7F) (hFF : c ≠ 0xFF) : roundM8 (m8Val c) = c := by
  by_cases h0 : c % 128 = 0
  · obtain rfl | rfl : c = 0 ∨ c = 0x80 := by omega
    case inl => exact roundM8_zero false
    case inr => rfl
  · have hsplit : c % 128 + (if decide (128 ≤ c) then 128 else 0) = c := by
      simp only [decide_eq_true_eq]
      split <;> omega
    exact hsplit ▸ roundM8_m8Val_signed (decide (128 ≤ c)) (Nat.pos_of_ne_zero h0) (by omega)

/-- Settles O17: the values are the decades of R116, and since they rise with the payload a code's own payload is the one nearest
to its value. -/
theorem m8ValuesAndRounding : Obligations.M8ValuesAndRounding :=
  ⟨m8Val_decade, rfl, ⟨false, rfl⟩, by decide, by decide, roundM8_codes, fun _ => roundM8_m8Val⟩

end Sys2Proof.Machine
end

section
/-! SUPPORT. The recovery registers of the contexts (R412) stay through every report: the counters, sessions, stops and requests
that reporting writes have numbers below theirs. -/

namespace Sys2Proof.Machine

open Sys2Proof

/-- The supervisor registers from 0x3C00 on, which are the recovery registers of the contexts (R412), read as before. -/
def recoveryKept (s t : State) : Prop := ∀ n, 0x3C00 ≤ n → sysGet t n = sysGet s n

namespace recoveryKept

theorem refl (s : State) : recoveryKept s s := fun _ _ => rfl

theorem trans {s t u : State} (h : recoveryKept s t) (k : recoveryKept t u) : recoveryKept s u :=
  fun n hn => (k n hn).trans (h n hn)

theorem of_sys {s t : State} (h : t.sys = s.sys) : recoveryKept s t := fun n _ => by rw [sysGet, sysGet, h]

theorem ite {c : Prop} [Decidable c] {s t u : State} (h : recoveryKept s t) (k : recoveryKept s u) :
    recoveryKept s (if c then t else u) := by split <;> assumption

theorem foldl {α : Type} {f : State → α → State} (l : List α) (s : State) (h : ∀ x ∈ l, ∀ s, recoveryKept s (f s x)) :
    recoveryKept s (l.foldl f s) := by
  induction l generalizing s with
  | nil => exact refl s
  | cons x r ih =>
    rw [List.forall_mem_cons] at h
    exact (h.1 s).trans (ih (f s x) h.2)

end recoveryKept

/-! ### Changes of one register -/

theorem recovery_sysPut (s : State) {n : Nat} (x : Nat) (h : n < 0x3C00) : recoveryKept s (sysPut s n x) := fun m hm => by
  rw [sysGet_sysPut, if_neg (by omega)]

theorem recovery_sysSetBits (s : State) {n : Nat} (hi lo x : Nat) (h : n < 0x3C00) : recoveryKept s (sysSetBits s n hi lo x) :=
  recovery_sysPut s _ h

theorem recovery_sysSetBit (s : State) {n : Nat} (b : Nat) (x : Bool) (h : n < 0x3C00) : recoveryKept s (sysSetBit s n b x) :=
  recovery_sysPut s _ h

/-! ### Sources and records (R390 to R396) -/

theorem srcDie_lt (src : Nat) : srcDie src < 8 := by
  unfold srcDie
  split <;> omega

/-- What a count may do: the registers of a counter stand below the recovery registers (R407). -/
abbrev CountsKeepRecovery (cnt : Counts) : Prop := ∀ (s : State) (n k : Nat), n < 0x3800 → recoveryKept s (cnt s n k)

section
variable {cnt : Counts} (hc : CountsKeepRecovery cnt)
include hc

theorem recovery_countCoreBy (s : State) {core : Nat} (src : Nat) (c : Option Nat) (k : Nat) (h : core < 256) :
    recoveryKept s (countCoreBy cnt s core src c k) := by
  unfold countCoreBy
  refine .foldl _ _ fun n hn s => hc s n k ?_
  simp only [List.mem_filter, List.mem_map, mem_iota] at hn
  obtain ⟨⟨j, hj, rfl⟩, -⟩ := hn
  unfold rCtrCore; omega

theorem recovery_countDieBy (s : State) {die : Nat} (src : Nat) (c : Option Nat) (k : Nat) (h : die < 8) :
    recoveryKept s (countDieBy cnt s die src c k) := by
  unfold countDieBy
  refine .foldl _ _ fun n hn s => hc s n k ?_
  simp only [List.mem_filter, List.mem_map, mem_iota] at hn
  obtain ⟨⟨j, hj, rfl⟩, -⟩ := hn
  unfold rCtrDie; omega

/-- Session `i` is one of the sixteen of R396. -/
theorem recovery_dropRecBy (s : State) {i : Nat} (r : HeldRec) (h : i < 16) : recoveryKept s (dropRecBy cnt s i r) := by
  have hts : rTs i 5 < 0x3C00 := by unfold rTs; omega
  unfold dropRecBy
  exact ((recovery_sysPut s _ hts).trans (.of_sys rfl)).trans (recovery_countDieBy hc _ _ _ _ (srcDie_lt _))

theorem recovery_pushHeldBy (s : State) {i : Nat} (r : HeldRec) (h : i < 16) : recoveryKept s (pushHeldBy cnt s i r) := by
  unfold pushHeldBy
  exact .ite (recovery_dropRecBy hc s r h) (.of_sys rfl)

theorem recovery_emitBy (s : State) (cls code c src a : Nat) (b holds : Option Nat) :
    recoveryKept s (emitBy cnt s cls code c src a b holds) := by
  have pushed (f : State → Nat → HeldRec) (u : State) : recoveryKept u
      (((iota 0 16).filter (fun i => takes s i cls c src)).foldl (fun u i => pushHeldBy cnt u i (f u i)) u) := by
    refine .foldl _ _ fun i hi u => ?_
    rw [List.mem_filter, mem_iota] at hi
    exact recovery_pushHeldBy hc u _ (by omega)
  have counted (u : State) : recoveryKept u (if src < 256 then countCoreBy cnt u src 0x0E (some c) 1 else u) := by
    split
    case isTrue h => exact recovery_countCoreBy hc u _ _ _ h
    case isFalse => exact .refl u
  have stamped : recoveryKept s (takeStamp s src).2 := .of_sys rfl
  unfold emitBy
  exact .ite (.refl s) (((stamped.trans (pushed _ _)).trans (counted _)).trans (recovery_countDieBy hc _ _ _ _ (srcDie_lt src)))

end

/-! ### Stops and requests (R405, R406, R417) -/

theorem recovery_syncDbg (s : State) {core : Nat} (h : core < 256) : recoveryKept s (syncDbg s core) := by
  have hdbg : rDbg core < 0x3C00 := by unfold rDbg; omega
  unfold syncDbg
  split <;> exact (recovery_sysSetBit s _ _ hdbg).trans (recovery_sysSetBits _ _ _ _ hdbg)

theorem recovery_stopPartBy {cnt : Counts} (hc : CountsKeepRecovery cnt) (s : State) {core : Nat} (part why code : Nat) (h : core < 256) :
    recoveryKept s (stopPartBy cnt s core part why code) := by
  unfold stopPartBy
  refine .ite (.refl s) (.trans ?_ (recovery_emitBy hc _ _ _ _ _ _ _ _))
  exact .trans (.of_sys rfl) (recovery_syncDbg { s with stops := s.stops ++ [⟨core, part, why, code⟩] } h)

theorem recovery_askLarge (s : State) (core : Nat) : recoveryKept s (askLarge s core) := by
  unfold askLarge
  split
  · exact .ite (.of_sys (updT_sys s _ _)) (.refl s)
  · exact .refl s

theorem recovery_preRequest (s : State) {core : Nat} (op : Nat) (h : core < 256) : recoveryKept s (preRequest s core op) := by
  have hpre : rPre core < 0x3C00 := by unfold rPre; omega
  have asked (u : State) : recoveryKept u
      (sysSetBits (sysSetBit { u with pre := u.pre ++ [⟨core, op⟩] } (rPre core) 63 true) (rPre core) 62 61 0) :=
    .trans (.of_sys rfl) ((recovery_sysSetBit { u with pre := u.pre ++ [⟨core, op⟩] } _ _ hpre).trans (recovery_sysSetBits _ _ _ _ hpre))
  unfold preRequest
  exact .ite (.refl s) (.ite (recovery_sysSetBits s _ _ _ hpre) (.trans (.ite (recovery_askLarge s core) (.refl s)) (asked _)))

/-! ### Counters (R407) -/

theorem recovery_ctrWrapBy {cnt : Counts} (hc : CountsKeepRecovery cnt) (s : State) {n : Nat} (hn : n < 0x3800) :
    recoveryKept s (ctrWrapBy cnt s n) := by
  unfold ctrWrapBy
  have hovf := (recovery_sysSetBit s 62 true (n := n) (by omega)).trans
    (.ite (c := bit (sysGet s n) 60) (recovery_emitBy hc _ 0x0B 0 (if bit (sysGet s n) 57 then 0 else bits (sysGet s n) 15 8) (ctrSrc n)
      (ctrJ n + (if ctrIsCore n then 0 else 32)) none none) (.refl _))
  dsimp only
  split
  case isTrue => exact hovf
  case isFalse hcore =>
    have hlt : ctrCore n < 256 := by
      simp only [ctrIsCore, Bool.not_eq_true', decide_eq_false_iff_not, Decidable.not_not] at hcore
      unfold ctrCore; omega
    have hpre : rPre (ctrCore n) < 0x3C00 := by unfold rPre; omega
    refine .trans (hovf.trans (.ite (recovery_stopPartBy hc _ _ _ _ hlt) (.refl _))) (.ite ?_ (.refl _))
    exact .trans (.ite (recovery_sysSetBit _ _ _ hpre) (.refl _)) (recovery_preRequest _ _ hlt)

theorem recovery_bumpN : ∀ fuel, CountsKeepRecovery (bumpN fuel)
  | 0, s, _, _, hn => recovery_sysPut s _ (by omega)
  | fuel + 1, s, n, k, hn =>
    have hput := recovery_sysPut s (n := n + 1) ((sysGet s (n + 1) + k) % 2 ^ 48) (by omega)
    .ite hput (hput.trans (recovery_ctrWrapBy (recovery_bumpN fuel) _ hn))

theorem recovery_countCore (s : State) {core : Nat} (src : Nat) (c : Option Nat) (k : Nat) (h : core < 256) :
    recoveryKept s (countCore s core src c k) := recovery_countCoreBy (recovery_bumpN 64) s src c k h

theorem recovery_countDie (s : State) {die : Nat} (src : Nat) (c : Option Nat) (k : Nat) (h : die < 8) :
    recoveryKept s (countDie s die src c k) := recovery_countDieBy (recovery_bumpN 64) s src c k h

theorem recovery_emit (s : State) (cls code c src a : Nat) (b holds : Option Nat) :
    recoveryKept s (emit s cls code c src a b holds) := recovery_emitBy (recovery_bumpN 64) s cls code c src a b holds

theorem recovery_replay (s : State) (uid kind : Nat) (sp : Space) (addr frag : Nat) (data : List Byte) :
    recoveryKept s (replay s uid kind sp addr frag data) := by
  unfold replay
  split
  case h_1 => exact .refl s
  case h_2 =>
    refine .ite (.refl s) (.trans (.of_sys rfl) (.foldl _ _ fun i hi u => .foldl _ _ fun _ _ u => ?_))
    rw [List.mem_filter, mem_iota] at hi
    exact recovery_pushHeldBy (recovery_bumpN 64) u _ (by omega)

/-! ### Transfers and the package (R6, R7, R9, R10, R18) -/

theorem route_lt {a b d : Nat} (ha : a < 8) (hb : b < 8) (h : d ∈ route a b) : d < 8 := by
  unfold route at h
  split at h
  · simp only [List.mem_singleton] at h; omega
  · split at h <;> simp only [List.mem_cons, List.not_mem_nil, or_false] at h <;> omega

theorem recovery_xfer (s : State) (src dst n : Nat) : recoveryKept s (xfer s src dst n) := by
  have links : recoveryKept s (linkBytes s (srcDie src) (srcDie dst) n) := .foldl _ _ fun d hd u =>
    recovery_countDie u _ _ _ (route_lt (srcDie_lt src) (srcDie_lt dst) ((List.dropLast_sublist _).subset hd))
  exact .ite (.refl s) (links.trans (.of_sys rfl))

theorem homeDie_lt (s : State) (pa : Nat) : homeDie s pa < 4 := by
  unfold homeDie
  split
  · decide
  · exact Nat.xor_lt_two_pow (n := 2) (Nat.mod_lt _ (by decide)) (Nat.mod_lt _ (by decide))

theorem recovery_openSeg (s : State) (pa : Nat) : recoveryKept s (openSeg s pa) := by
  have hdie : rowDie (rowKey s pa) < 8 := by unfold rowDie; omega
  unfold openSeg
  exact .ite (.refl s) (.ite (.refl s) (.trans (.of_sys rfl) (recovery_countDie _ _ _ _ hdie)))

theorem recovery_l2Fill (s : State) (die sec : Nat) : recoveryKept s (l2Fill s die sec) := by
  have room : recoveryKept s (l2Room s die (homeSlice (32 * sec))) := .ite (.refl s) (.ite (.refl s) (.of_sys rfl))
  unfold l2Fill
  exact .trans (.ite room (.refl s)) (.of_sys rfl)

theorem recovery_l2Home (s : State) (c : Option Nat) (sec : Nat) : recoveryKept s (l2Home s c sec) := by
  have hhome : homeDie s (32 * sec) < 8 := Nat.lt_trans (homeDie_lt s _) (by decide)
  unfold l2Home
  exact .ite (recovery_countDie s _ _ _ hhome)
    (((recovery_countDie s _ _ _ hhome).trans (recovery_openSeg _ _)).trans (recovery_l2Fill _ _ _))

theorem recovery_l2Read (s : State) {die : Nat} (c : Option Nat) (sec : Nat) (h : die < 8) : recoveryKept s (l2Read s die c sec) := by
  unfold l2Read
  refine .ite (recovery_l2Home s c sec) (.ite (recovery_countDie s _ _ _ h) ?_)
  exact (((recovery_countDie s _ _ _ h).trans (recovery_l2Home _ _ _)).trans (recovery_xfer _ _ _ _)).trans (recovery_l2Fill _ _ _)

theorem reports_l2Read (s : State) (die : Nat) (c : Option Nat) (sec : Nat) : onlyReports s (l2Read s die c sec) := by
  unfold l2Read
  refine reports_ite (reports_l2Home s c sec) (reports_ite (reports_countDie s _ _ _ _) ?_)
  exact (((reports_countDie s _ _ _ _).trans (reports_l2Home _ _ _)).trans (reports_xfer _ _ _ _)).trans (reports_l2Fill _ _ _)

end Sys2Proof.Machine
end

section
/-! SUPPORT. What the loads and stores of the scalar stream leave alone (R92, R199, R203): the registers of the issuing group, the
core and context it runs in, and the recovery registers. -/

namespace Sys2Proof.Machine

open Sys2Proof

/-- The name of a group and the registers that its two streams read. -/
def registersOf (g : Group) : Group :=
  { uid := g.uid, a := g.a, u := g.u, v := g.v, k := g.k, fl := g.fl, ch := g.ch, chv := g.chv }

/-- The issuing group has the same name and registers, in the same core and context, and the recovery registers read as before. -/
structure registersKept (s t : State) : Prop where
  group : registersOf t.g = registersOf s.g
  core : t.t.core = s.t.core
  ctx : t.l.ctx = s.l.ctx
  recovery : recoveryKept s t

namespace registersKept

theorem refl (s : State) : registersKept s s := ⟨rfl, rfl, rfl, .refl s⟩

theorem trans {s t u : State} (h : registersKept s t) (k : registersKept t u) : registersKept s u :=
  ⟨k.group.trans h.group, k.core.trans h.core, k.ctx.trans h.ctx, h.recovery.trans k.recovery⟩

theorem of_reports {s t : State} (h : onlyReports s t) (hr : recoveryKept s t) : registersKept s t :=
  ⟨congrArg registersOf h.group, h.get (fun x : State => x.t.core), congrArg Launch.ctx h.launch, hr⟩

theorem ite {c : Prop} [Decidable c] {s t u : State} (h : registersKept s t) (k : registersKept s u) :
    registersKept s (if c then t else u) := by split <;> assumption

theorem foldl {α : Type} {f : State → α → State} (h : ∀ s x, registersKept s (f s x)) (l : List α) (s : State) :
    registersKept s (l.foldl f s) := by
  induction l generalizing s with
  | nil => exact refl s
  | cons x r ih => exact (h s x).trans (ih (f s x))

variable {s t : State} (h : registersKept s t)
include h

theorem get {α : Type} (f : Group → α) : f (registersOf t.g) = f (registersOf s.g) := by rw [h.group]
theorem uid : t.g.uid = s.g.uid := h.get (fun g => g.uid)
theorem a : t.g.a = s.g.a := h.get (fun g => g.a)
theorem laneRegs : laneRegsKept s t :=
  ⟨h.get (fun g => g.u), h.get (fun g => g.v), h.get (fun g => g.k), h.get (fun g => g.fl), h.get (fun g => g.ch), h.get (fun g => g.chv)⟩

end registersKept

/-- A change of one group that keeps its name and registers. -/
theorem registers_updG (s : State) (uid : Nat) {f : Group → Group} (hf : ∀ g, registersOf (f g) = registersOf g) :
    registersKept s (updG s uid f) := by
  unfold updG
  exact .ite ⟨hf s.g, rfl, rfl, .of_sys rfl⟩ ⟨rfl, rfl, rfl, .of_sys rfl⟩

theorem registers_mergeObs (s : State) (uid : Nat) (v : V4) : registersKept s (mergeObs s uid v) :=
  registers_updG s uid fun _ => rfl

theorem registers_emit (s : State) (cls code c src a : Nat) (b holds : Option Nat) :
    registersKept s (emit s cls code c src a b holds) := .of_reports (reports_emit s _ _ _ _ _ _ _) (recovery_emit s _ _ _ _ _ _ _)

theorem registers_replay (s : State) (uid kind : Nat) (sp : Space) (addr frag : Nat) (data : List Byte) :
    registersKept s (replay s uid kind sp addr frag data) := .of_reports (reports_replay s _ _ _ _ _ _) (recovery_replay s _ _ _ _ _ _)

theorem registers_xfer (s : State) (src dst n : Nat) : registersKept s (xfer s src dst n) :=
  .of_reports (reports_xfer s _ _ _) (recovery_xfer s _ _ _)

theorem registers_countCore (s : State) {core : Nat} (src : Nat) (c : Option Nat) (k : Nat) (h : core < 256) :
    registersKept s (countCore s core src c k) := .of_reports (reports_countCore s _ _ _ _) (recovery_countCore s _ _ _ h)

/-! ### Loads (R92, R202, R203) -/

theorem registers_fillL1 (s : State) (core die pa key : Nat) : registersKept s (fillL1 s core die pa key) := by
  have room : registersKept s (l1Room s core (pa / 128)) := .ite (.refl s) (.ite (.refl s) ⟨rfl, rfl, rfl, .of_sys rfl⟩)
  unfold fillL1
  split
  · exact .refl s
  · exact room.trans ⟨rfl, rfl, rfl, .of_sys rfl⟩

theorem registers_missSec (s : State) {core : Nat} (c : Option Nat) (a : Acc) (past : Bool) (got : List Nat) (sec : Nat) (h : core < 256) :
    registersKept s (missSec s core c a past got sec) := by
  have hdie : dieOf core < 8 := by unfold dieOf; omega
  have fetched := (registersKept.ite (c := got.contains sec) (.refl s)
    (.of_reports (reports_l2Read s (dieOf core) c sec) (recovery_l2Read s c sec hdie))).trans
    (registers_xfer _ (srcL2 (dieOf core) (homeSlice (32 * sec))) core 32)
  have dropped (u : State) : registersKept u
      (if past then { u with l1 := u.l1.filter (fun x => !(x.core == core && x.pa == sec && x.key == a.key)) } else u) :=
    .ite ⟨rfl, rfl, rfl, .of_sys rfl⟩ (.refl u)
  exact .ite fetched (fetched.trans ((registers_countCore _ _ _ _ h).trans ((dropped _).trans (registers_fillL1 _ _ _ _ _))))

/-- A load that has its bytes has kept the registers. -/
theorem registers_performLoad {s t : State} {uid core : Nat} {a : Acc} {past : Bool} {got : List Nat} {d : List Byte} {v : V4} {pz : Bool}
    (hcore : core < 256) (h : performLoad s uid core a past got = .got d v pz t) : registersKept s t := by
  simp only [performLoad] at h
  split at h
  · cases h
  split at h
  · split at h
    · cases h
    · cases h
      exact (registers_countCore s _ _ _ hcore).trans (.foldl (fun u sec => registers_missSec u _ _ _ _ sec hcore) _ _)
  · cases h
    exact registers_xfer s _ _ _

theorem registers_replaySec (s : State) (uid frag : Nat) (a : Acc) (data : List Byte) : registersKept s (replaySec s uid frag a data) := by
  unfold replaySec
  split
  · exact .refl s
  · refine .ite (.refl s) ?_
    dsimp only
    split
    · refine .ite (.refl s) (.trans (registers_updG s uid ?_) (registers_replay _ _ _ _ _ _ _))
      exact fun _ => rfl
    · refine .trans (registers_updG s uid ?_) (registers_replay _ _ _ _ _ _ _)
      exact fun _ => rfl

theorem registers_replayLoad (s : State) (uid frag : Nat) (a : Acc) (data : List Byte) : registersKept s (replayLoad s uid frag a data) :=
  .foldl (fun u _ => registers_replaySec u _ _ _ _) _ s

/-- A load of a window that has its value: it has read it before, its answer has come, or own stores give every byte (R203, R245). -/
theorem registers_windowRead {s t : State} {a : Acc} {v : Nat} (h : windowRead s a = .got t v) : registersKept s t := by
  unfold windowRead at h
  split at h
  · cases h
    exact .refl _
  · cases hw : s.g.swait with
    | got x =>
      simp only [hw] at h
      cases h
      refine .trans ?_ (registers_replayLoad _ _ _ _ _)
      exact ⟨rfl, rfl, rfl, .of_sys rfl⟩
    | go =>
      simp only [hw] at h
      split at h
      · cases h
        exact registers_replayLoad s _ _ _ _
      · cases h
      · cases h
    | poisoned | failed | remote _ | acq _ | saved _ => simp only [hw, reduceCtorEq] at h

theorem registers_scalarPerform {s t : State} {a : Acc} {v : Nat} (hcore : s.t.core < 256) (h : scalarPerform s a = .got t v) :
    registersKept s t := by
  unfold scalarPerform at h
  extract_lets window at h
  split at h
  · exact registers_windowRead h
  · split at h
    · cases h
    case h_2 u hload =>
      split at h
      · cases h
      · cases h
        exact (registers_performLoad hcore hload).trans ((registers_mergeObs _ _ _).trans (registers_replayLoad _ _ _ _ _))

theorem registers_roastNote (s : State) (core c uid : Nat) (kind : AKind) (va : Nat) : registersKept s (roastNote s core c uid kind va) := by
  unfold roastNote
  refine .ite (.refl s) ?_
  split
  · exact .ite (.refl s) (.ite ⟨rfl, rfl, rfl, .of_sys rfl⟩ ⟨rfl, rfl, rfl, .of_sys rfl⟩)
  · exact .refl s

theorem path_roastNote (s : State) (core c uid : Nat) (kind : AKind) (va : Nat) : (roastNote s core c uid kind va).path = s.path := by
  unfold roastNote
  repeat' split
  all_goals rfl

theorem registers_scalarRead {s t : State} {sp : Space} {ea n v : Nat} (hcore : s.t.core < 256) (h : scalarRead s sp ea n = .got t v) :
    registersKept s t := by
  unfold scalarRead at h
  split at h
  · cases h
  · cases h
  · split at h
    · cases h
    · unfold roasted at h
      split at h
      case h_1 u x hperf =>
        cases h
        exact (registers_scalarPerform hcore hperf).trans (.ite (registers_roastNote u _ _ _ _ _) (.refl u))
      case h_2 hne => exact absurd h (hne _ _)

/-! ### Stores (R92, R199) -/

/-- A global place that passes its checks keeps its address and length. -/
theorem checkAcc_global {s : State} {g c th va n al : Nat} {t : Team} {kind : AKind} {a : Acc}
    (h : checkAcc s g t c th .g kind va n al = .ok a) : a.sp = .g ∧ a.va = va ∧ a.n = n ∧ ∃ pa, a.loc = .mem pa := by
  simp only [checkAcc] at h
  split at h
  · cases h
  · split at h
    · cases h
      exact ⟨rfl, rfl, rfl, _, rfl⟩
    · cases h
    · cases h

theorem registersOf_replayStore (g : Group) (a : Acc) (data : List Byte) : registersOf (replayStore g a data) = registersOf g := by
  unfold replayStore
  split <;> rfl

/-- A store to global memory puts one entry at the end of the store path (R199). -/
theorem storeEnt_global (s : State) {a : Acc} {pa : Nat} (x lop : Nat) (sc : Option Word) (hloc : a.loc = .mem pa) :
    registersKept s (storeEnt s a x lop sc) ∧ ∃ e : PEnt, (storeEnt s a x lop sc).path = s.path ++ [e] ∧
      e.op = .store ∧ e.owner = .group s.g.uid ∧ e.acc = a ∧ e.x = x % 256 ^ a.n := by
  have huid : (registersOf (replayStore s.g a (leBytes a.n x))).uid = (registersOf s.g).uid := by rw [registersOf_replayStore]
  simp only [storeEnt, hloc]
  exact ⟨⟨registersOf_replayStore s.g a _, rfl, rfl, .of_sys rfl⟩, _, rfl, rfl, congrArg Owner.group huid, rfl, rfl⟩

theorem stored_append {s t u : State} {l l' : List (Nat × Nat)} (huid : t.g.uid = s.g.uid) (h : stored s t l) (k : stored t u l') :
    stored s u (l ++ l') := by
  obtain ⟨es, hpath, hes⟩ := h
  obtain ⟨es', hpath', hes'⟩ := k
  exact ⟨es ++ es', by rw [hpath', hpath, List.append_assoc], by rw [List.map_append, List.map_append, hes, hes', huid]⟩

theorem stored_nil {s t : State} (h : t.path = s.path) : stored s t [] := ⟨[], by rw [h, List.append_nil], rfl⟩

/-- A store of 8 bytes of the scalar stream that is made: registers stay, and the store path has grown by that store. -/
theorem scalarWrite_got {s t : State} {ea x v : Nat} (h : scalarWrite s .g (ea % 2 ^ 64) 8 x = .got t v) :
    registersKept s t ∧ stored s t [(ea, x)] := by
  unfold scalarWrite at h
  split at h
  · cases h
  · cases h
  case h_3 a hchk =>
    split at h
    · cases h
    · cases h
      obtain ⟨hsp, hva, hn, pa, hloc⟩ := checkAcc_global hchk
      rw [if_pos rfl]
      have hnote := registers_roastNote s s.t.core s.l.ctx s.g.uid .store (ea % 2 ^ 64)
      obtain ⟨hkept, e, hpath, hop, howner, hacc, hx⟩ :=
        storeEnt_global (roastNote s s.t.core s.l.ctx s.g.uid .store (ea % 2 ^ 64)) x 0 (some s.g.pc) hloc
      refine ⟨hnote.trans hkept, [e], by rw [hpath, path_roastNote], ?_⟩
      have hword : x % 256 ^ 8 = x % 2 ^ 64 := rfl
      simp only [List.map_cons, List.map_nil, hop, howner, hacc, hx, hsp, hva, hn, hnote.uid, hword]

end Sys2Proof.Machine
end

section
/-! SUPPORT. Taking a handled trap (R410, R412, R439): the stores of the frame, and one equation for each way that a trap ends. -/

namespace Sys2Proof.Machine

open Sys2Proof

/-- Frame words that are all stored: registers stay, and the store path has grown by those words in their order. -/
theorem frameStores_got {f : Nat} {l : List (Nat × Nat)} {s t : State} {v : Nat} (h : frameStores s f l = .got t v) :
    registersKept s t ∧ stored s t (l.map fun p => (f + p.1, p.2)) := by
  induction l generalizing s with
  | nil =>
    cases h
    exact ⟨.refl _, stored_nil rfl⟩
  | cons p r ih =>
    obtain ⟨o, x⟩ := p
    simp only [frameStores] at h
    split at h
    case h_1 u _ hwrite =>
      obtain ⟨hkept, hstored⟩ := scalarWrite_got hwrite
      obtain ⟨hkept', hstored'⟩ := ih h
      exact ⟨hkept.trans hkept', stored_append hkept.uid hstored hstored'⟩
    case h_2 hne => exact absurd h (hne t v)

/-- The words of a frame and their offsets (R410). -/
def frameWords (cause resume word : Nat) : List (Nat × Nat) := [(0, resume), (8, cause), (0x10, word), (0x18, 1)]

/-- The delivery's last move, after the stores of its frame: its record, the frame kept with the group, and the handler's address. -/
def delivered (s : State) (f cause : Nat) : State :=
  let t := emit s 0x07 1 s.l.ctx s.t.core (cause % 2 ^ 16) (some (idS s s.g.pc.toNat)) none
  { t with g := { t.g with frame := some f, pc := handlerPc t } }

section
variable {s u v : State} {b x : Nat} {c : FCause} (cause resume word : Nat)

theorem takeTrap_disabled (hen : sysBit s (rRec s.l.ctx 0) 63 = false) :
    takeTrap s cause resume word = trapFatal s .unhandled cause s.g.pc.toNat word := by
  rw [takeTrap, hen, Bool.not_false, if_pos rfl]

section
variable (hen : sysBit s (rRec s.l.ctx 0) 63 = true)
include hen

theorem takeTrap_readFault (hread : scalarRead s .g ((frameAddr s + 0x18) % 2 ^ 64) 8 = .fault u c) :
    takeTrap s cause resume word = trapFatal u .frame cause (frameAddr s) word := by
  simp only [takeTrap, hen, hread, Bool.not_true, Bool.false_eq_true, if_false]

variable (hread : scalarRead s .g ((frameAddr s + 0x18) % 2 ^ 64) 8 = .got u b)
include hread

theorem takeTrap_busy (hb : b = 1) : takeTrap s cause resume word = trapFatal u .doubleTrap cause (frameAddr s) word := by
  simp only [takeTrap, hen, hread, hb, Bool.not_true, Bool.false_eq_true, if_false, if_true]

theorem takeTrap_storeFault (hb : b ≠ 1) (hstores : frameStores u (frameAddr s) (frameWords cause resume word) = .fault v c) :
    takeTrap s cause resume word = trapFatal v .frame cause (frameAddr s) word := by
  rw [frameWords] at hstores
  simp only [takeTrap, hen, hread, hb, hstores, Bool.not_true, Bool.false_eq_true, if_false]

theorem takeTrap_delivered (hb : b ≠ 1) (hstores : frameStores u (frameAddr s) (frameWords cause resume word) = .got v x) :
    takeTrap s cause resume word = delivered v (frameAddr s) cause := by
  rw [frameWords] at hstores
  simp only [takeTrap, hen, hread, hb, hstores, Bool.not_true, Bool.false_eq_true, if_false, delivered]

end
end

/-- The handler's address is read from a recovery register, which the moves before have kept (R412). -/
theorem handlerPc_of_registersKept {s t : State} (h : registersKept s t) : handlerPc t = handlerPc s := by
  have hreg : sysGet t (rRec s.l.ctx 0) = sysGet s (rRec s.l.ctx 0) := h.recovery _ (by unfold rRec; omega)
  rw [handlerPc, handlerPc, h.ctx, sysBits, sysBits, hreg]

theorem delivered_result {s : State} (f cause : Nat) : registersKept s (delivered s f cause) ∧ stored s (delivered s f cause) [] ∧
    (delivered s f cause).g.frame = some f ∧ (delivered s f cause).g.pc = handlerPc s := by
  have hreport := reports_emit s 0x07 1 s.l.ctx s.t.core (cause % 2 ^ 16) (some (idS s s.g.pc.toNat)) none
  have hkept := registers_emit s 0x07 1 s.l.ctx s.t.core (cause % 2 ^ 16) (some (idS s s.g.pc.toNat)) none
  exact ⟨hkept.trans ⟨rfl, rfl, rfl, .of_sys rfl⟩, stored_nil hreport.path, rfl, handlerPc_of_registersKept hkept⟩

/-- R439: what a trap that reaches its handler has done. -/
theorem takeTrap_delivers {s u v : State} {b x : Nat} (cause resume word : Nat) (hcore : s.t.core < 256)
    (hen : sysBit s (rRec s.l.ctx 0) 63 = true) (hread : scalarRead s .g ((frameAddr s + 0x18) % 2 ^ 64) 8 = .got u b) (hb : b ≠ 1)
    (hstores : frameStores u (frameAddr s) (frameWords cause resume word) = .got v x) :
    registersKept s (takeTrap s cause resume word) ∧
    stored u (takeTrap s cause resume word) ((frameWords cause resume word).map fun p => (frameAddr s + p.1, p.2)) ∧
    (takeTrap s cause resume word).g.frame = some (frameAddr s) ∧ (takeTrap s cause resume word).g.pc = handlerPc s := by
  have hkeptU := registers_scalarRead hcore hread
  obtain ⟨hkeptV, hstored⟩ := frameStores_got hstores
  obtain ⟨hkeptT, hrest, hframe, hpc⟩ := delivered_result (s := v) (frameAddr s) cause
  have hkept := hkeptU.trans hkeptV
  rw [takeTrap_delivered cause resume word hen hread hb hstores]
  refine ⟨hkept.trans hkeptT, ?_, hframe, hpc.trans (handlerPc_of_registersKept hkept)⟩
  have := stored_append hkeptV.uid hstored hrest
  rwa [List.append_nil] at this

/-! ### `trap` (R439) -/

theorem exec_trap (s : State) (code : BitVec 20) :
    exec (.trap code) s = .next (takeTrap s (4 + 65536 * code.toNat) (s.g.pc + 4).toNat (encU 0x30 0 code.toNat)) := rfl

theorem encode_trap (code : BitVec 20) : encode (.trap code) = some (32, 0x30 * 2 ^ 26 + code.toNat) := rfl

/-- Settles O12: one equation for each way that a trap ends. A delivery reads the handler's address after its loads, stores and record,
none of which writes a recovery register or a register of the group. -/
theorem handledTrapEntry : Obligations.HandledTrapEntry := by
  intro s cause resume word hcore _
  refine ⟨takeTrap_disabled cause resume word, fun code => ⟨exec_trap s code, encode_trap code⟩,
    fun hen u c hread => takeTrap_readFault cause resume word hen hread, fun hen u b hread => ⟨fun hb => ?busy, fun hb v c hst => ?fault,
      fun hb v x hst => ?delivered⟩⟩
  case busy => exact takeTrap_busy cause resume word hen hread hb
  case fault => exact takeTrap_storeFault cause resume word hen hread hb hst
  case delivered =>
    obtain ⟨hkept, hstored, hframe, hpc⟩ := takeTrap_delivers cause resume word hcore hen hread hb hst
    exact ⟨hstored, hframe, hpc, hkept.a, hkept.laneRegs⟩

end Sys2Proof.Machine
end
